-- ==== Sys2Proof/Word.lean ====
section
/-! DEFINITION. The machine's word, byte and the sparse table type that every table and buffer of the model is kept in. -/

namespace Sys2Proof

/-- A 32-bit word: a host-visible register (10_state R21), the command word, a stream word (00_scope R8 `WORD_BITS`). -/
abbrev Word := BitVec 32

/-- A byte: the addressable unit of `IN` and `OUT` (20_memory R50) and a slot of the flat tree. -/
abbrev Byte := BitVec 8

/-- An array of the spec, kept as the list of its entries that differ from the default value, keys strictly rising
(the operations stand in Machine/Table.lean, log 5). -/
abbrev Table (α : Type) := List (Nat × α)

end Sys2Proof
end

