-- ==== Sys2Proof/Machine/Constants.lean ====
section
/-! DEFINITION. The numeric constants of the block: 00_scope R8 (given by the source), R9 (supplied by the spec, log 23) and the PHASE codes of 10_state R24. -/

namespace Sys2Proof.Machine

/-- `NSYM`, the alphabet size (00_scope R8). -/
def nsym : Nat := 256
/-- `CMD_HUF8`, the command code in the low byte of the command word (00_scope R8). -/
def cmdHuf8 : Word := 0x28#32
/-- `OFFSET_MASK`, the offset field of a node byte (00_scope R8). -/
def offsetMask : Byte := 0x3F#8
/-- `LEAF_SENTINEL`, the mask value of a slot that holds a raw symbol (00_scope R8). -/
def leafSentinel : Byte := 0xFF#8
/-- `MAX_NODES`, the size of the node arena (00_scope R8). -/
def maxNodes : Nat := 511
/-- `MAX_CT_LEN`, the largest flat tree (00_scope R8). -/
def maxCtLen : Nat := 512
/-- `MAX_LEN`, the largest `IN_LEN` ENCODE accepts, `2^24 - 1` (00_scope R10, decision D8). -/
def maxLen : Nat := 2 ^ 24 - 1
/-- `HUF_NEXT`, the largest value of the offset field (00_scope R9). -/
def hufNext : Nat := 0x3F
/-- `LCHAR`, "left child is leaf" (00_scope R9, general knowledge G2, log 23). -/
def lchar : Byte := 0x80#8
/-- `RCHAR`, "right child is leaf" (00_scope R9, general knowledge G3, log 23). -/
def rchar : Byte := 0x40#8
/-- How many entries the work queue of ENC.PACK holds (10_state R35, 43_enc_ctree R152). -/
def queueCap : Nat := 127
/-- The mask of the first bit of a stream word (44_enc_codes_emit R184, 45_dec R204). -/
def topBit : Word := 0x80000000#32

/-- A value of the PHASE register (10_state R24). -/
abbrev Phase := BitVec 5

namespace Phase
/-- no phase -/
def none : Phase := 0#5
def encInit : Phase := 1#5
def encCount : Phase := 2#5
def encPatch : Phase := 3#5
def encLeaves : Phase := 4#5
def encMerge : Phase := 5#5
def encAlloc : Phase := 6#5
def encPack : Phase := 7#5
def encUpdate : Phase := 8#5
def encFinal : Phase := 9#5
def encDerive : Phase := 10#5
def encHdr : Phase := 11#5
def encTreeout : Phase := 12#5
def encEmit : Phase := 13#5
def encDone : Phase := 14#5
def decHdr : Phase := 16#5
def decTree : Phase := 17#5
def decStep : Phase := 18#5
def decDone : Phase := 19#5
end Phase

end Sys2Proof.Machine
end

