-- ==== Sys2Proof/Syntax.lean ====
section
/-! DEFINITION. The operation set: one constructor for each row of spec/opcode_table.json (30_encoding R89). -/

namespace Sys2Proof

/-- The block runs no program (30_encoding R87). Its operations are the four host commands (30_encoding R83), the eighteen
phases of the sequencer (10_state R24) and the five elements of the Huffman payload (30_encoding R70 to R79). -/
inductive Instr where
  /-- `NOP`, `CMD[7:0] = 0` (40_host_commands R101). -/
  | cmdNop
  /-- `ENCODE`, `CMD[7:0] = 1` (40_host_commands R102). -/
  | cmdEncode
  /-- `DECODE`, `CMD[7:0] = 2` (40_host_commands R103). -/
  | cmdDecode
  /-- `CLEAR`, `CMD[7:0] = 3` (40_host_commands R104). -/
  | cmdClear
  /-- `ENC.INIT`, `PHASE = 1` (41_enc_freq R120). -/
  | encInit
  /-- `ENC.COUNT`, `PHASE = 2` (41_enc_freq R121). -/
  | encCount
  /-- `ENC.PATCH`, `PHASE = 3` (41_enc_freq R122). -/
  | encPatch
  /-- `ENC.LEAVES`, `PHASE = 4` (42_enc_tree R130). -/
  | encLeaves
  /-- `ENC.MERGE`, `PHASE = 5` (42_enc_tree R131). -/
  | encMerge
  /-- `ENC.ALLOC`, `PHASE = 6` (43_enc_ctree R150). -/
  | encAlloc
  /-- `ENC.PACK`, `PHASE = 7` (43_enc_ctree R151). -/
  | encPack
  /-- `ENC.UPDATE`, `PHASE = 8` (43_enc_ctree R156). -/
  | encUpdate
  /-- `ENC.FINAL`, `PHASE = 9` (43_enc_ctree R160). -/
  | encFinal
  /-- `ENC.DERIVE`, `PHASE = 10` (44_enc_codes_emit R180). -/
  | encDerive
  /-- `ENC.HDR`, `PHASE = 11` (44_enc_codes_emit R182). -/
  | encHdr
  /-- `ENC.TREEOUT`, `PHASE = 12` (44_enc_codes_emit R183). -/
  | encTreeout
  /-- `ENC.EMIT`, `PHASE = 13` (44_enc_codes_emit R184). -/
  | encEmit
  /-- `ENC.DONE`, `PHASE = 14` (44_enc_codes_emit R185). -/
  | encDone
  /-- `DEC.HDR`, `PHASE = 16` (45_dec R201). -/
  | decHdr
  /-- `DEC.TREE`, `PHASE = 17` (45_dec R202). -/
  | decTree
  /-- `DEC.STEP`, `PHASE = 18` (45_dec R203). -/
  | decStep
  /-- `DEC.DONE`, `PHASE = 19` (45_dec R208). -/
  | decDone
  /-- `CW`, the command word: `LEN[31:8]`, `TYPE[7:4]`, `NBITS[3:0]` (30_encoding R71). -/
  | cw (len : BitVec 24) (kind : BitVec 4) (nbits : BitVec 4)
  /-- `TB.SIZE`, slot 0 of the flat tree (30_encoding R74). -/
  | tbSize (size : BitVec 8)
  /-- `TB.NODE`, an internal node's byte: `LCHAR[7]`, `RCHAR[6]`, `OFFSET[5:0]` (30_encoding R75). -/
  | tbNode (left right : Bool) (offset : BitVec 6)
  /-- `TB.LEAF`, a leaf's byte: the raw symbol (30_encoding R76). -/
  | tbLeaf (symbol : BitVec 8)
  /-- `SW.BIT`, one bit of the stream: 0 left, 1 right (30_encoding R79). -/
  | swBit (bit : Bool)
  deriving DecidableEq, Repr

end Sys2Proof
end

