-- ==== Sys2Proof/WellFormed.lean ====
section
/-! DEFINITION. Which terms of Instr are legal encodings. -/

namespace Sys2Proof

/-- The symbol widths the decoder accepts (30_encoding R73, 45_dec R209). -/
def legalWidth (n : BitVec 4) : Bool := n == 1 || n == 2 || n == 4 || n == 8

/-- A term is well formed when 30_encoding R85 does not call its encoding illegal. Operands are bit fields of their exact
width, so the one check left is the command word's `NBITS`; "Every byte value is a legal tree byte and every bit pattern a
legal stream word: there is no other illegal encoding" (R85). An ill-formed command word still has a meaning: it raises
`UnsupportedWidth` (45_dec R201). -/
def Instr.wellFormed : Instr → Bool
  | .cw _ _ nbits => legalWidth nbits
  | .cmdNop | .cmdEncode | .cmdDecode | .cmdClear => true
  | .encInit | .encCount | .encPatch | .encLeaves | .encMerge | .encAlloc | .encPack | .encUpdate | .encFinal => true
  | .encDerive | .encHdr | .encTreeout | .encEmit | .encDone => true
  | .decHdr | .decTree | .decStep | .decDone => true
  | .tbSize _ | .tbNode _ _ _ | .tbLeaf _ | .swBit _ => true

end Sys2Proof
end

