-- ==== Sys2Proof/Decode.lean ====
section
/-! DEFINITION. The decoder, total on any bytes and rejecting by name, and the encoder written from the same tables (30_encoding R71 to R83, opcode_table.json). -/

namespace Sys2Proof

open Sys2Proof.Machine

/-- The seven kinds of encoding of opcode_table.json (30_encoding R89). Which one a word is read in is given by where it
stands: `CMD`, `PHASE`, or a place of the payload. -/
inductive Format where
  | hostCmd | phase | cw | tbSize | tbNode | tbLeaf | swBit
  deriving DecidableEq, Repr

/-- Why a word is not an operation. -/
inductive Reject where
  /-- A reserved host command code 0x04 .. 0xFF (30_encoding R83): the bus ignores the write, as NOP (40_host_commands R105). -/
  | reservedCommand (code : Byte)
  /-- A PHASE code the table of 10_state R24 calls "none" (0) or "never produced" (15, 20 to 31). -/
  | noPhase (code : Phase)
  /-- Fewer bytes than the format has. -/
  | truncated (f : Format)
  deriving DecidableEq, Repr

/-- The bytes a format takes. A PHASE code and a stream bit are shorter than a byte; each is read from the low bits of one. -/
def Format.size : Format → Nat
  | .hostCmd | .cw => 4
  | .phase | .tbSize | .tbNode | .tbLeaf | .swBit => 1

/-- Byte `k` of a word, as it stands at address `a + k` (20_memory R52): bits `[8k+7 : 8k]`. -/
def byteOf (v : Word) (k : Nat) : Byte := v.extractLsb' (8 * k) 8

/-- The word whose four bytes stand at rising addresses, little-endian (00_scope R14). -/
def wordOf (b0 b1 b2 b3 : Byte) : Word :=
  b0.setWidth 32 ||| b1.setWidth 32 <<< 8 ||| b2.setWidth 32 <<< 16 ||| b3.setWidth 32 <<< 24

/-- `CMD[7:0]` selects the host command; `CMD[31:8]` is ignored (10_state R22, 30_encoding R83). -/
def decodeCommand (v : Word) : Except Reject Instr :=
  match (v.setWidth 8).toNat with
  | 0 => .ok .cmdNop
  | 1 => .ok .cmdEncode
  | 2 => .ok .cmdDecode
  | 3 => .ok .cmdClear
  | _ => .error (.reservedCommand (v.setWidth 8))

/-- The operation a PHASE code stands for (10_state R24). -/
def decodePhase (p : Phase) : Except Reject Instr :=
  match p.toNat with
  | 1 => .ok .encInit
  | 2 => .ok .encCount
  | 3 => .ok .encPatch
  | 4 => .ok .encLeaves
  | 5 => .ok .encMerge
  | 6 => .ok .encAlloc
  | 7 => .ok .encPack
  | 8 => .ok .encUpdate
  | 9 => .ok .encFinal
  | 10 => .ok .encDerive
  | 11 => .ok .encHdr
  | 12 => .ok .encTreeout
  | 13 => .ok .encEmit
  | 14 => .ok .encDone
  | 16 => .ok .decHdr
  | 17 => .ok .decTree
  | 18 => .ok .decStep
  | 19 => .ok .decDone
  | _ => .error (.noPhase p)

/-- The command word's fields (30_encoding R71). -/
def decodeCw (v : Word) : Instr := .cw (v.extractLsb' 8 24) (v.extractLsb' 4 4) (v.extractLsb' 0 4)

/-- An internal node's byte (30_encoding R75). -/
def decodeNode (b : Byte) : Instr := .tbNode (b &&& lchar != 0) (b &&& rchar != 0) (b.extractLsb' 0 6)

/-- The operation the leading bytes spell in the given format, and the bytes after it. -/
def decode (f : Format) (bytes : List Byte) : Except Reject (Instr × List Byte) :=
  match f, bytes with
  | .hostCmd, b0 :: b1 :: b2 :: b3 :: rest => (decodeCommand (wordOf b0 b1 b2 b3)).map (·, rest)
  | .cw, b0 :: b1 :: b2 :: b3 :: rest => .ok (decodeCw (wordOf b0 b1 b2 b3), rest)
  | .phase, b :: rest => (decodePhase (b.setWidth 5)).map (·, rest)
  | .tbSize, b :: rest => .ok (.tbSize b, rest)
  | .tbNode, b :: rest => .ok (decodeNode b, rest)
  | .tbLeaf, b :: rest => .ok (.tbLeaf b, rest)
  | .swBit, b :: rest => .ok (.swBit (b.getLsbD 0), rest)
  | f, _ => .error (.truncated f)

/-! ## The encoder -/

/-- The format an operation is written in. -/
def Instr.format : Instr → Format
  | .cmdNop | .cmdEncode | .cmdDecode | .cmdClear => .hostCmd
  | .encInit | .encCount | .encPatch | .encLeaves | .encMerge | .encAlloc | .encPack | .encUpdate | .encFinal => .phase
  | .encDerive | .encHdr | .encTreeout | .encEmit | .encDone => .phase
  | .decHdr | .decTree | .decStep | .decDone => .phase
  | .cw _ _ _ => .cw
  | .tbSize _ => .tbSize
  | .tbNode _ _ _ => .tbNode
  | .tbLeaf _ => .tbLeaf
  | .swBit _ => .swBit

/-- The command word with the given fields (30_encoding R71). -/
def cwWord (len : BitVec 24) (kind nbits : BitVec 4) : Word :=
  len.setWidth 32 <<< 8 ||| kind.setWidth 32 <<< 4 ||| nbits.setWidth 32

/-- The node byte with the given fields (30_encoding R75). -/
def nodeByte (left right : Bool) (offset : BitVec 6) : Byte :=
  (if left then lchar else 0) ||| (if right then rchar else 0) ||| offset.setWidth 8

/-- The bytes of a word at rising addresses (20_memory R52). -/
def wordBytes (v : Word) : List Byte := [byteOf v 0, byteOf v 1, byteOf v 2, byteOf v 3]

/-- The number of an operation: the value of `CMD`, of `PHASE`, of the command word, of the tree byte or of the bit. -/
def encodeNumber : Instr → Word
  | .cmdNop => 0
  | .cmdEncode => 1
  | .cmdDecode => 2
  | .cmdClear => 3
  | .encInit => Phase.encInit.setWidth 32
  | .encCount => Phase.encCount.setWidth 32
  | .encPatch => Phase.encPatch.setWidth 32
  | .encLeaves => Phase.encLeaves.setWidth 32
  | .encMerge => Phase.encMerge.setWidth 32
  | .encAlloc => Phase.encAlloc.setWidth 32
  | .encPack => Phase.encPack.setWidth 32
  | .encUpdate => Phase.encUpdate.setWidth 32
  | .encFinal => Phase.encFinal.setWidth 32
  | .encDerive => Phase.encDerive.setWidth 32
  | .encHdr => Phase.encHdr.setWidth 32
  | .encTreeout => Phase.encTreeout.setWidth 32
  | .encEmit => Phase.encEmit.setWidth 32
  | .encDone => Phase.encDone.setWidth 32
  | .decHdr => Phase.decHdr.setWidth 32
  | .decTree => Phase.decTree.setWidth 32
  | .decStep => Phase.decStep.setWidth 32
  | .decDone => Phase.decDone.setWidth 32
  | .cw len kind nbits => cwWord len kind nbits
  | .tbSize size => size.setWidth 32
  | .tbNode left right offset => (nodeByte left right offset).setWidth 32
  | .tbLeaf symbol => symbol.setWidth 32
  | .swBit bit => if bit then 1 else 0

/-- The bytes of an operation, in its own format. -/
def encode (i : Instr) : List Byte := (wordBytes (encodeNumber i)).take i.format.size

/-! ## The table's own numbering -/

/-- The instruction whose only result a lookup keeps. -/
def decoded (r : Except Reject (Instr × List Byte)) : Option Instr :=
  match r with
  | .ok (i, _) => some i
  | .error _ => none

/-- The operation that the decoder reads from a number of opcode_table.json of `nbits` bits. The number alone does not say in
which format it is to be read (an ENCODE command and an ENC.INIT phase are both the number 1), so one byte is read as a PHASE
code, else as a host command, and a whole word as a host command, else as a command word (log 16). -/
def decodeTableWord (nbits w : Nat) : Option Instr :=
  let bytes := wordBytes (BitVec.ofNat 32 w)
  if nbits ≤ 8 then
    match decoded (decode .phase (bytes.take 1)) with
    | some i => some i
    | none => decoded (decode .hostCmd bytes)
  else if nbits ≤ 32 then
    match decoded (decode .hostCmd bytes) with
    | some i => some i
    | none => decoded (decode .cw bytes)
  else none

end Sys2Proof
end

