-- ==== Sys2Proof/Config.lean ====
section
/-! DEFINITION. What an implementation fixes (the parameters of 00_scope R10) and the values the spec leaves open, as uninterpreted constants. -/

namespace Sys2Proof

/-- The parameters the spec leaves to the implementation (00_scope R10). `MAX_LEN` is fixed by the length field and is no
parameter (Machine/Constants.lean). -/
structure Params where
  /-- `IN_CAP`, capacity in bytes of `IN`; OPEN, any number. -/
  inCap : Nat
  /-- `OUT_CAP`, capacity in bytes of `OUT`; OPEN, any number. -/
  outCap : Nat
  /-- `FREQ_BITS`, width of a frequency counter and of a node weight; at least 25. -/
  freqBits : Nat
  /-- `UPDATE_MAX_MOVES`, the fuel of ENC.UPDATE; at least 1. -/
  updateMaxMoves : Nat
  /-- `PACK_STACK`, the frames of ENC.PACK's recursion stack; at least 193. -/
  packStack : Nat
  deriving DecidableEq, Repr

/-- The constraints of 00_scope R10 on the parameters. -/
abbrev Params.Legal (P : Params) : Prop := 25 ≤ P.freqBits ∧ 1 ≤ P.updateMaxMoves ∧ 193 ≤ P.packStack

namespace Config

/-- The implementation's `IN_CAP` (log 4). -/
opaque inCap : Nat
/-- The implementation's `OUT_CAP` (log 4). -/
opaque outCap : Nat
/-- By how much the implementation's `FREQ_BITS` exceeds its least legal value 25 (log 4). -/
opaque freqBitsOver : Nat
/-- By how much the implementation's `UPDATE_MAX_MOVES` exceeds its least legal value 1 (log 4). -/
opaque updateMaxMovesOver : Nat
/-- By how much the implementation's `PACK_STACK` exceeds its least legal value 193 (log 4). -/
opaque packStackOver : Nat

/-- The parameters of the implementation that comes out of reset: any legal ones (00_scope R10, log 4). -/
def chip : Params :=
  { inCap := inCap
    outCap := outCap
    freqBits := 25 + freqBitsOver
    updateMaxMoves := 1 + updateMaxMovesOver
    packStack := 193 + packStackOver }

/-- The free values: what the spec calls unspecified (93_implementation_defined 2.2, "any value"). The arguments are the
number of the draw (`State.draws`), which field is drawn, and the index inside that field (logs 7 to 10). -/
opaque free : (draw field index : Nat) → Nat

end Config

end Sys2Proof
end

