-- ==== Sys2Proof/Machine/State.lean ====
section
/-! DEFINITION. The state of the block as plain data: the host-visible registers, the buffers IN and OUT, the internal tables and the working registers of the sequencer (10_state R20 to R36), and State.reset (10_state R39). -/

namespace Sys2Proof.Machine

/-- `STATUS.STATE` (10_state R23). -/
inductive Mode where
  | idle | busy | done | fault
  deriving DecidableEq, Repr

/-- The thirteen fault causes (60_exceptions R250); their numeric codes are `FaultName.code`. -/
inductive FaultName where
  | freqOverflow | nodeNotFound | codeNotFound | codeWorkNotFound | workNotFound
  | codeTreeIOOB | codeMaskIOOB | decompressDataIOOB | bytesToU32Error
  | lengthOverflow | unsupportedWidth | treeUnresolved | outOverflow
  deriving DecidableEq, Repr

/-- `raise F(index, length)` (00_scope R16): a fault with its two diagnostic numbers, before they are cut to 32 bits. -/
structure Raise where
  name : FaultName
  index : Int
  length : Nat
  deriving DecidableEq, Repr

/-- One record of the node arena (10_state R30). `NONE` is `none`. -/
structure Node where
  sym : BitVec 9
  weight : Nat
  leafs : Nat
  dad : Option Nat
  lson : Option Nat
  rson : Option Nat
  deriving DecidableEq, Repr

/-- A node record whose every field is zero or NONE: what an entry of the arena that was never written holds (log 6), and what
an index outside the arena, which no run produces, reads as (log 19). -/
def Node.null : Node := { sym := 0, weight := 0, leafs := 0, dad := none, lson := none, rson := none }

/-- One entry of the codeword table (10_state R32, 30_encoding R81). -/
structure Code where
  valid : Bool
  nbits : Nat
  cw : Table Byte
  deriving DecidableEq, Repr

/-- An entry of the codeword table that is not valid and was never written (log 6). -/
def Code.null : Code := { valid := false, nbits := 0, cw := [] }

/-- One frame of ENC.PACK's recursion stack (10_state R35). `stage` is 0 at entry, 1 while the child packed first is packed, 2
while the other one is; `first` is the first child's leaf-count. -/
structure Frame where
  node : Nat
  p : Nat
  q : Nat
  stage : Nat
  first : Nat
  deriving DecidableEq, Repr

/-- The internal tables (10_state R29 to R32) and the working registers of the sequencer (R33 to R36): everything that the
host can neither read nor write and that is unspecified once a command has ended (R38). -/
structure Work where
  /-- `FREQ[0..255]` (R29). -/
  freq : Table Nat
  /-- `NLEAF` (R29). -/
  nleaf : Nat
  /-- `NODE[0..510]` (R30). -/
  node : Table Node
  /-- `NNODE` (R30). -/
  nnode : Nat
  /-- `CTREE[0..511]` (R31). -/
  ctree : Table Byte
  /-- `CMASK[0..511]` (R31). -/
  cmask : Table Byte
  /-- `CT_LEN` (R31). -/
  ctLen : Nat
  /-- `CODE[0..255]` (R32). -/
  code : Table Code
  /-- `OPOS` (R33). -/
  opos : Nat
  /-- `EPOS` (R33). -/
  epos : Nat
  /-- `EMASK4` (R33). -/
  emask4 : Word
  /-- `WORDPOS` (R33). -/
  wordpos : Nat
  /-- `CWMASK` (R33). -/
  cwmask : Byte
  /-- `CWIDX` (R33). -/
  cwidx : Nat
  /-- `CODEW` (R34). -/
  codew : Word
  /-- `DMASK4` (R34). -/
  dmask4 : Word
  /-- `RPOS` (R34). -/
  rpos : Nat
  /-- `POS` (R34). -/
  pos : Byte
  /-- `NEXT` (R34). -/
  next : Nat
  /-- `ACC` (R34). -/
  acc : Nat
  /-- `NUM_BITS` (R34). -/
  numBits : Nat
  /-- `DLEN` (R34). -/
  dlen : Nat
  /-- ENC.PACK's recursion stack, the newest frame first (R35). -/
  packStack : List Frame
  /-- ENC.PACK's work queue, oldest first (R35); `Rq` is its length. -/
  packQueue : List Nat
  /-- `S`, the dequeue index (R35). -/
  packS : Nat
  /-- `I` of ENC.UPDATE (R36). -/
  upI : Nat
  /-- `INC` (R36). -/
  upInc : Nat
  /-- `N0` (R36). -/
  upN0 : Nat
  /-- `N1` (R36). -/
  upN1 : Nat
  /-- `L0` (R36). -/
  upL0 : Nat
  /-- `L1` (R36). -/
  upL1 : Nat
  /-- the saved tree bytes `t0`, `t1` (R36). -/
  upT0 : Byte
  upT1 : Byte
  /-- the saved mask bytes `m0`, `m1` (R36). -/
  upM0 : Byte
  upM1 : Byte
  /-- `MOVES` (R36). -/
  moves : Nat
  deriving DecidableEq, Repr

/-- The internal state in `State.reset`: the spec leaves it unspecified (10_state R39); the model names zero (log 6). -/
def Work.zero : Work :=
  { freq := [], nleaf := 0, node := [], nnode := 0, ctree := [], cmask := [], ctLen := 0, code := []
    opos := 0, epos := 0, emask4 := 0, wordpos := 0, cwmask := 0, cwidx := 0
    codew := 0, dmask4 := 0, rpos := 0, pos := 0, next := 0, acc := 0, numBits := 0, dlen := 0
    packStack := [], packQueue := [], packS := 0
    upI := 0, upInc := 0, upN0 := 0, upN1 := 0, upL0 := 0, upL1 := 0
    upT0 := 0, upT1 := 0, upM0 := 0, upM1 := 0, moves := 0 }

/-- One act of the host (00_scope R18, 20_memory R50, 70_reset_and_hazards R280). -/
inductive HostAction where
  /-- `WR name value`: one aligned 32-bit write at a byte offset of the register map (10_state R21). -/
  | writeReg (offset value : Word)
  /-- `RD name`: one aligned 32-bit read; the value read goes to `rdData`. -/
  | readReg (offset : Word)
  /-- One byte of `LOAD IN`. -/
  | writeIn (addr : Nat) (b : Byte)
  /-- One byte of `DUMP OUT`; the byte read goes to `rdData`. -/
  | readOut (addr : Nat)
  /-- The reset input asserted (70_reset_and_hazards R280). -/
  | reset
  deriving DecidableEq, Repr

/-- Who moves next (the model's own schedule, log 2). With nothing listed the sequencer moves. -/
inductive Turn where
  /-- The host acts now, whatever the sequencer is at. -/
  | host (a : HostAction)
  /-- The sequencer makes one step before the host's next act. -/
  | sequencer
  /-- `POLL`: the host reads STATUS until `STATE` is not BUSY; the sequencer runs meanwhile (95_test_vectors section 6). -/
  | poll
  deriving DecidableEq, Repr

/-- Why the model's machine stops with a fault. None of these is one of the block's thirteen faults, which are taken (60_exceptions
R262) and never stop the machine. -/
inductive Fault where
  /-- Raised by `HostAction.writeIn` at an address at or beyond `IN_CAP`, which the buffer does not have (20_memory R50). Safe. -/
  | inAddressBeyondCapacity
  /-- Raised by `HostAction.readOut` at an address at or beyond `OUT_CAP`, which the buffer does not have (20_memory R50). Safe. -/
  | outAddressBeyondCapacity
  deriving DecidableEq, Repr

/-- Why the model's machine gives a step no meaning. -/
inductive Refusal where
  /-- Raised by an arm of `exec` whose instruction has no meaning yet; no arm is left so. Safe. -/
  | notModelled (mnemonic : String)
  /-- Raised by a host access to `IN` or `OUT` while BUSY, "a protocol violation whose effect on the data is unspecified; a
  model gives the host no such move" (20_memory R66, 70_reset_and_hazards R288). Safe. -/
  | bufferAccessWhileBusy
  /-- Raised by a register access at an offset that is not aligned or lies outside the map (10_state R21, 93 2.3). Safe. -/
  | noRegister
  /-- Raised by the sequencer when BUSY with a PHASE code that is "never produced" (10_state R24); no run reaches it. Safe. -/
  | phaseNeverProduced
  deriving DecidableEq, Repr

/-- The whole state of the block (10_state R20), and four fields of the model's own: `params`, `turns`, `rdData`, `draws`. -/
structure State where
  /-- `STATUS.STATE` (R23). -/
  mode : Mode
  /-- `STATUS.EOS` (R23). -/
  eos : Bool
  /-- `STATUS.PHASE` (R23, R24). -/
  phase : Phase
  /-- `ERR_CODE[7:0]` (R25). -/
  errCode : Byte
  /-- `ERR_INDEX` (R25). -/
  errIndex : Word
  /-- `ERR_LEN` (R25). -/
  errLen : Word
  /-- `IN_LEN` (R26). -/
  inLen : Word
  /-- `OUT_LEN` (R27). -/
  outLen : Word
  /-- `WPOS` (R28, R34). -/
  wpos : Word
  /-- The buffer `IN` (20_memory R50), cells (address, byte). -/
  inBuf : List Host.Cell
  /-- The buffer `OUT` (20_memory R50). -/
  outBuf : List Host.Cell
  /-- The internal tables and working registers (R29 to R36). -/
  work : Work
  /-- The implementation's parameters (00_scope R10, log 4); no step writes them. -/
  params : Params
  /-- What the host does next, and when (log 2). -/
  turns : List Turn
  /-- What the host's last read returned (log 30). -/
  rdData : Word
  /-- How many free values have been drawn (logs 7 to 10). -/
  draws : Nat
  deriving DecidableEq, Repr

/-- The block right after reset (10_state R39, 70_reset_and_hazards R280): every host-visible register 0, STATE IDLE. The
buffers and the internal state, which the spec leaves unspecified, are all zero here (logs 5 and 6). -/
def State.reset : State :=
  { mode := .idle, eos := false, phase := 0#5, errCode := 0, errIndex := 0, errLen := 0
    inLen := 0, outLen := 0, wpos := 0, inBuf := [], outBuf := [], work := Work.zero
    params := Config.chip, turns := [], rdData := 0, draws := 0 }

end Sys2Proof.Machine
end

