-- ==== Sys2Proof/Machine/Table.lean ====
section
/-! DEFINITION. The operations on sparse tables: the one way in which every array and buffer of the block is read and written. -/

namespace Sys2Proof.Machine

variable {α : Type}

/-- The entry at key `a`; an unlisted key reads as the default. -/
def Table.get (dflt : α) : Table α → Nat → α
  | [], _ => dflt
  | (b, w) :: t, a => if a = b then w else Table.get dflt t a

/-- The table without the entry at key `a`. -/
def Table.erase (t : Table α) (a : Nat) : Table α := t.filter (fun c => c.1 != a)

/-- An entry put in its place, before the first greater key. -/
def Table.insert (a : Nat) (v : α) : Table α → Table α
  | [] => [(a, v)]
  | (b, w) :: t => if a < b then (a, v) :: (b, w) :: t else (b, w) :: Table.insert a v t

/-- The write of one entry. Writing the default value removes the entry, so that equal tables are equal lists. -/
def Table.set [DecidableEq α] (dflt : α) (t : Table α) (a : Nat) (v : α) : Table α :=
  if v = dflt then Table.erase t a else Table.insert a v (Table.erase t a)

/-- The table with every entry below `n` at its default. -/
def Table.clearBelow (n : Nat) (t : Table α) : Table α := t.filter (fun c => n ≤ c.1)

/-- The entries of `t` below `n` and those of `u` from `n` on. -/
def Table.splice (n : Nat) (t u : Table α) : Table α := t.filter (fun c => c.1 < n) ++ Table.clearBelow n u

/-- The table of the `n` entries `f 0 .. f (n-1)`. -/
def Table.ofFn [DecidableEq α] (dflt : α) (n : Nat) (f : Nat → α) : Table α :=
  (List.range n).filterMap (fun a => if f a = dflt then none else some (a, f a))

/-- The canonical form: keys strictly rising, no entry equal to the default. -/
abbrev Table.Canonical (dflt : α) (t : Table α) : Prop :=
  t.Pairwise (fun x y => x.1 < y.1) ∧ ∀ c ∈ t, c.2 ≠ dflt

/-- Every listed key lies below `n`. -/
abbrev Table.Below (n : Nat) (t : Table α) : Prop := ∀ c ∈ t, c.1 < n

/-- The canonical form of a buffer: addresses strictly rising, no entry equal to what an unlisted address reads as. -/
abbrev Memory.wf (m : Table Byte) : Prop := Table.Canonical (0 : Byte) m

end Sys2Proof.Machine
end

