-- ==== Sys2Proof/Machine/Operands.lean ====
section
/-! DEFINITION. Operand assembly (30_encoding R88): tree slots, sizes, stream and codeword bits, and the reads of the tables by the operands. -/

namespace Sys2Proof.Machine

/-! ## Memory primitives (00_scope R14) -/

/-- `MemRead(S, a, 1)`. -/
def memRead1 (m : Table Byte) (a : Nat) : Byte := Table.get (0 : Byte) m a

/-- `MemRead(S, a, 4)`, little-endian (20_memory R52); no alignment is needed (R55). -/
def memRead4 (m : Table Byte) (a : Nat) : Word :=
  wordOf (memRead1 m a) (memRead1 m (a + 1)) (memRead1 m (a + 2)) (memRead1 m (a + 3))

/-- `MemWrite(S, a, 1, b)`. -/
def memWrite1 (m : Table Byte) (a : Nat) (b : Byte) : Table Byte := Table.set (0 : Byte) m a b

/-- `MemWrite(S, a, n, v)`: the `n` low bytes of `v`, little-endian. -/
def memWrite (m : Table Byte) (a n : Nat) (v : Word) : Table Byte :=
  (List.range n).foldl (fun m k => memWrite1 m (a + k) (byteOf v k)) m

/-! ## The flat tree (30_encoding R74, R75, R77) -/

/-- The size byte of a tree of `n` leaves: `(n - 1) | 1` (R74). -/
def sizeByteOf (n : Nat) : Nat := (n - 1) ||| 1

/-- The tree's length for a size byte: `2 * (b + 1)` (R74). -/
def treeLen (b : Nat) : Nat := 2 * (b + 1)

/-- `OFFSET`, the low six bits of a node byte (R75). -/
def offsetOf (b : Byte) : Nat := (b &&& offsetMask).toNat

/-- The pair base of a slot: the slot with bit 0 cleared (00_scope R19). -/
def pairBase (x : Nat) : Nat := x - x % 2

/-- How many slots further the children's pair lies for an offset field: zero-extended, incremented and doubled (R88). -/
def pairDistance (offset : Nat) : Nat := 2 * (offset + 1)

/-- The slot of the left child of the node whose byte `b` is at slot `x` (R77). -/
def leftChild (x : Nat) (b : Byte) : Nat := pairBase x + pairDistance (offsetOf b)

/-! ## The command word (30_encoding R71, R72) -/

/-- The command word the encoder writes: `0x28 | (IN_LEN << 8)` (44_enc_codes_emit R182). -/
def commandWord (inLen : Word) : Word := cmdHuf8 ||| inLen <<< 8

/-- `LEN` of a command word: `word[31:8]` (R73). -/
def cwLen (h : Word) : BitVec 24 := h.extractLsb' 8 24

/-- `TYPE` of a command word: `word[7:4]` (R71). -/
def cwKind (h : Word) : BitVec 4 := h.extractLsb' 4 4

/-- `NBITS` of a command word: `word[3:0]` (R73). -/
def cwNbits (h : Word) : BitVec 4 := h.extractLsb' 0 4

/-! ## Tables -/

/-- `FREQ[s]`. -/
def Work.freqAt (w : Work) (s : Nat) : Nat := Table.get 0 w.freq s

/-- `NODE[i]`; an index outside the arena, which no run produces (20_memory R60), reads the null node (log 19). -/
def Work.nodeAt (w : Work) (i : Nat) : Node := Table.get Node.null w.node i

/-- The index a link holds; NONE, which is followed by no run (42_enc_tree R135), is an index outside the arena (log 19). -/
def linkIndex (o : Option Nat) : Nat := o.getD maxNodes

/-- The left child of node `i`. -/
def Work.leftOf (w : Work) (i : Nat) : Nat := linkIndex (w.nodeAt i).lson

/-- The right child of node `i`. -/
def Work.rightOf (w : Work) (i : Nat) : Nat := linkIndex (w.nodeAt i).rson

/-- The leaf-count of node `i`. -/
def Work.leafsOf (w : Work) (i : Nat) : Nat := (w.nodeAt i).leafs

/-- `CTREE[i]`, unchecked (the checked primitive is `treeRead`). -/
def Work.slot (w : Work) (i : Nat) : Byte := Table.get (0 : Byte) w.ctree i

/-- `CMASK[i]`, unchecked (the checked primitive is `maskRead`). -/
def Work.maskSlot (w : Work) (i : Nat) : Byte := Table.get (0 : Byte) w.cmask i

/-- `CODE[b]`, indexed by a byte value (20_memory R60). -/
def Work.codeAt (w : Work) (b : Byte) : Code := Table.get Code.null w.code b.toNat

/-- `Rq`, the enqueue count of the work queue (10_state R35): its length. -/
def Work.packRq (w : Work) : Nat := w.packQueue.length

/-! ## Bits -/

/-- The bit of the codeword that `CWIDX` and `CWMASK` select (44_enc_codes_emit R184). -/
def codewordBit (c : Code) (idx : Nat) (mask : Byte) : Bool := Table.get (0 : Byte) c.cw idx &&& mask != 0

/-- Bit `k` of a codeword, root side first: bit `7 - (k mod 8)` of `cw[k div 8]` (30_encoding R81). -/
def Code.bit (c : Code) (k : Nat) : Bool := (Table.get (0 : Byte) c.cw (k / 8)).getLsbD (7 - k % 8)

/-- The stream bit `DMASK4` selects (45_dec R205): 0 left, 1 right. -/
def Work.streamBit (w : Work) : Bool := w.codew &&& w.dmask4 != 0

end Sys2Proof.Machine
end

