-- ==== Sys2Proof/Machine/Flags.lean ====
section
/-! DEFINITION. Flags and codes: STATUS and its fields (10_state R23), the fault codes (60_exceptions R250), the leaf flags of a node (30_encoding R75, R82), and when a command is accepted (40_host_commands R100). -/

namespace Sys2Proof.Machine

/-- The code of `STATE` in `STATUS[1:0]` (10_state R23). -/
def Mode.code : Mode → BitVec 2
  | .idle => 0
  | .busy => 1
  | .done => 2
  | .fault => 3

/-- `STATUS` as a word: `STATE` in bits 1:0, `EOS` in bit 2, `PHASE` in bits 12:8, the other bits 0 (10_state R23). -/
def statusWord (mode : Mode) (eos : Bool) (phase : Phase) : Word :=
  mode.code.setWidth 32 ||| (if eos then 4#32 else 0#32) ||| phase.setWidth 32 <<< 8

/-- `ERR_CODE` of a fault (60_exceptions R250). -/
def FaultName.code : FaultName → Byte
  | .freqOverflow => 1
  | .nodeNotFound => 2
  | .codeNotFound => 3
  | .codeWorkNotFound => 4
  | .workNotFound => 5
  | .codeTreeIOOB => 6
  | .codeMaskIOOB => 7
  | .decompressDataIOOB => 8
  | .bytesToU32Error => 9
  | .lengthOverflow => 10
  | .unsupportedWidth => 11
  | .treeUnresolved => 12
  | .outOverflow => 13

/-- A diagnostic number as its register holds it: modulo 2^32, a negative one as 0xFFFFFFFF (60_exceptions R251). -/
def diagnostic (n : Int) : Word := if n < 0 then 0xFFFFFFFF#32 else BitVec.ofNat 32 n.toNat

/-- The leaf-presence mask of an internal node: `LCHAR` when its left child is a leaf, `RCHAR` when its right child is
(43_enc_ctree R152, R153). -/
def Work.leafFlags (w : Work) (i : Nat) : Byte :=
  (if w.leafsOf (w.leftOf i) = 1 then lchar else 0) ||| (if w.leafsOf (w.rightOf i) = 1 then rchar else 0)

/-- Whether the child that a stream bit selects is a leaf, by the flags of the node stood on (45_dec R205). -/
def childIsLeaf (b : Byte) (bit : Bool) : Bool := if bit then b &&& rchar != 0 else b &&& lchar != 0

/-- ENCODE and DECODE are accepted in IDLE and DONE (40_host_commands R100). -/
def Mode.acceptsRun : Mode → Bool
  | .idle | .done => true
  | .busy | .fault => false

/-- CLEAR is accepted in every state but BUSY (40_host_commands R100). -/
def Mode.acceptsClear : Mode → Bool
  | .idle | .done | .fault => true
  | .busy => false

end Sys2Proof.Machine
end

