-- ==== Sys2Proof/Machine/Ops.lean ====
section
/-! DEFINITION. The shared operations: raise, the checked table primitives (00_scope R15), fault entry and the return from it (60_exceptions R262, R264), command start and end, and the advance of the sequencer. -/

namespace Sys2Proof.Machine

/-- What a step of the block answers. -/
abbrev Answer := Host.Outcome State Fault Refusal

/-- `raise F(index, length)`: nothing after it executes (00_scope R16). -/
def raise {α : Type} (name : FaultName) (index : Int) (length : Nat) : Except Raise α := .error ⟨name, index, length⟩

/-! ## The table primitives of the encoder (00_scope R15) -/

/-- `TreeRead(i)`. -/
def treeRead (w : Work) (i : Int) : Except Raise Byte :=
  if i < 0 ∨ (w.ctLen : Int) ≤ i then raise .codeTreeIOOB i w.ctLen else .ok (w.slot i.toNat)

/-- `TreeWrite(i, v)`: the index check precedes the value check (60_exceptions R254). -/
def treeWrite (w : Work) (i v : Int) : Except Raise Work :=
  if i < 0 ∨ (w.ctLen : Int) ≤ i then raise .codeTreeIOOB i w.ctLen
  else if v < 0 ∨ 255 < v then raise .treeUnresolved i w.ctLen
  else .ok { w with ctree := Table.set (0 : Byte) w.ctree i.toNat (BitVec.ofNat 8 v.toNat) }

/-- `MaskRead(i)`. -/
def maskRead (w : Work) (i : Int) : Except Raise Byte :=
  if i < 0 ∨ (w.ctLen : Int) ≤ i then raise .codeMaskIOOB i w.ctLen else .ok (w.maskSlot i.toNat)

/-- `MaskWrite(i, v)`. -/
def maskWrite (w : Work) (i : Int) (v : Byte) : Except Raise Work :=
  if i < 0 ∨ (w.ctLen : Int) ≤ i then raise .codeMaskIOOB i w.ctLen
  else .ok { w with cmask := Table.set (0 : Byte) w.cmask i.toNat v }

/-- `Append(n, v)` on the encoder's registers and `OUT` (44_enc_codes_emit R179). -/
def append (P : Params) (n : Nat) (v : Word) (x : Work × Table Byte) : Except Raise (Work × Table Byte) :=
  if P.outCap < x.1.opos + n then raise .outOverflow ((x.1.opos + n : Nat) - 1) P.outCap
  else .ok ({ x.1 with opos := x.1.opos + n }, memWrite x.2 x.1.opos n v)

/-! ## Unspecified contents (93_implementation_defined 2.2): free values -/

/-- A free value below `n`. -/
def freeBelow (draw field index n : Nat) : Nat := Config.free draw field index % n

/-- A free bit vector. -/
def freeBits (w draw field index : Nat) : BitVec w := BitVec.ofNat w (Config.free draw field index)

/-- A free link of a node: NONE or an index of the arena. -/
def freeLink (draw field index : Nat) : Option Nat :=
  let k := freeBelow draw field index (maxNodes + 1)
  if k = maxNodes then none else some k

/-- A buffer of `cap` bytes of unspecified contents. -/
def freeBuffer (draw field cap : Nat) : Table Byte := Table.ofFn (0 : Byte) cap (fun a => freeBits 8 draw field a)

/-- A node record of unspecified contents. -/
def freeNode (P : Params) (draw index : Nat) : Node :=
  { sym := freeBits 9 draw 4 index
    weight := freeBelow draw 5 index (2 ^ P.freqBits)
    leafs := freeBelow draw 6 index (2 ^ 9)
    dad := freeLink draw 7 index
    lson := freeLink draw 8 index
    rson := freeLink draw 9 index }

/-- A codeword entry of unspecified contents. -/
def freeCode (draw index : Nat) : Code :=
  { valid := Config.free draw 10 index % 2 = 1
    nbits := freeBelow draw 11 index (2 ^ 8)
    cw := Table.ofFn (0 : Byte) 32 (fun k => freeBits 8 draw 12 (32 * index + k)) }

/-- A stack frame of unspecified contents. -/
def freeFrame (draw index : Nat) : Frame :=
  { node := freeBelow draw 13 index maxNodes
    p := freeBelow draw 14 index maxCtLen
    q := freeBelow draw 15 index maxCtLen
    stage := freeBelow draw 16 index 3
    first := freeBelow draw 17 index (2 ^ 9) }

/-- The internal tables and working registers with unspecified contents, each within its width (10_state R38, R39). -/
def Work.unspecified (P : Params) (draw : Nat) : Work :=
  { freq := Table.ofFn 0 nsym (fun s => freeBelow draw 2 s (2 ^ P.freqBits))
    nleaf := freeBelow draw 20 0 (nsym + 1)
    node := Table.ofFn Node.null maxNodes (fun i => freeNode P draw i)
    nnode := freeBelow draw 20 1 (maxNodes + 1)
    ctree := freeBuffer draw 18 maxCtLen
    cmask := freeBuffer draw 19 maxCtLen
    ctLen := freeBelow draw 20 2 (maxCtLen + 1)
    code := Table.ofFn Code.null nsym (fun s => freeCode draw s)
    opos := freeBelow draw 20 3 (2 ^ 32)
    epos := freeBelow draw 20 4 (2 ^ 32)
    emask4 := freeBits 32 draw 20 5
    wordpos := freeBelow draw 20 6 (2 ^ 32)
    cwmask := freeBits 8 draw 20 7
    cwidx := freeBelow draw 20 8 (2 ^ 5)
    codew := freeBits 32 draw 20 9
    dmask4 := freeBits 32 draw 20 10
    rpos := freeBelow draw 20 11 (2 ^ 32)
    pos := freeBits 8 draw 20 12
    next := freeBelow draw 20 13 (2 ^ 16)
    acc := freeBelow draw 20 14 (2 ^ 3)
    numBits := freeBelow draw 20 15 (2 ^ 4)
    dlen := freeBelow draw 20 16 (2 ^ 24)
    packStack := (List.range (freeBelow draw 20 17 (P.packStack + 1))).map (freeFrame draw)
    packQueue := (List.range (freeBelow draw 20 18 (queueCap + 1))).map (fun k => freeBelow draw 21 k maxNodes)
    packS := freeBelow draw 20 19 (queueCap + 1)
    upI := Config.free draw 20 20
    upInc := Config.free draw 20 21
    upN0 := Config.free draw 20 22
    upN1 := Config.free draw 20 23
    upL0 := Config.free draw 20 24
    upL1 := Config.free draw 20 25
    upT0 := freeBits 8 draw 20 26
    upT1 := freeBits 8 draw 20 27
    upM0 := freeBits 8 draw 20 28
    upM1 := freeBits 8 draw 20 29
    moves := Config.free draw 20 30 }

/-- `OUT` with unspecified contents. -/
def freeOut (P : Params) (draw : Nat) : Table Byte := freeBuffer draw 0 P.outCap

/-- `IN` with unspecified contents. -/
def freeIn (P : Params) (draw : Nat) : Table Byte := freeBuffer draw 1 P.inCap

/-! ## Fault entry and return (60_exceptions R262, R264) -/

/-- Fault entry: the record is written, `OUT_LEN`, `WPOS` and `EOS` are zeroed, `STATE` becomes FAULT and `PHASE` keeps the code
of the phase that raised; `IN` and `IN_LEN` are unchanged, and what `OUT` and the internal tables hold is unspecified (R262). -/
def State.takeFault (s : State) (r : Raise) : State :=
  { s with
    errCode := r.name.code
    errIndex := diagnostic r.index
    errLen := diagnostic r.length
    outLen := 0
    wpos := 0
    eos := false
    mode := .fault
    outBuf := freeOut s.params s.draws
    work := Work.unspecified s.params s.draws
    draws := s.draws + 1 }

/-- The effect of an accepted CLEAR, the only return from FAULT (40_host_commands R104, 60_exceptions R264). -/
def State.clear (s : State) : State :=
  { s with
    mode := .idle
    eos := false
    phase := Phase.none
    errCode := 0
    errIndex := 0
    errLen := 0
    outLen := 0
    wpos := 0 }

/-- The reset input (70_reset_and_hazards R280): every host-visible register to its reset value of 10_state R39, the buffers and
the internal state unspecified, a running command abandoned without trace. -/
def State.resetInput (s : State) : State :=
  { s.clear with
    inLen := 0
    inBuf := freeIn s.params s.draws
    outBuf := freeOut s.params s.draws
    work := Work.unspecified s.params s.draws
    draws := s.draws + 1 }

/-! ## The start and the end of a command -/

/-- What an accepted ENCODE or DECODE writes before its checks (40_host_commands R102, R103). -/
def State.startCommand (s : State) (first : Phase) : State :=
  { s with
    mode := .busy
    eos := false
    outLen := 0
    wpos := 0
    errCode := 0
    errIndex := 0
    errLen := 0
    phase := first }

/-- The end of a command with `n` valid bytes in `OUT` (44_enc_codes_emit R185, 45_dec R208). `PHASE` stays; what the internal
state and the rest of `OUT` hold is unspecified (10_state R38, 93_implementation_defined 2.2, log 9). -/
def State.finish (s : State) (n : Word) : State :=
  { s with
    outLen := n
    mode := .done
    outBuf := Table.splice n.toNat s.outBuf (freeOut s.params s.draws)
    work := Work.unspecified s.params s.draws
    draws := s.draws + 1 }

/-! ## The advance of the sequencer (40_host_commands R106, R107) -/

/-- The result of a phase that reads or writes only the internal state. -/
def State.onWork (s : State) (r : Except Raise Work) : Except Raise State :=
  match r with
  | .ok w => .ok { s with work := w }
  | .error e => .error e

/-- The result of a phase that also writes `OUT`. -/
def State.onOut (s : State) (r : Except Raise (Work × Table Byte)) : Except Raise State :=
  match r with
  | .ok x => .ok { s with work := x.1, outBuf := x.2 }
  | .error e => .error e

/-- The end of a phase begun in `s`: the next phase starts, or the fault is taken. -/
def State.settle (s : State) (next : State → Phase) (r : Except Raise State) : Answer :=
  .next (match r with
    | .ok t => { t with phase := next t }
    | .error e => s.takeFault e)

end Sys2Proof.Machine
end

