-- ==== Sys2Proof/Machine/Ctree.lean ====
section
/-! DEFINITION. The code-tree serializer: ENC.ALLOC, ENC.PACK, ENC.UPDATE, ENC.FINAL (43_enc_ctree R150 to R160). -/

namespace Sys2Proof.Machine

/-! ## ENC.ALLOC -/

/-- The flat buffers sized, zero-filled, and the size byte stored (R150). -/
def allocTree (w : Work) : Work :=
  { w with
    ctLen := treeLen (sizeByteOf w.nleaf)
    ctree := Table.set (0 : Byte) (Table.clearBelow (treeLen (sizeByteOf w.nleaf)) w.ctree) 0 (BitVec.ofNat 8 (sizeByteOf w.nleaf))
    cmask := Table.clearBelow (treeLen (sizeByteOf w.nleaf)) w.cmask }

/-- `ENC.ALLOC` (R150). -/
def execEncAlloc (s : State) : Answer := s.settle (fun _ => Phase.encPack) (s.onWork (.ok (allocTree s.work)))

/-! ## ENC.PACK -/

/-- Node `m` written at `slot` as a leaf or as an internal node with the given offset (R152, R153). -/
def writeNode (w : Work) (m slot offset : Nat) : Except Raise Work :=
  if w.leafsOf m = 1 then do
    let w ← treeWrite w slot (w.nodeAt m).sym.toNat
    maskWrite w slot leafSentinel
  else do
    let f := w.leafFlags m
    let w ← treeWrite w slot offset
    maskWrite w slot f

/-- The dequeue loop of PACK_BFS (R152). `room` is 127 less the number of nodes dequeued so far: with a node waiting and no room
left `WorkNotFound` is raised. -/
def bfsLoop : Nat → Nat → Nat → Work → Except Raise Work
  | 0, _, _, w =>
    if w.packS < w.packRq then raise .workNotFound w.packS queueCap else .ok w
  | room + 1, p, q, w =>
    if w.packS < w.packRq then
      let m := w.packQueue.getD w.packS 0
      let w1 := { w with packS := w.packS + 1 }
      let slot := if w.packS = 0 then p else q
      let q' := if w.packS = 0 then q else q + 1
      match writeNode w1 m slot ((w1.packRq - w1.packS) / 2) with
      | .error e => .error e
      | .ok w2 =>
        if w.leafsOf m = 1 then bfsLoop room p q' w2
        else bfsLoop room p q' { w2 with packQueue := w2.packQueue ++ [w.leftOf m, w.rightOf m] }
    else .ok w

/-- `PACK_BFS(n, p, q)` (R152). -/
def packBfs (n p q : Nat) (w : Work) : Except Raise Work := bfsLoop queueCap p q { w with packQueue := [n], packS := 0 }

/-- A frame pushed at a call of PACK (10_state R35). -/
def Work.pushFrame (w : Work) (n p q : Nat) : Work :=
  { w with packStack := { node := n, p := p, q := q, stage := 0, first := 0 } :: w.packStack }

/-- The newest frame at a stage, with the first child's leaf-count. -/
def Work.setStage (w : Work) (stage first : Nat) : Work :=
  { w with packStack := match w.packStack with
      | f :: rest => { f with stage := stage, first := first } :: rest
      | [] => [] }

/-- The first child's leaf-count in the newest frame. -/
def Work.firstCount (w : Work) : Nat :=
  match w.packStack with
  | f :: _ => f.first
  | [] => 0

/-- The newest frame dropped at a return. -/
def Work.popFrame (w : Work) : Work := { w with packStack := w.packStack.tail }

/-- `PACK(n, p, q)` (R151), `PACK_SPLIT` above the threshold (R153). `room` is the number of frames the stack can still take; a
call with none left raises `WorkNotFound` (60_exceptions R260, log 20). Its result `NODE[n].leafs` is read by the caller. -/
def pack (P : Params) : Nat → Nat → Nat → Nat → Work → Except Raise Work
  | 0, _, _, _, w => raise .workNotFound w.packStack.length P.packStack
  | room + 1, n, p, q, w =>
    let w := w.pushFrame n p q
    if w.leafsOf n ≤ hufNext + 1 then do
      let w ← packBfs n p q w
      .ok w.popFrame
    else do
      let l := w.leftOf n
      let r := w.rightOf n
      let f := w.leafFlags n
      let w ← treeWrite w p 0
      let w ← maskWrite w p f
      if w.leafsOf l ≤ w.leafsOf r then do
        let w ← pack P room l q (q + 2) (w.setStage 1 0)
        let w := w.setStage 2 (w.leafsOf l)
        let w ← pack P room r (q + 1) (q + 2 * w.firstCount) w
        let w ← treeWrite w (q + 1 : Nat) ((w.firstCount : Int) - 1)
        .ok w.popFrame
      else do
        let w ← pack P room r (q + 1) (q + 2) (w.setStage 1 0)
        let w := w.setStage 2 (w.leafsOf r)
        let w ← pack P room l q (q + 2 * w.firstCount) w
        let w ← treeWrite w q ((w.firstCount : Int) - 1)
        .ok w.popFrame

/-- The packing of the whole tree from its root, node `2*NLEAF - 2` (R151). -/
def packTree (P : Params) (w : Work) : Except Raise Work :=
  pack P P.packStack (2 * w.nleaf - 2) 1 2 { w with packStack := [] }

/-- `ENC.PACK` (R151). -/
def execEncPack (s : State) : Answer := s.settle (fun _ => Phase.encUpdate) (s.onWork (packTree s.params s.work))

/-! ## ENC.UPDATE -/

/-- Whether slot `j`, beside the overflowing one, holds the full offset, so that its children stand where those of `I` would go (R157 (a)). Only an internal
slot holds an offset: "A slot with mask `0xFF` is a leaf and is never examined for overflow (its byte is a symbol)" (R156). DEDUCED, log 36: the pseudocode of
R157 writes the test of the byte alone. The mask is read last and in the same range, so the faults are those of the byte's read. -/
def fullSibling (w : Work) (j : Int) : Except Raise Bool := do
  let t ← treeRead w j
  let m ← maskRead w j
  .ok (t.toNat == hufNext && m != leafSentinel)

/-- Step (a) of RELOCATE: the slot to act on and the distance (R157). -/
def chooseSlot (w : Work) : Except Raise Work :=
  if w.upI % 2 = 1 then do
    let full ← fullSibling w ((w.upI : Int) - 1)
    if full then .ok { w with upI := w.upI - 1, upInc := 1 }
    else do
      let t ← treeRead w w.upI
      .ok { w with upInc := t.toNat - hufNext }
  else do
    let full ← fullSibling w (w.upI + 1 : Nat)
    if full then .ok { w with upI := w.upI + 1, upInc := 1 }
    else do
      let t ← treeRead w w.upI
      .ok { w with upInc := t.toNat - hufNext }

/-- Step (b): the pair to move and its destination (R157). -/
def windowOf (w : Work) : Except Raise Work := do
  let t ← treeRead w w.upI
  let n1 := w.upI / 2 + 1 + t.toNat
  let n0 := n1 - w.upInc
  .ok { w with upN1 := n1, upN0 := n0, upL1 := 2 * n1, upL0 := 2 * n0 }

/-- The entries of slots `j`, `j + 1` replaced by those of `j - 2`, `j - 1`, tree bytes then mask bytes (R157 (c)). -/
def shiftPair (w : Work) (j : Int) : Except Raise Work := do
  let a ← treeRead w (j - 2)
  let w ← treeWrite w j a.toNat
  let b ← treeRead w (j - 1)
  let w ← treeWrite w (j + 1) b.toNat
  let c ← maskRead w (j - 2)
  let w ← maskWrite w j c
  let d ← maskRead w (j - 1)
  maskWrite w (j + 1) d

/-- `n` pairs shifted up, from slot `j` downwards in steps of 2 (R157 (c)). -/
def shiftPairs : Nat → Int → Work → Except Raise Work
  | 0, _, w => .ok w
  | n + 1, j, w => do
    let w ← shiftPair w j
    shiftPairs n (j - 2) w

/-- Step (c): the pairs `N0 .. N1-1` move up by one pair, pair `N1` moves down to `N0` (R157). -/
def rotateWindow (w : Work) : Except Raise Work := do
  let t0 ← treeRead w w.upL1
  let t1 ← treeRead w (w.upL1 + 1 : Nat)
  let m0 ← maskRead w w.upL1
  let m1 ← maskRead w (w.upL1 + 1 : Nat)
  let w ← shiftPairs ((w.upL1 - w.upL0) / 2) w.upL1 { w with upT0 := t0, upT1 := t1, upM0 := m0, upM1 := m1 }
  let w ← treeWrite w w.upL0 w.upT0.toNat
  let w ← treeWrite w (w.upL0 + 1 : Nat) w.upT1.toNat
  let w ← maskWrite w w.upL0 w.upM0
  maskWrite w (w.upL0 + 1 : Nat) w.upM1

/-- Step (d): the acting slot reaches its children `INC` pairs sooner (R157). -/
def pullActing (w : Work) : Except Raise Work := do
  let t ← treeRead w w.upI
  treeWrite w w.upI ((t.toNat : Int) - w.upInc)

/-- The pair index a slot's children have by its offset: `(j >> 1) + 1 + TreeRead(j)` (R157). -/
def targetPair (j : Nat) (t : Byte) : Nat := j / 2 + 1 + t.toNat

/-- Step (e) for the `n` slots from `j` on: internal slots whose children were inside the window reach one pair further (R157). -/
def raiseTargets : Nat → Nat → Work → Except Raise Work
  | 0, _, w => .ok w
  | n + 1, j, w => do
    let m ← maskRead w j
    if m = leafSentinel then raiseTargets n (j + 1) w
    else do
      let t ← treeRead w j
      if w.upN0 ≤ targetPair j t ∧ targetPair j t < w.upN1 then do
        let w ← treeWrite w j ((t.toNat : Int) + 1)
        raiseTargets n (j + 1) w
      else raiseTargets n (j + 1) w

/-- Step (f) for one slot of the moved pair: its own children did not move (R157). -/
def lengthenMoved (w : Work) (j : Nat) : Except Raise Work := do
  let m ← maskRead w j
  if m = leafSentinel then .ok w
  else do
    let t ← treeRead w j
    treeWrite w j ((t.toNat : Int) + w.upInc)

/-- Step (g) for the `n` slots from `j` on: children beyond the window are one pair nearer (R157). -/
def lowerTargets : Nat → Nat → Work → Except Raise Work
  | 0, _, w => .ok w
  | n + 1, j, w => do
    let m ← maskRead w j
    if m = leafSentinel then lowerTargets n (j + 1) w
    else do
      let t ← treeRead w j
      if w.upN1 < targetPair j t then do
        let w ← treeWrite w j ((t.toNat : Int) - 1)
        lowerTargets n (j + 1) w
      else lowerTargets n (j + 1) w

/-- Step (h): the fuel; the scan then resumes at the even slot of the pair of `I` (R157). The scan's own `I <- I + 1` is included
in the new `I`, `(I | 1) - 2 + 1`. -/
def countMove (P : Params) (w : Work) : Except Raise Work :=
  if P.updateMaxMoves < w.moves + 1 then raise .treeUnresolved w.upI w.ctLen
  else .ok { w with moves := w.moves + 1, upI := (w.upI ||| 1) - 1 }

/-- `RELOCATE`, one step of ENC.UPDATE (R157). -/
def relocate (P : Params) (w : Work) : Except Raise Work := do
  let w ← chooseSlot w
  let w ← windowOf w
  let w ← rotateWindow w
  let w ← pullActing w
  let w ← raiseTargets (w.upL0 - (w.upI + 1)) (w.upI + 1) w
  let w ← lengthenMoved w w.upL0
  let w ← lengthenMoved w (w.upL0 + 1)
  let w ← lowerTargets (w.upL1 - w.upL0) (w.upL0 + 2) w
  countMove P w

/-- Whether slot `i` is an internal slot whose offset exceeds the field (R156). -/
def Work.overflows (w : Work) (i : Nat) : Bool := w.maskSlot i != leafSentinel && decide (hufNext < (w.slot i).toNat)

/-- The scan from slot `I` to the next overflowing slot, looking at `n` slots: `I` is left there, or at `CT_LEN` (R156). The
reads are in range, for the scan stays below `CT_LEN`. -/
def scanFrom : Nat → Work → Work
  | 0, w => w
  | n + 1, w => if w.overflows w.upI then w else scanFrom n { w with upI := w.upI + 1 }

/-- The scan and the relocations (R156). `fuel` is the number of relocations the fuel `UPDATE_MAX_MOVES` still leaves, and one
more, the one that raises (log 22). -/
def updateLoop (P : Params) : Nat → Work → Except Raise Work
  | fuel, w =>
    let w := scanFrom (w.ctLen - w.upI) w
    if w.upI < w.ctLen then
      match fuel with
      | 0 => raise .treeUnresolved w.upI w.ctLen
      | fuel + 1 => do
        let w ← relocate P w
        updateLoop P fuel w
    else .ok w

/-- The rebalancing pass (R156). -/
def updateTree (P : Params) (w : Work) : Except Raise Work :=
  updateLoop P (P.updateMaxMoves + 1) { w with moves := 0, upI := 1 }

/-- `ENC.UPDATE` (R156). -/
def execEncUpdate (s : State) : Answer := s.settle (fun _ => Phase.encFinal) (s.onWork (updateTree s.params s.work))

/-! ## ENC.FINAL -/

/-- The mask of slot `i` ORed onto its tree byte, unless the slot is a leaf; an offset that does not fit the field raises (R160). -/
def finalSlot (w : Work) (i : Nat) : Except Raise Work := do
  let m ← maskRead w i
  if m = leafSentinel then .ok w
  else do
    let v ← treeRead w i
    if hufNext < v.toNat then raise .treeUnresolved i w.ctLen
    else treeWrite w i (v ||| m).toNat

/-- The `n` slots from `i` on. -/
def finalFrom : Nat → Nat → Work → Except Raise Work
  | 0, _, w => .ok w
  | n + 1, i, w => do
    let w ← finalSlot w i
    finalFrom n (i + 1) w

/-- The masks applied to slots `1 .. CT_LEN - 1` (R160). -/
def finalTree (w : Work) : Except Raise Work := finalFrom (w.ctLen - 1) 1 w

/-- `ENC.FINAL` (R160). -/
def execEncFinal (s : State) : Answer := s.settle (fun _ => Phase.encDerive) (s.onWork (finalTree s.work))

end Sys2Proof.Machine
end

