-- ==== Sys2Proof/Machine/Dec.lean ====
section
/-! DEFINITION. The bitstream reader: DEC.HDR, DEC.TREE, DEC.STEP, DEC.DONE (45_dec R201 to R208), over operations on the payload's elements. -/

namespace Sys2Proof.Machine

/-! ## The command word -/

/-- The fields of a command word taken and checked, the output zeroed, the decoder's registers set (R201). -/
def takeHeader (s : State) (len : BitVec 24) (nbits : BitVec 4) : Except Raise State :=
  if legalWidth nbits = false then raise .unsupportedWidth nbits.toNat 0
  else if s.params.outCap < len.toNat then raise .outOverflow ((len.toNat : Int) - 1) s.params.outCap
  else .ok { s with
    outBuf := Table.clearBelow len.toNat s.outBuf
    wpos := 0
    work := { s.work with numBits := nbits.toNat, dlen := len.toNat, acc := 0, dmask4 := 0, codew := 0 } }

/-- The header read and taken (R201). -/
def readHeader (s : State) : Except Raise State :=
  if s.inLen.toNat < 4 then raise .bytesToU32Error 0 s.inLen.toNat
  else
    let h := memRead4 s.inBuf 0
    takeHeader s (cwLen h) (cwNbits h)

/-- `DEC.HDR` (R201). -/
def execDecHdr (s : State) : Answer := s.settle (fun _ => Phase.decTree) (readHeader s)

/-! ## The tree -/

/-- The `n` tree bytes from slot `i` on copied from `IN` (R202). -/
def copyTree (inBuf : Table Byte) : Nat → Nat → Table Byte → Table Byte
  | 0, _, t => t
  | n + 1, i, t => copyTree inBuf n (i + 1) (Table.set (0 : Byte) t i (memRead1 inBuf (4 + i)))

/-- The walk placed on the root node: slot 1, pair base 0 (R202, R206, 90_conflicts C9). -/
def Work.toRoot (w : Work) : Work := { w with pos := w.slot 1, next := 0 }

/-- The size byte taken: the tree's length checked, the tree copied, the walk and the stream placed (R202). -/
def takeSize (s : State) (b : Byte) : Except Raise State :=
  let n := treeLen b.toNat
  if s.inLen.toNat < 4 + n then raise .decompressDataIOOB s.inLen.toNat s.inLen.toNat
  else
    let w := { s.work with ctLen := n, ctree := copyTree s.inBuf n 0 s.work.ctree, rpos := 4 + n }
    .ok { s with work := w.toRoot }

/-- The tree region read (R202). -/
def readTree (s : State) : Except Raise State :=
  if s.inLen.toNat < 5 then raise .decompressDataIOOB 4 s.inLen.toNat else takeSize s (memRead1 s.inBuf 4)

/-- The decode loop: DEC.STEP is repeated while `WPOS < DLEN`, then DEC.DONE (R207). -/
def State.decodeNext (s : State) : Phase := if s.wpos.toNat < s.work.dlen then Phase.decStep else Phase.decDone

/-- `DEC.TREE` (R202). -/
def execDecTree (s : State) : Answer := s.settle State.decodeNext (readTree s)

/-! ## One stream bit -/

/-- FETCH (R204): the next bit selected, a new stream word fetched when the mask is exhausted; `none` is the early end of stream. -/
def fetchBit (s : State) : Option State :=
  if s.work.dmask4 >>> 1 = 0 then
    if s.inLen.toNat < s.work.rpos + 4 then none
    else some { s with work := { s.work with
      codew := memRead4 s.inBuf s.work.rpos
      rpos := s.work.rpos + 4
      dmask4 := topBit } }
  else some { s with work := { s.work with dmask4 := s.work.dmask4 >>> 1 } }

/-- OUTPUT (R206): the symbol in `POS` ORed into the output byte at bit offset `ACC`, cut to eight bits and not masked (decision D19),
the accumulator and the write position advanced, the walk back at the root. -/
def outputSymbol (s : State) : State :=
  let a := s.wpos.toNat
  let w := s.work
  { s with
    outBuf := memWrite1 s.outBuf a (memRead1 s.outBuf a ||| w.pos <<< w.acc)
    wpos := if 8 ≤ w.acc + w.numBits then s.wpos + 1 else s.wpos
    work := { w with acc := (w.acc + w.numBits) % 8 }.toRoot }

/-- The walk arrives at an internal node's byte and stands on it (R205). -/
def arriveNode (s : State) (b : Byte) : State := { s with work := { s.work with pos := b } }

/-- The walk arrives at a leaf's byte: the symbol is output (R205, R206). -/
def arriveLeaf (s : State) (b : Byte) : State := outputSymbol { s with work := { s.work with pos := b } }

/-- The slot that a stream bit selects from the node stood on (R205). -/
def Work.branchSlot (w : Work) (bit : Bool) : Nat := w.next + pairDistance (offsetOf w.pos) + (if bit then 1 else 0)

/-- BRANCH on a stream bit (R205), then OUTPUT when the parent's flag marks the selected slot as a leaf (R203, 90_conflicts C6). -/
def branchOn (s : State) (bit : Bool) : Except Raise State :=
  let idx := s.work.branchSlot bit
  if s.work.ctLen ≤ idx then raise .codeTreeIOOB idx s.work.ctLen
  else
    let t := { s with work := { s.work with next := s.work.next + pairDistance (offsetOf s.work.pos) } }
    .ok (if childIsLeaf s.work.pos bit then arriveLeaf t (s.work.slot idx) else arriveNode t (s.work.slot idx))

/-- The early end of stream: `EOS` set and DEC.DONE next; `WPOS`, `ACC` and `OUT` keep their values (R204). -/
def State.endOfStream (s : State) : State :=
  { s with eos := true, phase := Phase.decDone, work := { s.work with dmask4 := s.work.dmask4 >>> 1 } }

/-- `DEC.STEP` (R203). -/
def execDecStep (s : State) : Answer :=
  match fetchBit s with
  | none => .next s.endOfStream
  | some t => t.settle State.decodeNext (branchOn t t.work.streamBit)

/-! ## DEC.DONE -/

/-- `DEC.DONE` (R208). `PHASE` stays 19; `WPOS` and `EOS` keep their values. -/
def execDecDone (s : State) : Answer := .next (s.finish (BitVec.ofNat 32 s.work.dlen))

end Sys2Proof.Machine
end

