-- ==== Sys2Proof/Machine/Tree.lean ====
section
/-! DEFINITION. The Huffman tree builder: ENC.LEAVES, ENC.MERGE and the function PATH (42_enc_tree R130 to R136). -/

namespace Sys2Proof.Machine

/-! ## ENC.LEAVES -/

/-- The leaf of symbol `s`, when it is present (R130). -/
def addLeaf (w : Work) (s : Nat) : Work :=
  if w.freqAt s = 0 then w
  else
    { w with
      node := Table.set Node.null w.node w.nnode
        { sym := BitVec.ofNat 9 s, weight := w.freqAt s, leafs := 1, dad := none, lson := none, rson := none }
      nnode := w.nnode + 1 }

/-- One leaf per present symbol, in ascending symbol order (R130). -/
def makeLeaves (w : Work) : Work := (List.range nsym).foldl addLeaf { w with nnode := 0 }

/-- `ENC.LEAVES` (R130). -/
def execEncLeaves (s : State) : Answer := s.settle (fun _ => Phase.encMerge) (s.onWork (.ok (makeLeaves s.work)))

/-! ## ENC.MERGE -/

/-- The parentless nodes, ascending (R131). -/
def Work.parentless (w : Work) : List Nat := (List.range w.nnode).filter (fun i => (w.nodeAt i).dad = none)

/-- The element of least weight, the earliest among equals (R131, R132). -/
def Work.lightest (w : Work) : List Nat → Option Nat
  | [] => none
  | i :: rest =>
    match w.lightest rest with
    | none => some i
    | some j => if (w.nodeAt j).weight < (w.nodeAt i).weight then some j else some i

/-- Node `i` with its parent set. -/
def Work.setDad (w : Work) (i d : Nat) : Work :=
  { w with node := Table.set Node.null w.node i { w.nodeAt i with dad := some d } }

/-- The new internal node over `a` (left) and `b` (right), appended as node `NNODE` (R131, R133). -/
def Work.join (w : Work) (a b : Nat) : Work :=
  let parent : Node :=
    { sym := BitVec.ofNat 9 (256 + (w.nnode - w.nleaf))
      weight := (w.nodeAt a).weight + (w.nodeAt b).weight
      leafs := w.leafsOf a + w.leafsOf b
      dad := none
      lson := some a
      rson := some b }
  let w' : Work := { w with node := Table.set Node.null w.node w.nnode parent }
  let w'' := (w'.setDad a w.nnode).setDad b w.nnode
  { w'' with nnode := w.nnode + 1 }

/-- One merge: the two lightest parentless nodes get a common parent; fewer than two is `NodeNotFound` (R131). -/
def mergeOnce (w : Work) : Except Raise Work :=
  match w.lightest w.parentless with
  | none => raise .nodeNotFound w.nnode 0
  | some a =>
    match w.lightest (w.parentless.filter (· ≠ a)) with
    | none => raise .nodeNotFound w.nnode 0
    | some b => .ok (w.join a b)

/-- `n` merges. -/
def mergeTimes : Nat → Work → Except Raise Work
  | 0, w => .ok w
  | n + 1, w =>
    match mergeOnce w with
    | .ok w' => mergeTimes n w'
    | .error e => .error e

/-- The merges until `NNODE = 2*NLEAF - 1` (R131, R134): each adds one node. -/
def buildTree (w : Work) : Except Raise Work := mergeTimes (2 * w.nleaf - 1 - w.nnode) w

/-- `ENC.MERGE` (R131). -/
def execEncMerge (s : State) : Answer := s.settle (fun _ => Phase.encAlloc) (s.onWork (buildTree s.work))

/-! ## PATH -/

/-- The parent links from node `i` up, at most `n` of them: one bit a step, `true` (1) unless the node is its parent's left child. -/
def Work.pathFrom (w : Work) : Nat → Nat → List Bool
  | 0, _ => []
  | n + 1, i =>
    match (w.nodeAt i).dad with
    | none => []
    | some d => (decide ((w.nodeAt d).lson ≠ some i)) :: w.pathFrom n d

/-- `PATH(i)`, in leaf-to-root order (R136). No path without a repeated node has more steps than the arena has nodes (log 21). -/
def Work.path (w : Work) (i : Nat) : List Bool := w.pathFrom maxNodes i

end Sys2Proof.Machine
end

