-- ==== Sys2Proof/Machine/Emit.lean ====
section
/-! DEFINITION. The codeword table and the bit packer: ENC.DERIVE, ENC.HDR, ENC.TREEOUT, ENC.EMIT, ENC.DONE (44_enc_codes_emit R180 to R185). -/

namespace Sys2Proof.Machine

/-! ## ENC.DERIVE -/

/-- The bits of a path, root side first, packed from bit `m` of byte `j` on, most significant bit first (R180). -/
def packBits : List Bool → Byte → Nat → Table Byte → Table Byte
  | [], _, _, cw => cw
  | b :: rest, m, j, cw =>
    let cw := if b then Table.set (0 : Byte) cw j (Table.get (0 : Byte) cw j ||| m) else cw
    if m >>> 1 = 0 then packBits rest 0x80 (j + 1) cw else packBits rest (m >>> 1) j cw

/-- The codeword entry of a path given leaf-to-root: the path is consumed from its end (R180). -/
def codeOfPath (sc : List Bool) : Code := { valid := true, nbits := sc.length, cw := packBits sc.reverse 0x80 0 [] }

/-- The codeword of leaf `i`; an empty or over-long path is `CodeWorkNotFound` (R180). `CODE` is indexed by the symbol as a byte
(20_memory R60, log 33). -/
def deriveLeaf (w : Work) (i : Nat) : Except Raise Work :=
  let sc := w.path i
  let sym := (w.nodeAt i).sym
  if sc.length = 0 ∨ 255 < sc.length then raise .codeWorkNotFound sym.toNat sc.length
  else .ok { w with code := Table.set Code.null w.code (sym.setWidth 8).toNat (codeOfPath sc) }

/-- The `n` leaves from node `i` on. -/
def deriveFrom : Nat → Nat → Work → Except Raise Work
  | 0, _, w => .ok w
  | n + 1, i, w =>
    match deriveLeaf w i with
    | .ok w' => deriveFrom n (i + 1) w'
    | .error e => .error e

/-- The codeword table (R180). -/
def deriveCodes (w : Work) : Except Raise Work := deriveFrom w.nleaf 0 w

/-- `ENC.DERIVE` (R180). -/
def execEncDerive (s : State) : Answer := s.settle (fun _ => Phase.encHdr) (s.onWork (deriveCodes s.work))

/-! ## ENC.HDR -/

/-- The command word appended at the start of `OUT` (R182). -/
def emitHeader (P : Params) (inLen : Word) (x : Work × Table Byte) : Except Raise (Work × Table Byte) :=
  append P 4 (commandWord inLen) ({ x.1 with opos := 0 }, x.2)

/-- `ENC.HDR` (R182). -/
def execEncHdr (s : State) : Answer :=
  s.settle (fun _ => Phase.encTreeout) (s.onOut (emitHeader s.params s.inLen (s.work, s.outBuf)))

/-! ## ENC.TREEOUT -/

/-- The `n` tree bytes from slot `i` on appended (R183). -/
def emitSlots (P : Params) : Nat → Nat → Work × Table Byte → Except Raise (Work × Table Byte)
  | 0, _, x => .ok x
  | n + 1, i, x =>
    match treeRead x.1 i with
    | .error e => .error e
    | .ok b =>
      match append P 1 (b.setWidth 32) x with
      | .error e => .error e
      | .ok y => emitSlots P n (i + 1) y

/-- `ENC.TREEOUT` (R183). -/
def execEncTreeout (s : State) : Answer :=
  s.settle (fun _ => Phase.encEmit) (s.onOut (emitSlots s.params s.work.ctLen 0 (s.work, s.outBuf)))

/-! ## ENC.EMIT -/

/-- The next bit position of the stream: the next lower bit of the current word, or bit 31 of a new zero word, appended only when
a bit needs it (R184, decision D41). -/
def nextPosition (P : Params) (x : Work × Table Byte) : Except Raise (Work × Table Byte) :=
  if x.1.emask4 >>> 1 = 0 then append P 4 0 ({ x.1 with emask4 := topBit, wordpos := x.1.opos }, x.2)
  else .ok ({ x.1 with emask4 := x.1.emask4 >>> 1 }, x.2)

/-- The current bit position set: the read-modify-write of the current stream word (R184). -/
def setPosition (x : Work × Table Byte) : Table Byte :=
  memWrite x.2 x.1.wordpos 4 (memRead4 x.2 x.1.wordpos ||| x.1.emask4)

/-- `CWMASK` and `CWIDX` on the next bit of the codeword (R184). -/
def Work.nextCodeBit (w : Work) : Work :=
  if w.cwmask >>> 1 = 0 then { w with cwmask := 0x80, cwidx := w.cwidx + 1 } else { w with cwmask := w.cwmask >>> 1 }

/-- One bit of the codeword `c` emitted (R184). -/
def emitBit (P : Params) (c : Code) (x : Work × Table Byte) : Except Raise (Work × Table Byte) :=
  match nextPosition P x with
  | .error e => .error e
  | .ok y =>
    let out := if codewordBit c y.1.cwidx y.1.cwmask then setPosition y else y.2
    .ok (y.1.nextCodeBit, out)

/-- `n` bits of the codeword `c`. -/
def emitBits (P : Params) (c : Code) : Nat → Work × Table Byte → Except Raise (Work × Table Byte)
  | 0, x => .ok x
  | n + 1, x =>
    match emitBit P c x with
    | .error e => .error e
    | .ok y => emitBits P c n y

/-- The codeword of the input byte at `EPOS` (R184). -/
def emitByte (P : Params) (inBuf : Table Byte) (x : Work × Table Byte) : Except Raise (Work × Table Byte) :=
  let b := memRead1 inBuf x.1.epos
  let c := x.1.codeAt b
  if c.valid then
    match emitBits P c c.nbits ({ x.1 with cwmask := 0x80, cwidx := 0 }, x.2) with
    | .error e => .error e
    | .ok y => .ok ({ y.1 with epos := y.1.epos + 1 }, y.2)
  else raise .codeNotFound b.toNat x.1.epos

/-- `n` input bytes. -/
def emitBytes (P : Params) (inBuf : Table Byte) : Nat → Work × Table Byte → Except Raise (Work × Table Byte)
  | 0, x => .ok x
  | n + 1, x =>
    match emitByte P inBuf x with
    | .error e => .error e
    | .ok y => emitBytes P inBuf n y

/-- The stream of the whole input (R184). -/
def emitStream (P : Params) (inBuf : Table Byte) (inLen : Nat) (x : Work × Table Byte) : Except Raise (Work × Table Byte) :=
  emitBytes P inBuf inLen ({ x.1 with emask4 := 0, epos := 0 }, x.2)

/-- `ENC.EMIT` (R184). -/
def execEncEmit (s : State) : Answer :=
  s.settle (fun _ => Phase.encDone) (s.onOut (emitStream s.params s.inBuf s.inLen.toNat (s.work, s.outBuf)))

/-! ## ENC.DONE -/

/-- `ENC.DONE` (R185). `PHASE` stays 14. -/
def execEncDone (s : State) : Answer :=
  .next { s.finish (BitVec.ofNat 32 s.work.opos) with wpos := 0, eos := false }

end Sys2Proof.Machine
end

