-- ==== Sys2Proof/Machine/Freq.lean ====
section
/-! DEFINITION. The frequency table: ENC.INIT, ENC.COUNT, ENC.PATCH (41_enc_freq R120 to R122). -/

namespace Sys2Proof.Machine

/-! ## ENC.INIT -/

/-- `CODE[s].valid <- 0` for every symbol: the other fields of an entry keep what they hold (R120). -/
def invalidateCodes : Nat → Table Code → Table Code
  | 0, t => t
  | n + 1, t => invalidateCodes n (Table.set Code.null t n { Table.get Code.null t n with valid := false })

/-- The initial values of an ENCODE (R120). -/
def initTables (w : Work) : Work :=
  { w with
    freq := Table.clearBelow nsym w.freq
    code := invalidateCodes nsym w.code
    nleaf := 0
    nnode := 0
    ctLen := 0
    moves := 0 }

/-- `ENC.INIT` (R120). -/
def execEncInit (s : State) : Answer := s.settle (fun _ => Phase.encCount) (s.onWork (.ok (initTables s.work)))

/-! ## ENC.COUNT -/

/-- The counting of the `n` input bytes from index `i` on (R121). -/
def countFrom (P : Params) (inBuf : Table Byte) : Nat → Nat → Table Nat → Except Raise (Table Nat)
  | 0, _, f => .ok f
  | n + 1, i, f =>
    let b := (memRead1 inBuf i).toNat
    if Table.get 0 f b = 2 ^ P.freqBits - 1 then raise .freqOverflow b 0
    else countFrom P inBuf n (i + 1) (Table.set 0 f b (Table.get 0 f b + 1))

/-- The number of symbols with a counter that is not 0 (R121). -/
def distinctCount (f : Table Nat) : Nat := (List.range nsym).countP (fun s => Table.get 0 f s ≠ 0)

/-- The frequency table of the input and `NLEAF` (R121). -/
def countInput (P : Params) (inBuf : Table Byte) (inLen : Nat) (w : Work) : Except Raise Work :=
  match countFrom P inBuf inLen 0 w.freq with
  | .ok f => .ok { w with freq := f, nleaf := distinctCount f }
  | .error e => .error e

/-- `ENC.COUNT` (R121). -/
def execEncCount (s : State) : Answer :=
  s.settle (fun _ => Phase.encPatch) (s.onWork (countInput s.params s.inBuf s.inLen.toNat s.work))

/-! ## ENC.PATCH -/

/-- The one symbol that is present, when `NLEAF = 1` (R122). -/
def presentSymbol (f : Table Nat) : Option Nat := (List.range nsym).find? (fun s => Table.get 0 f s ≠ 0)

/-- The smallest symbol that is absent (R122, decision D35). -/
def absentSymbol (f : Table Nat) : Option Nat := (List.range nsym).find? (fun s => Table.get 0 f s = 0)

/-- The count of the only present symbol is set to exactly 1 (R122). With no such symbol, which `NLEAF = 1` rules out in a run, nothing
is set (log 29). -/
def flattenOnly (w : Work) : Work :=
  match presentSymbol w.freq with
  | some s => { w with freq := Table.set 0 w.freq s 1 }
  | none => w

/-- `n` promotions of the smallest absent symbol to count 2 (R122). -/
def promote : Nat → Work → Work
  | 0, w => w
  | n + 1, w =>
    match absentSymbol w.freq with
    | some z => promote n { w with freq := Table.set 0 w.freq z 2, nleaf := w.nleaf + 1 }
    | none => promote n { w with nleaf := w.nleaf + 1 }

/-- The degenerate-case patch (R122). -/
def patchFreq (w : Work) : Work := promote (2 - w.nleaf) (if w.nleaf = 1 then flattenOnly w else w)

/-- `ENC.PATCH` (R122). -/
def execEncPatch (s : State) : Answer := s.settle (fun _ => Phase.encLeaves) (s.onWork (.ok (patchFreq s.work)))

end Sys2Proof.Machine
end

