-- ==== Sys2Proof/Machine/HostCommands.lean ====
section
/-! DEFINITION. The host commands NOP, ENCODE, DECODE, CLEAR (40_host_commands R100 to R104). -/

namespace Sys2Proof.Machine

/-- `NOP` changes nothing in any state (R101). -/
def execCmdNop (s : State) : Answer := .next s

/-- The checks of an accepted ENCODE, in the order of R102 and 60_exceptions R254. -/
def acceptEncode (s : State) : State :=
  let t := s.startCommand Phase.encInit
  if s.params.inCap < s.inLen.toNat then t.takeFault ⟨.lengthOverflow, s.inLen.toNat, s.params.inCap⟩
  else if maxLen < s.inLen.toNat then t.takeFault ⟨.lengthOverflow, s.inLen.toNat, maxLen + 1⟩
  else t

/-- The check of an accepted DECODE (R103). -/
def acceptDecode (s : State) : State :=
  let t := s.startCommand Phase.decHdr
  if s.params.inCap < s.inLen.toNat then t.takeFault ⟨.lengthOverflow, s.inLen.toNat, s.params.inCap⟩
  else t

/-- `ENCODE`: accepted in IDLE and DONE, ignored in BUSY and FAULT (R100, R102). The phases follow, one a step. -/
def execCmdEncode (s : State) : Answer := .next (if s.mode.acceptsRun then acceptEncode s else s)

/-- `DECODE`: accepted in IDLE and DONE, ignored in BUSY and FAULT (R100, R103). The phases follow, one a step. -/
def execCmdDecode (s : State) : Answer := .next (if s.mode.acceptsRun then acceptDecode s else s)

/-- `CLEAR`: accepted in IDLE, DONE and FAULT, ignored in BUSY (R100, R104). -/
def execCmdClear (s : State) : Answer := .next (if s.mode.acceptsClear then s.clear else s)

end Sys2Proof.Machine
end

