-- ==== Sys2Proof/Machine/Payload.lean ====
section
/-! DEFINITION. The elements of the payload as operations of the decoder (30_encoding R71 to R79): what DEC.HDR, DEC.TREE and DEC.STEP do once they have read the element (log 17). -/

namespace Sys2Proof.Machine

/-- `CW`: the command word consumed. `TYPE` is not examined (30_encoding R73, decision D17). -/
def execCw (len : BitVec 24) (_kind nbits : BitVec 4) (s : State) : Answer :=
  s.settle (fun _ => Phase.decTree) (takeHeader s len nbits)

/-- `TB.SIZE`: the size byte consumed (30_encoding R74, 45_dec R202). -/
def execTbSize (size : BitVec 8) (s : State) : Answer := s.settle State.decodeNext (takeSize s size)

/-- `TB.NODE`: the walk stands on the internal node; its byte then addresses the children's pair (30_encoding R75, R77). -/
def execTbNode (left right : Bool) (offset : BitVec 6) (s : State) : Answer :=
  s.settle State.decodeNext (.ok (arriveNode s (nodeByte left right offset)))

/-- `TB.LEAF`: the symbol is output and the walk returns to the root (30_encoding R76, 45_dec R206). -/
def execTbLeaf (symbol : BitVec 8) (s : State) : Answer := s.settle State.decodeNext (.ok (arriveLeaf s symbol))

/-- `SW.BIT`: the branch to the left (0) or right (1) child (30_encoding R79, 45_dec R205). -/
def execSwBit (bit : Bool) (s : State) : Answer := s.settle State.decodeNext (branchOn s bit)

end Sys2Proof.Machine
end

