-- ==== Sys2Proof/Machine/Dispatch.lean ====
section
/-! DEFINITION. The dispatch: one arm for each operation of spec/opcode_table.json. -/

namespace Sys2Proof.Machine

def exec (i : Instr) (s : State) : Host.Outcome State Fault Refusal :=
  match i with
  | .cmdNop => Sys2Proof.Machine.execCmdNop s
  | .cmdEncode => Sys2Proof.Machine.execCmdEncode s
  | .cmdDecode => Sys2Proof.Machine.execCmdDecode s
  | .cmdClear => Sys2Proof.Machine.execCmdClear s
  | .encInit => Sys2Proof.Machine.execEncInit s
  | .encCount => Sys2Proof.Machine.execEncCount s
  | .encPatch => Sys2Proof.Machine.execEncPatch s
  | .encLeaves => Sys2Proof.Machine.execEncLeaves s
  | .encMerge => Sys2Proof.Machine.execEncMerge s
  | .encAlloc => Sys2Proof.Machine.execEncAlloc s
  | .encPack => Sys2Proof.Machine.execEncPack s
  | .encUpdate => Sys2Proof.Machine.execEncUpdate s
  | .encFinal => Sys2Proof.Machine.execEncFinal s
  | .encDerive => Sys2Proof.Machine.execEncDerive s
  | .encHdr => Sys2Proof.Machine.execEncHdr s
  | .encTreeout => Sys2Proof.Machine.execEncTreeout s
  | .encEmit => Sys2Proof.Machine.execEncEmit s
  | .encDone => Sys2Proof.Machine.execEncDone s
  | .decHdr => Sys2Proof.Machine.execDecHdr s
  | .decTree => Sys2Proof.Machine.execDecTree s
  | .decStep => Sys2Proof.Machine.execDecStep s
  | .decDone => Sys2Proof.Machine.execDecDone s
  | .cw len kind nbits => Sys2Proof.Machine.execCw len kind nbits s
  | .tbSize size => Sys2Proof.Machine.execTbSize size s
  | .tbNode left right offset => Sys2Proof.Machine.execTbNode left right offset s
  | .tbLeaf symbol => Sys2Proof.Machine.execTbLeaf symbol s
  | .swBit bit => Sys2Proof.Machine.execSwBit bit s

end Sys2Proof.Machine
end

