-- ==== Sys2Proof/Machine/Bus.lean ====
section
/-! DEFINITION. The host's side: the register map (10_state R21 to R28), the host's accesses to the buffers (20_memory R50, R66) and the reset input (70_reset_and_hazards R280). -/

namespace Sys2Proof.Machine

/-! ## The register map (10_state R21) -/

/-- The eight registers. -/
inductive Reg where
  | cmd | status | errCode | errIndex | errLen | inLen | outLen | wpos
  deriving DecidableEq, Repr

/-- The register at a byte offset; an offset that is not aligned or lies outside the map is none (log 12). -/
def regAt (offset : Word) : Option Reg :=
  match offset.toNat with
  | 0x00 => some .cmd
  | 0x04 => some .status
  | 0x08 => some .errCode
  | 0x0C => some .errIndex
  | 0x10 => some .errLen
  | 0x14 => some .inLen
  | 0x18 => some .outLen
  | 0x1C => some .wpos
  | _ => none

/-- What a read of a register returns when the block is not BUSY (10_state R21 to R28). `OUT_LEN`, `WPOS` and `ERR_*` are "defined from the first read that
returns DONE or FAULT" (70_reset_and_hazards R289, 40_host_commands R109): that they have their final values before it too, as soon as `STATE` has left BUSY,
is the model's choice (log 35). -/
def Reg.value (r : Reg) (s : State) : Word :=
  match r with
  | .cmd => 0
  | .status => statusWord s.mode s.eos s.phase
  | .errCode => s.errCode.setWidth 32
  | .errIndex => s.errIndex
  | .errLen => s.errLen
  | .inLen => s.inLen
  | .outLen => s.outLen
  | .wpos => s.wpos

/-- What a read returns while BUSY: `STATE` is 1, and `EOS`, `PHASE`, `OUT_LEN`, `WPOS` and `ERR_*` are free values (10_state R23,
70_reset_and_hazards R289, log 10). -/
def Reg.busyValue (r : Reg) (s : State) : Word :=
  match r with
  | .cmd => 0
  | .status => statusWord .busy (Config.free s.draws 30 0 % 2 == 1) (freeBits 5 s.draws 30 1)
  | .errCode => (freeBits 8 s.draws 30 2).setWidth 32
  | .errIndex => freeBits 32 s.draws 30 3
  | .errLen => freeBits 32 s.draws 30 4
  | .inLen => s.inLen
  | .outLen => freeBits 32 s.draws 30 5
  | .wpos => freeBits 32 s.draws 30 6

/-- A host read of a register: a free value where the spec leaves one while BUSY (log 10), else what the register holds, whether or not a STATUS read has returned
DONE or FAULT yet (log 35). -/
def readRegister (r : Reg) (s : State) : State :=
  if s.mode = .busy then { s with rdData := r.busyValue s, draws := s.draws + 1 }
  else { s with rdData := r.value s }

/-- A host write of a register: `CMD` starts a command, a reserved code is ignored (40_host_commands R105); `IN_LEN` is written unless BUSY
(10_state R26); the others are read-only and ignore the write (R21). -/
def writeRegister (r : Reg) (v : Word) (s : State) : Answer :=
  match r with
  | .cmd =>
    match decodeCommand v with
    | .ok i => exec i s
    | .error _ => .next s
  | .inLen => .next (if s.mode = .busy then s else { s with inLen := v })
  | .status | .errCode | .errIndex | .errLen | .outLen | .wpos => .next s

/-! ## The host's acts -/

/-- One act of the host. A read of `OUT` returns the byte as soon as `STATE` has left BUSY (logs 32, 35). -/
def hostAct (a : HostAction) (s : State) : Answer :=
  match a with
  | .writeReg offset v =>
    match regAt offset with
    | some r => writeRegister r v s
    | none => .refused .noRegister
  | .readReg offset =>
    match regAt offset with
    | some r => .next (readRegister r s)
    | none => .refused .noRegister
  | .writeIn addr b =>
    if s.mode = .busy then .refused .bufferAccessWhileBusy
    else if s.params.inCap ≤ addr then .fault .inAddressBeyondCapacity
    else .next { s with inBuf := memWrite1 s.inBuf addr b }
  | .readOut addr =>
    if s.mode = .busy then .refused .bufferAccessWhileBusy
    else if s.params.outCap ≤ addr then .fault .outAddressBeyondCapacity
    else .next { s with rdData := (memRead1 s.outBuf addr).setWidth 32 }
  | .reset => .next s.resetInput

/-! ## The sequencer's move -/

/-- The phase at `PHASE`, when a command runs; otherwise the sequencer "runs nothing until the host writes" (70_reset_and_hazards R281). -/
def sequence (s : State) : Answer :=
  if s.mode = .busy then
    match decodePhase s.phase with
    | .ok i => exec i s
    | .error _ => .refused .phaseNeverProduced
  else .next s

/-! ## How a word is placed where the next step fetches -/

/-- The block with the operation of a table number placed where its next step fetches it (log 3): a host command as the host's next
write of `CMD`; a phase as `PHASE` with the block BUSY and the sequencer to move; a command word in `IN[0..3]` under DEC.HDR. -/
def placeWord (s : State) (nbits w : Nat) : State :=
  match decodeTableWord nbits w with
  | none => s
  | some i =>
    match i.format with
    | .hostCmd => { s with turns := .host (.writeReg 0 (BitVec.ofNat 32 w)) :: s.turns }
    | .phase => { s with mode := .busy, phase := BitVec.ofNat 5 w, turns := .sequencer :: s.turns }
    | .cw =>
      { s with
        mode := .busy
        phase := Phase.decHdr
        inLen := if s.inLen.toNat < 4 then 4 else s.inLen
        inBuf := memWrite s.inBuf 0 4 (BitVec.ofNat 32 w)
        turns := .sequencer :: s.turns }
    | .tbSize | .tbNode | .tbLeaf | .swBit => s

end Sys2Proof.Machine
end

