-- ==== Sys2Proof/Machine/Step.lean ====
section
/-! DEFINITION. One step of the block: the next turn is the host's or the sequencer's (log 1, log 2). -/

namespace Sys2Proof.Machine

/-- One step. The head of `turns` says who moves; with nothing listed the sequencer moves. A POLL stays at the head while the block
is BUSY, and then reads STATUS. -/
def step (s : State) : Host.Outcome State Fault Refusal :=
  match s.turns with
  | [] => sequence s
  | .sequencer :: rest => sequence { s with turns := rest }
  | .host a :: rest => hostAct a { s with turns := rest }
  | .poll :: rest =>
    if s.mode = .busy then sequence s else .next (readRegister .status { s with turns := rest })

/-- The state with the operation of a table number stored where `step` fetches its next one (`placeWord`, log 3). -/
def State.withFetchWord (s : State) (nbits w : Nat) : State := placeWord s nbits w

end Sys2Proof.Machine
end

