-- ==== Sys2Proof/Machine/Container.lean ====
section
/-! DEFINITION. The host's side of the container layer (47_host_container R230 to R245): plain functions over byte strings beside the block, which they drive through its registers (log 25). -/

namespace Sys2Proof.Machine

/-- A file of the driver: its name, character by character, and its bytes. -/
structure File where
  name : List Char
  bytes : List Byte
  deriving DecidableEq, Repr

/-- The parameters of a host model (47_host_container R231, R239, R242): the two magic numbers, the collaborators, and the host's integer width. -/
structure HostParams where
  /-- `MAGIC_COMP`. -/
  magicComp : Word
  /-- `MAGIC_INDEX`. -/
  magicIndex : Word
  /-- `CHECKSUM(seed, bytes)`, deterministic; none when the collaborator fails (R242). Nothing else is assumed of it. -/
  checksum : Word → List Byte → Option Word
  /-- Whether the persistence layer writes a file (R242). -/
  writes : File → Bool
  /-- The width in bits of the host's integers, in which offsets are computed (R242). -/
  offsetBits : Nat

/-- The two magic numbers are distinct (R231). -/
abbrev HostParams.Legal (H : HostParams) : Prop := H.magicComp ≠ H.magicIndex

/-- A container record (R230). -/
structure Record where
  bytes : List Byte
  isCompressed : Bool
  isChapter : Bool
  deriving DecidableEq, Repr

/-- What a transform fails with on the host side (R242, R243), or the block's own fault record (R240). -/
inductive HostError where
  /-- No magic where one is looked for, or a region boundary outside the buffer (R235, R237). -/
  | invalidData
  /-- Fewer than four bytes where a 32-bit number is read (R243). -/
  | bytesToU32Error
  /-- Surfaced from the checksum collaborator (R242). -/
  | checksumError
  /-- Surfaced from the persistence layer (R242). -/
  | writeError
  /-- The host's integers are too narrow for a computed offset (R242). -/
  | unsupportedArchitecture
  /-- The block ended in FAULT, with this record (R240). -/
  | blockFault (code : Byte) (index length : Word)
  /-- The block is neither IDLE nor DONE, where alone R240 lets a host drive it (log 25). -/
  | blockNotReady
  /-- The run did not end in DONE or FAULT: no run of the block does this (70_reset_and_hazards R292). -/
  | blockStopped
  deriving DecidableEq, Repr

/-! ## Marshaling (R243) -/

/-- `le32(v)`. -/
def le32 (v : Word) : List Byte := wordBytes v

/-- `u32le(B, a)`; it fails with `BytesToU32Error` when fewer than four bytes are available. -/
def u32le (bytes : List Byte) (a : Nat) : Except HostError Word :=
  match bytes.drop a with
  | b0 :: b1 :: b2 :: b3 :: _ => .ok (wordOf b0 b1 b2 b3)
  | _ => .error .bytesToU32Error

/-- An offset as the host computes it: one that its integers do not hold is `UnsupportedArchitecture` (R242; which offsets, log 25). -/
def HostParams.offset (H : HostParams) (n : Nat) : Except HostError Nat :=
  if n < 2 ^ H.offsetBits then .ok n else .error .unsupportedArchitecture

/-! ## Layout (R232, R233) -/

/-- The length of the chapter header. -/
def chapterHeader : Nat := 0xC0

/-- The length of the preamble before the payload: magic, version, length, checksum. -/
def preambleSize : Nat := 0x10

/-- The format version, the number 2. -/
def formatVersion : Word := 2

/-- `H`, the header size of a record (R232). -/
def Record.headerSize (r : Record) : Nat := if r.isChapter then chapterHeader else 0

/-- The header of a record, passed through unmodified. -/
def Record.header (r : Record) : List Byte := r.bytes.take r.headerSize

/-- `X`, the body of an uncompressed record. -/
def Record.body (r : Record) : List Byte := r.bytes.drop r.headerSize

/-- `P`, the payload of a compressed record. -/
def Record.payload (r : Record) : List Byte := r.bytes.drop (r.headerSize + preambleSize)

/-- What a magic number says a record is, if it is one of the two. A read that fails, which is R235's test of the length, finds none. -/
def magicKind (H : HostParams) (m : Except HostError Word) : Option Bool :=
  match m with
  | .error _ => none
  | .ok v => if v = H.magicComp then some true else if v = H.magicIndex then some false else none

/-- `detect(B)` (R235). -/
def detect (H : HostParams) (bytes : List Byte) : Except HostError Record :=
  match magicKind H (u32le bytes 0) with
  | some c => .ok { bytes := bytes, isCompressed := c, isChapter := false }
  | none =>
    match magicKind H (u32le bytes chapterHeader) with
    | some c => .ok { bytes := bytes, isCompressed := c, isChapter := true }
    | none => .error .invalidData

/-! ## Driving the block (R240, R241, 70_reset_and_hazards R283) -/

/-- `LOAD IN` from address `a` on. -/
def loadTurns : Nat → List Byte → List Turn
  | _, [] => []
  | a, b :: rest => .host (.writeIn a b) :: loadTurns (a + 1) rest

/-- The host's acts that run the command `code` on the bytes `x`, up to the first STATUS read that is not BUSY. What does not fit `IN` is not
loaded: the block then answers `LengthOverflow` (R240, log 25). -/
def commandTurns (inCap : Nat) (code : Word) (x : List Byte) : List Turn :=
  loadTurns 0 (x.take inCap) ++
    [.host (.writeReg 0x14 (BitVec.ofNat 32 x.length)), .host (.writeReg 0x00 code), .poll]

/-- How many steps the sequencer needs at most, the poll's read included: the fourteen phases of ENCODE and one, or DECODE's three
phases and one step for each stream bit and one that finds the stream empty (70_reset_and_hazards R292, 45_dec R207). -/
def commandSteps (code : Word) (x : List Byte) : Nat := if code = 1 then 15 else 8 * x.length + 5

/-- The bytes `OUT[0 .. OUT_LEN-1]`. -/
def State.result (s : State) : List Byte := (List.range s.outLen.toNat).map (memRead1 s.outBuf)

/-- `LengthOverflow` for a length that `IN_LEN` cannot hold, so that the block cannot be asked (R240, log 25). -/
def lengthRecord (P : Params) (n : Nat) : HostError :=
  .blockFault FaultName.lengthOverflow.code (diagnostic n) (diagnostic (if P.inCap < n then P.inCap else maxLen + 1 : Nat))

/-- What the host reads once STATUS is not BUSY: the result, or the fault record, followed by CLEAR (R240, R241). A DECODE that ended with `EOS` is
no error (R241). -/
def collect (t : State) : Except HostError (List Byte) × State :=
  match t.mode with
  | .done => (.ok t.result, t)
  | .fault => (.error (.blockFault t.errCode t.errIndex t.errLen), t.clear)
  | .idle | .busy => (.error .blockStopped, t)

/-- One command driven from a block that is IDLE or DONE (R240, R241); from any other it is not driven, and stays as it is. -/
def drive (code : Word) (x : List Byte) (s : State) : Except HostError (List Byte) × State :=
  if s.mode.acceptsRun = false then (.error .blockNotReady, s)
  else if 2 ^ 32 ≤ x.length then (.error (lengthRecord s.params x.length), s)
  else
    match core.run (x.length + 2 + commandSteps code x) { s with turns := commandTurns s.params.inCap code x } with
    | .next t => collect t
    | .fault _ | .refused _ => (.error .blockStopped, s)

/-! ## The transforms (R236, R237) -/

/-- The bytes of a compressed record (R233, R236), with the checksum `c` (R239). -/
def compressedBytes (H : HostParams) (header body : List Byte) (c : Word) (payload : List Byte) : List Byte :=
  header ++ le32 H.magicComp ++ le32 formatVersion ++ le32 (BitVec.ofNat 32 body.length) ++ le32 c ++ payload

/-- `checksum(checksum(0, Hd), X)`: over the header, then over the uncompressed body (R236, R239). -/
def recordChecksum (H : HostParams) (header body : List Byte) : Except HostError Word :=
  match H.checksum 0 header with
  | none => .error .checksumError
  | some c0 =>
    match H.checksum c0 body with
    | none => .error .checksumError
    | some c => .ok c

/-- `compress(r)`; a compressed record comes back as it is (R236). -/
def compress (H : HostParams) (r : Record) (s : State) : Except HostError Record × State :=
  if r.isCompressed then (.ok r, s)
  else
    match H.offset r.headerSize with
    | .error e => (.error e, s)
    | .ok _ =>
      match drive 1 r.body s with
      | (.error e, t) => (.error e, t)
      | (.ok p, t) =>
        match recordChecksum H r.header r.body with
        | .error e => (.error e, t)
        | .ok c =>
          (.ok { bytes := compressedBytes H r.header r.body c p, isCompressed := true, isChapter := r.isChapter }, t)

/-- `decompress(r)`; a raw record comes back as it is. Neither the version, the length field nor the checksum is examined (R237). -/
def decompress (H : HostParams) (r : Record) (s : State) : Except HostError Record × State :=
  if r.isCompressed = false then (.ok r, s)
  else
    match H.offset (r.headerSize + preambleSize) with
    | .error e => (.error e, s)
    | .ok start =>
      if r.bytes.length < start then (.error .invalidData, s)
      else
        match drive 2 r.payload s with
        | (.error e, t) => (.error e, t)
        | (.ok x, t) => (.ok { bytes := r.header ++ x, isCompressed := false, isChapter := r.isChapter }, t)

/-! ## The driver's contract (R244) -/

/-- One file's transform: the inverse of the form it is in. -/
def transform (H : HostParams) (bytes : List Byte) (s : State) : Except HostError Record × State :=
  match detect H bytes with
  | .error e => (.error e, s)
  | .ok r => if r.isCompressed then decompress H r s else compress H r s

/-- The suffix `_dec`. -/
def decSuffix : List Char := ['_', 'd', 'e', 'c']

/-- The suffix `_com`. -/
def comSuffix : List Char := ['_', 'c', 'o', 'm']

/-- A name without the suffix `_dec`, if it has it. -/
def stripDec (name : List Char) : List Char :=
  if name.drop (name.length - decSuffix.length) = decSuffix then name.take (name.length - decSuffix.length) else name

/-- The name of the file written for a record that was newly compressed or newly decompressed (R244). That `_com` follows the name from which `_dec`
is stripped is the model's reading (log 25). -/
def outputName (nowCompressed : Bool) (name : List Char) : List Char :=
  if nowCompressed then stripDec name ++ comSuffix else name ++ decSuffix

/-- The new file handed to the persistence layer (R242, R244). -/
def writeFile (H : HostParams) (f : File) : Except HostError File := if H.writes f then .ok f else .error .writeError

/-- One file of a batch: the file written, or the failure reported. -/
def transformFile (H : HostParams) (f : File) (s : State) : Except HostError File × State :=
  match transform H f.bytes s with
  | (.ok r, t) => (writeFile H { name := outputName r.isCompressed f.name, bytes := r.bytes }, t)
  | (.error e, t) => (.error e, t)

/-- A batch of files: each is tried once, a failure is reported for its file, and the next one is taken (R242, R244). -/
def transformAll (H : HostParams) : List File → State → List (Except HostError File)
  | [], _ => []
  | f :: rest, s =>
    let x := transformFile H f s
    x.1 :: transformAll H rest x.2

end Sys2Proof.Machine
end

