-- ==== Sys2Proof/Safety.lean ====
section
/-! DEFINITION. What claims are stated in: the invariant of the block, the fault entry as a relation, the Huffman tree and its flat form as predicates, and list-level references for the stream. -/

namespace Sys2Proof.Machine

/-! ## The invariant of the block -/

/-- A PHASE code of ENCODE (10_state R24). -/
abbrev Phase.Encoder (p : Phase) : Prop := 1 ≤ p.toNat ∧ p.toNat ≤ 14

/-- A PHASE code of DECODE (10_state R24). -/
abbrev Phase.Decoder (p : Phase) : Prop := 16 ≤ p.toNat ∧ p.toNat ≤ 19

/-- A codeword entry within its widths (10_state R32): `nbits` is `u8`, `cw` has 32 bytes. -/
abbrev Code.InBounds (c : Code) : Prop := c.nbits < 2 ^ 8 ∧ Memory.wf c.cw ∧ Table.Below 32 c.cw

/-- A node record within its widths (10_state R30): the weight as wide as a counter, the leaf count 9 bits, the links in the arena. -/
structure Node.InBounds (P : Params) (n : Node) : Prop where
  weight : n.weight < 2 ^ P.freqBits
  leafs : n.leafs < 2 ^ 9
  dad : ∀ d, n.dad = some d → d < maxNodes
  lson : ∀ d, n.lson = some d → d < maxNodes
  rson : ∀ d, n.rson = some d → d < maxNodes

/-- The internal tables and working registers within the widths and index ranges of 10_state R29 to R34, each table in canonical form. -/
structure Work.InBounds (P : Params) (w : Work) : Prop where
  freq : Table.Canonical 0 w.freq ∧ Table.Below nsym w.freq
  freqWidth : ∀ s, w.freqAt s < 2 ^ P.freqBits
  nleaf : w.nleaf ≤ nsym
  node : Table.Canonical Node.null w.node ∧ Table.Below maxNodes w.node
  nodes : ∀ i, (w.nodeAt i).InBounds P
  nnode : w.nnode ≤ maxNodes
  ctree : Memory.wf w.ctree ∧ Table.Below maxCtLen w.ctree
  cmask : Memory.wf w.cmask ∧ Table.Below maxCtLen w.cmask
  ctLen : w.ctLen ≤ maxCtLen
  code : Table.Canonical Code.null w.code ∧ Table.Below nsym w.code
  codes : ∀ b, (w.codeAt b).InBounds
  opos : w.opos < 2 ^ 32
  epos : w.epos < 2 ^ 32
  wordpos : w.wordpos < 2 ^ 32
  cwidx : w.cwidx < 2 ^ 5
  rpos : w.rpos < 2 ^ 32
  next : w.next < 2 ^ 16
  acc : w.acc < 2 ^ 3
  numBits : w.numBits < 2 ^ 4
  dlen : w.dlen < 2 ^ 24

/-- The fault record is empty (10_state R25). -/
abbrev State.NoRecord (s : State) : Prop := s.errCode = 0 ∧ s.errIndex = 0 ∧ s.errLen = 0

/-- What the host-visible registers hold in each `STATE` (10_state R24 to R28, 60_exceptions R262). -/
structure State.StatusOk (s : State) : Prop where
  idle : s.mode = .idle → s.phase = Phase.none ∧ s.eos = false ∧ s.NoRecord ∧ s.outLen = 0 ∧ s.wpos = 0
  busy : s.mode = .busy →
    (s.phase.Encoder ∨ s.phase.Decoder) ∧ s.NoRecord ∧ s.outLen = 0 ∧ s.inLen.toNat ≤ s.params.inCap
  done : s.mode = .done → s.NoRecord ∧ s.outLen.toNat ≤ s.params.outCap ∧
    (s.phase = Phase.encDone ∧ s.eos = false ∧ s.wpos = 0 ∨
      s.phase = Phase.decDone ∧ (s.eos = true → s.wpos.toNat < s.outLen.toNat) ∧ (s.eos = false → s.wpos = s.outLen))
  fault : s.mode = .fault → (s.phase.Encoder ∨ s.phase.Decoder) ∧ s.eos = false ∧ s.outLen = 0 ∧ s.wpos = 0 ∧
    1 ≤ s.errCode.toNat ∧ s.errCode.toNat ≤ 13

/-- The sum of the 256 counters of a frequency table. -/
def counterSum (f : Table Nat) : Nat := ((List.range nsym).map (Table.get 0 f)).sum

/-- The sum of the 256 counters. -/
def Work.freqTotal (w : Work) : Nat := counterSum w.freq

/-- The sum of the weights of the nodes that have no parent yet. -/
def Work.freeWeight (w : Work) : Nat := (w.parentless.map fun i => (w.nodeAt i).weight).sum

/-- The sum of the leaf counts of the nodes that have no parent yet. -/
def Work.freeLeafs (w : Work) : Nat := (w.parentless.map w.leafsOf).sum

/-- What holds between the phases of a running ENCODE: what it was accepted with (40_host_commands R102), how far the counters and the weights can have
come (41_enc_freq R120 to R124, 42_enc_tree R130, R131), and how much has been appended to `OUT` (44_enc_codes_emit R179, R182, R183, R185). -/
structure State.EncodeOk (s : State) : Prop where
  operands : s.mode = .busy → s.phase.Encoder → s.eos = false ∧ s.wpos = 0 ∧ s.inLen.toNat ≤ maxLen
  count : s.mode = .busy → s.phase = Phase.encCount → s.work.freqTotal = 0
  patch : s.mode = .busy → s.phase = Phase.encPatch → s.work.freqTotal ≤ maxLen
  leaves : s.mode = .busy → s.phase = Phase.encLeaves → s.work.freqTotal ≤ maxLen + 4
  merge : s.mode = .busy → s.phase = Phase.encMerge → s.work.freeWeight ≤ maxLen + 4 ∧ s.work.freeLeafs ≤ nsym
  treeout : s.mode = .busy → s.phase = Phase.encTreeout → s.work.opos = 4
  emit : s.mode = .busy → s.phase = Phase.encEmit → s.work.opos ≤ 4 + maxCtLen
  output : s.mode = .busy → (s.phase = Phase.encTreeout ∨ s.phase = Phase.encEmit ∨ s.phase = Phase.encDone) →
    s.work.opos ≤ s.params.outCap

/-- What holds between the phases of a running DECODE (45_dec R201 to R207). -/
structure State.DecodeOk (s : State) : Prop where
  start : s.mode = .busy → (s.phase = Phase.decHdr ∨ s.phase = Phase.decTree) → s.eos = false ∧ s.wpos = 0
  header : s.mode = .busy → (s.phase = Phase.decTree ∨ s.phase = Phase.decStep ∨ s.phase = Phase.decDone) →
    s.work.dlen ≤ s.params.outCap ∧ s.work.numBits ∈ [1, 2, 4, 8]
  walk : s.mode = .busy → s.phase = Phase.decStep →
    s.eos = false ∧ s.wpos.toNat < s.work.dlen ∧ s.work.rpos ≤ s.inLen.toNat
  finish : s.mode = .busy → s.phase = Phase.decDone →
    (s.eos = true → s.wpos.toNat < s.work.dlen) ∧ (s.eos = false → s.wpos.toNat = s.work.dlen)

/-- The invariant that every step keeps. -/
structure State.Inv (s : State) : Prop where
  legal : s.params.Legal
  inBuf : Memory.wf s.inBuf ∧ Table.Below s.params.inCap s.inBuf
  outBuf : Memory.wf s.outBuf ∧ Table.Below s.params.outCap s.outBuf
  work : s.work.InBounds s.params
  status : s.StatusOk
  encode : s.EncodeOk
  decode : s.DecodeOk

/-! ## Fault entry as a relation -/

/-- `t` is `s` after the entry of a fault (60_exceptions R262): the record written, `OUT_LEN`, `WPOS`, `EOS` zeroed, `STATE` FAULT, `PHASE`
kept, `IN` and `IN_LEN` unchanged. `OUT` and the internal state are unspecified. -/
structure Faulted (s t : State) (name : FaultName) (index : Int) (length : Nat) : Prop where
  errCode : t.errCode = name.code
  errIndex : t.errIndex = if index < 0 then 0xFFFFFFFF#32 else BitVec.ofNat 32 index.toNat
  errLen : t.errLen = BitVec.ofNat 32 length
  outLen : t.outLen = 0
  wpos : t.wpos = 0
  eos : t.eos = false
  mode : t.mode = .fault
  phase : t.phase = s.phase
  inBuf : t.inBuf = s.inBuf
  inLen : t.inLen = s.inLen
  host : t.params = s.params ∧ t.turns = s.turns ∧ t.rdData = s.rdData

/-- `t` is `s` when the sequencer's part of an operation is over: what no operation of the sequencer writes (20_memory R50, 10_state R26). -/
structure HostSideKept (s t : State) : Prop where
  inBuf : t.inBuf = s.inBuf
  inLen : t.inLen = s.inLen
  params : t.params = s.params
  turns : t.turns = s.turns
  rdData : t.rdData = s.rdData

/-! ## The Huffman tree (42_enc_tree R130 to R135) -/

/-- The arena as ENC.LEAVES leaves it: `NLEAF` leaves, at least two, and nothing else in use (R130, 41_enc_freq R124). -/
structure Work.OnlyLeaves (w : Work) : Prop where
  count : 2 ≤ w.nleaf ∧ w.nleaf ≤ nsym ∧ w.nnode = w.nleaf
  leaf : ∀ i < w.nleaf, (w.nodeAt i).sym.toNat < 256 ∧ w.leafsOf i = 1 ∧
    (w.nodeAt i).dad = none ∧ (w.nodeAt i).lson = none ∧ (w.nodeAt i).rson = none

/-- The sum of the weights of the leaves. -/
def Work.leafWeight (w : Work) : Nat := ((List.range w.nleaf).map fun i => (w.nodeAt i).weight).sum

/-- The arena as ENC.MERGE leaves it: one rooted tree over the leaves (R134, R135). -/
structure Work.IsTree (w : Work) : Prop where
  count : 2 ≤ w.nleaf ∧ w.nleaf ≤ nsym ∧ w.nnode = 2 * w.nleaf - 1
  leaf : ∀ i < w.nleaf, (w.nodeAt i).sym.toNat < 256 ∧ w.leafsOf i = 1 ∧
    (w.nodeAt i).lson = none ∧ (w.nodeAt i).rson = none
  internal : ∀ i, w.nleaf ≤ i → i < w.nnode → ∃ a b, (w.nodeAt i).lson = some a ∧ (w.nodeAt i).rson = some b ∧
    a < i ∧ b < i ∧ a ≠ b ∧ (w.nodeAt a).dad = some i ∧ (w.nodeAt b).dad = some i ∧
    w.leafsOf i = w.leafsOf a + w.leafsOf b ∧ (w.nodeAt i).weight = (w.nodeAt a).weight + (w.nodeAt b).weight ∧
    (w.nodeAt a).weight ≤ (w.nodeAt b).weight ∧ (w.nodeAt i).sym.toNat = 256 + (i - w.nleaf)
  parent : ∀ i, i + 1 < w.nnode → ∃ d, (w.nodeAt i).dad = some d ∧ i < d ∧ d < w.nnode ∧ w.nleaf ≤ d ∧
    ((w.nodeAt d).lson = some i ∨ (w.nodeAt d).rson = some i)
  root : (w.nodeAt (w.nnode - 1)).dad = none ∧ w.leafsOf (w.nnode - 1) = w.nleaf ∧
    (w.nodeAt (w.nnode - 1)).weight = w.leafWeight

/-! ## The flat tree (43_enc_ctree R154, R161) -/

/-- Node `n` stands packed at slot `x`, offsets and masks apart, as after ENC.PACK (R154): a leaf as its symbol under the sentinel mask, an internal
node as the offset of the pair that holds its children, under the mask of its leaf children. -/
inductive Work.Packed (w : Work) : (n x : Nat) → Prop where
  | leaf (n x : Nat) (h : w.leafsOf n = 1) (hm : w.maskSlot x = leafSentinel)
      (ht : (w.slot x).toNat = (w.nodeAt n).sym.toNat) : Work.Packed w n x
  | node (n x : Nat) (h : w.leafsOf n ≠ 1) (hm : w.maskSlot x = w.leafFlags n)
      (hc : pairBase x + pairDistance (w.slot x).toNat + 1 < w.ctLen)
      (hl : Work.Packed w (w.leftOf n) (pairBase x + pairDistance (w.slot x).toNat))
      (hr : Work.Packed w (w.rightOf n) (pairBase x + pairDistance (w.slot x).toNat + 1)) : Work.Packed w n x

/-- Node `n` stands at slot `x` of the finished flat tree, as after ENC.FINAL (R161, 30_encoding R75 to R77). -/
inductive Work.Finished (w : Work) : (n x : Nat) → Prop where
  | leaf (n x : Nat) (h : w.leafsOf n = 1) (ht : (w.slot x).toNat = (w.nodeAt n).sym.toNat) : Work.Finished w n x
  | node (n x : Nat) (h : w.leafsOf n ≠ 1) (hc : leftChild x (w.slot x) + 1 < w.ctLen)
      (hfl : childIsLeaf (w.slot x) false = decide (w.leafsOf (w.leftOf n) = 1))
      (hfr : childIsLeaf (w.slot x) true = decide (w.leafsOf (w.rightOf n) = 1))
      (hl : Work.Finished w (w.leftOf n) (leftChild x (w.slot x)))
      (hr : Work.Finished w (w.rightOf n) (leftChild x (w.slot x) + 1)) : Work.Finished w n x

/-- No internal slot from 1 on holds an offset above the six-bit field (R156). -/
abbrev Work.NoOverflow (w : Work) : Prop :=
  ∀ i, 1 ≤ i → i < w.ctLen → w.maskSlot i ≠ leafSentinel → (w.slot i).toNat ≤ hufNext

/-- Every pair from 1 on is the children's pair of exactly one internal slot, by the offsets before ENC.FINAL (43_enc_ctree R157, 30_encoding R77). -/
abbrev Work.PairsAddressedOnce (w : Work) : Prop :=
  ∀ k < w.ctLen / 2, 1 ≤ k → ((List.range w.ctLen).filter fun x =>
    1 ≤ x ∧ w.maskSlot x ≠ leafSentinel ∧ targetPair x (w.slot x) = k).length = 1

/-! ## What one relocation does (43_enc_ctree R157) -/

/-- The other slot of the pair of `I`. -/
def Work.siblingSlot (w : Work) : Nat := if w.upI % 2 = 1 then w.upI - 1 else w.upI + 1

/-- Whether the sibling of `I` is an internal slot with the offset 0x3F, which step (a) looks for (log 36). -/
abbrev Work.SiblingFull (w : Work) : Prop := (w.slot w.siblingSlot).toNat = hufNext ∧ w.maskSlot w.siblingSlot ≠ leafSentinel

/-- The slot that the relocation acts on: the sibling of `I` when that is full, else `I` (a). -/
def Work.actingSlot (w : Work) : Nat := if w.SiblingFull then w.siblingSlot else w.upI

/-- `INC`, the pairs by which the acting slot's children come nearer (a). -/
def Work.pullBy (w : Work) : Nat := if w.SiblingFull then 1 else (w.slot w.upI).toNat - hufNext

/-- `N1`, the pair of the acting slot's children (b). -/
def Work.movedPair (w : Work) : Nat := targetPair w.actingSlot (w.slot w.actingSlot)

/-- Where pair `k` stands after the relocation: `N1` at `N0`, the pairs `N0 .. N1-1` one further up, the others as before (c). -/
def Work.pairAfter (w : Work) (k : Nat) : Nat :=
  if k = w.movedPair then w.movedPair - w.pullBy
  else if w.movedPair - w.pullBy ≤ k ∧ k < w.movedPair then k + 1
  else k

/-- Where slot `x` stands after the relocation. -/
def Work.slotAfter (w : Work) (x : Nat) : Nat := 2 * w.pairAfter (x / 2) + x % 2

/-- `w'` is the flat tree of `w` with its pairs moved as `pairAfter` says: masks and symbols move with their slots, and every internal slot reaches the pair
that it reached before, where that now stands. -/
structure Work.Relocated (w w' : Work) : Prop where
  mask : ∀ x, 1 ≤ x → x < w.ctLen → w'.maskSlot (w.slotAfter x) = w.maskSlot x
  leaf : ∀ x, 1 ≤ x → x < w.ctLen → w.maskSlot x = leafSentinel → w'.slot (w.slotAfter x) = w.slot x
  internal : ∀ x, 1 ≤ x → x < w.ctLen → w.maskSlot x ≠ leafSentinel →
    targetPair (w.slotAfter x) (w'.slot (w.slotAfter x)) = w.pairAfter (targetPair x (w.slot x))

/-- How many leaf slots hold the byte `b` (43_enc_ctree R159). -/
def Work.leavesHolding (w : Work) (b : Byte) : Nat :=
  (List.range w.ctLen).countP fun x => w.maskSlot x = leafSentinel ∧ w.slot x = b

/-- `I` is the first slot from 1 on whose offset is too large (43_enc_ctree R156). -/
abbrev Work.FirstOverflow (w : Work) : Prop :=
  1 ≤ w.upI ∧ w.upI < w.ctLen ∧ w.overflows w.upI = true ∧ ∀ j < w.upI, 1 ≤ j → w.overflows j = false

/-- Only the acting slot reaches the pair that is moved. -/
abbrev Work.MovedReachedOnce (w : Work) : Prop :=
  ∀ j < w.ctLen, 1 ≤ j → j ≠ w.actingSlot → w.maskSlot j ≠ leafSentinel → targetPair j (w.slot j) ≠ w.movedPair

/-- A full sibling is not slot 0, and the pair before it holds no offset of 0x3F: step (e) begins after the acting slot, so such an offset would no longer lead to
its pair, which moves up. No run is known in which either occurs (log 36). -/
abbrev Work.SiblingSound (w : Work) : Prop :=
  w.SiblingFull → 1 ≤ w.siblingSlot ∧
    ∀ j < w.upI, 1 ≤ j → j / 2 + 1 = w.upI / 2 → w.maskSlot j ≠ leafSentinel → (w.slot j).toNat ≠ hufNext

/-- A relocation at `I` that leads no internal slot to another pair than before. -/
abbrev Work.RelocationSafe (w : Work) : Prop := w.FirstOverflow ∧ w.MovedReachedOnce ∧ w.SiblingSound

/-- Whether every relocation of a scan from `I` on is safe, for as many as `fuel` allows (43_enc_ctree R156). -/
def Work.relocationsSafe (P : Params) : (fuel : Nat) → Work → Bool
  | 0, _ => true
  | fuel + 1, w =>
    let u := scanFrom (w.ctLen - w.upI) w
    if u.upI < u.ctLen then
      decide u.FirstOverflow && decide u.MovedReachedOnce && decide u.SiblingSound && match relocate P u with
        | .ok v => Work.relocationsSafe P fuel v
        | .error _ => true
    else true

/-- Whether every relocation that ENC.UPDATE makes of a flat tree is safe. -/
def Work.updateSafe (P : Params) (w : Work) : Bool := Work.relocationsSafe P (P.updateMaxMoves + 1) { w with moves := 0, upI := 1 }

/-! ## The stream, by lists (30_encoding R79 to R81, 44_enc_codes_emit R184, 45_dec R204 to R206) -/

/-- The bits of a codeword, root side first (30_encoding R81). -/
def Code.bits (c : Code) : List Bool := (List.range c.nbits).map c.bit

/-- The codewords of the first `n` input bytes, one after the other, without padding (30_encoding R79). -/
def Work.inputBits (w : Work) (inBuf : Table Byte) (n : Nat) : List Bool :=
  (List.range n).flatMap fun i => (w.codeAt (memRead1 inBuf i)).bits

/-- How many stream words `n` bits need (30_encoding R79). -/
def wordsFor (n : Nat) : Nat := (n + 31) / 32

/-- Bit `k` of the stream of words that begins at byte address `a`: bit 31 of a word comes first (20_memory R53). -/
def streamBitAt (m : Table Byte) (a k : Nat) : Bool := (memRead4 m (a + 4 * (k / 32))).getLsbD (31 - k % 32)

/-- The bits of `n` stream words from byte address `a` on. -/
def streamBits (m : Table Byte) (a n : Nat) : List Bool := (List.range (32 * n)).map (streamBitAt m a)

/-- The walk from the node of byte `b` with pair base `base`: the symbol it ends at and the bits it leaves; none when it leaves the tree or the
bits run out before a leaf (45_dec R204, R205). -/
def walk (tree : Nat → Byte) (len : Nat) : (b : Byte) → (base : Nat) → List Bool → Option (Byte × List Bool)
  | _, _, [] => none
  | b, base, bit :: rest =>
    let c := base + pairDistance (offsetOf b)
    let idx := if bit then c + 1 else c
    if len ≤ idx then none
    else if childIsLeaf b bit then some (tree idx, rest)
    else walk tree len (tree idx) c rest

/-- `n` symbols walked one after the other, each from the root node at slot 1 (45_dec R206). -/
def walkMany (tree : Nat → Byte) (len : Nat) : Nat → List Bool → Option (List Byte)
  | 0, _ => some []
  | n + 1, bits =>
    match walk tree len (tree 1) 0 bits with
    | none => none
    | some (b, rest) => (walkMany tree len n rest).map (b :: ·)

/-! ## Counting (41_enc_freq R121, R123, 42_enc_tree R130, R131) -/

/-- How often the byte `b` stands in `IN[0 .. n-1]`. -/
def occurrences (m : Table Byte) (n : Nat) (b : Byte) : Nat := (List.range n).countP fun i => memRead1 m i = b

/-- How many symbols below `n` have a counter that is not 0. -/
def Work.presentBelow (w : Work) (n : Nat) : Nat := (List.range n).countP fun s => w.freqAt s ≠ 0

/-- `FREQ` holds `g b` for every symbol `b`; what lies beyond the 256 counters is as in `w`. -/
abbrev Work.FreqIs (w : Work) (f : Table Nat) (g : Nat → Nat) : Prop :=
  ∀ b, Table.get 0 f b = if b < nsym then g b else w.freqAt b

/-- `a` is the element of `C` that R131 selects: the smallest weight and, among equal weights, the smallest index. -/
abbrev Work.Selected (w : Work) (C : Nat → Prop) (a : Nat) : Prop :=
  C a ∧ ∀ c, C c → (w.nodeAt a).weight < (w.nodeAt c).weight ∨ ((w.nodeAt a).weight = (w.nodeAt c).weight ∧ a ≤ c)

/-- The node that a path given root side first ends at, from node `n` down (42_enc_tree R136). -/
def Work.descend (w : Work) (n : Nat) (bits : List Bool) : Nat :=
  bits.foldl (fun m bit => if bit then w.rightOf m else w.leftOf m) n

/-! ## The decoder's stream (45_dec R204) -/

/-- The stream is at its end: the mask is exhausted and no whole word is left (45_dec R204). -/
abbrev State.StreamEnded (s : State) : Prop := s.work.dmask4 >>> 1 = 0 ∧ s.inLen.toNat < s.work.rpos + 4

/-- The decoder's stream registers after a fetch that does not end the run: a new word when the mask is exhausted, else the next lower bit
(45_dec R204). -/
def State.fetched (s : State) : State :=
  if s.work.dmask4 >>> 1 = 0 then
    { s with work := { s.work with codew := memRead4 s.inBuf s.work.rpos, rpos := s.work.rpos + 4, dmask4 := 0x80000000#32 } }
  else { s with work := { s.work with dmask4 := s.work.dmask4 >>> 1 } }

/-- The phase that follows a step of the decoder (45_dec R207). -/
def phaseAfter (wpos : Word) (dlen : Nat) : Phase := if wpos.toNat < dlen then 18#5 else 19#5

/-! ## What the host can see -/

/-- The state that the host can read once a command has ended: everything but the internal state and the count of free values drawn (10_state
R38). -/
structure SameToHost (s t : State) : Prop where
  status : t.mode = s.mode ∧ t.eos = s.eos ∧ t.phase = s.phase
  record : t.errCode = s.errCode ∧ t.errIndex = s.errIndex ∧ t.errLen = s.errLen
  lengths : t.inLen = s.inLen ∧ t.outLen = s.outLen ∧ t.wpos = s.wpos
  inBuf : t.inBuf = s.inBuf
  outBuf : ∀ a < s.outLen.toNat, memRead1 t.outBuf a = memRead1 s.outBuf a

end Sys2Proof.Machine
end

