-- ==== Sys2Proof/Certificates/Slice0/Obligations.lean ====
section
/-! DEFINITION. The statements for the provers, from the spec's numbered rules. -/

open Sys2Proof Sys2Proof.Machine

/-! ## Encodings -/

/-- Words written out from 30_encoding R71, R74 to R76, R79, R83 and 10_state R24 decode to the operations they stand for. -/
def Obligations.SpecWordsDecode : Prop :=
  decode .hostCmd [0x02, 0x00, 0x00, 0x00] = .ok (.cmdDecode, []) ∧
  decode .hostCmd [0x01, 0x01, 0x00, 0xFF] = .ok (.cmdEncode, []) ∧
  decode .phase [0x08] = .ok (.encUpdate, []) ∧
  decode .phase [0x12] = .ok (.decStep, []) ∧
  decode .cw [0x28, 0x0B, 0x00, 0x00] = .ok (.cw 11 2 8, []) ∧
  decode .tbSize [0x05] = .ok (.tbSize 5, []) ∧
  decode .tbNode [0xC1] = .ok (.tbNode true true 1, []) ∧
  decode .tbNode [0x80] = .ok (.tbNode true false 0, []) ∧
  decode .tbLeaf [0x41] = .ok (.tbLeaf 0x41, []) ∧
  decode .swBit [0x01] = .ok (.swBit true, [])

/-- Decoding the encoding of any operation gives it back, with every operand at every value (30_encoding R71, R74 to R76, R79, R83, R89). -/
def Obligations.DecodeEncodeAgree : Prop :=
  ∀ (i : Instr) (rest : List Byte), decode i.format (encode i ++ rest) = .ok (i, rest)

/-- A word, tree byte of the payload read as an element is that element's only encoding: no bit of it is dropped (30_encoding R71, R74 to R76,
"Every byte value is a legal tree byte", R85). -/
def Obligations.PayloadEncodingExact : Prop :=
  ∀ (f : Format) (bytes rest : List Byte) (i : Instr), f = .cw ∨ f = .tbSize ∨ f = .tbNode ∨ f = .tbLeaf →
    decode f bytes = .ok (i, rest) → i.format = f ∧ encode i ++ rest = bytes

/-- The host command codes from 4 on and the PHASE codes 0, 15 and 20 to 31 stand for no operation, and no other code is refused; of the
payload's elements only a command word can be ill-formed, by its NBITS (30_encoding R85, 10_state R24). That the decoder rejects the reserved command codes, which
30_encoding R83 only has ignored, is the model's reading (log 15); ReservedCommandsIgnored says that such a write is ignored. -/
def Obligations.UnassignedCodesRejected : Prop :=
  (∀ v : Word, (∃ e, decodeCommand v = .error e) ↔ 4 ≤ v.toNat % 256) ∧
  (∀ p : Phase, (∃ e, decodePhase p = .error e) ↔ p.toNat = 0 ∨ p.toNat = 15 ∨ 20 ≤ p.toNat) ∧
  (∀ i : Instr, i.wellFormed = false ↔ ∃ len kind nbits, i = .cw len kind nbits ∧ nbits.toNat ∉ [1, 2, 4, 8])

/-! ## A step runs the decoded operation -/

/-- A host write of CMD runs the command its word decodes to; a running block's turn runs the phase at PHASE; otherwise the sequencer runs
nothing (10_state R22, R24, 70_reset_and_hazards R281). The turns are the model's own schedule (log 2). -/
def Obligations.StepRunsDecoded : Prop :=
  (∀ (s : State) (rest : List Turn) (v : Word) (i : Instr), s.turns = .host (.writeReg 0 v) :: rest →
    decode .hostCmd (wordBytes v) = .ok (i, []) → step s = exec i { s with turns := rest }) ∧
  (∀ (s : State) (i : Instr), s.mode = .busy → decode .phase [s.phase.setWidth 8] = .ok (i, []) →
    (s.turns = [] → step s = exec i s) ∧
    (∀ rest, s.turns = .sequencer :: rest → step s = exec i { s with turns := rest }) ∧
    (∀ rest, s.turns = .poll :: rest → step s = exec i s)) ∧
  (∀ s : State, s.mode ≠ .busy → s.turns = [] → step s = .next s)

/-- The payload's elements are run by the decoder's phases: DEC.HDR runs the command word at `IN[0..3]`, DEC.TREE the size byte at `IN[4]`,
DEC.STEP the next stream bit, and a stream bit the tree byte it selects, as a leaf or as a node by the flag of the node stood on (45_dec R201 to
R206, 90_conflicts C6, log 17). -/
def Obligations.PayloadElementsAreRun : Prop :=
  (∀ (s : State) (i : Instr), 4 ≤ s.inLen.toNat →
    decode .cw [memRead1 s.inBuf 0, memRead1 s.inBuf 1, memRead1 s.inBuf 2, memRead1 s.inBuf 3] = .ok (i, []) →
    exec .decHdr s = exec i s) ∧
  (∀ (s : State) (i : Instr), 5 ≤ s.inLen.toNat → decode .tbSize [memRead1 s.inBuf 4] = .ok (i, []) →
    exec .decTree s = exec i s) ∧
  (∀ (s : State) (i : Instr), ¬ s.StreamEnded →
    decode .swBit [if s.fetched.work.codew &&& s.fetched.work.dmask4 = 0 then 0 else 1] = .ok (i, []) →
    exec .decStep s = exec i s.fetched) ∧
  (∀ (s : State) (bit : Bool) (i : Instr),
    let c := s.work.next + 2 * (s.work.pos.toNat % 64 + 1)
    let x := if bit then c + 1 else c
    x < s.work.ctLen →
    decode (if (if bit then s.work.pos.getLsbD 6 else s.work.pos.getLsbD 7) then .tbLeaf else .tbNode) [s.work.slot x] = .ok (i, []) →
    exec (.swBit bit) s = exec i { s with work := { s.work with next := c } })

/-! ## The host commands -/

/-- NOP in every state changes nothing (40_host_commands R101). -/
def Obligations.NopChangesNothing : Prop :=
  (∀ v : Word, v.toNat % 256 = 0 → decodeCommand v = .ok .cmdNop) ∧ ∀ s : State, exec .cmdNop s = .next s

/-- A write of a reserved command code changes nothing, in every state (40_host_commands R105). The write is the head of `turns` (log 2). -/
def Obligations.ReservedCommandsIgnored : Prop :=
  ∀ (s : State) (rest : List Turn) (v : Word), s.turns = .host (.writeReg 0 v) :: rest → 4 ≤ v.toNat % 256 →
    step s = .next { s with turns := rest }

/-- ENCODE and DECODE accepted: BUSY at the first phase, the status, the lengths and the record zeroed, and nothing else changed
(40_host_commands R100, R102, R103). -/
def Obligations.CommandsStart : Prop :=
  (∀ s : State, s.mode = .idle ∨ s.mode = .done → s.inLen.toNat ≤ s.params.inCap → s.inLen.toNat ≤ 2 ^ 24 - 1 →
    exec .cmdEncode s = .next { s with
      mode := .busy, eos := false, phase := 1#5, outLen := 0, wpos := 0, errCode := 0, errIndex := 0, errLen := 0 }) ∧
  (∀ s : State, s.mode = .idle ∨ s.mode = .done → s.inLen.toNat ≤ s.params.inCap →
    exec .cmdDecode s = .next { s with
      mode := .busy, eos := false, phase := 16#5, outLen := 0, wpos := 0, errCode := 0, errIndex := 0, errLen := 0 })

/-- An accepted command whose `IN_LEN` is above `IN_CAP`, or for ENCODE above `2^24 - 1`, takes `LengthOverflow`, the first test first
(40_host_commands R102, R103, 60_exceptions R254). -/
def Obligations.OverlongInputFaults : Prop :=
  ∀ s : State, s.mode = .idle ∨ s.mode = .done →
    (s.params.inCap < s.inLen.toNat → ∃ t, exec .cmdEncode s = .next t ∧
      Faulted { s with phase := 1#5 } t .lengthOverflow s.inLen.toNat s.params.inCap) ∧
    (s.inLen.toNat ≤ s.params.inCap → 2 ^ 24 - 1 < s.inLen.toNat → ∃ t, exec .cmdEncode s = .next t ∧
      Faulted { s with phase := 1#5 } t .lengthOverflow s.inLen.toNat 0x1000000) ∧
    (s.params.inCap < s.inLen.toNat → ∃ t, exec .cmdDecode s = .next t ∧
      Faulted { s with phase := 16#5 } t .lengthOverflow s.inLen.toNat s.params.inCap)

/-- CLEAR, in every state but BUSY: IDLE, the status, the record and the lengths zeroed; `IN_LEN`, `IN` and `OUT` are not changed. While BUSY it is
ignored (40_host_commands R104). -/
def Obligations.ClearReturnsToIdle : Prop :=
  ∀ s : State,
    (s.mode ≠ .busy → exec .cmdClear s = .next { s with
      mode := .idle, eos := false, phase := 0#5, errCode := 0, errIndex := 0, errLen := 0, outLen := 0, wpos := 0 }) ∧
    (s.mode = .busy → exec .cmdClear s = .next s)

/-- While BUSY every write of CMD is ignored; in FAULT every write whose code is not CLEAR's (40_host_commands R100). The write is the head of `turns` (log 2). -/
def Obligations.CommandsIgnoredByState : Prop :=
  ∀ (s : State) (rest : List Turn) (v : Word), s.turns = .host (.writeReg 0 v) :: rest →
    s.mode = .busy ∨ (s.mode = .fault ∧ v.toNat % 256 ≠ 3) → step s = .next { s with turns := rest }

/-- Reset, at any time and in any state: STATE IDLE, every register reads 0, no fault is recorded (70_reset_and_hazards R280). What the buffers and
the internal state hold is left open. That the host's act is the head of `turns` is the model's schedule (log 2). -/
def Obligations.ResetClearsRegisters : Prop :=
  ∀ (s : State) (rest : List Turn), s.turns = .host .reset :: rest →
    ∃ t, step s = .next t ∧ t.mode = .idle ∧ t.eos = false ∧ t.phase = 0 ∧ t.errCode = 0 ∧ t.errIndex = 0 ∧ t.errLen = 0 ∧
      t.inLen = 0 ∧ t.outLen = 0 ∧ t.wpos = 0 ∧ (∀ r : Reg, r.value t = 0) ∧
      t.params = s.params ∧ t.turns = rest ∧ t.rdData = s.rdData

/-! ## The register map and the buffers -/

/-- What the host reads (10_state R21 to R28, 70_reset_and_hazards R289). When not BUSY a read returns the register and changes nothing else. While BUSY a
read of STATUS returns STATE = 1 and zero in the reserved bits; that CMD reads 0 and IN_LEN is readable then are the model's reading (logs 10, 31), and so is that
OUT_LEN, WPOS and ERR_* have their values before a STATUS read has returned DONE or FAULT (log 35). -/
def Obligations.RegisterReads : Prop :=
  (∀ (s : State) (rest : List Turn) (off v : Word), s.mode ≠ .busy → s.turns = .host (.readReg off) :: rest →
    (off, v) ∈ [(0x00, 0), (0x08, s.errCode.setWidth 32), (0x0C, s.errIndex), (0x10, s.errLen), (0x14, s.inLen),
      (0x18, s.outLen), (0x1C, s.wpos)] →
    step s = .next { s with turns := rest, rdData := v }) ∧
  (∀ (s : State) (rest : List Turn), s.mode ≠ .busy → s.turns = .host (.readReg 0x04) :: rest →
    ∃ v : Word, step s = .next { s with turns := rest, rdData := v } ∧ v.extractLsb' 0 2 = s.mode.code ∧ v.getLsbD 2 = s.eos ∧
      v.extractLsb' 3 5 = 0#5 ∧ v.extractLsb' 8 5 = s.phase ∧ v.extractLsb' 13 19 = 0#19) ∧
  (∀ (s : State) (rest : List Turn) (off : Word), s.mode = .busy → s.turns = .host (.readReg off) :: rest →
    off ∈ [(0x00 : Word), 0x04, 0x08, 0x0C, 0x10, 0x14, 0x18, 0x1C] →
    ∃ (v : Word) (n : Nat), step s = .next { s with turns := rest, rdData := v, draws := n } ∧ (off = 0x00 → v = 0) ∧
      (off = 0x14 → v = s.inLen) ∧ (off = 0x04 → v.extractLsb' 0 2 = 1#2 ∧ v.extractLsb' 3 5 = 0#5 ∧ v.extractLsb' 13 19 = 0#19))

/-- What the host's register writes other than CMD do: `IN_LEN` takes the value unless BUSY, the read-only registers ignore the write (10_state R21,
R26, 60_exceptions R257). -/
def Obligations.RegisterWrites : Prop :=
  ∀ (s : State) (rest : List Turn) (off v : Word), s.turns = .host (.writeReg off v) :: rest →
    (off = 0x14 → s.mode ≠ .busy → step s = .next { s with turns := rest, inLen := v }) ∧
    (off = 0x14 → s.mode = .busy → step s = .next { s with turns := rest }) ∧
    (off ∈ [(0x04 : Word), 0x08, 0x0C, 0x10, 0x18, 0x1C] → step s = .next { s with turns := rest })

/-- The host's accesses to the buffers when not BUSY (20_memory R50, R66): one byte of `IN` written and no other, one byte of `OUT` read. That `OUT` is
readable in IDLE and FAULT too, and in DONE before a STATUS read has returned it, is the model's choice (logs 32, 35). -/
def Obligations.BufferAccess : Prop :=
  (∀ (s : State) (rest : List Turn) (a : Nat) (b : Byte), s.mode ≠ .busy → a < s.params.inCap →
    s.turns = .host (.writeIn a b) :: rest →
    ∃ m, step s = .next { s with turns := rest, inBuf := m } ∧
      ∀ c, memRead1 m c = if c = a then b else memRead1 s.inBuf c) ∧
  (∀ (s : State) (rest : List Turn) (a : Nat), s.mode ≠ .busy → a < s.params.outCap → s.turns = .host (.readOut a) :: rest →
    step s = .next { s with turns := rest, rdData := (memRead1 s.outBuf a).setWidth 32 })

/-! ## ENCODE: the frequency table -/

/-- ENC.INIT zeroes the counters, makes every codeword invalid and zeroes NLEAF, NNODE, CT_LEN and MOVES; nothing else changes (41_enc_freq R120). -/
def Obligations.InitZeroesTables : Prop :=
  ∀ s : State, ∃ f c, exec .encInit s = .next { s with
      phase := 2#5, work := { s.work with freq := f, code := c, nleaf := 0, nnode := 0, ctLen := 0, moves := 0 } } ∧
    s.work.FreqIs f (fun _ => 0) ∧
    ∀ b, Table.get Code.null c b =
      if b < 256 then { Table.get Code.null s.work.code b with valid := false } else Table.get Code.null s.work.code b

/-- ENC.COUNT adds to each counter the occurrences of its byte and sets NLEAF to the number of counters that are not 0, unless some counter is at
`2^FREQ_BITS - 1` when its byte comes: then the first such byte takes `FreqOverflow` (41_enc_freq R121). -/
def Obligations.CountAddsOccurrences : Prop :=
  ∀ s : State,
    let full := fun k : Nat =>
      s.work.freqAt (memRead1 s.inBuf k).toNat + occurrences s.inBuf k (memRead1 s.inBuf k) = 2 ^ s.params.freqBits - 1
    ((∀ k < s.inLen.toNat, ¬ full k) → ∃ f n, exec .encCount s = .next { s with
        phase := 3#5, work := { s.work with freq := f, nleaf := n } } ∧
      s.work.FreqIs f (fun b => s.work.freqAt b + occurrences s.inBuf s.inLen.toNat (BitVec.ofNat 8 b)) ∧
      n = ({ s.work with freq := f } : Work).presentBelow 256) ∧
    (∀ k < s.inLen.toNat, full k → (∀ j < k, ¬ full j) →
      ∃ t, exec .encCount s = .next t ∧ Faulted s t .freqOverflow (memRead1 s.inBuf k).toNat 0)

/-- The outcomes of ENC.PATCH when NLEAF is the number of counters that are not 0: with none, symbols 0 and 1 get 2; with one, it gets exactly 1 and the
smallest other symbol 2; with two or more, nothing changes (41_enc_freq R123). -/
def Obligations.PatchOutcomes : Prop :=
  ∀ s : State, s.work.nleaf = s.work.presentBelow 256 →
    (s.work.nleaf = 0 → ∃ f, exec .encPatch s = .next { s with phase := 4#5, work := { s.work with freq := f, nleaf := 2 } } ∧
      s.work.FreqIs f (fun b => if b = 0 then 2 else if b = 1 then 2 else 0)) ∧
    (∀ y, y < 256 → y ≠ 0 → s.work.freqAt y ≠ 0 → s.work.nleaf = 1 →
      ∃ f, exec .encPatch s = .next { s with phase := 4#5, work := { s.work with freq := f, nleaf := 2 } } ∧
        s.work.FreqIs f (fun b => if b = y then 1 else if b = 0 then 2 else 0)) ∧
    (s.work.freqAt 0 ≠ 0 → s.work.nleaf = 1 →
      ∃ f, exec .encPatch s = .next { s with phase := 4#5, work := { s.work with freq := f, nleaf := 2 } } ∧
        s.work.FreqIs f (fun b => if b = 0 then 1 else if b = 1 then 2 else 0)) ∧
    (2 ≤ s.work.nleaf → exec .encPatch s = .next { s with phase := 4#5 })

/-- ENC.INIT, ENC.COUNT and ENC.PATCH, one after the other on any input that ENCODE accepts, complete and leave the invariant (41_enc_freq R124): 2 to 256 leaves, NLEAF
counts the counters that are not 0, every input byte is counted, the counters add up to IN_LEN, or to 3 or 4 when a patch was applied, and when none was, every counted
symbol stands in the input. -/
def Obligations.CountThenPatchInvariant : Prop :=
  ∀ s : State, s.params.Legal → s.inLen.toNat ≤ 2 ^ 24 - 1 →
    ∃ r t u, exec .encInit s = .next r ∧ exec .encCount r = .next t ∧ exec .encPatch t = .next u ∧ u.mode = s.mode ∧
      2 ≤ u.work.nleaf ∧ u.work.nleaf ≤ 256 ∧ u.work.nleaf = u.work.presentBelow 256 ∧
      (∀ i < s.inLen.toNat, 1 ≤ u.work.freqAt (memRead1 s.inBuf i).toNat) ∧
      (let total := ((List.range 256).map u.work.freqAt).sum
       if 2 ≤ t.work.nleaf then total = s.inLen.toNat ∧ ∀ b < 256, u.work.freqAt b ≠ 0 → ∃ i < s.inLen.toNat, (memRead1 s.inBuf i).toNat = b
       else total = 3 ∨ total = 4)

/-! ## ENCODE: the Huffman tree -/

/-- ENC.LEAVES makes one leaf for each symbol that is present, in ascending symbol order; the rest of the arena and everything else is unchanged. After it NNODE is NLEAF,
where NLEAF counts the present symbols (42_enc_tree R130, 41_enc_freq R124). -/
def Obligations.LeavesInSymbolOrder : Prop :=
  ∀ s : State, ∃ n, exec .encLeaves s = .next { s with
      phase := 5#5, work := { s.work with node := n, nnode := s.work.presentBelow 256 } } ∧
    (∀ b < 256, s.work.freqAt b ≠ 0 → Table.get Node.null n (s.work.presentBelow b) =
      { sym := BitVec.ofNat 9 b, weight := s.work.freqAt b, leafs := 1, dad := none, lson := none, rson := none }) ∧
    (∀ i, s.work.presentBelow 256 ≤ i → Table.get Node.null n i = s.work.nodeAt i) ∧
    (s.work.nleaf = s.work.presentBelow 256 → ∃ t, exec .encLeaves s = .next t ∧ t.work.nnode = t.work.nleaf)

/-- ENC.MERGE over an arena of leaves completes without `NodeNotFound` and makes one rooted tree of `2*NLEAF - 1` nodes; the leaves' symbols and weights stay
(42_enc_tree R131, R133 to R135, R137). -/
def Obligations.MergeBuildsTree : Prop :=
  ∀ s : State, s.work.OnlyLeaves → ∃ n, exec .encMerge s = .next { s with
      phase := 6#5, work := { s.work with node := n, nnode := 2 * s.work.nleaf - 1 } } ∧
    ({ s.work with node := n, nnode := 2 * s.work.nleaf - 1 } : Work).IsTree ∧
    (∀ i < s.work.nleaf, (Table.get Node.null n i).sym = (s.work.nodeAt i).sym ∧
      (Table.get Node.null n i).weight = (s.work.nodeAt i).weight) ∧
    ∀ i, 2 * s.work.nleaf - 1 ≤ i → Table.get Node.null n i = s.work.nodeAt i

/-- One merge, the last: the two lightest parentless nodes, by weight and then by index, become the left and the right child of the new node, and no other
node changes (42_enc_tree R131, R132). With fewer than two, `NodeNotFound`. -/
def Obligations.MergeTakesLightest : Prop :=
  ∀ s : State, s.work.nnode + 2 = 2 * s.work.nleaf →
    let free := fun i => i < s.work.nnode ∧ (s.work.nodeAt i).dad = none
    (∀ a b, s.work.Selected free a → s.work.Selected (fun i => free i ∧ i ≠ a) b →
      ∃ n, exec .encMerge s = .next { s with phase := 6#5, work := { s.work with node := n, nnode := s.work.nnode + 1 } } ∧
        Table.get Node.null n s.work.nnode =
          { sym := BitVec.ofNat 9 (256 + (s.work.nnode - s.work.nleaf))
            weight := (s.work.nodeAt a).weight + (s.work.nodeAt b).weight
            leafs := (s.work.nodeAt a).leafs + (s.work.nodeAt b).leafs
            dad := none, lson := some a, rson := some b } ∧
        Table.get Node.null n a = { s.work.nodeAt a with dad := some s.work.nnode } ∧
        Table.get Node.null n b = { s.work.nodeAt b with dad := some s.work.nnode } ∧
        ∀ i, i ≠ s.work.nnode → i ≠ a → i ≠ b → Table.get Node.null n i = s.work.nodeAt i) ∧
    ((∀ i j, free i → free j → i = j) → ∃ t, exec .encMerge s = .next t ∧ Faulted s t .nodeNotFound s.work.nnode 0)

/-- In the tree, the path of a leaf has 1 to `NLEAF - 1` bits, and read from its end it leads from the root to the leaf (42_enc_tree R136,
44_enc_codes_emit R187). -/
def Obligations.PathsDescendFromRoot : Prop :=
  ∀ w : Work, w.IsTree → ∀ i < w.nleaf,
    1 ≤ (w.path i).length ∧ (w.path i).length ≤ w.nleaf - 1 ∧ w.descend (w.nnode - 1) (w.path i).reverse = i

/-! ## ENCODE: the flat tree -/

/-- ENC.ALLOC: CT_LEN from NLEAF, a multiple of 4 from 4 to 512; slots 0 to CT_LEN - 1 zero with mask zero, but for the size byte in slot 0; nothing else
changes (43_enc_ctree R150). -/
def Obligations.AllocSizesTree : Prop :=
  ∀ s : State, 1 ≤ s.work.nleaf → s.work.nleaf ≤ 256 →
    let size := (s.work.nleaf - 1) ||| 1
    ∃ ct cm, exec .encAlloc s = .next { s with
        phase := 7#5, work := { s.work with ctLen := 2 * (size + 1), ctree := ct, cmask := cm } } ∧
      2 * (size + 1) = (if s.work.nleaf % 2 = 0 then 2 * s.work.nleaf else 2 * s.work.nleaf + 2) ∧
      (2 * (size + 1)) % 4 = 0 ∧ 4 ≤ 2 * (size + 1) ∧ 2 * (size + 1) ≤ 512 ∧
      (Table.get (0 : Byte) ct 0).toNat = size ∧
      (∀ i, 1 ≤ i → Table.get (0 : Byte) ct i = if i < 2 * (size + 1) then 0 else s.work.slot i) ∧
      ∀ i, Table.get (0 : Byte) cm i = if i < 2 * (size + 1) then 0 else s.work.maskSlot i

/-- ENC.PACK over a tree, in the buffer that ENC.ALLOC sizes, completes without a fault: the root stands packed at slot 1 with its whole tree under it, slot 0 and
the slots from `2*NLEAF` on are untouched, and only the flat tree and ENC.PACK's working storage change (43_enc_ctree R151 to R155). -/
def Obligations.PackSpellsTree : Prop :=
  ∀ s : State, s.params.Legal → s.work.IsTree → s.work.ctLen = 2 * (((s.work.nleaf - 1) ||| 1) + 1) →
    ∃ ct cm st qu n, exec .encPack s = .next { s with
        phase := 8#5, work := { s.work with ctree := ct, cmask := cm, packStack := st, packQueue := qu, packS := n } } ∧
      ({ s.work with ctree := ct, cmask := cm } : Work).Packed (2 * s.work.nleaf - 2) 1 ∧
      ∀ i, i = 0 ∨ 2 * s.work.nleaf ≤ i →
        Table.get (0 : Byte) ct i = s.work.slot i ∧ Table.get (0 : Byte) cm i = s.work.maskSlot i

/-- ENC.UPDATE changes nothing of a tree without an offset above the field: only MOVES (0) and the scan index move (43_enc_ctree R156). -/
def Obligations.UpdateKeepsFittingTree : Prop :=
  ∀ s : State, s.work.NoOverflow →
    ∃ i, exec .encUpdate s = .next { s with phase := 9#5, work := { s.work with moves := 0, upI := i } }

/-- ENC.UPDATE always ends: with no offset above the field left and at most UPDATE_MAX_MOVES relocations, only the flat tree and its own registers changed; or in
`CodeTreeIOOB`, `CodeMaskIOOB` or `TreeUnresolved` (43_enc_ctree R156 to R158, 60_exceptions R252). A safe relocation moves the pairs as R157 (a) to (c) say, and every internal
slot reaches the pair it reached before ((d) to (g)); a packed tree stays packed, in one and in all of the pass. Safe shuts out the one case in which step (e) would miss a
slot, which no known run reaches (log 36). -/
def Obligations.UpdateEndsWithoutOverflow : Prop :=
  (∀ s : State, ∃ t, exec .encUpdate s = .next t ∧
    ((t = { s with phase := 9#5, work := { s.work with
          ctree := t.work.ctree, cmask := t.work.cmask, moves := t.work.moves
          upI := t.work.upI, upInc := t.work.upInc, upN0 := t.work.upN0, upN1 := t.work.upN1, upL0 := t.work.upL0
          upL1 := t.work.upL1, upT0 := t.work.upT0, upT1 := t.work.upT1, upM0 := t.work.upM0, upM1 := t.work.upM1 } } ∧
        t.work.NoOverflow ∧ t.work.moves ≤ s.params.updateMaxMoves ∧
        (∀ i, s.work.ctLen ≤ i → t.work.slot i = s.work.slot i ∧ t.work.maskSlot i = s.work.maskSlot i) ∧
        (s.work.updateSafe s.params = true → ∀ n, s.work.Packed n 1 → t.work.Packed n 1)) ∨
      ∃ name index, name ∈ [FaultName.codeTreeIOOB, .codeMaskIOOB, .treeUnresolved] ∧ Faulted s t name index s.work.ctLen)) ∧
  ∀ (P : Params) (w w' : Work), w.RelocationSafe → relocate P w = .ok w' →
    w.Relocated w' ∧ w'.moves = w.moves + 1 ∧ w'.upI = 2 * (w.upI / 2) ∧ ∀ n, w.Packed n 1 → w'.Packed n 1

/-- No relocation alters a leaf: whatever the tree and whatever the leaf's symbol, each slot's mask and each leaf's symbol stand where `slotAfter` says; so the pass keeps how
often every byte stands in a leaf slot, and slots 0 and 1 with it (43_enc_ctree R159, R156, 44_enc_codes_emit R181). That a leaf of symbol 0x3F beside the overflowing slot is no
full node is the model's reading of step (a) (log 36). -/
def Obligations.UpdateKeepsLeaves : Prop :=
  (∀ (P : Params) (w w' : Work), w.overflows w.upI = true → relocate P w = .ok w' → ∀ x < w.ctLen,
    w'.maskSlot (w.slotAfter x) = w.maskSlot x ∧ (w.maskSlot x = leafSentinel → w'.slot (w.slotAfter x) = w.slot x)) ∧
  ∀ (s : State) (w : Work), updateTree s.params s.work = .ok w →
    exec .encUpdate s = .next { s with phase := 9#5, work := w } ∧
    (∀ b, w.leavesHolding b = s.work.leavesHolding b) ∧
    (s.work.overflows 1 = false → ∀ i < 2, w.slot i = s.work.slot i ∧ w.maskSlot i = s.work.maskSlot i)

/-- ENC.FINAL ORs each mask that is not the sentinel onto its tree byte, from slot 1 on, and changes nothing else; the first internal slot with an offset above the
field takes `TreeUnresolved` (43_enc_ctree R160). -/
def Obligations.FinalAppliesMasks : Prop :=
  ∀ s : State,
    (s.work.NoOverflow → ∃ ct, exec .encFinal s = .next { s with phase := 10#5, work := { s.work with ctree := ct } } ∧
      ∀ i, Table.get (0 : Byte) ct i =
        if 1 ≤ i ∧ i < s.work.ctLen ∧ s.work.maskSlot i ≠ 0xFF then s.work.slot i ||| s.work.maskSlot i else s.work.slot i) ∧
    (∀ k, 1 ≤ k → k < s.work.ctLen → s.work.maskSlot k ≠ 0xFF → 0x3F < (s.work.slot k).toNat →
      (∀ j, 1 ≤ j → j < k → s.work.maskSlot j ≠ 0xFF → (s.work.slot j).toNat ≤ 0x3F) →
      ∃ t, exec .encFinal s = .next t ∧ Faulted s t .treeUnresolved k s.work.ctLen)

/-- A packed tree without an offset above the field is, after ENC.FINAL, the finished flat tree: every node's byte addresses its children's pair and flags its
leaves (43_enc_ctree R160, R161, 30_encoding R75, R77). When it is the whole tree, the path of each leaf, root side first, leads the decoder's walk from slot 1 to the
leaf's symbol, and no bit further (44_enc_codes_emit R181, 45_dec R205). -/
def Obligations.FinalSpellsTree : Prop :=
  ∀ (s : State) (n : Nat), 1 < s.work.ctLen → s.work.NoOverflow → s.work.Packed n 1 →
    ∃ t, exec .encFinal s = .next t ∧ t.mode = s.mode ∧ t.work.Finished n 1 ∧
      (s.work.IsTree → n = 2 * s.work.nleaf - 2 → ∀ i < s.work.nleaf, ∀ rest,
        walk t.work.slot t.work.ctLen (t.work.slot 1) 0 ((s.work.path i).reverse ++ rest) =
          some (BitVec.ofNat 8 (s.work.nodeAt i).sym.toNat, rest))

/-! ## ENCODE: codewords and the packer -/

/-- ENC.DERIVE: each leaf's symbol gets a valid entry whose bits are the leaf's path from the root, with zero bits after them; other entries are unchanged. The first
leaf whose path is empty or longer than 255 takes `CodeWorkNotFound` (44_enc_codes_emit R180). -/
def Obligations.DerivePacksPaths : Prop :=
  ∀ s : State,
    let good := fun i => 1 ≤ (s.work.path i).length ∧ (s.work.path i).length ≤ 255
    let symbol := fun i => (s.work.nodeAt i).sym.toNat
    ((∀ i < s.work.nleaf, good i ∧ symbol i < 256) → (∀ i < s.work.nleaf, ∀ j < s.work.nleaf, symbol i = symbol j → i = j) →
      ∃ c, exec .encDerive s = .next { s with phase := 11#5, work := { s.work with code := c } } ∧
        (∀ i < s.work.nleaf, (Table.get Code.null c (symbol i)).valid = true ∧
          (Table.get Code.null c (symbol i)).bits = (s.work.path i).reverse ∧
          ∀ k, (s.work.path i).length ≤ k → (Table.get Code.null c (symbol i)).bit k = false) ∧
        ∀ b, (∀ i < s.work.nleaf, symbol i ≠ b) → Table.get Code.null c b = Table.get Code.null s.work.code b) ∧
    (∀ k < s.work.nleaf, ¬ good k → (∀ j < k, good j) → ∃ t, exec .encDerive s = .next t ∧
      Faulted s t .codeWorkNotFound (symbol k) (s.work.path k).length)

/-- ENC.HDR: the command word at the start of `OUT`, OPOS 4; no other byte and nothing else changes. It takes `OutOverflow` when `OUT_CAP < 4`
(44_enc_codes_emit R182, 30_encoding R72). -/
def Obligations.HeaderAppended : Prop :=
  ∀ s : State,
    (4 ≤ s.params.outCap → ∃ o, exec .encHdr s = .next { s with phase := 12#5, outBuf := o, work := { s.work with opos := 4 } } ∧
      memRead1 o 0 = 0x28 ∧ memRead1 o 1 = s.inLen.extractLsb' 0 8 ∧ memRead1 o 2 = s.inLen.extractLsb' 8 8 ∧
      memRead1 o 3 = s.inLen.extractLsb' 16 8 ∧ ∀ a, 4 ≤ a → memRead1 o a = memRead1 s.outBuf a) ∧
    (s.params.outCap < 4 → ∃ t, exec .encHdr s = .next t ∧ Faulted s t .outOverflow 3 s.params.outCap)

/-- ENC.TREEOUT appends the CT_LEN bytes of the flat tree and changes nothing else; with no room for all of them, the first byte that does not fit takes
`OutOverflow` (44_enc_codes_emit R183). -/
def Obligations.TreeOutAppendsSlots : Prop :=
  ∀ s : State,
    (s.work.opos + s.work.ctLen ≤ s.params.outCap ∨ s.work.ctLen = 0 → ∃ o, exec .encTreeout s = .next { s with
        phase := 13#5, outBuf := o, work := { s.work with opos := s.work.opos + s.work.ctLen } } ∧
      ∀ a, memRead1 o a = if s.work.opos ≤ a ∧ a < s.work.opos + s.work.ctLen then s.work.slot (a - s.work.opos)
        else memRead1 s.outBuf a) ∧
    (s.work.opos ≤ s.params.outCap → s.params.outCap < s.work.opos + s.work.ctLen →
      ∃ t, exec .encTreeout s = .next t ∧ Faulted s t .outOverflow s.params.outCap s.params.outCap)

/-- ENC.EMIT, when every input byte has a valid codeword and `OUT` has room: the words appended at OPOS spell the codewords of the input, one after the other and
bit 31 of a word first; the bits left over are 0; no word is appended that no bit needs; no other byte of `OUT` and only the packer's registers change
(44_enc_codes_emit R184, R186, 30_encoding R79, 20_memory R53). -/
def Obligations.EmitSpellsInput : Prop :=
  ∀ s : State, (∀ i < s.inLen.toNat, (s.work.codeAt (memRead1 s.inBuf i)).valid = true) →
    let bits := s.work.inputBits s.inBuf s.inLen.toNat
    let words := wordsFor bits.length
    s.work.opos + 4 * words ≤ s.params.outCap ∨ words = 0 →
    ∃ t, exec .encEmit s = .next t ∧
      t = { s with phase := 14#5, outBuf := t.outBuf, work := { s.work with
        opos := s.work.opos + 4 * words, epos := t.work.epos, emask4 := t.work.emask4, wordpos := t.work.wordpos
        cwmask := t.work.cwmask, cwidx := t.work.cwidx } } ∧
      (∀ k, k < 32 * words → streamBitAt t.outBuf s.work.opos k = bits.getD k false) ∧
      ∀ a, a < s.work.opos ∨ s.work.opos + 4 * words ≤ a → memRead1 t.outBuf a = memRead1 s.outBuf a

/-- ENC.EMIT's faults: the first input byte without a valid codeword takes `CodeNotFound` with its position when what comes before it fits; the first word that
does not fit takes `OutOverflow`, when the bytes up to the one that needs it have valid codewords, whatever comes after (44_enc_codes_emit R179, R184). -/
def Obligations.EmitFaults : Prop :=
  ∀ s : State,
    let valid := fun i => (s.work.codeAt (memRead1 s.inBuf i)).valid = true
    let words := fun n => wordsFor (s.work.inputBits s.inBuf n).length
    let fits := fun n => words n = 0 ∨ s.work.opos + 4 * words n ≤ s.params.outCap
    (∀ k < s.inLen.toNat, ¬ valid k → (∀ j < k, valid j) → fits k →
      ∃ t, exec .encEmit s = .next t ∧ Faulted s t .codeNotFound (memRead1 s.inBuf k).toNat k) ∧
    (∀ k < s.inLen.toNat, (∀ j ≤ k, valid j) → fits k → ¬ fits (k + 1) →
      ∃ t, exec .encEmit s = .next t ∧
        Faulted s t .outOverflow (s.work.opos + 4 * ((s.params.outCap - s.work.opos) / 4) + 3 : Nat) s.params.outCap)

/-- ENC.DONE: OUT_LEN takes OPOS, WPOS and EOS are 0, STATE is DONE, PHASE stays; the OUT_LEN bytes of the payload, `IN`, IN_LEN and the record are unchanged
(44_enc_codes_emit R185). -/
def Obligations.EncodeDone : Prop :=
  ∀ s : State, ∃ t, exec .encDone s = .next t ∧ t.outLen = BitVec.ofNat 32 s.work.opos ∧ t.wpos = 0 ∧ t.eos = false ∧
    t.mode = .done ∧ t.phase = s.phase ∧ HostSideKept s t ∧ t.errCode = s.errCode ∧ t.errIndex = s.errIndex ∧
    t.errLen = s.errLen ∧ ∀ a < t.outLen.toNat, memRead1 t.outBuf a = memRead1 s.outBuf a

/-- ENCODE's phases follow one another by their codes, each either starting the next one or ending in a fault taken at its own PHASE, and fourteen steps end the
command in DONE or FAULT (40_host_commands R106, R109, 70_reset_and_hazards R292). -/
def Obligations.EncodePhaseOrder : Prop :=
  (∀ s : State, s.mode = .busy → 1 ≤ s.phase.toNat → s.phase.toNat ≤ 13 → s.turns = [] →
    ∃ t, step s = .next t ∧ ((t.mode = .busy ∧ t.phase = s.phase + 1) ∨ (t.mode = .fault ∧ t.phase = s.phase))) ∧
  (∀ s : State, s.mode = .busy → s.phase = 1 → s.turns = [] →
    ∃ t, core.run 14 s = .next t ∧ ((t.mode = .done ∧ t.phase = 14) ∨ (t.mode = .fault ∧ 1 ≤ t.phase.toNat ∧ t.phase.toNat ≤ 13)))

/-! ## DECODE -/

/-- A command word consumed: NUM_BITS and DLEN taken, TYPE not examined, the DLEN bytes of `OUT` zeroed, the decoder's start values set, and nothing else changed; an
unsupported width takes `UnsupportedWidth` before an output that does not fit takes `OutOverflow` (30_encoding R73, 45_dec R201, 60_exceptions R254). That to consume a
command word is the part of DEC.HDR after its read is the model's reading (log 17). -/
def Obligations.CommandWordTaken : Prop :=
  ∀ (s : State) (len : BitVec 24) (kind nbits : BitVec 4),
    (nbits.toNat ∈ [1, 2, 4, 8] → len.toNat ≤ s.params.outCap → ∃ o, exec (.cw len kind nbits) s = .next { s with
        phase := 17#5, wpos := 0, outBuf := o
        work := { s.work with numBits := nbits.toNat, dlen := len.toNat, acc := 0, dmask4 := 0, codew := 0 } } ∧
      ∀ a, memRead1 o a = if a < len.toNat then 0 else memRead1 s.outBuf a) ∧
    (nbits.toNat ∉ [1, 2, 4, 8] →
      ∃ t, exec (.cw len kind nbits) s = .next t ∧ Faulted s t .unsupportedWidth nbits.toNat 0) ∧
    (nbits.toNat ∈ [1, 2, 4, 8] → s.params.outCap < len.toNat →
      ∃ t, exec (.cw len kind nbits) s = .next t ∧ Faulted s t .outOverflow (len.toNat - 1 : Nat) s.params.outCap)

/-- DEC.HDR: the header word of `IN[0..3]` with its low nibble as NUM_BITS and its upper 24 bits as DLEN; fewer than four bytes take `BytesToU32Error`
(45_dec R201). -/
def Obligations.HeaderRead : Prop :=
  ∀ s : State,
    let n := (memRead1 s.inBuf 0).toNat % 16
    let len := (memRead1 s.inBuf 1).toNat + 256 * (memRead1 s.inBuf 2).toNat + 65536 * (memRead1 s.inBuf 3).toNat
    (s.inLen.toNat < 4 → ∃ t, exec .decHdr s = .next t ∧ Faulted s t .bytesToU32Error 0 s.inLen.toNat) ∧
    (4 ≤ s.inLen.toNat → n ∉ [1, 2, 4, 8] → ∃ t, exec .decHdr s = .next t ∧ Faulted s t .unsupportedWidth n 0) ∧
    (4 ≤ s.inLen.toNat → n ∈ [1, 2, 4, 8] → s.params.outCap < len →
      ∃ t, exec .decHdr s = .next t ∧ Faulted s t .outOverflow (len - 1 : Nat) s.params.outCap) ∧
    (4 ≤ s.inLen.toNat → n ∈ [1, 2, 4, 8] → len ≤ s.params.outCap → ∃ o, exec .decHdr s = .next { s with
        phase := 17#5, wpos := 0, outBuf := o
        work := { s.work with numBits := n, dlen := len, acc := 0, dmask4 := 0, codew := 0 } } ∧
      ∀ a, memRead1 o a = if a < len then 0 else memRead1 s.outBuf a)

/-- A size byte consumed, even or odd: CT_LEN, the tree copied from `IN[4 ..]`, RPOS, and the walk on the root node in slot 1 with pair base 0; a tree longer than the
payload takes `DecompressDataIOOB` (30_encoding R74, 45_dec R202). The next phase is DEC.DONE at once when no byte is to be produced (R207). That to consume a size byte is
the part of DEC.TREE after its read is the model's reading (log 17). -/
def Obligations.SizeByteTaken : Prop :=
  ∀ (s : State) (b : BitVec 8),
    let n := 2 * (b.toNat + 1)
    (4 + n ≤ s.inLen.toNat → ∃ ct, exec (.tbSize b) s = .next { s with
        phase := phaseAfter s.wpos s.work.dlen
        work := { s.work with ctLen := n, ctree := ct, rpos := 4 + n, pos := memRead1 s.inBuf 5, next := 0 } } ∧
      ∀ i, Table.get (0 : Byte) ct i = if i < n then memRead1 s.inBuf (4 + i) else s.work.slot i) ∧
    (s.inLen.toNat < 4 + n →
      ∃ t, exec (.tbSize b) s = .next t ∧ Faulted s t .decompressDataIOOB s.inLen.toNat s.inLen.toNat)

/-- DEC.TREE: the same with the size byte at `IN[4]`; fewer than five bytes take `DecompressDataIOOB` at 4 (45_dec R202). -/
def Obligations.TreeRegionRead : Prop :=
  ∀ s : State,
    let n := 2 * ((memRead1 s.inBuf 4).toNat + 1)
    (s.inLen.toNat < 5 → ∃ t, exec .decTree s = .next t ∧ Faulted s t .decompressDataIOOB 4 s.inLen.toNat) ∧
    (5 ≤ s.inLen.toNat → s.inLen.toNat < 4 + n →
      ∃ t, exec .decTree s = .next t ∧ Faulted s t .decompressDataIOOB s.inLen.toNat s.inLen.toNat) ∧
    (4 + n ≤ s.inLen.toNat → ∃ ct, exec .decTree s = .next { s with
        phase := phaseAfter s.wpos s.work.dlen
        work := { s.work with ctLen := n, ctree := ct, rpos := 4 + n, pos := memRead1 s.inBuf 5, next := 0 } } ∧
      ∀ i, Table.get (0 : Byte) ct i = if i < n then memRead1 s.inBuf (4 + i) else s.work.slot i)

/-- An internal node's byte consumed: the walk stands on it, and nothing else changes (30_encoding R75, 45_dec R205). That to consume it is the arrival at it and the
choice of the next phase is the model's reading (log 17). -/
def Obligations.NodeByteStoodOn : Prop :=
  ∀ (s : State) (l r : Bool) (o : BitVec 6), ∃ b : Byte,
    exec (.tbNode l r o) s = .next { s with phase := phaseAfter s.wpos s.work.dlen, work := { s.work with pos := b } } ∧
    b.getLsbD 7 = l ∧ b.getLsbD 6 = r ∧ b.extractLsb' 0 6 = o

/-- A leaf's byte consumed: its symbol is ORed into `OUT[WPOS]` at bit offset ACC, cut to eight bits and not masked; ACC and, on the wrap past 8, WPOS advance; the walk
is back at the root node. No other byte and nothing else changes (30_encoding R76, 45_dec R206). That to consume it is the arrival at it and the output is the model's
reading (log 17). -/
def Obligations.LeafByteOutput : Prop :=
  ∀ (s : State) (b : BitVec 8),
    let w' := if 8 ≤ s.work.acc + s.work.numBits then s.wpos + 1 else s.wpos
    ∃ o, exec (.tbLeaf b) s = .next { s with
        phase := phaseAfter w' s.work.dlen, wpos := w', outBuf := o
        work := { s.work with acc := (s.work.acc + s.work.numBits) % 8, pos := s.work.slot 1, next := 0 } } ∧
      ∀ a, memRead1 o a = if a = s.wpos.toNat then
          memRead1 s.outBuf a ||| BitVec.ofNat 8 (b.toNat * 2 ^ s.work.acc) else memRead1 s.outBuf a

/-- A stream bit consumed: the child's slot; beyond the tree it takes `CodeTreeIOOB`; an internal child is stood on; a leaf child's symbol is output (45_dec R205,
R206, 30_encoding R77). That to consume a bit is DEC.STEP after its fetch is the model's reading (log 17). -/
def Obligations.StreamBitBranches : Prop :=
  ∀ (s : State) (bit : Bool),
    let c := s.work.next + 2 * (s.work.pos.toNat % 64 + 1)
    let x := if bit then c + 1 else c
    let leaf := if bit then s.work.pos.getLsbD 6 else s.work.pos.getLsbD 7
    let w' := if 8 ≤ s.work.acc + s.work.numBits then s.wpos + 1 else s.wpos
    (s.work.ctLen ≤ x → ∃ t, exec (.swBit bit) s = .next t ∧ Faulted s t .codeTreeIOOB x s.work.ctLen) ∧
    (x < s.work.ctLen → leaf = false → exec (.swBit bit) s = .next { s with
        phase := phaseAfter s.wpos s.work.dlen, work := { s.work with next := c, pos := s.work.slot x } }) ∧
    (x < s.work.ctLen → leaf = true → ∃ o, exec (.swBit bit) s = .next { s with
        phase := phaseAfter w' s.work.dlen, wpos := w', outBuf := o
        work := { s.work with acc := (s.work.acc + s.work.numBits) % 8, pos := s.work.slot 1, next := 0 } } ∧
      ∀ a, memRead1 o a = if a = s.wpos.toNat then
          memRead1 s.outBuf a ||| BitVec.ofNat 8 ((s.work.slot x).toNat * 2 ^ s.work.acc) else memRead1 s.outBuf a)

/-- DEC.STEP: at the end of the stream EOS is set and DEC.DONE is next, with WPOS, ACC and `OUT` as they were; else the bit that the mask selects in the stream word is
consumed (45_dec R203 to R206). -/
def Obligations.StepConsumesStreamBit : Prop :=
  ∀ s : State,
    (s.StreamEnded → exec .decStep s = .next { s with eos := true, phase := 19#5, work := { s.work with dmask4 := 0 } }) ∧
    (¬ s.StreamEnded →
      let u := s.fetched
      let bit := u.work.codew &&& u.work.dmask4 ≠ 0
      let c := s.work.next + 2 * (s.work.pos.toNat % 64 + 1)
      let x := if bit then c + 1 else c
      let leaf := if bit then s.work.pos.getLsbD 6 else s.work.pos.getLsbD 7
      let w' := if 8 ≤ s.work.acc + s.work.numBits then s.wpos + 1 else s.wpos
      (s.work.ctLen ≤ x → ∃ t, exec .decStep s = .next t ∧ Faulted s t .codeTreeIOOB x s.work.ctLen) ∧
      (x < s.work.ctLen → leaf = false → exec .decStep s = .next { u with
          phase := phaseAfter s.wpos s.work.dlen, work := { u.work with next := c, pos := s.work.slot x } }) ∧
      (x < s.work.ctLen → leaf = true → ∃ o, exec .decStep s = .next { u with
          phase := phaseAfter w' s.work.dlen, wpos := w', outBuf := o
          work := { u.work with acc := (s.work.acc + s.work.numBits) % 8, pos := s.work.slot 1, next := 0 } } ∧
        ∀ a, memRead1 o a = if a = s.wpos.toNat then
            memRead1 s.outBuf a ||| BitVec.ofNat 8 ((s.work.slot x).toNat * 2 ^ s.work.acc) else memRead1 s.outBuf a))

/-- DEC.DONE: OUT_LEN takes DLEN, STATE is DONE, PHASE, WPOS and EOS keep their values; the OUT_LEN bytes of the result, `IN`, IN_LEN and the record are unchanged
(45_dec R208). -/
def Obligations.DecodeDone : Prop :=
  ∀ s : State, ∃ t, exec .decDone s = .next t ∧ t.outLen = BitVec.ofNat 32 s.work.dlen ∧ t.mode = .done ∧
    t.phase = s.phase ∧ t.wpos = s.wpos ∧ t.eos = s.eos ∧ HostSideKept s t ∧ t.errCode = s.errCode ∧ t.errIndex = s.errIndex ∧
    t.errLen = s.errLen ∧ ∀ a < t.outLen.toNat, memRead1 t.outBuf a = memRead1 s.outBuf a

/-- DECODE ends for every content of `IN`: from its first phase, in at most `8 * IN_LEN + 4` steps, in DONE or FAULT (45_dec R207, R211, 70_reset_and_hazards
R292). -/
def Obligations.DecodeTerminates : Prop :=
  ∀ s : State, s.mode = .busy → s.phase = 16 → s.turns = [] →
    ∃ t, core.run (8 * s.inLen.toNat + 4) s = .next t ∧ (t.mode = .done ∨ t.mode = .fault)

/-- DECODE of a payload of 8-bit symbols whose stream walks the tree to `m` leaves ends in DONE with EOS 0, WPOS = OUT_LEN = m, and `OUT` holding the symbols in order
(30_encoding R86, 45_dec R203 to R208). The walk is the list-level reference of Safety.lean. -/
def Obligations.DecodeFollowsWalk : Prop :=
  ∀ (s : State) (symbols : List Byte), s.mode = .busy → s.phase = 16 → s.turns = [] → s.eos = false →
    let n := 2 * ((memRead1 s.inBuf 4).toNat + 1)
    let len := (memRead1 s.inBuf 1).toNat + 256 * (memRead1 s.inBuf 2).toNat + 65536 * (memRead1 s.inBuf 3).toNat
    (memRead1 s.inBuf 0).toNat % 16 = 8 → len ≤ s.params.outCap → 4 + n ≤ s.inLen.toNat →
    walkMany (fun i => memRead1 s.inBuf (4 + i)) n len (streamBits s.inBuf (4 + n) ((s.inLen.toNat - (4 + n)) / 4)) = some symbols →
    ∃ t, core.run (8 * s.inLen.toNat + 4) s = .next t ∧ t.mode = .done ∧ t.phase = 19 ∧ t.eos = false ∧
      t.outLen.toNat = len ∧ t.wpos = t.outLen ∧ (List.range len).map (memRead1 t.outBuf) = symbols

/-- The phases DEC.HDR, DEC.TREE and DEC.STEP, when they do not fault, write no byte of `OUT` at or beyond DLEN (45_dec R211). DEC.DONE and fault entry are left out:
after them the model gives `OUT` free values, from OUT_LEN on (log 9) and whole (log 8). -/
def Obligations.DecodeWritesBelowLength : Prop :=
  ∀ s t : State, s.Inv → s.mode = .busy → s.phase = 16 ∨ s.phase = 17 ∨ s.phase = 18 → s.turns = [] → step s = .next t →
    t.mode = .busy → ∀ a, t.work.dlen ≤ a → memRead1 t.outBuf a = memRead1 s.outBuf a

/-- What the internal state held before a command is never seen: two blocks that differ in nothing else at the first phase of an ENCODE or a DECODE stay alike to the
host for ever (10_state R38, 70_reset_and_hazards R282). -/
def Obligations.DecodeIgnoresOldState : Prop :=
  ∀ (s : State) (w : Work) (n : Nat), s.mode = .busy → s.phase = 1 ∨ s.phase = 16 → s.turns = [] →
    ∃ t u, core.run n s = .next t ∧ core.run n { s with work := w } = .next u ∧ SameToHost t u

/-! ## The whole machine -/

/-- Every step keeps the invariant `State.Inv`: buffers and tables in canonical form and within their capacity, the node records and the registers of the encoder and the
decoder within the widths of 10_state R29 to R34, and the host-visible registers as R24 to R28 say for each STATE. -/
def Obligations.StepKeepsInvariant : Prop :=
  ∀ s t : State, s.Inv → step s = .next t → t.Inv

/-- The state after reset meets the invariant. The contents it gives the buffers and the internal state are the model's choice (logs 5, 6). -/
def Obligations.ResetSatisfiesInvariant : Prop := State.reset.Inv

/-- Fault entry (60_exceptions R262): the code, the two diagnostic numbers modulo 2^32, OUT_LEN, WPOS and EOS zero, STATE FAULT, PHASE kept, `IN` and IN_LEN unchanged, and
the sequencer stops. And whenever an operation ends in FAULT that did not begin there, it ended so, with one of the thirteen codes. -/
def Obligations.FaultEntryRecords : Prop :=
  (∀ (s : State) (r : Raise), Faulted s (s.takeFault r) r.name r.index r.length ∧
    Machine.sequence (s.takeFault r) = .next (s.takeFault r)) ∧
  ∀ (i : Instr) (s t : State), s.mode ≠ .fault → exec i s = .next t → t.mode = .fault →
    (∃ name index length, Faulted { s with
      phase := if i = .cmdEncode then 1#5 else if i = .cmdDecode then 16#5 else s.phase } t name index length) ∧
    Machine.sequence t = .next t

/-- In FAULT nothing but CLEAR or reset leaves the state, and the record is never overwritten (40_host_commands R100, 60_exceptions R264). -/
def Obligations.FaultIsSticky : Prop :=
  ∀ s t : State, s.mode = .fault → step s = .next t → (∀ rest, s.turns ≠ .host .reset :: rest) →
    (∀ v rest, s.turns = .host (.writeReg 0 v) :: rest → v.toNat % 256 ≠ 3) →
    t.mode = .fault ∧ t.errCode = s.errCode ∧ t.errIndex = s.errIndex ∧ t.errLen = s.errLen ∧ t.phase = s.phase

/-- No operation writes `IN`, IN_LEN or a parameter, or does a host's act: only the host writes its operands (20_memory R50, 10_state R26). -/
def Obligations.OperationsKeepOperands : Prop :=
  ∀ (i : Instr) (s t : State), exec i s = .next t → HostSideKept s t

/-- No operation reads a byte of `IN` at or beyond IN_LEN: two states that differ only there answer alike (45_dec R211, 20_memory R57, R59). -/
def Obligations.InputBeyondLengthUnread : Prop :=
  ∀ (i : Instr) (s t : State) (m : Table Byte), (∀ a < s.inLen.toNat, memRead1 m a = memRead1 s.inBuf a) →
    exec i s = .next t → exec i { s with inBuf := m } = .next { t with inBuf := m }

/-- Which phase can raise which fault (60_exceptions R252), for ENC.PACK over the tree that ENC.MERGE makes; a payload element raises what the phase that consumes it raises
(log 17). -/
def Obligations.FaultsByPhase : Prop :=
  ∀ (i : Instr) (s t : State), s.mode ≠ .fault → exec i s = .next t → t.mode = .fault →
    (i = .encPack → s.work.IsTree) →
    (i = .cmdEncode ∨ i = .cmdDecode → t.errCode = 10) ∧
    (i = .encCount → t.errCode = 1) ∧ (i = .encMerge → t.errCode = 2) ∧
    (i = .encPack → t.errCode ∈ [(6 : Byte), 7, 5]) ∧ (i = .encUpdate → t.errCode ∈ [(6 : Byte), 7, 12]) ∧
    (i = .encFinal → t.errCode ∈ [(12 : Byte), 6, 7]) ∧ (i = .encDerive → t.errCode = 4) ∧
    (i = .encHdr ∨ i = .encTreeout → t.errCode = 13) ∧ (i = .encEmit → t.errCode ∈ [(3 : Byte), 13]) ∧
    (i = .decHdr → t.errCode ∈ [(9 : Byte), 11, 13]) ∧ (i = .decTree → t.errCode = 8) ∧ (i = .decStep → t.errCode = 6) ∧
    (i.format = .cw → t.errCode ∈ [(11 : Byte), 13]) ∧ (i.format = .tbSize → t.errCode = 8) ∧ (i.format = .swBit → t.errCode = 6) ∧
    i.format ≠ .tbNode ∧ i.format ≠ .tbLeaf ∧
    i ∉ [Instr.encInit, .encPatch, .encLeaves, .encAlloc, .encDone, .decDone]

/-! ## The container layer, beside the block -/

/-- A record that `compress` makes of a detected index record has the layout of R233, with the checksum over header and uncompressed body, and `detect` recognises it as
compressed and of the same kind (47_host_container R233, R235, R236, R239). -/
def Obligations.CompressedRecordLayout : Prop :=
  ∀ (H : HostParams) (bytes : List Byte) (r r' : Record) (s t : State), H.Legal → detect H bytes = .ok r →
    r.isCompressed = false → compress H r s = (.ok r', t) →
    r'.bytes.take r.headerSize = r.header ∧
    u32le r'.bytes r.headerSize = .ok H.magicComp ∧ u32le r'.bytes (r.headerSize + 4) = .ok 2 ∧
    u32le r'.bytes (r.headerSize + 8) = .ok (BitVec.ofNat 32 r.body.length) ∧
    (∃ c0 c, H.checksum 0 r.header = some c0 ∧ H.checksum c0 r.body = some c ∧ u32le r'.bytes (r.headerSize + 12) = .ok c) ∧
    drive 1 r.body s = (.ok r'.payload, t) ∧
    detect H r'.bytes = .ok r' ∧ r'.isCompressed = true ∧ r'.isChapter = r.isChapter

/-- A compressed record given to `compress`, and a raw one given to `decompress`, comes back as it is, with the block left alone; what `compress` makes is compressed and what
`decompress` makes is raw, so each of them a second time changes nothing (47_host_container R236 to R238). -/
def Obligations.TransformsIdempotent : Prop :=
  ∀ (H : HostParams) (r : Record) (s : State),
    (r.isCompressed = true → compress H r s = (.ok r, s)) ∧ (r.isCompressed = false → decompress H r s = (.ok r, s)) ∧
    ∀ (r' : Record) (t u : State),
      (compress H r s = (.ok r', t) → r'.isCompressed = true ∧ compress H r' u = (.ok r', u)) ∧
      (decompress H r s = (.ok r', t) → r'.isCompressed = false ∧ decompress H r' u = (.ok r', u))
end

