-- ==== Sys2Proof/Laws/Table.lean ====
section
/-! SUPPORT. The laws of sparse tables: what a read gives after each operation, and that each operation keeps the canonical form and the key bound. -/

namespace Sys2Proof.Machine

variable {α : Type}

/-! ## Reads -/

@[simp] theorem Table.get_nil (d : α) (a : Nat) : Table.get d [] a = d := rfl

theorem Table.get_cons (d : α) (b : Nat) (w : α) (t : Table α) (a : Nat) :
    Table.get d ((b, w) :: t) a = if a = b then w else Table.get d t a := rfl

/-- A key that is not listed reads as the default. -/
theorem Table.get_of_not_listed (d : α) {t : Table α} {a : Nat} (h : ∀ c ∈ t, c.1 ≠ a) : Table.get d t a = d := by
  induction t with
  | nil => rfl
  | cons c t ih =>
    obtain ⟨b, w⟩ := c
    have hb : a ≠ b := fun e => h (b, w) (by simp) e.symm
    rw [Table.get_cons, if_neg hb]
    exact ih fun c hc => h c (List.mem_cons_of_mem _ hc)

/-- The read after a filter that looks at the key alone. -/
theorem Table.get_filter (d : α) (p : Nat → Bool) (t : Table α) (a : Nat) :
    Table.get d (t.filter fun c => p c.1) a = if p a then Table.get d t a else d := by
  induction t with
  | nil => simp
  | cons c t ih =>
    obtain ⟨b, w⟩ := c
    by_cases hp : p b = true
    · rw [List.filter_cons_of_pos (by exact hp), Table.get_cons, Table.get_cons, ih]
      by_cases hab : a = b
      · subst hab; simp [hp]
      · simp [hab]
    · rw [List.filter_cons_of_neg (by exact hp), ih, Table.get_cons]
      by_cases hab : a = b
      · subst hab; simp [hp]
      · simp [hab]

theorem Table.get_erase (d : α) (t : Table α) (a b : Nat) :
    Table.get d (Table.erase t a) b = if b = a then d else Table.get d t b := by
  rw [Table.erase, Table.get_filter d (fun k => k != a)]
  by_cases h : b = a <;> simp [h]

theorem Table.get_insert (d : α) (a : Nat) (v : α) (t : Table α) (h : ∀ c ∈ t, c.1 ≠ a) (b : Nat) :
    Table.get d (Table.insert a v t) b = if b = a then v else Table.get d t b := by
  induction t with
  | nil => simp [Table.insert, Table.get_cons]
  | cons c t ih =>
    obtain ⟨k, w⟩ := c
    have hk : k ≠ a := h (k, w) (by simp)
    have ht : ∀ c ∈ t, c.1 ≠ a := fun c hc => h c (List.mem_cons_of_mem _ hc)
    rw [Table.insert]
    split
    · rw [Table.get_cons]
    · rw [Table.get_cons, Table.get_cons, ih ht]
      by_cases hbk : b = k
      · subst hbk; simp [hk]
      · simp [hbk]

theorem Table.not_listed_erase (t : Table α) (a : Nat) : ∀ c ∈ Table.erase t a, c.1 ≠ a := by
  intro c hc
  simpa [Table.erase] using (List.mem_filter.mp hc).2

/-- A read after a write: the value written at its key, the old value elsewhere. -/
theorem Table.get_set [DecidableEq α] (d : α) (t : Table α) (a : Nat) (v : α) (b : Nat) :
    Table.get d (Table.set d t a v) b = if b = a then v else Table.get d t b := by
  rw [Table.set]
  split
  · next h => subst h; exact Table.get_erase v t a b
  · rw [Table.get_insert d a v _ (Table.not_listed_erase t a), Table.get_erase]
    by_cases hb : b = a <;> simp [hb]

@[simp] theorem Table.get_set_same [DecidableEq α] (d : α) (t : Table α) (a : Nat) (v : α) :
    Table.get d (Table.set d t a v) a = v := by
  rw [Table.get_set, if_pos rfl]

theorem Table.get_set_other [DecidableEq α] (d : α) (t : Table α) {a b : Nat} (v : α) (h : b ≠ a) :
    Table.get d (Table.set d t a v) b = Table.get d t b := by
  rw [Table.get_set, if_neg h]

theorem Table.get_clearBelow (d : α) (n : Nat) (t : Table α) (a : Nat) :
    Table.get d (Table.clearBelow n t) a = if a < n then d else Table.get d t a := by
  rw [Table.clearBelow, Table.get_filter d (fun k => decide (n ≤ k))]
  by_cases h : a < n
  · simp [h, Nat.not_le.mpr h]
  · simp [h, Nat.le_of_not_lt h]

/-- A read in two lists one after the other: the first one's when the key is listed there. -/
theorem Table.get_append (d : α) (t u : Table α) (a : Nat) :
    Table.get d (t ++ u) a = if ∃ c ∈ t, c.1 = a then Table.get d t a else Table.get d u a := by
  induction t with
  | nil => simp
  | cons c t ih =>
    obtain ⟨b, w⟩ := c
    rw [List.cons_append, Table.get_cons, Table.get_cons, ih]
    by_cases hab : a = b
    · simp [hab]
    · have he : (∃ c ∈ (b, w) :: t, c.1 = a) ↔ ∃ c ∈ t, c.1 = a := by
        simp only [List.mem_cons, exists_eq_or_imp]
        exact or_iff_right fun e => hab e.symm
      rw [if_neg hab, if_neg hab]
      exact if_congr he.symm rfl rfl

theorem Table.get_splice (d : α) (n : Nat) (t u : Table α) (a : Nat) :
    Table.get d (Table.splice n t u) a = if a < n then Table.get d t a else Table.get d u a := by
  rw [Table.splice, Table.get_append, Table.get_filter d (fun k => decide (k < n)), Table.get_clearBelow]
  by_cases h : a < n
  · by_cases hl : ∃ c ∈ t, c.1 = a
    · obtain ⟨c, hc, rfl⟩ := hl
      rw [if_pos ⟨c, List.mem_filter.mpr ⟨hc, by simpa using h⟩, rfl⟩]
      simp [h]
    · rw [if_neg]
      · simp only [if_pos h]
        exact (Table.get_of_not_listed d fun c hc e => hl ⟨c, hc, e⟩).symm
      · rintro ⟨c, hc, e⟩
        exact hl ⟨c, (List.mem_filter.mp hc).1, e⟩
  · rw [if_neg]
    · simp [h]
    · rintro ⟨c, hc, rfl⟩
      exact h (by simpa using (List.mem_filter.mp hc).2)

theorem Table.get_ofFn [DecidableEq α] (d : α) (n : Nat) (f : Nat → α) (a : Nat) :
    Table.get d (Table.ofFn d n f) a = if a < n then f a else d := by
  unfold Table.ofFn
  have key : ∀ l : List Nat, Table.get d (l.filterMap fun k => if f k = d then none else some (k, f k)) a
      = if a ∈ l then f a else d := by
    intro l
    induction l with
    | nil => simp
    | cons k l ih =>
      by_cases hk : f k = d
      · rw [List.filterMap_cons_none (by simp [hk]), ih]
        by_cases hak : a = k
        · subst hak; simp [hk]
        · simp [hak]
      · rw [List.filterMap_cons_some (b := (k, f k)) (by simp [hk]), Table.get_cons, ih]
        by_cases hak : a = k
        · subst hak; simp
        · simp [hak]
  rw [key]
  simp

/-! ## The canonical form -/

theorem Table.canonical_nil (d : α) : Table.Canonical d ([] : Table α) := ⟨List.Pairwise.nil, by simp⟩

theorem Table.canonical_filter {d : α} {t : Table α} (p : Nat × α → Bool) (h : Table.Canonical d t) :
    Table.Canonical d (t.filter p) :=
  ⟨h.1.sublist List.filter_sublist, fun c hc => h.2 c (List.mem_filter.mp hc).1⟩

theorem Table.canonical_erase {d : α} {t : Table α} (a : Nat) (h : Table.Canonical d t) : Table.Canonical d (Table.erase t a) :=
  Table.canonical_filter _ h

theorem Table.mem_insert {a : Nat} {v : α} {t : Table α} {c : Nat × α} :
    c ∈ Table.insert a v t ↔ c = (a, v) ∨ c ∈ t := by
  induction t with
  | nil => simp [Table.insert]
  | cons e t ih =>
    obtain ⟨b, w⟩ := e
    rw [Table.insert]
    split
    · simp
    · rw [List.mem_cons, ih, List.mem_cons]; tauto

theorem Table.canonical_insert {d : α} {t : Table α} {a : Nat} {v : α} (hv : v ≠ d) (ha : ∀ c ∈ t, c.1 ≠ a)
    (h : Table.Canonical d t) : Table.Canonical d (Table.insert a v t) := by
  refine ⟨?_, ?_⟩
  · induction t with
    | nil => simp [Table.insert]
    | cons e t ih =>
      obtain ⟨b, w⟩ := e
      have hp := List.pairwise_cons.mp h.1
      have hb : b ≠ a := ha (b, w) (by simp)
      rw [Table.insert]
      split
      · next hab =>
        refine List.pairwise_cons.mpr ⟨?_, h.1⟩
        intro c hc
        rcases List.mem_cons.mp hc with rfl | hc
        · exact hab
        · exact lt_trans hab (hp.1 c hc)
      · next hab =>
        refine List.pairwise_cons.mpr ⟨?_, ih (fun c hc => ha c (List.mem_cons_of_mem _ hc))
          ⟨hp.2, fun c hc => h.2 c (List.mem_cons_of_mem _ hc)⟩⟩
        intro c hc
        rcases Table.mem_insert.mp hc with rfl | hc
        · exact lt_of_le_of_ne (Nat.le_of_not_lt hab) hb
        · exact hp.1 c hc
  · intro c hc
    rcases Table.mem_insert.mp hc with rfl | hc
    · exact hv
    · exact h.2 c hc

/-- A write keeps the canonical form. -/
theorem Table.canonical_set [DecidableEq α] {d : α} {t : Table α} (a : Nat) (v : α) (h : Table.Canonical d t) :
    Table.Canonical d (Table.set d t a v) := by
  rw [Table.set]
  split
  · exact Table.canonical_erase a h
  · next hv => exact Table.canonical_insert hv (Table.not_listed_erase t a) (Table.canonical_erase a h)

theorem Table.canonical_clearBelow {d : α} {t : Table α} (n : Nat) (h : Table.Canonical d t) :
    Table.Canonical d (Table.clearBelow n t) := Table.canonical_filter _ h

theorem Table.canonical_splice {d : α} {t u : Table α} (n : Nat) (ht : Table.Canonical d t) (hu : Table.Canonical d u) :
    Table.Canonical d (Table.splice n t u) := by
  refine ⟨List.pairwise_append.mpr ⟨(Table.canonical_filter _ ht).1, (Table.canonical_filter _ hu).1, ?_⟩, ?_⟩
  · intro x hx y hy
    have h1 : x.1 < n := by simpa using (List.mem_filter.mp hx).2
    have h2 : n ≤ y.1 := by simpa using (List.mem_filter.mp hy).2
    exact lt_of_lt_of_le h1 h2
  · intro c hc
    rcases List.mem_append.mp hc with hc | hc
    · exact ht.2 c (List.mem_filter.mp hc).1
    · exact hu.2 c (List.mem_filter.mp hc).1

theorem Table.canonical_ofFn [DecidableEq α] (d : α) (n : Nat) (f : Nat → α) : Table.Canonical d (Table.ofFn d n f) := by
  unfold Table.ofFn
  refine ⟨?_, ?_⟩
  · refine List.Pairwise.filterMap (R := fun x y => x < y) _ ?_ List.pairwise_lt_range
    intro x y hxy c hc e he
    split at hc <;> simp at hc
    split at he <;> simp at he
    rw [← hc, ← he]; exact hxy
  · intro c hc
    obtain ⟨k, -, hk⟩ := List.mem_filterMap.mp hc
    split at hk <;> simp at hk
    next hne => rw [← hk]; exact hne

/-! ## The key bound -/

theorem Table.below_nil (n : Nat) : Table.Below n ([] : Table α) := by simp

theorem Table.below_filter {n : Nat} {t : Table α} (p : Nat × α → Bool) (h : Table.Below n t) : Table.Below n (t.filter p) :=
  fun c hc => h c (List.mem_filter.mp hc).1

theorem Table.below_set [DecidableEq α] {d : α} {n : Nat} {t : Table α} {a : Nat} (v : α) (ha : a < n) (h : Table.Below n t) :
    Table.Below n (Table.set d t a v) := by
  rw [Table.set]
  split
  · exact Table.below_filter _ h
  · intro c hc
    rcases Table.mem_insert.mp hc with rfl | hc
    · exact ha
    · exact Table.below_filter _ h c hc

theorem Table.below_clearBelow {n : Nat} {t : Table α} (m : Nat) (h : Table.Below n t) : Table.Below n (Table.clearBelow m t) :=
  Table.below_filter _ h

theorem Table.below_splice {n : Nat} {t u : Table α} (m : Nat) (ht : Table.Below n t) (hu : Table.Below n u) :
    Table.Below n (Table.splice m t u) := by
  intro c hc
  rcases List.mem_append.mp hc with hc | hc
  · exact Table.below_filter _ ht c hc
  · exact Table.below_filter _ hu c hc

theorem Table.below_ofFn [DecidableEq α] (d : α) (n : Nat) (f : Nat → α) : Table.Below n (Table.ofFn d n f) := by
  intro c hc
  obtain ⟨k, hk, he⟩ := List.mem_filterMap.mp hc
  split at he <;> simp at he
  rw [← he]; exact List.mem_range.mp hk

/-- A key at or beyond the bound reads as the default. -/
theorem Table.get_of_below (d : α) {n : Nat} {t : Table α} (h : Table.Below n t) {a : Nat} (ha : n ≤ a) : Table.get d t a = d :=
  Table.get_of_not_listed d fun c hc e => absurd (h c hc) (by omega)

/-! ## Every entry has a property -/

/-- A property of every entry's value is kept by a write of a value that has it. -/
theorem Table.all_set [DecidableEq α] {d : α} {t : Table α} {P : α → Prop} (a : Nat) {v : α} (hv : P v)
    (h : ∀ c ∈ t, P c.2) : ∀ c ∈ Table.set d t a v, P c.2 := by
  rw [Table.set]
  split
  · exact fun c hc => h c (List.mem_filter.mp hc).1
  · intro c hc
    rcases Table.mem_insert.mp hc with rfl | hc
    · exact hv
    · exact h c (List.mem_filter.mp hc).1

/-- A read has every property that the entries and the default have. -/
theorem Table.all_get {d : α} {t : Table α} {P : α → Prop} (hd : P d) (h : ∀ c ∈ t, P c.2) (a : Nat) : P (Table.get d t a) := by
  induction t with
  | nil => exact hd
  | cons c t ih =>
    obtain ⟨b, w⟩ := c
    rw [Table.get_cons]
    split
    · exact h (b, w) (by simp)
    · exact ih fun c hc => h c (List.mem_cons_of_mem _ hc)

/-! ## Equal tables are equal lists -/

theorem Table.get_head {d : α} {b : Nat} {w : α} {t : Table α} : Table.get d ((b, w) :: t) b = w := by
  rw [Table.get_cons, if_pos rfl]

/-- Two canonical tables that read alike are the same list. -/
theorem Table.ext_get {d : α} {t u : Table α} (ht : Table.Canonical d t) (hu : Table.Canonical d u)
    (h : ∀ a, Table.get d t a = Table.get d u a) : t = u := by
  induction t generalizing u with
  | nil =>
    cases u with
    | nil => rfl
    | cons e u =>
      obtain ⟨k, x⟩ := e
      exact absurd (by simpa [Table.get_cons] using (h k).symm) (hu.2 (k, x) (by simp))
  | cons c t ih =>
    obtain ⟨b, w⟩ := c
    cases u with
    | nil => exact absurd (by simpa [Table.get_cons] using h b) (ht.2 (b, w) (by simp))
    | cons e u =>
      obtain ⟨k, x⟩ := e
      have pt := List.pairwise_cons.mp ht.1
      have pu := List.pairwise_cons.mp hu.1
      have hw : w ≠ d := ht.2 (b, w) (by simp)
      have hx : x ≠ d := hu.2 (k, x) (by simp)
      have tail : ∀ {n : Nat} {v : Table α}, (∀ c ∈ v, n < c.1) → ∀ a ≤ n, Table.get d v a = d := by
        intro n v hv a ha
        exact Table.get_of_not_listed d fun c hc e => absurd (hv c hc) (by omega)
      have hbk : b = k := by
        rcases Nat.lt_trichotomy b k with hlt | heq | hgt
        · exfalso
          have e1 := h b
          rw [Table.get_head, Table.get_cons, if_neg (by omega), tail pu.1 b (by omega)] at e1
          exact hw e1
        · exact heq
        · exfalso
          have e1 := h k
          rw [Table.get_head, Table.get_cons, if_neg (by omega), tail pt.1 k (by omega)] at e1
          exact hx e1.symm
      subst hbk
      have hwx : w = x := by simpa [Table.get_head] using h b
      subst hwx
      congr 1
      refine ih ⟨pt.2, fun c hc => ht.2 c (List.mem_cons_of_mem _ hc)⟩
        ⟨pu.2, fun c hc => hu.2 c (List.mem_cons_of_mem _ hc)⟩ ?_
      intro a
      by_cases ha : a = b
      · subst ha; rw [tail pt.1 a le_rfl, tail pu.1 a le_rfl]
      · have := h a
        rwa [Table.get_cons, Table.get_cons, if_neg ha, if_neg ha] at this

end Sys2Proof.Machine
end

