-- ==== Sys2Proof/Laws/Memory.lean ====
section
/-! SUPPORT. The laws of the byte spaces: a read after a write, byte order, and that every memory operation keeps the canonical form and the capacity. -/

namespace Sys2Proof.Machine

/-! ## Words and their bytes -/

/-- Bit `j` of byte `k` of a word is its bit `8k + j`. -/
theorem getLsbD_byteOf (v : Word) (k j : Nat) : (byteOf v k).getLsbD j = (decide (j < 8) && v.getLsbD (8 * k + j)) := by
  unfold byteOf; simp [BitVec.getLsbD_extractLsb']

/-- Bit `i` of a word put together from four bytes is bit `i mod 8` of byte `i div 8`. -/
theorem getLsbD_wordOf (b0 b1 b2 b3 : Byte) (i : Nat) :
    (wordOf b0 b1 b2 b3).getLsbD i =
      if i < 8 then b0.getLsbD i else if i < 16 then b1.getLsbD (i - 8)
      else if i < 24 then b2.getLsbD (i - 16) else if i < 32 then b3.getLsbD (i - 24) else false := by
  unfold wordOf
  simp only [BitVec.getLsbD_or, BitVec.getLsbD_shiftLeft, BitVec.getLsbD_setWidth]
  by_cases h0 : i < 8
  · simp [h0, show i < 32 by omega, show i < 16 by omega, show i < 24 by omega]
  · by_cases h1 : i < 16
    · have : b0.getLsbD i = false := BitVec.getLsbD_of_ge _ _ (by omega)
      simp [h0, h1, this, show i < 32 by omega, show i < 24 by omega, show i - 8 < 32 by omega]
    · by_cases h2 : i < 24
      · have : b0.getLsbD i = false := BitVec.getLsbD_of_ge _ _ (by omega)
        have h' : b1.getLsbD (i - 8) = false := BitVec.getLsbD_of_ge _ _ (by omega)
        simp [h0, h1, h2, this, h', show i < 32 by omega, show i - 16 < 32 by omega]
      · have e0 : b0.getLsbD i = false := BitVec.getLsbD_of_ge _ _ (by omega)
        have e1 : b1.getLsbD (i - 8) = false := BitVec.getLsbD_of_ge _ _ (by omega)
        have e2 : b2.getLsbD (i - 16) = false := BitVec.getLsbD_of_ge _ _ (by omega)
        by_cases h3 : i < 32
        · simp [h0, h1, h2, h3, e0, e1, e2, show i - 24 < 32 by omega]
        · simp [h0, h1, h2, h3, e0, e1, e2]

/-- The bytes of a word put together from four bytes. -/
theorem byteOf_wordOf (b0 b1 b2 b3 : Byte) : byteOf (wordOf b0 b1 b2 b3) 0 = b0 ∧ byteOf (wordOf b0 b1 b2 b3) 1 = b1 ∧
    byteOf (wordOf b0 b1 b2 b3) 2 = b2 ∧ byteOf (wordOf b0 b1 b2 b3) 3 = b3 := by
  refine ⟨?_, ?_, ?_, ?_⟩ <;> apply BitVec.eq_of_getLsbD_eq <;> intro i hi <;> rw [getLsbD_byteOf, getLsbD_wordOf]
  · simp [hi]
  · simp [hi, show ¬ 8 + i < 8 by omega, show 8 + i < 16 by omega, show 8 + i - 8 = i by omega]
  · simp [hi, show ¬ 16 + i < 8 by omega, show ¬ 16 + i < 16 by omega, show 16 + i < 24 by omega, show 16 + i - 16 = i by omega]
  · simp [hi, show ¬ 24 + i < 8 by omega, show ¬ 24 + i < 16 by omega, show ¬ 24 + i < 24 by omega, show 24 + i < 32 by omega,
      show 24 + i - 24 = i by omega]

/-- A word is the word of its bytes. -/
@[simp] theorem wordOf_byteOf (v : Word) : wordOf (byteOf v 0) (byteOf v 1) (byteOf v 2) (byteOf v 3) = v := by
  apply BitVec.eq_of_getLsbD_eq
  intro i hi
  rw [getLsbD_wordOf]
  simp only [getLsbD_byteOf]
  by_cases h0 : i < 8
  · simp [h0]
  · by_cases h1 : i < 16
    · simp [h0, h1, show i - 8 < 8 by omega, show 8 + (i - 8) = i by omega]
    · by_cases h2 : i < 24
      · simp [h0, h1, h2, show i - 16 < 8 by omega, show 16 + (i - 16) = i by omega]
      · simp [h0, h1, h2, hi, show i - 24 < 8 by omega, show 24 + (i - 24) = i by omega]

/-! ## Reads after writes -/

theorem memRead1_memWrite1 (m : Table Byte) (a : Nat) (b : Byte) (c : Nat) :
    memRead1 (memWrite1 m a b) c = if c = a then b else memRead1 m c := Table.get_set 0 m a b c

/-- What each byte reads as after an `n`-byte write (00_scope R14, 20_memory R52). -/
theorem memRead1_memWrite (m : Table Byte) (a n : Nat) (v : Word) (c : Nat) :
    memRead1 (memWrite m a n v) c = if a ≤ c ∧ c < a + n then byteOf v (c - a) else memRead1 m c := by
  unfold memWrite
  induction n with
  | zero => simp
  | succ n ih =>
    rw [List.range_succ, List.foldl_append, List.foldl_cons, List.foldl_nil, memRead1_memWrite1, ih]
    by_cases h : c = a + n
    · subst h; simp
    · rw [if_neg h]; exact if_congr (by omega) rfl rfl

/-- A word read where a word was written. -/
theorem memRead4_memWrite (m : Table Byte) (a : Nat) (v : Word) : memRead4 (memWrite m a 4 v) a = v := by
  simp [memRead4, memRead1_memWrite]

/-- A word read that meets no byte written. -/
theorem memRead4_memWrite_other (m : Table Byte) {a b n : Nat} (v : Word) (h : b + 4 ≤ a ∨ a + n ≤ b) :
    memRead4 (memWrite m a n v) b = memRead4 m b := by
  unfold memRead4
  rw [memRead1_memWrite, memRead1_memWrite, memRead1_memWrite, memRead1_memWrite,
    if_neg (by omega), if_neg (by omega), if_neg (by omega), if_neg (by omega)]

theorem memRead4_congr {m m' : Table Byte} {a : Nat} (h : ∀ k < 4, memRead1 m (a + k) = memRead1 m' (a + k)) :
    memRead4 m a = memRead4 m' a := by
  have h0 := h 0 (by omega); have h1 := h 1 (by omega); have h2 := h 2 (by omega); have h3 := h 3 (by omega)
  simp only [Nat.add_zero] at h0
  simp [memRead4, h0, h1, h2, h3]

/-! ## The canonical form and the capacity -/

theorem wf_nil : Memory.wf [] := Table.canonical_nil 0

theorem wf_memWrite1 {m : Table Byte} (a : Nat) (b : Byte) (h : Memory.wf m) : Memory.wf (memWrite1 m a b) :=
  Table.canonical_set a b h

theorem wf_memWrite {m : Table Byte} (a n : Nat) (v : Word) (h : Memory.wf m) : Memory.wf (memWrite m a n v) := by
  unfold memWrite
  induction n with
  | zero => simpa using h
  | succ n ih =>
    rw [List.range_succ, List.foldl_append, List.foldl_cons, List.foldl_nil]
    exact wf_memWrite1 _ _ ih

theorem wf_clearBelow {m : Table Byte} (n : Nat) (h : Memory.wf m) : Memory.wf (Table.clearBelow n m) :=
  Table.canonical_clearBelow n h

theorem wf_splice {m u : Table Byte} (n : Nat) (hm : Memory.wf m) (hu : Memory.wf u) : Memory.wf (Table.splice n m u) :=
  Table.canonical_splice n hm hu

theorem wf_freeBuffer (draw field cap : Nat) : Memory.wf (freeBuffer draw field cap) := Table.canonical_ofFn 0 cap _

/-- The buffers of the reset state are in canonical form. -/
theorem wf_reset : Memory.wf State.reset.inBuf ∧ Memory.wf State.reset.outBuf := ⟨wf_nil, wf_nil⟩

theorem below_memWrite1 {m : Table Byte} {n a : Nat} (b : Byte) (ha : a < n) (h : Table.Below n m) :
    Table.Below n (memWrite1 m a b) := Table.below_set b ha h

theorem below_memWrite {m : Table Byte} {c a n : Nat} (v : Word) (ha : a + n ≤ c) (h : Table.Below c m) :
    Table.Below c (memWrite m a n v) := by
  unfold memWrite
  induction n with
  | zero => simpa using h
  | succ n ih =>
    rw [List.range_succ, List.foldl_append, List.foldl_cons, List.foldl_nil]
    exact below_memWrite1 _ (by omega) (ih (by omega))

theorem below_freeBuffer (draw field cap : Nat) : Table.Below cap (freeBuffer draw field cap) := Table.below_ofFn 0 cap _

end Sys2Proof.Machine
end

