-- ==== Sys2Proof/Laws/State.lean ====
section
/-! SUPPORT. One lemma for each field of State after each named update, true by rfl. -/

namespace Sys2Proof.Machine

/-! ## Fault entry (60_exceptions R262) -/

@[simp] theorem State.takeFault_mode (s : State) (r : Raise) : (s.takeFault r).mode = .fault := rfl
@[simp] theorem State.takeFault_eos (s : State) (r : Raise) : (s.takeFault r).eos = false := rfl
@[simp] theorem State.takeFault_phase (s : State) (r : Raise) : (s.takeFault r).phase = s.phase := rfl
@[simp] theorem State.takeFault_errCode (s : State) (r : Raise) : (s.takeFault r).errCode = r.name.code := rfl
@[simp] theorem State.takeFault_errIndex (s : State) (r : Raise) : (s.takeFault r).errIndex = diagnostic r.index := rfl
@[simp] theorem State.takeFault_errLen (s : State) (r : Raise) : (s.takeFault r).errLen = diagnostic r.length := rfl
@[simp] theorem State.takeFault_inLen (s : State) (r : Raise) : (s.takeFault r).inLen = s.inLen := rfl
@[simp] theorem State.takeFault_outLen (s : State) (r : Raise) : (s.takeFault r).outLen = 0 := rfl
@[simp] theorem State.takeFault_wpos (s : State) (r : Raise) : (s.takeFault r).wpos = 0 := rfl
@[simp] theorem State.takeFault_inBuf (s : State) (r : Raise) : (s.takeFault r).inBuf = s.inBuf := rfl
@[simp] theorem State.takeFault_outBuf (s : State) (r : Raise) : (s.takeFault r).outBuf = freeOut s.params s.draws := rfl
@[simp] theorem State.takeFault_work (s : State) (r : Raise) : (s.takeFault r).work = Work.unspecified s.params s.draws := rfl
@[simp] theorem State.takeFault_params (s : State) (r : Raise) : (s.takeFault r).params = s.params := rfl
@[simp] theorem State.takeFault_turns (s : State) (r : Raise) : (s.takeFault r).turns = s.turns := rfl
@[simp] theorem State.takeFault_rdData (s : State) (r : Raise) : (s.takeFault r).rdData = s.rdData := rfl
@[simp] theorem State.takeFault_draws (s : State) (r : Raise) : (s.takeFault r).draws = s.draws + 1 := rfl

/-! ## CLEAR (40_host_commands R104) -/

@[simp] theorem State.clear_mode (s : State) : (s.clear).mode = .idle := rfl
@[simp] theorem State.clear_eos (s : State) : (s.clear).eos = false := rfl
@[simp] theorem State.clear_phase (s : State) : (s.clear).phase = Phase.none := rfl
@[simp] theorem State.clear_errCode (s : State) : (s.clear).errCode = 0 := rfl
@[simp] theorem State.clear_errIndex (s : State) : (s.clear).errIndex = 0 := rfl
@[simp] theorem State.clear_errLen (s : State) : (s.clear).errLen = 0 := rfl
@[simp] theorem State.clear_inLen (s : State) : (s.clear).inLen = s.inLen := rfl
@[simp] theorem State.clear_outLen (s : State) : (s.clear).outLen = 0 := rfl
@[simp] theorem State.clear_wpos (s : State) : (s.clear).wpos = 0 := rfl
@[simp] theorem State.clear_inBuf (s : State) : (s.clear).inBuf = s.inBuf := rfl
@[simp] theorem State.clear_outBuf (s : State) : (s.clear).outBuf = s.outBuf := rfl
@[simp] theorem State.clear_work (s : State) : (s.clear).work = s.work := rfl
@[simp] theorem State.clear_params (s : State) : (s.clear).params = s.params := rfl
@[simp] theorem State.clear_turns (s : State) : (s.clear).turns = s.turns := rfl
@[simp] theorem State.clear_rdData (s : State) : (s.clear).rdData = s.rdData := rfl
@[simp] theorem State.clear_draws (s : State) : (s.clear).draws = s.draws := rfl

/-! ## The reset input (70_reset_and_hazards R280) -/

@[simp] theorem State.resetInput_mode (s : State) : (s.resetInput).mode = .idle := rfl
@[simp] theorem State.resetInput_eos (s : State) : (s.resetInput).eos = false := rfl
@[simp] theorem State.resetInput_phase (s : State) : (s.resetInput).phase = Phase.none := rfl
@[simp] theorem State.resetInput_errCode (s : State) : (s.resetInput).errCode = 0 := rfl
@[simp] theorem State.resetInput_errIndex (s : State) : (s.resetInput).errIndex = 0 := rfl
@[simp] theorem State.resetInput_errLen (s : State) : (s.resetInput).errLen = 0 := rfl
@[simp] theorem State.resetInput_inLen (s : State) : (s.resetInput).inLen = 0 := rfl
@[simp] theorem State.resetInput_outLen (s : State) : (s.resetInput).outLen = 0 := rfl
@[simp] theorem State.resetInput_wpos (s : State) : (s.resetInput).wpos = 0 := rfl
@[simp] theorem State.resetInput_inBuf (s : State) : (s.resetInput).inBuf = freeIn s.params s.draws := rfl
@[simp] theorem State.resetInput_outBuf (s : State) : (s.resetInput).outBuf = freeOut s.params s.draws := rfl
@[simp] theorem State.resetInput_work (s : State) : (s.resetInput).work = Work.unspecified s.params s.draws := rfl
@[simp] theorem State.resetInput_params (s : State) : (s.resetInput).params = s.params := rfl
@[simp] theorem State.resetInput_turns (s : State) : (s.resetInput).turns = s.turns := rfl
@[simp] theorem State.resetInput_rdData (s : State) : (s.resetInput).rdData = s.rdData := rfl
@[simp] theorem State.resetInput_draws (s : State) : (s.resetInput).draws = s.draws + 1 := rfl

/-! ## The start of a command (40_host_commands R102, R103) -/

@[simp] theorem State.startCommand_mode (s : State) (p : Phase) : (s.startCommand p).mode = .busy := rfl
@[simp] theorem State.startCommand_eos (s : State) (p : Phase) : (s.startCommand p).eos = false := rfl
@[simp] theorem State.startCommand_phase (s : State) (p : Phase) : (s.startCommand p).phase = p := rfl
@[simp] theorem State.startCommand_errCode (s : State) (p : Phase) : (s.startCommand p).errCode = 0 := rfl
@[simp] theorem State.startCommand_errIndex (s : State) (p : Phase) : (s.startCommand p).errIndex = 0 := rfl
@[simp] theorem State.startCommand_errLen (s : State) (p : Phase) : (s.startCommand p).errLen = 0 := rfl
@[simp] theorem State.startCommand_inLen (s : State) (p : Phase) : (s.startCommand p).inLen = s.inLen := rfl
@[simp] theorem State.startCommand_outLen (s : State) (p : Phase) : (s.startCommand p).outLen = 0 := rfl
@[simp] theorem State.startCommand_wpos (s : State) (p : Phase) : (s.startCommand p).wpos = 0 := rfl
@[simp] theorem State.startCommand_inBuf (s : State) (p : Phase) : (s.startCommand p).inBuf = s.inBuf := rfl
@[simp] theorem State.startCommand_outBuf (s : State) (p : Phase) : (s.startCommand p).outBuf = s.outBuf := rfl
@[simp] theorem State.startCommand_work (s : State) (p : Phase) : (s.startCommand p).work = s.work := rfl
@[simp] theorem State.startCommand_params (s : State) (p : Phase) : (s.startCommand p).params = s.params := rfl
@[simp] theorem State.startCommand_turns (s : State) (p : Phase) : (s.startCommand p).turns = s.turns := rfl
@[simp] theorem State.startCommand_rdData (s : State) (p : Phase) : (s.startCommand p).rdData = s.rdData := rfl
@[simp] theorem State.startCommand_draws (s : State) (p : Phase) : (s.startCommand p).draws = s.draws := rfl

/-! ## The end of a command (44_enc_codes_emit R185, 45_dec R208) -/

@[simp] theorem State.finish_mode (s : State) (n : Word) : (s.finish n).mode = .done := rfl
@[simp] theorem State.finish_eos (s : State) (n : Word) : (s.finish n).eos = s.eos := rfl
@[simp] theorem State.finish_phase (s : State) (n : Word) : (s.finish n).phase = s.phase := rfl
@[simp] theorem State.finish_errCode (s : State) (n : Word) : (s.finish n).errCode = s.errCode := rfl
@[simp] theorem State.finish_errIndex (s : State) (n : Word) : (s.finish n).errIndex = s.errIndex := rfl
@[simp] theorem State.finish_errLen (s : State) (n : Word) : (s.finish n).errLen = s.errLen := rfl
@[simp] theorem State.finish_inLen (s : State) (n : Word) : (s.finish n).inLen = s.inLen := rfl
@[simp] theorem State.finish_outLen (s : State) (n : Word) : (s.finish n).outLen = n := rfl
@[simp] theorem State.finish_wpos (s : State) (n : Word) : (s.finish n).wpos = s.wpos := rfl
@[simp] theorem State.finish_inBuf (s : State) (n : Word) : (s.finish n).inBuf = s.inBuf := rfl
@[simp] theorem State.finish_outBuf (s : State) (n : Word) : (s.finish n).outBuf = Table.splice n.toNat s.outBuf (freeOut s.params s.draws) := rfl
@[simp] theorem State.finish_work (s : State) (n : Word) : (s.finish n).work = Work.unspecified s.params s.draws := rfl
@[simp] theorem State.finish_params (s : State) (n : Word) : (s.finish n).params = s.params := rfl
@[simp] theorem State.finish_turns (s : State) (n : Word) : (s.finish n).turns = s.turns := rfl
@[simp] theorem State.finish_rdData (s : State) (n : Word) : (s.finish n).rdData = s.rdData := rfl
@[simp] theorem State.finish_draws (s : State) (n : Word) : (s.finish n).draws = s.draws + 1 := rfl

/-! ## The early end of stream (45_dec R204) -/

@[simp] theorem State.endOfStream_mode (s : State) : (s.endOfStream).mode = s.mode := rfl
@[simp] theorem State.endOfStream_eos (s : State) : (s.endOfStream).eos = true := rfl
@[simp] theorem State.endOfStream_phase (s : State) : (s.endOfStream).phase = Phase.decDone := rfl
@[simp] theorem State.endOfStream_errCode (s : State) : (s.endOfStream).errCode = s.errCode := rfl
@[simp] theorem State.endOfStream_errIndex (s : State) : (s.endOfStream).errIndex = s.errIndex := rfl
@[simp] theorem State.endOfStream_errLen (s : State) : (s.endOfStream).errLen = s.errLen := rfl
@[simp] theorem State.endOfStream_inLen (s : State) : (s.endOfStream).inLen = s.inLen := rfl
@[simp] theorem State.endOfStream_outLen (s : State) : (s.endOfStream).outLen = s.outLen := rfl
@[simp] theorem State.endOfStream_wpos (s : State) : (s.endOfStream).wpos = s.wpos := rfl
@[simp] theorem State.endOfStream_inBuf (s : State) : (s.endOfStream).inBuf = s.inBuf := rfl
@[simp] theorem State.endOfStream_outBuf (s : State) : (s.endOfStream).outBuf = s.outBuf := rfl
@[simp] theorem State.endOfStream_params (s : State) : (s.endOfStream).params = s.params := rfl
@[simp] theorem State.endOfStream_turns (s : State) : (s.endOfStream).turns = s.turns := rfl
@[simp] theorem State.endOfStream_rdData (s : State) : (s.endOfStream).rdData = s.rdData := rfl
@[simp] theorem State.endOfStream_draws (s : State) : (s.endOfStream).draws = s.draws := rfl

/-! ## The arrival at an internal node (45_dec R205) -/

@[simp] theorem arriveNode_mode (s : State) (b : Byte) : (arriveNode s b).mode = s.mode := rfl
@[simp] theorem arriveNode_eos (s : State) (b : Byte) : (arriveNode s b).eos = s.eos := rfl
@[simp] theorem arriveNode_phase (s : State) (b : Byte) : (arriveNode s b).phase = s.phase := rfl
@[simp] theorem arriveNode_errCode (s : State) (b : Byte) : (arriveNode s b).errCode = s.errCode := rfl
@[simp] theorem arriveNode_errIndex (s : State) (b : Byte) : (arriveNode s b).errIndex = s.errIndex := rfl
@[simp] theorem arriveNode_errLen (s : State) (b : Byte) : (arriveNode s b).errLen = s.errLen := rfl
@[simp] theorem arriveNode_inLen (s : State) (b : Byte) : (arriveNode s b).inLen = s.inLen := rfl
@[simp] theorem arriveNode_outLen (s : State) (b : Byte) : (arriveNode s b).outLen = s.outLen := rfl
@[simp] theorem arriveNode_wpos (s : State) (b : Byte) : (arriveNode s b).wpos = s.wpos := rfl
@[simp] theorem arriveNode_inBuf (s : State) (b : Byte) : (arriveNode s b).inBuf = s.inBuf := rfl
@[simp] theorem arriveNode_outBuf (s : State) (b : Byte) : (arriveNode s b).outBuf = s.outBuf := rfl
@[simp] theorem arriveNode_params (s : State) (b : Byte) : (arriveNode s b).params = s.params := rfl
@[simp] theorem arriveNode_turns (s : State) (b : Byte) : (arriveNode s b).turns = s.turns := rfl
@[simp] theorem arriveNode_rdData (s : State) (b : Byte) : (arriveNode s b).rdData = s.rdData := rfl
@[simp] theorem arriveNode_draws (s : State) (b : Byte) : (arriveNode s b).draws = s.draws := rfl

/-! ## The named updates of the internal state -/

@[simp] theorem State.endOfStream_work (s : State) : s.endOfStream.work = { s.work with dmask4 := s.work.dmask4 >>> 1 } := rfl
@[simp] theorem arriveNode_work (s : State) (b : Byte) : (arriveNode s b).work = { s.work with pos := b } := rfl
@[simp] theorem Work.toRoot_pos (w : Work) : w.toRoot.pos = w.slot 1 := rfl
@[simp] theorem Work.toRoot_next (w : Work) : w.toRoot.next = 0 := rfl
@[simp] theorem Work.toRoot_ctree (w : Work) : w.toRoot.ctree = w.ctree := rfl
@[simp] theorem Work.toRoot_ctLen (w : Work) : w.toRoot.ctLen = w.ctLen := rfl
@[simp] theorem Work.toRoot_rpos (w : Work) : w.toRoot.rpos = w.rpos := rfl
@[simp] theorem Work.toRoot_dlen (w : Work) : w.toRoot.dlen = w.dlen := rfl
@[simp] theorem Work.toRoot_acc (w : Work) : w.toRoot.acc = w.acc := rfl
@[simp] theorem Work.toRoot_numBits (w : Work) : w.toRoot.numBits = w.numBits := rfl
@[simp] theorem Work.toRoot_codew (w : Work) : w.toRoot.codew = w.codew := rfl
@[simp] theorem Work.toRoot_dmask4 (w : Work) : w.toRoot.dmask4 = w.dmask4 := rfl

end Sys2Proof.Machine
end

