-- ==== Sys2Proof/Laws/Ops.lean ====
section
/-! SUPPORT. One lemma for each shared operation, saying once everything it can answer. -/

namespace Sys2Proof.Machine

/-! ## Sequencing -/

theorem except_bind_ok {ε α β : Type} {x : Except ε α} {f : α → Except ε β} {b : β} :
    (x >>= f) = .ok b ↔ ∃ a, x = .ok a ∧ f a = .ok b := by
  cases x with
  | error e => exact ⟨nofun, fun ⟨_, h, _⟩ => nomatch h⟩
  | ok a => exact ⟨fun h => ⟨a, rfl, h⟩, fun ⟨_, h, h'⟩ => by cases h; exact h'⟩

theorem except_bind_error {ε α β : Type} {x : Except ε α} {f : α → Except ε β} {e : ε} :
    (x >>= f) = .error e ↔ x = .error e ∨ ∃ a, x = .ok a ∧ f a = .error e := by
  cases x with
  | error e' =>
    exact ⟨fun h => .inl (by cases h; rfl), fun h => h.elim (fun h => by cases h; rfl) fun ⟨_, h, _⟩ => nomatch h⟩
  | ok a =>
    exact ⟨fun h => .inr ⟨a, rfl, h⟩, fun h => h.elim (fun h => nomatch h) fun ⟨_, h, h'⟩ => by cases h; exact h'⟩

@[simp] theorem ok_bind {ε α β : Type} (a : α) (f : α → Except ε β) : ((Except.ok a : Except ε α) >>= f) = f a := rfl

@[simp] theorem raise_eq_error {α : Type} (name : FaultName) (index : Int) (length : Nat) :
    (raise name index length : Except Raise α) = .error ⟨name, index, length⟩ := rfl

/-! ## The end of a phase -/

@[simp] theorem State.settle_ok (s : State) (next : State → Phase) (t : State) :
    s.settle next (.ok t) = .next { t with phase := next t } := rfl

@[simp] theorem State.settle_error (s : State) (next : State → Phase) (e : Raise) :
    s.settle next (.error e) = .next (s.takeFault e) := rfl

/-- A phase always answers a next state: its own effect with the next phase, or the fault entry. -/
theorem State.settle_next {s : State} {next : State → Phase} {r : Except Raise State} {t : State}
    (h : s.settle next r = .next t) :
    (∃ u, r = .ok u ∧ t = { u with phase := next u }) ∨ (∃ e, r = .error e ∧ t = s.takeFault e) := by
  cases r with
  | ok u => exact .inl ⟨u, rfl, by simpa using (Host.Outcome.next.inj h).symm⟩
  | error e => exact .inr ⟨e, rfl, by simpa using (Host.Outcome.next.inj h).symm⟩

@[simp] theorem State.onWork_ok (s : State) (w : Work) : s.onWork (.ok w) = .ok { s with work := w } := rfl
@[simp] theorem State.onWork_error (s : State) (e : Raise) : s.onWork (.error e) = .error e := rfl
@[simp] theorem State.onOut_ok (s : State) (x : Work × Table Byte) :
    s.onOut (.ok x) = .ok { s with work := x.1, outBuf := x.2 } := rfl
@[simp] theorem State.onOut_error (s : State) (e : Raise) : s.onOut (.error e) = .error e := rfl

/-! ## The table primitives (00_scope R15) -/

theorem treeRead_ok {w : Work} {i : Int} {b : Byte} :
    treeRead w i = .ok b ↔ (0 ≤ i ∧ i < w.ctLen) ∧ b = w.slot i.toNat := by
  unfold treeRead; split
  · next h => simp; omega
  · next h => simp; constructor
              · rintro rfl; exact ⟨by omega, rfl⟩
              · rintro ⟨-, rfl⟩; rfl

theorem treeRead_error {w : Work} {i : Int} {e : Raise} :
    treeRead w i = .error e ↔ (i < 0 ∨ (w.ctLen : Int) ≤ i) ∧ e = ⟨.codeTreeIOOB, i, w.ctLen⟩ := by
  unfold treeRead; split
  · next h => simp [h, eq_comm]
  · next h => simp [h]

theorem treeWrite_ok {w w' : Work} {i v : Int} :
    treeWrite w i v = .ok w' ↔ (0 ≤ i ∧ i < w.ctLen) ∧ (0 ≤ v ∧ v ≤ 255) ∧
      w' = { w with ctree := Table.set (0 : Byte) w.ctree i.toNat (BitVec.ofNat 8 v.toNat) } := by
  unfold treeWrite; split
  · next h => simp; omega
  · next h => split
              · next h' => simp; omega
              · next h' => simp; constructor
                           · rintro rfl; exact ⟨by omega, by omega, rfl⟩
                           · rintro ⟨-, -, rfl⟩; rfl

theorem maskRead_ok {w : Work} {i : Int} {b : Byte} :
    maskRead w i = .ok b ↔ (0 ≤ i ∧ i < w.ctLen) ∧ b = w.maskSlot i.toNat := by
  unfold maskRead; split
  · next h => simp; omega
  · next h => simp; constructor
              · rintro rfl; exact ⟨by omega, rfl⟩
              · rintro ⟨-, rfl⟩; rfl

theorem maskWrite_ok {w w' : Work} {i : Int} {v : Byte} :
    maskWrite w i v = .ok w' ↔ (0 ≤ i ∧ i < w.ctLen) ∧
      w' = { w with cmask := Table.set (0 : Byte) w.cmask i.toNat v } := by
  unfold maskWrite; split
  · next h => simp; omega
  · next h => simp; constructor
              · rintro rfl; exact ⟨by omega, rfl⟩
              · rintro ⟨-, rfl⟩; rfl

/-! ## The append primitive (44_enc_codes_emit R179) -/

theorem append_ok {P : Params} {n : Nat} {v : Word} {x y : Work × Table Byte} :
    append P n v x = .ok y ↔ x.1.opos + n ≤ P.outCap ∧
      y = ({ x.1 with opos := x.1.opos + n }, memWrite x.2 x.1.opos n v) := by
  unfold append; split
  · next h => simp; omega
  · next h => simp; constructor
              · rintro rfl; exact ⟨by omega, rfl⟩
              · rintro ⟨-, rfl⟩; rfl

theorem append_error {P : Params} {n : Nat} {v : Word} {x : Work × Table Byte} {e : Raise} :
    append P n v x = .error e ↔ P.outCap < x.1.opos + n ∧
      e = ⟨.outOverflow, ((x.1.opos + n : Nat) : Int) - 1, P.outCap⟩ := by
  unfold append; split
  · next h => simp [h, eq_comm]
  · next h => simp; omega

/-! ## What the serializer's operations may touch -/

/-- `w'` is `w` but for the flat tree and the working storage of ENC.PACK and ENC.UPDATE; slots at or beyond `CT_LEN` are untouched and the
canonical form is kept. -/
structure TreeStep (w w' : Work) : Prop where
  same : w' = { w with
    ctree := w'.ctree, cmask := w'.cmask, packStack := w'.packStack, packQueue := w'.packQueue, packS := w'.packS
    upI := w'.upI, upInc := w'.upInc, upN0 := w'.upN0, upN1 := w'.upN1, upL0 := w'.upL0, upL1 := w'.upL1
    upT0 := w'.upT0, upT1 := w'.upT1, upM0 := w'.upM0, upM1 := w'.upM1, moves := w'.moves }
  beyond : ∀ i, w.ctLen ≤ i → w'.slot i = w.slot i ∧ w'.maskSlot i = w.maskSlot i
  wf : (Memory.wf w.ctree → Memory.wf w'.ctree) ∧ (Memory.wf w.cmask → Memory.wf w'.cmask)
  below : ∀ n, w.ctLen ≤ n →
    (Table.Below n w.ctree → Table.Below n w'.ctree) ∧ (Table.Below n w.cmask → Table.Below n w'.cmask)

namespace TreeStep

theorem refl (w : Work) : TreeStep w w := ⟨rfl, fun _ _ => ⟨rfl, rfl⟩, ⟨id, id⟩, fun _ _ => ⟨id, id⟩⟩

theorem ctLen {w w' : Work} (h : TreeStep w w') : w'.ctLen = w.ctLen := by rw [h.same]
theorem node {w w' : Work} (h : TreeStep w w') : w'.node = w.node := by rw [h.same]

theorem trans {a b c : Work} (h : TreeStep a b) (g : TreeStep b c) : TreeStep a c where
  same := by rw [g.same, h.same]
  beyond i hi := by
    have := g.beyond i (by rw [h.ctLen]; exact hi)
    rw [this.1, this.2]; exact h.beyond i hi
  wf := ⟨fun x => g.wf.1 (h.wf.1 x), fun x => g.wf.2 (h.wf.2 x)⟩
  below n hn := ⟨fun x => (g.below n (by rw [h.ctLen]; exact hn)).1 ((h.below n hn).1 x),
    fun x => (g.below n (by rw [h.ctLen]; exact hn)).2 ((h.below n hn).2 x)⟩

/-- A change of the working storage alone. -/
theorem of_registers {w w' : Work} (h : w' = { w with
    packStack := w'.packStack, packQueue := w'.packQueue, packS := w'.packS
    upI := w'.upI, upInc := w'.upInc, upN0 := w'.upN0, upN1 := w'.upN1, upL0 := w'.upL0, upL1 := w'.upL1
    upT0 := w'.upT0, upT1 := w'.upT1, upM0 := w'.upM0, upM1 := w'.upM1, moves := w'.moves }) : TreeStep w w' := by
  have ht : w'.ctree = w.ctree := by rw [h]
  have hm : w'.cmask = w.cmask := by rw [h]
  refine ⟨by rw [ht, hm]; exact h, fun i _ => ⟨?_, ?_⟩, ⟨?_, ?_⟩, fun n _ => ⟨?_, ?_⟩⟩ <;>
    simp only [Work.slot, Work.maskSlot, ht, hm, imp_self]

theorem of_treeWrite {w w' : Work} {i v : Int} (h : treeWrite w i v = .ok w') : TreeStep w w' := by
  obtain ⟨hi, -, rfl⟩ := treeWrite_ok.mp h
  refine ⟨rfl, fun j hj => ⟨Table.get_set_other _ _ _ (by omega), rfl⟩, ⟨Table.canonical_set _ _, id⟩,
    fun n hn => ⟨Table.below_set _ (by omega), id⟩⟩

theorem of_maskWrite {w w' : Work} {i : Int} {v : Byte} (h : maskWrite w i v = .ok w') : TreeStep w w' := by
  obtain ⟨hi, rfl⟩ := maskWrite_ok.mp h
  refine ⟨rfl, fun j hj => ⟨rfl, Table.get_set_other _ _ _ (by omega)⟩, ⟨id, Table.canonical_set _ _⟩,
    fun n hn => ⟨id, Table.below_set _ (by omega)⟩⟩

end TreeStep

/-! ## ENC.PACK -/

theorem writeNode_step {w w' : Work} {m slot offset : Nat} (h : writeNode w m slot offset = .ok w') : TreeStep w w' := by
  unfold writeNode at h
  split at h
  · obtain ⟨a, h1, h2⟩ := except_bind_ok.mp h
    exact (TreeStep.of_treeWrite h1).trans (TreeStep.of_maskWrite h2)
  · obtain ⟨a, h1, h2⟩ := except_bind_ok.mp h
    exact (TreeStep.of_treeWrite h1).trans (TreeStep.of_maskWrite h2)

theorem bfsLoop_step : ∀ {room p q : Nat} {w w' : Work}, bfsLoop room p q w = .ok w' → TreeStep w w'
  | 0, p, q, w, w', h => by
    unfold bfsLoop at h
    split at h
    · cases h
    · cases h; exact .refl _
  | room + 1, p, q, w, w', h => by
    unfold bfsLoop at h
    split at h
    · simp only at h
      split at h
      · cases h
      · next w2 hw =>
        have h1 : TreeStep w { w with packS := w.packS + 1 } := .of_registers rfl
        have h2 := h1.trans (writeNode_step hw)
        split at h
        · exact h2.trans (bfsLoop_step h)
        · exact (h2.trans (.of_registers rfl)).trans (bfsLoop_step h)
    · cases h; exact .refl _

theorem packBfs_step {n p q : Nat} {w w' : Work} (h : packBfs n p q w = .ok w') : TreeStep w w' :=
  (TreeStep.of_registers (w' := { w with packQueue := [n], packS := 0 }) rfl).trans (bfsLoop_step h)

theorem pushFrame_step (w : Work) (n p q : Nat) : TreeStep w (w.pushFrame n p q) := .of_registers rfl
theorem setStage_step (w : Work) (a b : Nat) : TreeStep w (w.setStage a b) := .of_registers rfl
theorem popFrame_step (w : Work) : TreeStep w w.popFrame := .of_registers rfl

theorem pack_step {P : Params} : ∀ {room n p q : Nat} {w w' : Work}, pack P room n p q w = .ok w' → TreeStep w w'
  | 0, n, p, q, w, w', h => by cases h
  | room + 1, n, p, q, w, w', h => by
    unfold pack at h
    simp only at h
    split at h
    · obtain ⟨a, h1, h2⟩ := except_bind_ok.mp h
      cases h2
      exact ((pushFrame_step _ _ _ _).trans (packBfs_step h1)).trans (popFrame_step _)
    · obtain ⟨a, h1, h⟩ := except_bind_ok.mp h
      obtain ⟨b, h2, h⟩ := except_bind_ok.mp h
      have hb := ((pushFrame_step w n p q).trans (TreeStep.of_treeWrite h1)).trans (TreeStep.of_maskWrite h2)
      split at h
      · obtain ⟨c, h3, h⟩ := except_bind_ok.mp h
        obtain ⟨d, h4, h⟩ := except_bind_ok.mp h
        obtain ⟨e, h5, h⟩ := except_bind_ok.mp h
        cases h
        exact ((((hb.trans (setStage_step _ _ _)).trans (pack_step h3)).trans (setStage_step _ _ _)).trans
          (pack_step h4)).trans ((TreeStep.of_treeWrite h5).trans (popFrame_step _))
      · obtain ⟨c, h3, h⟩ := except_bind_ok.mp h
        obtain ⟨d, h4, h⟩ := except_bind_ok.mp h
        obtain ⟨e, h5, h⟩ := except_bind_ok.mp h
        cases h
        exact ((((hb.trans (setStage_step _ _ _)).trans (pack_step h3)).trans (setStage_step _ _ _)).trans
          (pack_step h4)).trans ((TreeStep.of_treeWrite h5).trans (popFrame_step _))

theorem packTree_step {P : Params} {w w' : Work} (h : packTree P w = .ok w') : TreeStep w w' :=
  (TreeStep.of_registers (w' := { w with packStack := [] }) rfl).trans (pack_step h)

/-! ## ENC.UPDATE -/

/-- Step (a)'s look at the sibling: within the buffer it answers whether that is an internal slot with the full offset (43_enc_ctree R156, R157). -/
theorem fullSibling_ok {w : Work} {j : Int} {f : Bool} : fullSibling w j = .ok f ↔
    (0 ≤ j ∧ j < w.ctLen) ∧ f = ((w.slot j.toNat).toNat == hufNext && w.maskSlot j.toNat != leafSentinel) := by
  unfold fullSibling
  constructor
  · intro h
    obtain ⟨t, h1, h⟩ := except_bind_ok.mp h
    obtain ⟨m, h2, h⟩ := except_bind_ok.mp h
    obtain ⟨hj, rfl⟩ := treeRead_ok.mp h1
    obtain ⟨-, rfl⟩ := maskRead_ok.mp h2
    exact ⟨hj, (Except.ok.inj h).symm⟩
  · rintro ⟨hj, rfl⟩
    exact except_bind_ok.mpr ⟨_, treeRead_ok.mpr ⟨hj, rfl⟩, except_bind_ok.mpr ⟨_, maskRead_ok.mpr ⟨hj, rfl⟩, rfl⟩⟩

/-- The one fault of step (a)'s look at the sibling is the one of its tree byte (00_scope R15). -/
theorem fullSibling_error {w : Work} {j : Int} {e : Raise} (h : fullSibling w j = .error e) :
    (j < 0 ∨ (w.ctLen : Int) ≤ j) ∧ e = ⟨.codeTreeIOOB, j, w.ctLen⟩ := by
  by_cases hj : 0 ≤ j ∧ j < w.ctLen
  · rw [fullSibling_ok.mpr ⟨hj, rfl⟩] at h; cases h
  · have hj : j < 0 ∨ (w.ctLen : Int) ≤ j := by omega
    unfold fullSibling treeRead at h
    rw [if_pos hj] at h
    exact ⟨hj, (Except.error.inj h).symm⟩

theorem chooseSlot_step {w w' : Work} (h : chooseSlot w = .ok w') : TreeStep w w' := by
  unfold chooseSlot at h
  split at h
  all_goals
    obtain ⟨a, -, h⟩ := except_bind_ok.mp h
    split at h
    · cases h; exact .of_registers rfl
    · obtain ⟨b, -, h⟩ := except_bind_ok.mp h
      cases h; exact .of_registers rfl

theorem windowOf_step {w w' : Work} (h : windowOf w = .ok w') : TreeStep w w' := by
  obtain ⟨a, -, h⟩ := except_bind_ok.mp h
  cases h; exact .of_registers rfl

theorem shiftPair_step {w w' : Work} {j : Int} (h : shiftPair w j = .ok w') : TreeStep w w' := by
  obtain ⟨_, -, h⟩ := except_bind_ok.mp h
  obtain ⟨_, h1, h⟩ := except_bind_ok.mp h
  obtain ⟨_, -, h⟩ := except_bind_ok.mp h
  obtain ⟨_, h2, h⟩ := except_bind_ok.mp h
  obtain ⟨_, -, h⟩ := except_bind_ok.mp h
  obtain ⟨_, h3, h⟩ := except_bind_ok.mp h
  obtain ⟨_, -, h4⟩ := except_bind_ok.mp h
  exact (((TreeStep.of_treeWrite h1).trans (.of_treeWrite h2)).trans (.of_maskWrite h3)).trans (.of_maskWrite h4)

theorem shiftPairs_step : ∀ {n : Nat} {j : Int} {w w' : Work}, shiftPairs n j w = .ok w' → TreeStep w w'
  | 0, _, _, _, h => by cases h; exact .refl _
  | _ + 1, _, _, _, h => by
    obtain ⟨_, h1, h2⟩ := except_bind_ok.mp h
    exact (shiftPair_step h1).trans (shiftPairs_step h2)

theorem rotateWindow_step {w w' : Work} (h : rotateWindow w = .ok w') : TreeStep w w' := by
  obtain ⟨t0, -, h⟩ := except_bind_ok.mp h
  obtain ⟨t1, -, h⟩ := except_bind_ok.mp h
  obtain ⟨m0, -, h⟩ := except_bind_ok.mp h
  obtain ⟨m1, -, h⟩ := except_bind_ok.mp h
  obtain ⟨_, h1, h⟩ := except_bind_ok.mp h
  obtain ⟨_, h2, h⟩ := except_bind_ok.mp h
  obtain ⟨_, h3, h⟩ := except_bind_ok.mp h
  obtain ⟨_, h4, h5⟩ := except_bind_ok.mp h
  have h0 : TreeStep w { w with upT0 := t0, upT1 := t1, upM0 := m0, upM1 := m1 } := .of_registers rfl
  exact ((((h0.trans (shiftPairs_step h1)).trans (.of_treeWrite h2)).trans (.of_treeWrite h3)).trans
    (.of_maskWrite h4)).trans (.of_maskWrite h5)

theorem pullActing_step {w w' : Work} (h : pullActing w = .ok w') : TreeStep w w' := by
  obtain ⟨_, -, h⟩ := except_bind_ok.mp h
  exact .of_treeWrite h

theorem raiseTargets_step : ∀ {n j : Nat} {w w' : Work}, raiseTargets n j w = .ok w' → TreeStep w w'
  | 0, _, _, _, h => by cases h; exact .refl _
  | _ + 1, _, _, _, h => by
    unfold raiseTargets at h
    obtain ⟨_, -, h⟩ := except_bind_ok.mp h
    split at h
    · exact raiseTargets_step h
    · obtain ⟨_, -, h⟩ := except_bind_ok.mp h
      split at h
      · obtain ⟨_, h1, h⟩ := except_bind_ok.mp h
        exact (TreeStep.of_treeWrite h1).trans (raiseTargets_step h)
      · exact raiseTargets_step h

theorem lengthenMoved_step {w w' : Work} {j : Nat} (h : lengthenMoved w j = .ok w') : TreeStep w w' := by
  obtain ⟨_, -, h⟩ := except_bind_ok.mp h
  split at h
  · cases h; exact .refl _
  · obtain ⟨_, -, h⟩ := except_bind_ok.mp h
    exact .of_treeWrite h

theorem lowerTargets_step : ∀ {n j : Nat} {w w' : Work}, lowerTargets n j w = .ok w' → TreeStep w w'
  | 0, _, _, _, h => by cases h; exact .refl _
  | _ + 1, _, _, _, h => by
    unfold lowerTargets at h
    obtain ⟨_, -, h⟩ := except_bind_ok.mp h
    split at h
    · exact lowerTargets_step h
    · obtain ⟨_, -, h⟩ := except_bind_ok.mp h
      split at h
      · obtain ⟨_, h1, h⟩ := except_bind_ok.mp h
        exact (TreeStep.of_treeWrite h1).trans (lowerTargets_step h)
      · exact lowerTargets_step h

theorem countMove_step {P : Params} {w w' : Work} (h : countMove P w = .ok w') : TreeStep w w' := by
  unfold countMove at h
  split at h
  · cases h
  · cases h; exact .of_registers rfl

theorem relocate_step {P : Params} {w w' : Work} (h : relocate P w = .ok w') : TreeStep w w' := by
  obtain ⟨_, h1, h⟩ := except_bind_ok.mp h
  obtain ⟨_, h2, h⟩ := except_bind_ok.mp h
  obtain ⟨_, h3, h⟩ := except_bind_ok.mp h
  obtain ⟨_, h4, h⟩ := except_bind_ok.mp h
  obtain ⟨_, h5, h⟩ := except_bind_ok.mp h
  obtain ⟨_, h6, h⟩ := except_bind_ok.mp h
  obtain ⟨_, h7, h⟩ := except_bind_ok.mp h
  obtain ⟨_, h8, h9⟩ := except_bind_ok.mp h
  exact (((((((chooseSlot_step h1).trans (windowOf_step h2)).trans (rotateWindow_step h3)).trans (pullActing_step h4)).trans
    (raiseTargets_step h5)).trans (lengthenMoved_step h6)).trans (lengthenMoved_step h7)).trans
    ((lowerTargets_step h8).trans (countMove_step h9))

theorem scanFrom_step : ∀ (n : Nat) (w : Work), TreeStep w (scanFrom n w)
  | 0, w => .refl _
  | n + 1, w => by
    unfold scanFrom
    split
    · exact .refl _
    · exact (TreeStep.of_registers (w' := { w with upI := w.upI + 1 }) rfl).trans (scanFrom_step n _)

theorem updateLoop_step {P : Params} : ∀ {fuel : Nat} {w w' : Work}, updateLoop P fuel w = .ok w' → TreeStep w w'
  | 0, w, w', h => by
    unfold updateLoop at h
    simp only at h
    split at h
    · cases h
    · cases h; exact scanFrom_step _ _
  | fuel + 1, w, w', h => by
    unfold updateLoop at h
    simp only at h
    split at h
    · obtain ⟨_, h1, h2⟩ := except_bind_ok.mp h
      exact ((scanFrom_step _ _).trans (relocate_step h1)).trans (updateLoop_step h2)
    · cases h; exact scanFrom_step _ _

theorem updateTree_step {P : Params} {w w' : Work} (h : updateTree P w = .ok w') : TreeStep w w' :=
  (TreeStep.of_registers (w' := { w with moves := 0, upI := 1 }) rfl).trans (updateLoop_step h)

/-! ## ENC.FINAL -/

theorem finalSlot_step {w w' : Work} {i : Nat} (h : finalSlot w i = .ok w') : TreeStep w w' := by
  obtain ⟨_, -, h⟩ := except_bind_ok.mp h
  split at h
  · cases h; exact .refl _
  · obtain ⟨_, -, h⟩ := except_bind_ok.mp h
    split at h
    · cases h
    · exact .of_treeWrite h

theorem finalFrom_step : ∀ {n i : Nat} {w w' : Work}, finalFrom n i w = .ok w' → TreeStep w w'
  | 0, _, _, _, h => by cases h; exact .refl _
  | _ + 1, _, _, _, h => by
    obtain ⟨_, h1, h2⟩ := except_bind_ok.mp h
    exact (finalSlot_step h1).trans (finalFrom_step h2)

theorem finalTree_step {w w' : Work} (h : finalTree w = .ok w') : TreeStep w w' := finalFrom_step h

end Sys2Proof.Machine
end

