-- ==== Sys2Proof/Laws/Bounds.lean ====
section
/-! SUPPORT. Each phase keeps the internal state within its widths (`Work.InBounds`), and what it does to the buffers. -/

namespace Sys2Proof.Machine

theorem two_lt_freqRange {P : Params} (h : P.Legal) : 2 < 2 ^ P.freqBits := by
  calc 2 < 2 ^ 25 := by norm_num
    _ ≤ 2 ^ P.freqBits := Nat.pow_le_pow_right (by omega) h.1

/-! ## Free values are within their widths -/

theorem freeBelow_lt (d f i : Nat) {n : Nat} (h : 0 < n) : freeBelow d f i n < n := Nat.mod_lt _ h

theorem Code.null_inBounds : Code.null.InBounds := ⟨by simp [Code.null], wf_nil, Table.below_nil 32⟩

theorem freeCode_inBounds (d i : Nat) : (freeCode d i).InBounds :=
  have h : Memory.wf (freeCode d i).cw := Table.canonical_ofFn (0 : Byte) 32 (fun k => freeBits 8 d 12 (32 * i + k))
  have h' : Table.Below 32 (freeCode d i).cw := Table.below_ofFn (0 : Byte) 32 (fun k => freeBits 8 d 12 (32 * i + k))
  ⟨freeBelow_lt _ _ _ (by norm_num), h, h'⟩

theorem freeLink_lt {d f i k : Nat} (h : freeLink d f i = some k) : k < maxNodes := by
  unfold freeLink at h
  simp only at h
  split at h
  · cases h
  · next hne =>
    have h' := Option.some.inj h
    have := freeBelow_lt d f i (n := maxNodes + 1) (Nat.succ_pos _)
    omega

theorem Node.null_inBounds (P : Params) : Node.null.InBounds P := ⟨Nat.two_pow_pos _, by decide, nofun, nofun, nofun⟩

theorem freeNode_inBounds (P : Params) (d i : Nat) : (freeNode P d i).InBounds P :=
  ⟨freeBelow_lt _ _ _ (Nat.two_pow_pos _), freeBelow_lt d 6 i (Nat.two_pow_pos 9), fun _ => freeLink_lt, fun _ => freeLink_lt, fun _ => freeLink_lt⟩

theorem freeBelow_le (d f i n : Nat) : freeBelow d f i (n + 1) ≤ n := Nat.lt_succ_iff.mp (freeBelow_lt d f i (Nat.succ_pos n))

theorem Work.unspecified_freq (P : Params) (d : Nat) : (Work.unspecified P d).freq =
    Table.ofFn 0 nsym (fun s => freeBelow d 2 s (2 ^ P.freqBits)) := by simp only [Work.unspecified]
theorem Work.unspecified_node (P : Params) (d : Nat) : (Work.unspecified P d).node =
    Table.ofFn Node.null maxNodes (fun i => freeNode P d i) := by simp only [Work.unspecified]
theorem Work.unspecified_ctree (P : Params) (d : Nat) : (Work.unspecified P d).ctree = freeBuffer d 18 maxCtLen := by simp only [Work.unspecified]
theorem Work.unspecified_cmask (P : Params) (d : Nat) : (Work.unspecified P d).cmask = freeBuffer d 19 maxCtLen := by simp only [Work.unspecified]
theorem Work.unspecified_code (P : Params) (d : Nat) : (Work.unspecified P d).code =
    Table.ofFn Code.null nsym (fun s => freeCode d s) := by simp only [Work.unspecified]

/-- The unspecified contents of the internal state are within its widths. -/
theorem Work.unspecified_inBounds (P : Params) (d : Nat) : (Work.unspecified P d).InBounds P where
  freq := by rw [Work.unspecified_freq]; exact ⟨Table.canonical_ofFn _ _ _, Table.below_ofFn _ _ _⟩
  freqWidth s := by
    simp only [Work.freqAt, Work.unspecified, Table.get_ofFn]
    split
    · exact freeBelow_lt _ _ _ (Nat.two_pow_pos _)
    · exact Nat.two_pow_pos _
  nleaf := freeBelow_le d 20 0 nsym
  node := by rw [Work.unspecified_node]; exact ⟨Table.canonical_ofFn _ _ _, Table.below_ofFn _ _ _⟩
  nodes i := by
    simp only [Work.nodeAt, Work.unspecified, Table.get_ofFn]
    split
    · exact freeNode_inBounds _ _ _
    · exact Node.null_inBounds P
  nnode := freeBelow_le d 20 1 maxNodes
  ctree := by rw [Work.unspecified_ctree]; exact ⟨wf_freeBuffer _ _ _, below_freeBuffer _ _ _⟩
  cmask := by rw [Work.unspecified_cmask]; exact ⟨wf_freeBuffer _ _ _, below_freeBuffer _ _ _⟩
  ctLen := freeBelow_le d 20 2 maxCtLen
  code := by rw [Work.unspecified_code]; exact ⟨Table.canonical_ofFn _ _ _, Table.below_ofFn _ _ _⟩
  codes b := by
    simp only [Work.codeAt, Work.unspecified, Table.get_ofFn]
    split
    · exact freeCode_inBounds _ _
    · exact Code.null_inBounds
  opos := freeBelow_lt d 20 3 (Nat.two_pow_pos 32)
  epos := freeBelow_lt d 20 4 (Nat.two_pow_pos 32)
  wordpos := freeBelow_lt d 20 6 (Nat.two_pow_pos 32)
  cwidx := freeBelow_lt d 20 8 (Nat.two_pow_pos 5)
  rpos := freeBelow_lt d 20 11 (Nat.two_pow_pos 32)
  next := freeBelow_lt d 20 13 (Nat.two_pow_pos 16)
  acc := freeBelow_lt d 20 14 (Nat.two_pow_pos 3)
  numBits := freeBelow_lt d 20 15 (Nat.two_pow_pos 4)
  dlen := freeBelow_lt d 20 16 (Nat.two_pow_pos 24)

/-- The internal state of the reset state is within its widths. -/
theorem Work.zero_inBounds (P : Params) : Work.zero.InBounds P where
  freq := ⟨Table.canonical_nil _, Table.below_nil _⟩
  freqWidth _ := Nat.two_pow_pos _
  nleaf := by decide
  node := ⟨Table.canonical_nil _, Table.below_nil _⟩
  nodes _ := Node.null_inBounds P
  nnode := by decide
  ctree := ⟨wf_nil, Table.below_nil _⟩
  cmask := ⟨wf_nil, Table.below_nil _⟩
  ctLen := by decide
  code := ⟨Table.canonical_nil _, Table.below_nil _⟩
  codes _ := Code.null_inBounds
  opos := by decide
  epos := by decide
  wordpos := by decide
  cwidx := by decide
  rpos := by decide
  next := by decide
  acc := by decide
  numBits := by decide
  dlen := by decide

/-! ## Sums over a range -/

/-- A sum over a range, when one term of it changes. -/
theorem sum_range_update {g g' : Nat → Nat} {s : Nat} (h : ∀ i, i ≠ s → g' i = g i) : ∀ {n : Nat},
    ((List.range n).map g').sum + (if s < n then g s else 0) = ((List.range n).map g).sum + if s < n then g' s else 0
  | 0 => rfl
  | n + 1 => by
    have ih := sum_range_update h (n := n)
    simp only [List.range_succ, List.map_append, List.sum_append, List.map_cons, List.map_nil, List.sum_cons, List.sum_nil, Nat.add_zero]
    rcases Nat.lt_trichotomy s n with hs | rfl | hs
    · rw [if_pos hs] at ih
      rw [if_pos (by omega), h n (by omega)]
      rw [if_pos hs] at ih
      rw [if_pos (by omega)]
      omega
    · rw [if_neg (Nat.lt_irrefl _), if_neg (Nat.lt_irrefl _)] at ih
      rw [if_pos (Nat.lt_succ_self _), if_pos (Nat.lt_succ_self _)]
      omega
    · rw [if_neg (by omega), if_neg (by omega)] at ih
      rw [if_neg (by omega), if_neg (by omega), h n (by omega)]
      omega

theorem sum_map_filter (p : Nat → Bool) (f : Nat → Nat) : ∀ l : List Nat,
    ((l.filter p).map f).sum = (l.map fun i => if p i then f i else 0).sum
  | [] => rfl
  | i :: l => by
    have ih := sum_map_filter p f l
    by_cases h : p i <;> simp [h, ih]

/-! ## The frequency table -/

theorem codeAt_eq_get (w : Work) (b : Byte) : w.codeAt b = Table.get Code.null w.code b.toNat := rfl

theorem get_invalidateCodes : ∀ (n : Nat) (t : Table Code) (s : Nat),
    Table.get Code.null (invalidateCodes n t) s =
      if s < n then { Table.get Code.null t s with valid := false } else Table.get Code.null t s
  | 0, _, _ => rfl
  | n + 1, t, s => by
    rw [invalidateCodes, get_invalidateCodes n, Table.get_set]
    rcases Nat.lt_trichotomy s n with h | h | h
    · simp [h, Nat.lt_succ_of_lt h, Nat.ne_of_lt h]
    · subst h; simp
    · simp [Nat.not_lt_of_gt h, show ¬ s < n + 1 by omega, Nat.ne_of_gt h]

theorem canonical_invalidateCodes : ∀ (n : Nat) {t : Table Code}, Table.Canonical Code.null t →
    Table.Canonical Code.null (invalidateCodes n t)
  | 0, _, h => h
  | n + 1, _, h => canonical_invalidateCodes n (Table.canonical_set _ _ h)

theorem below_invalidateCodes : ∀ (n : Nat) {t : Table Code}, n ≤ nsym → Table.Below nsym t → Table.Below nsym (invalidateCodes n t)
  | 0, _, _, h => h
  | n + 1, _, hn, h => below_invalidateCodes n (by omega) (Table.below_set _ (by omega) h)

theorem initTables_inBounds {P : Params} {w : Work} (h : w.InBounds P) : (initTables w).InBounds P := by
  have h1 : ∀ s, Table.get 0 (Table.clearBelow nsym w.freq) s < 2 ^ P.freqBits := fun s => by
    rw [Table.get_clearBelow]; split
    · exact Nat.two_pow_pos _
    · exact h.freqWidth s
  have h2 : ∀ b : Byte, (Table.get Code.null (invalidateCodes nsym w.code) b.toNat).InBounds := fun b => by
    rw [get_invalidateCodes]
    have := h.codes b
    rw [codeAt_eq_get] at this
    split
    · exact this
    · exact this
  have h3 := canonical_invalidateCodes nsym h.code.1
  have h4 := below_invalidateCodes nsym le_rfl h.code.2
  generalize hc : invalidateCodes nsym w.code = c at h2 h3 h4
  rw [initTables, hc]
  exact { h with
    freq := ⟨Table.canonical_clearBelow _ h.freq.1, Table.below_clearBelow _ h.freq.2⟩
    freqWidth := h1
    nleaf := Nat.zero_le _
    nnode := Nat.zero_le _
    ctLen := Nat.zero_le _
    code := ⟨h3, h4⟩
    codes := h2 }

/-- What the counting gives when no counter is full: each byte's occurrences are added to its counter (41_enc_freq R121). -/
theorem countFrom_inBounds {P : Params} {m : Table Byte} : ∀ {n i : Nat} {f f' : Table Nat}, countFrom P m n i f = .ok f' →
    (Table.Canonical 0 f → Table.Canonical 0 f') ∧ (Table.Below nsym f → Table.Below nsym f') ∧
    ((∀ s, Table.get 0 f s < 2 ^ P.freqBits) → ∀ s, Table.get 0 f' s < 2 ^ P.freqBits)
  | 0, _, _, _, h => by cases h; exact ⟨id, id, id⟩
  | n + 1, i, f, f', h => by
    unfold countFrom at h
    simp only at h
    split at h
    · cases h
    · next hne =>
      obtain ⟨h1, h2, h3⟩ := countFrom_inBounds h
      refine ⟨fun x => h1 (Table.canonical_set _ _ x), fun x => h2 (Table.below_set _ (BitVec.isLt _) x), fun x => h3 fun s => ?_⟩
      rw [Table.get_set]
      split
      · have := x (memRead1 m i).toNat; omega
      · exact x s

/-- The sum of the counters, when one of them is written. -/
theorem counterSum_set (f : Table Nat) {s : Nat} (v : Nat) (hs : s < nsym) :
    counterSum (Table.set 0 f s v) + Table.get 0 f s = counterSum f + v := by
  have := sum_range_update (g := Table.get 0 f) (g' := Table.get 0 (Table.set 0 f s v)) (s := s) (n := nsym)
    (fun i hi => Table.get_set_other 0 f v hi)
  rwa [if_pos hs, if_pos hs, Table.get_set_same] at this

theorem initTables_freqTotal (w : Work) : (initTables w).freqTotal = 0 := by
  refine List.sum_eq_zero fun x hx => ?_
  obtain ⟨s, hs, rfl⟩ := List.mem_map.mp hx
  show Table.get 0 (Table.clearBelow nsym w.freq) s = 0
  rw [Table.get_clearBelow, if_pos (List.mem_range.mp hs)]

/-- The counting of `n` bytes adds `n` to the sum of the counters. -/
theorem countFrom_counterSum {P : Params} {m : Table Byte} : ∀ {n i : Nat} {f f' : Table Nat}, countFrom P m n i f = .ok f' →
    counterSum f' = counterSum f + n
  | 0, _, _, _, h => by cases h; exact (Nat.add_zero _).symm
  | n + 1, i, f, f', h => by
    unfold countFrom at h
    simp only at h
    split at h
    · cases h
    · have h1 := countFrom_counterSum h
      have h2 := counterSum_set f (Table.get 0 f (memRead1 m i).toNat + 1) (show (memRead1 m i).toNat < nsym from BitVec.isLt _)
      omega

theorem countInput_freqTotal {P : Params} {m : Table Byte} {n : Nat} {w w' : Work} (h : countInput P m n w = .ok w') :
    w'.freqTotal = w.freqTotal + n := by
  unfold countInput at h
  split at h
  · next f hf =>
    cases h
    rw [Work.freqTotal, Work.freqTotal]
    exact countFrom_counterSum hf
  · cases h

theorem promote_freqTotal : ∀ (n : Nat) (w : Work), (promote n w).freqTotal ≤ w.freqTotal + 2 * n
  | 0, _ => Nat.le_add_right _ _
  | n + 1, w => by
    unfold promote
    split
    · next z hz =>
      have h1 := promote_freqTotal n { w with freq := Table.set 0 w.freq z 2, nleaf := w.nleaf + 1 }
      have h2 := counterSum_set w.freq 2 (List.mem_range.mp (List.mem_of_find?_eq_some hz))
      rw [Work.freqTotal] at h1 ⊢
      rw [Work.freqTotal] at h1 ⊢
      simp only at h1
      omega
    · have h1 := promote_freqTotal n { w with nleaf := w.nleaf + 1 }
      rw [Work.freqTotal] at h1 ⊢
      rw [Work.freqTotal] at h1 ⊢
      simp only at h1
      omega

theorem flattenOnly_freqTotal (w : Work) : (flattenOnly w).freqTotal ≤ w.freqTotal := by
  unfold flattenOnly
  split
  · next s hs =>
    have h1 := counterSum_set w.freq 1 (List.mem_range.mp (List.mem_of_find?_eq_some hs))
    have h2 : Table.get 0 w.freq s ≠ 0 := by simpa using List.find?_some hs
    show counterSum (Table.set 0 w.freq s 1) ≤ counterSum w.freq
    omega
  · exact le_rfl

/-- The patch adds at most 4 to the sum of the counters (41_enc_freq R124). -/
theorem patchFreq_freqTotal (w : Work) : (patchFreq w).freqTotal ≤ w.freqTotal + 4 := by
  unfold patchFreq
  split
  · have h1 := promote_freqTotal (2 - w.nleaf) (flattenOnly w)
    have h2 := flattenOnly_freqTotal w
    omega
  · have := promote_freqTotal (2 - w.nleaf) w
    omega

theorem distinctCount_le (f : Table Nat) : distinctCount f ≤ nsym :=
  (List.countP_le_length).trans_eq (List.length_range)

theorem countInput_inBounds {P : Params} {m : Table Byte} {n : Nat} {w w' : Work} (hw : w.InBounds P)
    (h : countInput P m n w = .ok w') : w'.InBounds P := by
  unfold countInput at h
  split at h
  · next f hf =>
    cases h
    obtain ⟨h1, h2, h3⟩ := countFrom_inBounds hf
    exact { hw with freq := ⟨h1 hw.freq.1, h2 hw.freq.2⟩, freqWidth := h3 hw.freqWidth, nleaf := distinctCount_le f }
  · cases h

theorem setFreq_inBounds {P : Params} {w : Work} (h : w.InBounds P) {s v : Nat} (hs : s < nsym) (hv : v < 2 ^ P.freqBits) :
    ({ w with freq := Table.set 0 w.freq s v } : Work).InBounds P :=
  { h with
    freq := ⟨Table.canonical_set _ _ h.freq.1, Table.below_set _ hs h.freq.2⟩
    freqWidth := fun t => by
      show Table.get 0 (Table.set 0 w.freq s v) t < _
      rw [Table.get_set]; split
      · exact hv
      · exact h.freqWidth t }

theorem promote_inBounds {P : Params} (hP : P.Legal) : ∀ {n : Nat} {w : Work}, w.InBounds P → w.nleaf + n ≤ nsym →
    (promote n w).InBounds P
  | 0, _, h, _ => h
  | n + 1, w, h, hn => by
    unfold promote
    split
    · next z hz =>
      have hz' : z < nsym := List.mem_range.mp (List.mem_of_find?_eq_some hz)
      exact promote_inBounds hP { setFreq_inBounds h hz' (two_lt_freqRange hP) with nleaf := show w.nleaf + 1 ≤ nsym by omega }
        (show w.nleaf + 1 + n ≤ nsym by omega)
    · exact promote_inBounds hP { h with nleaf := show w.nleaf + 1 ≤ nsym by omega } (show w.nleaf + 1 + n ≤ nsym by omega)

theorem flattenOnly_inBounds {P : Params} (hP : P.Legal) {w : Work} (h : w.InBounds P) : (flattenOnly w).InBounds P := by
  unfold flattenOnly
  split
  · next s hs =>
    exact setFreq_inBounds h (List.mem_range.mp (List.mem_of_find?_eq_some hs)) (by have := two_lt_freqRange hP; omega)
  · exact h

theorem flattenOnly_nleaf (w : Work) : (flattenOnly w).nleaf = w.nleaf := by unfold flattenOnly; split <;> rfl

theorem patchFreq_inBounds {P : Params} (hP : P.Legal) {w : Work} (h : w.InBounds P) : (patchFreq w).InBounds P := by
  have hn := h.nleaf
  unfold patchFreq
  split
  · next h1 =>
    refine promote_inBounds hP (flattenOnly_inBounds hP h) ?_
    rw [flattenOnly_nleaf, h1]; decide
  · refine promote_inBounds hP h ?_
    unfold nsym at *; omega

/-! ## The tree builder -/

theorem setNode_inBounds {P : Params} {w : Work} (h : w.InBounds P) {i : Nat} {v : Node} (hi : i < maxNodes) (hv : v.InBounds P) :
    ({ w with node := Table.set Node.null w.node i v } : Work).InBounds P :=
  { h with
    node := ⟨Table.canonical_set _ _ h.node.1, Table.below_set _ hi h.node.2⟩
    nodes := fun k => by
      show (Table.get Node.null (Table.set Node.null w.node i v) k).InBounds P
      rw [Table.get_set]; split
      · exact hv
      · exact h.nodes k }

theorem leaf_inBounds {P : Params} (sym : BitVec 9) {weight : Nat} (h : weight < 2 ^ P.freqBits) :
    ({ sym := sym, weight := weight, leafs := 1, dad := none, lson := none, rson := none } : Node).InBounds P := by
  constructor <;> simp [h]

theorem addLeaf_inBounds {P : Params} {w : Work} (h : w.InBounds P) (s : Nat) (hn : w.nnode < maxNodes) :
    (addLeaf w s).InBounds P ∧ (addLeaf w s).nnode ≤ w.nnode + 1 := by
  unfold addLeaf
  split
  · exact ⟨h, Nat.le_succ _⟩
  · exact ⟨{ setNode_inBounds h hn (leaf_inBounds _ (h.freqWidth s)) with nnode := hn }, le_rfl⟩

theorem makeLeaves_inBounds {P : Params} {w : Work} (h : w.InBounds P) : (makeLeaves w).InBounds P := by
  have key : ∀ (l : List Nat) (u : Work), u.InBounds P → u.nnode + l.length ≤ nsym → (l.foldl addLeaf u).InBounds P := by
    intro l
    induction l with
    | nil => exact fun _ hu _ => hu
    | cons s l ih =>
      intro u hu hl
      have hl' : u.nnode + (l.length + 1) ≤ nsym := hl
      have := addLeaf_inBounds hu s (by unfold nsym maxNodes at *; omega)
      exact ih _ this.1 (by omega)
  exact key _ _ { h with nnode := Nat.zero_le _ } (by simp)

/-- A value summed over the nodes without a parent. -/
def Work.freeSum (w : Work) (f : Nat → Nat) : Nat := (w.parentless.map f).sum

theorem freeSum_eq (w : Work) (f : Nat → Nat) :
    w.freeSum f = ((List.range w.nnode).map fun i => if (w.nodeAt i).dad = none then f i else 0).sum := by
  unfold Work.freeSum Work.parentless
  rw [sum_map_filter]
  simp only [decide_eq_true_eq]

theorem freeSum_addLeaf {w : Work} (s : Nat) (g : Node → Nat) : (addLeaf w s).freeSum (fun i => g ((addLeaf w s).nodeAt i)) =
    w.freeSum (fun i => g (w.nodeAt i)) + if w.freqAt s = 0 then 0 else
      g { sym := BitVec.ofNat 9 s, weight := w.freqAt s, leafs := 1, dad := none, lson := none, rson := none } := by
  unfold addLeaf
  split
  · rfl
  · rw [freeSum_eq, freeSum_eq]
    simp only [Work.nodeAt, List.range_succ, List.map_append, List.sum_append, List.map_cons, List.map_nil, List.sum_cons, List.sum_nil,
      Table.get_set_same, Nat.add_zero, if_true]
    congr 2
    refine List.map_congr_left fun i hi => ?_
    simp only [Table.get_set_other Node.null _ _ (Nat.ne_of_lt (List.mem_range.mp hi))]
    exact if_congr Iff.rfl rfl rfl

theorem addLeaf_freqAt (w : Work) (s : Nat) : (addLeaf w s).freqAt = w.freqAt := by unfold addLeaf; split <;> rfl

/-- The leaves weigh together what the counters add up to, and are at most 256. -/
theorem makeLeaves_free (w : Work) : (makeLeaves w).freeWeight = w.freqTotal ∧ (makeLeaves w).freeLeafs ≤ nsym := by
  have key : ∀ (l : List Nat) (u : Work), (l.foldl addLeaf u).freeWeight = u.freeWeight + (l.map u.freqAt).sum ∧
      (l.foldl addLeaf u).freeLeafs ≤ u.freeLeafs + l.length := by
    intro l
    induction l with
    | nil => exact fun _ => ⟨rfl, le_rfl⟩
    | cons s l ih =>
      intro u
      obtain ⟨h1, h2⟩ := ih (addLeaf u s)
      have h3 : (addLeaf u s).freeWeight = u.freeWeight + u.freqAt s := by
        refine (freeSum_addLeaf s Node.weight).trans ?_
        congr 1
        split
        · next h => exact h.symm
        · rfl
      have h4 : (addLeaf u s).freeLeafs ≤ u.freeLeafs + 1 := by
        refine (freeSum_addLeaf s Node.leafs).trans_le (Nat.add_le_add_left ?_ _)
        split
        · exact Nat.zero_le _
        · exact le_rfl
      rw [addLeaf_freqAt] at h1
      refine ⟨?_, ?_⟩
      · rw [List.foldl_cons, h1, h3, List.map_cons, List.sum_cons, Nat.add_assoc]
      · rw [List.foldl_cons, List.length_cons]; omega
  obtain ⟨h1, h2⟩ := key (List.range nsym) { w with nnode := 0 }
  refine ⟨h1.trans ?_, h2.trans ?_⟩
  · show 0 + _ = _
    rw [Nat.zero_add]; rfl
  · show 0 + (List.range nsym).length ≤ nsym
    rw [List.length_range, Nat.zero_add]

theorem lightest_mem (w : Work) : ∀ {l : List Nat} {i : Nat}, w.lightest l = some i → i ∈ l
  | [], _, h => by cases h
  | j :: l, i, h => by
    unfold Work.lightest at h
    split at h
    · cases h; simp
    · next k hk =>
      split at h
      · cases h; exact List.mem_cons_of_mem _ (lightest_mem w hk)
      · cases h; simp

theorem mem_parentless {w : Work} {i : Nat} : i ∈ w.parentless ↔ i < w.nnode ∧ (w.nodeAt i).dad = none := by
  simp [Work.parentless]

/-- The new node of a merge (42_enc_tree R131). -/
def Work.parentOf (w : Work) (a b : Nat) : Node :=
  { sym := BitVec.ofNat 9 (256 + (w.nnode - w.nleaf))
    weight := (w.nodeAt a).weight + (w.nodeAt b).weight
    leafs := w.leafsOf a + w.leafsOf b
    dad := none
    lson := some a
    rson := some b }

/-- The nodes after a merge: the new one, its two children with their parent set, and the others as they were (42_enc_tree R131). -/
theorem join_nodeAt {w : Work} {a b : Nat} (ha : a < w.nnode) (hb : b < w.nnode) (hab : a ≠ b) (i : Nat) :
    (w.join a b).nodeAt i = if i = w.nnode then w.parentOf a b
      else if i = a ∨ i = b then { w.nodeAt i with dad := some w.nnode } else w.nodeAt i := by
  have hna : w.nnode ≠ a := (Nat.ne_of_lt ha).symm
  have hnb : w.nnode ≠ b := (Nat.ne_of_lt hb).symm
  simp only [Work.join, Work.setDad, Work.nodeAt, Work.parentOf, Table.get_set]
  by_cases h1 : i = b
  · subst h1; simp [hab.symm, hnb.symm]
  · by_cases h2 : i = a
    · subst h2; simp [h1, hna.symm]
    · by_cases h3 : i = w.nnode
      · subst h3; simp [h1, h2]
      · simp [h1, h2, h3]

/-- A merge changes the node table and `NNODE` alone. -/
theorem join_eq (w : Work) (a b : Nat) : w.join a b = { w with node := (w.join a b).node, nnode := w.nnode + 1 } := by
  simp only [Work.join, Work.setDad]

/-- A merge keeps what the nodes without a parent add up to, in whatever the new node sums up of its children. -/
theorem freeSum_join {w : Work} {a b : Nat} (ha : a < w.nnode ∧ (w.nodeAt a).dad = none) (hb : b < w.nnode ∧ (w.nodeAt b).dad = none)
    (hab : a ≠ b) (g : Node → Nat) (hg : g (w.parentOf a b) = g (w.nodeAt a) + g (w.nodeAt b)) :
    (w.join a b).freeSum (fun i => g ((w.join a b).nodeAt i)) = w.freeSum (fun i => g (w.nodeAt i)) := by
  have hn : (w.join a b).nnode = w.nnode + 1 := by rw [join_eq]
  have hJ := join_nodeAt ha.1 hb.1 hab
  rw [freeSum_eq, freeSum_eq, hn]
  simp only [List.range_succ, List.map_append, List.sum_append, List.map_cons, List.map_nil, List.sum_cons, List.sum_nil, Nat.add_zero]
  let v := fun i => if (w.nodeAt i).dad = none then g (w.nodeAt i) else 0
  let va := fun i => if i = a then 0 else v i
  let vab := fun i => if i = b then 0 else va i
  have h1 := sum_range_update (g := v) (g' := va) (s := a) (n := w.nnode) (fun i hi => if_neg hi)
  have h2 := sum_range_update (g := va) (g' := vab) (s := b) (n := w.nnode) (fun i hi => if_neg hi)
  rw [if_pos ha.1, if_pos ha.1] at h1
  rw [if_pos hb.1, if_pos hb.1] at h2
  have e1 : va a = 0 := if_pos rfl
  have e2 : vab b = 0 := if_pos rfl
  have e3 : v a = g (w.nodeAt a) := if_pos ha.2
  have e4 : va b = g (w.nodeAt b) := (if_neg hab.symm).trans (if_pos hb.2)
  have e5 : (if ((w.join a b).nodeAt w.nnode).dad = none then g ((w.join a b).nodeAt w.nnode) else 0) = g (w.nodeAt a) + g (w.nodeAt b) := by
    rw [hJ, if_pos rfl]
    exact (if_pos rfl).trans hg
  have e6 : (List.range w.nnode).map (fun i => if ((w.join a b).nodeAt i).dad = none then g ((w.join a b).nodeAt i) else 0) =
      (List.range w.nnode).map vab := by
    refine List.map_congr_left fun i hi => ?_
    have hi' := Nat.ne_of_lt (List.mem_range.mp hi)
    rw [hJ, if_neg hi']
    simp only [vab, va, v]
    by_cases h1 : i = b <;> by_cases h2 : i = a <;> simp [h1, h2]
  rw [e5, e6]
  show _ = ((List.range w.nnode).map v).sum
  omega

/-- A node without a parent has no more than all of them together. -/
theorem le_freeSum {w : Work} {i : Nat} (f : Nat → Nat) (h : i ∈ w.parentless) : f i ≤ w.freeSum f :=
  List.single_le_sum (fun _ _ => Nat.zero_le _) _ (List.mem_map_of_mem h)

/-- Two of them together neither. -/
theorem add_le_freeSum {w : Work} {a b : Nat} (f : Nat → Nat) (ha : a ∈ w.parentless) (hb : b ∈ w.parentless) (hab : a ≠ b) :
    f a + f b ≤ w.freeSum f := by
  have key : ∀ l : List Nat, a ∈ l → b ∈ l → f a + f b ≤ (l.map f).sum := by
    intro l
    induction l with
    | nil => exact fun h => absurd h List.not_mem_nil
    | cons x l ih =>
      intro h1 h2
      have hs : ∀ y ∈ l, f y ≤ (l.map f).sum := fun y hy => List.single_le_sum (fun _ _ => Nat.zero_le _) _ (List.mem_map_of_mem hy)
      rw [List.map_cons, List.sum_cons]
      rcases List.mem_cons.mp h1 with h3 | h3
      · have := hs b ((List.mem_cons.mp h2).resolve_left (h3 ▸ Ne.symm hab)); rw [h3] at *; omega
      · rcases List.mem_cons.mp h2 with h4 | h4
        · have := hs a h3; rw [h4] at *; omega
        · have := ih h3 h4; omega
  exact key _ ha hb

/-- The nodes without a parent have no more weight and leaves together than an arena of accepted input (41_enc_freq R124). -/
abbrev Work.FreeBound (w : Work) : Prop := w.freeWeight ≤ maxLen + 4 ∧ w.freeLeafs ≤ nsym

theorem join_freeBound {w : Work} {a b : Nat} (ha : a < w.nnode ∧ (w.nodeAt a).dad = none) (hb : b < w.nnode ∧ (w.nodeAt b).dad = none)
    (hab : a ≠ b) (h : w.FreeBound) : (w.join a b).FreeBound :=
  ⟨(freeSum_join ha hb hab Node.weight rfl).trans_le h.1, (freeSum_join ha hb hab Node.leafs rfl).trans_le h.2⟩

theorem join_inBounds {P : Params} (hP : P.Legal) {w : Work} (h : w.InBounds P) (hf : w.FreeBound) {a b : Nat}
    (ha : a < w.nnode ∧ (w.nodeAt a).dad = none) (hb : b < w.nnode ∧ (w.nodeAt b).dad = none) (hab : a ≠ b)
    (hn : w.nnode < maxNodes) : (w.join a b).InBounds P := by
  have hn' : w.nnode + 1 ≤ maxNodes := hn
  have ha' := mem_parentless.mpr ha
  have hb' := mem_parentless.mpr hb
  have hweight : (w.nodeAt a).weight + (w.nodeAt b).weight < 2 ^ P.freqBits := by
    have h1 := (add_le_freeSum (fun i => (w.nodeAt i).weight) ha' hb' hab).trans hf.1
    have h2 : 2 ^ 25 ≤ 2 ^ P.freqBits := Nat.pow_le_pow_right (by omega) hP.1
    have h3 : maxLen + 4 < 2 ^ 25 := by decide
    exact lt_of_le_of_lt h1 (lt_of_lt_of_le h3 h2)
  have hleafs : w.leafsOf a + w.leafsOf b < 2 ^ 9 :=
    lt_of_le_of_lt ((add_le_freeSum w.leafsOf ha' hb' hab).trans hf.2) (by decide)
  have hnode : Table.Canonical Node.null (w.join a b).node ∧ Table.Below maxNodes (w.join a b).node := by
    simp only [Work.join, Work.setDad]
    exact ⟨Table.canonical_set _ _ (Table.canonical_set _ _ (Table.canonical_set _ _ h.node.1)),
      Table.below_set _ (hb.1.trans hn) (Table.below_set _ (ha.1.trans hn) (Table.below_set _ hn h.node.2))⟩
  have hnodes : ∀ i, ((w.join a b).nodeAt i).InBounds P := fun i => by
    rw [join_nodeAt ha.1 hb.1 hab]
    split
    · exact ⟨hweight, hleafs, nofun, fun d e => Option.some.inj e ▸ ha.1.trans hn, fun d e => Option.some.inj e ▸ hb.1.trans hn⟩
    · split
      · exact { h.nodes i with dad := fun d e => Option.some.inj e ▸ hn }
      · exact h.nodes i
  rw [join_eq] at hnodes ⊢
  generalize (w.join a b).node = t at hnode hnodes
  exact { h with node := hnode, nodes := hnodes, nnode := hn' }

theorem mergeOnce_ok {w w' : Work} (h : mergeOnce w = .ok w') :
    ∃ a b, w.lightest w.parentless = some a ∧ w.lightest (w.parentless.filter (· ≠ a)) = some b ∧ w' = w.join a b := by
  unfold mergeOnce at h
  split at h
  · cases h
  · next a ha =>
    split at h
    · cases h
    · next b hb => cases h; exact ⟨a, b, ha, hb, rfl⟩

theorem mergeTimes_inBounds {P : Params} (hP : P.Legal) : ∀ {n : Nat} {w w' : Work}, w.InBounds P → w.FreeBound → w.nnode + n ≤ maxNodes →
    mergeTimes n w = .ok w' → w'.InBounds P
  | 0, _, _, h, _, _, e => by cases e; exact h
  | n + 1, w, w', h, hf, hn, e => by
    unfold mergeTimes at e
    split at e
    · next u hu =>
      obtain ⟨a, b, ha, hb, rfl⟩ := mergeOnce_ok hu
      have ha' := mem_parentless.mp (lightest_mem w ha)
      have hb' := List.mem_filter.mp (lightest_mem w hb)
      have hab : a ≠ b := fun e => by simp [e] at hb'
      have hb'' := mem_parentless.mp hb'.1
      refine mergeTimes_inBounds hP (join_inBounds hP h hf ha' hb'' hab (by omega)) (join_freeBound ha' hb'' hab hf) ?_ e
      rw [join_eq]
      show w.nnode + 1 + n ≤ maxNodes
      omega
    · cases e

theorem buildTree_inBounds {P : Params} (hP : P.Legal) {w w' : Work} (h : w.InBounds P) (hf : w.FreeBound) (e : buildTree w = .ok w') :
    w'.InBounds P := by
  refine mergeTimes_inBounds hP h hf ?_ e
  have h1 := h.nleaf; have h2 := h.nnode
  unfold nsym maxNodes at *; omega

/-! ## The serializer -/

theorem sizeByteOf_lt {n : Nat} (h : n ≤ nsym) : sizeByteOf n ≤ 255 := by
  unfold sizeByteOf
  have h1 : n - 1 < 2 ^ 8 := by unfold nsym at h; omega
  exact Nat.lt_succ_iff.mp (Nat.or_lt_two_pow h1 (by norm_num))

theorem allocTree_inBounds {P : Params} {w : Work} (h : w.InBounds P) : (allocTree w).InBounds P := by
  have hs := sizeByteOf_lt h.nleaf
  exact { h with
    ctree := ⟨Table.canonical_set _ _ (Table.canonical_clearBelow _ h.ctree.1),
      Table.below_set _ (by decide) (Table.below_clearBelow _ h.ctree.2)⟩
    cmask := ⟨Table.canonical_clearBelow _ h.cmask.1, Table.below_clearBelow _ h.cmask.2⟩
    ctLen := by
      show treeLen (sizeByteOf w.nleaf) ≤ maxCtLen
      unfold treeLen maxCtLen; omega }

theorem TreeStep.inBounds {P : Params} {w w' : Work} (s : TreeStep w w') (h : w.InBounds P) : w'.InBounds P := by
  have hc := h.ctLen
  have ht := s.wf.1 h.ctree.1
  have hm := s.wf.2 h.cmask.1
  have hb := s.below maxCtLen hc
  have ht' := hb.1 h.ctree.2
  have hm' := hb.2 h.cmask.2
  rw [s.same]
  exact { h with ctree := ⟨ht, ht'⟩, cmask := ⟨hm, hm'⟩ }

/-! ## The codeword table -/

theorem packBits_inBounds : ∀ {l : List Bool} {m : Byte} {j : Nat} {cw : Table Byte} {k : Nat}, m = 0x80#8 >>> k → k < 8 →
    8 * j + k + l.length ≤ 256 → Memory.wf cw → Table.Below 32 cw →
    Memory.wf (packBits l m j cw) ∧ Table.Below 32 (packBits l m j cw)
  | [], _, _, _, _, _, _, _, h, h' => ⟨h, h'⟩
  | b :: l, m, j, cw, k, hm, hk, hl, h, h' => by
    have hl' : 8 * j + k + (l.length + 1) ≤ 256 := hl
    unfold packBits
    simp only
    have hcw : Memory.wf (if b then Table.set (0 : Byte) cw j (Table.get (0 : Byte) cw j ||| m) else cw) ∧
        Table.Below 32 (if b then Table.set (0 : Byte) cw j (Table.get (0 : Byte) cw j ||| m) else cw) := by
      split
      · exact ⟨Table.canonical_set _ _ h, Table.below_set _ (by omega) h'⟩
      · exact ⟨h, h'⟩
    by_cases h7 : k = 7
    · subst h7
      rw [if_pos (by subst hm; decide)]
      exact packBits_inBounds (k := 0) rfl (by omega) (by omega) hcw.1 hcw.2
    · have hne : m >>> 1 ≠ 0 := by subst hm; have : k < 7 := by omega
                                   interval_cases k <;> decide
      rw [if_neg hne]
      refine packBits_inBounds (k := k + 1) ?_ (by omega) (by omega) hcw.1 hcw.2
      subst hm; rw [BitVec.shiftRight_add]

theorem deriveLeaf_inBounds {P : Params} {w w' : Work} {i : Nat} (h : w.InBounds P) (e : deriveLeaf w i = .ok w') :
    w'.InBounds P := by
  unfold deriveLeaf at e
  simp only at e
  split at e
  · cases e
  · next hlen =>
    cases e
    have hb : (codeOfPath (w.path i)).InBounds := by
      refine ⟨show (w.path i).length < 2 ^ 8 by omega, ?_⟩
      exact packBits_inBounds (k := 0) rfl (by omega) (by rw [List.length_reverse]; omega) wf_nil (Table.below_nil 32)
    have hs : ((w.nodeAt i).sym.setWidth 8).toNat < nsym := BitVec.isLt _
    have hc : ∀ b : Byte, (Table.get Code.null (Table.set Code.null w.code ((w.nodeAt i).sym.setWidth 8).toNat
        (codeOfPath (w.path i))) b.toNat).InBounds := fun b => by
      rw [Table.get_set]
      split
      · exact hb
      · exact h.codes b
    have hk : Table.Canonical Code.null (Table.set Code.null w.code ((w.nodeAt i).sym.setWidth 8).toNat (codeOfPath (w.path i))) ∧
        Table.Below nsym (Table.set Code.null w.code ((w.nodeAt i).sym.setWidth 8).toNat (codeOfPath (w.path i))) :=
      ⟨Table.canonical_set _ _ h.code.1, Table.below_set _ hs h.code.2⟩
    exact { h with code := hk, codes := hc }

theorem deriveFrom_inBounds {P : Params} : ∀ {n i : Nat} {w w' : Work}, w.InBounds P → deriveFrom n i w = .ok w' → w'.InBounds P
  | 0, _, _, _, h, e => by cases e; exact h
  | _ + 1, _, _, _, h, e => by
    unfold deriveFrom at e
    split at e
    · next u hu => exact deriveFrom_inBounds (deriveLeaf_inBounds h hu) e
    · cases e

/-! ## The bit packer -/

/-- What the bit packer keeps while it runs, `bits` bits after `OPOS` stood at `start`: the internal state in bounds, `OUT` in canonical form within its
capacity, `OPOS` within it, the current stream word, when there is one, inside it, and of that word `r` bit positions still unused. -/
structure EmitOk (P : Params) (start bits : Nat) (x : Work × Table Byte) : Prop where
  work : x.1.InBounds P
  out : Memory.wf x.2 ∧ Table.Below P.outCap x.2
  opos : x.1.opos ≤ P.outCap
  word : x.1.emask4 = 0 ∨ x.1.wordpos + 4 ≤ P.outCap
  room : ∃ r ≤ 31, 8 * x.1.opos = 8 * start + bits + r ∧ ((r = 0 ∧ x.1.emask4 = 0) ∨ x.1.emask4 = 1#32 <<< r)

/-- The bit positions that follow one another in a word. -/
theorem mask_shift : ∀ r : Nat, r ≤ 31 → 1#32 <<< r >>> 1 = (if r = 0 then 0#32 else 1#32 <<< (r - 1)) ∧ (1#32 <<< r >>> 1 = 0 ↔ r = 0) := by decide

theorem append_emitOk {P : Params} {n : Nat} {v : Word} {x y : Work × Table Byte} (hw : x.1.InBounds P)
    (ho : Memory.wf x.2 ∧ Table.Below P.outCap x.2) (hn : x.1.opos + n < 2 ^ 32) (h : append P n v x = .ok y) :
    y.1.InBounds P ∧ (Memory.wf y.2 ∧ Table.Below P.outCap y.2) ∧ y.1.opos ≤ P.outCap ∧ y.1.opos = x.1.opos + n := by
  obtain ⟨hc, rfl⟩ := append_ok.mp h
  exact ⟨{ hw with opos := hn }, ⟨wf_memWrite _ _ _ ho.1, below_memWrite _ hc ho.2⟩, hc, rfl⟩

theorem emitSlots_emitOk {P : Params} : ∀ {n i : Nat} {x y : Work × Table Byte}, x.1.InBounds P →
    (Memory.wf x.2 ∧ Table.Below P.outCap x.2) → x.1.opos ≤ P.outCap → x.1.opos + n < 2 ^ 32 → emitSlots P n i x = .ok y →
    y.1.InBounds P ∧ (Memory.wf y.2 ∧ Table.Below P.outCap y.2) ∧ y.1.opos ≤ P.outCap ∧ y.1.opos = x.1.opos + n
  | 0, _, _, _, hw, ho, hp, _, h => by cases h; exact ⟨hw, ho, hp, rfl⟩
  | n + 1, _, _, _, hw, ho, _, hn, h => by
    unfold emitSlots at h
    split at h
    · cases h
    · split at h
      · cases h
      · next y hy =>
        obtain ⟨h1, h2, h3, h4⟩ := append_emitOk hw ho (by omega) hy
        obtain ⟨g1, g2, g3, g4⟩ := emitSlots_emitOk h1 h2 h3 (by omega) h
        exact ⟨g1, g2, g3, by omega⟩

theorem nextPosition_emitOk {P : Params} {start bits : Nat} {x y : Work × Table Byte} (hx : EmitOk P start bits x)
    (hb : 8 * start + bits + 64 < 2 ^ 35) (h : nextPosition P x = .ok y) :
    EmitOk P start (bits + 1) y ∧ y.1.wordpos + 4 ≤ P.outCap ∧ y.1.cwidx = x.1.cwidx ∧ y.1.cwmask = x.1.cwmask ∧ y.1.epos = x.1.epos := by
  obtain ⟨r, hr, hpos, hmask⟩ := hx.room
  have hr0 : x.1.emask4 >>> 1 = 0 ↔ r = 0 := by
    rcases hmask with ⟨h0, he⟩ | he
    · rw [he]; exact ⟨fun _ => h0, fun _ => rfl⟩
    · rw [he]; exact (mask_shift r hr).2
  unfold nextPosition at h
  split at h
  · next h0 =>
    have h0 := hr0.mp h0
    obtain ⟨hc, rfl⟩ := append_ok.mp h
    have hc' : x.1.opos + 4 ≤ P.outCap := hc
    have ho : x.1.opos + 4 < 2 ^ 32 := by omega
    refine ⟨⟨{ hx.work with opos := ho, wordpos := hx.work.opos }, ⟨wf_memWrite _ _ _ hx.out.1, below_memWrite _ hc' hx.out.2⟩, hc', .inr hc',
      ⟨31, le_rfl, ?_, .inr rfl⟩⟩, hc', rfl, rfl, rfl⟩
    show 8 * (x.1.opos + 4) = _
    omega
  · next hne =>
    cases h
    have hr1 : r ≠ 0 := fun e => hne (hr0.mpr e)
    have hw : x.1.wordpos + 4 ≤ P.outCap := by
      rcases hx.word with h0 | h0
      · exact absurd (by rw [h0]; rfl) hne
      · exact h0
    refine ⟨⟨{ hx.work with }, hx.out, hx.opos, .inr hw, ⟨r - 1, by omega, ?_, .inr ?_⟩⟩, hw, rfl, rfl, rfl⟩
    · show 8 * x.1.opos = _
      omega
    · show x.1.emask4 >>> 1 = _
      rw [hmask.resolve_left (fun h => hr1 h.1), (mask_shift r hr).1, if_neg hr1]

/-- Bits of one codeword: `CWIDX` and `CWMASK` stand at bit `k` of at most 255. -/
theorem emitBits_emitOk {P : Params} {c : Code} {start : Nat} : ∀ {n k bits : Nat} {x y : Work × Table Byte}, EmitOk P start bits x →
    x.1.cwidx = k / 8 → x.1.cwmask = 0x80#8 >>> (k % 8) → k + n < 2 ^ 8 → 8 * start + (bits + n) + 64 < 2 ^ 35 → emitBits P c n x = .ok y →
    EmitOk P start (bits + n) y ∧ y.1.epos = x.1.epos
  | 0, _, _, _, _, hx, _, _, _, _, h => by cases h; exact ⟨hx, rfl⟩
  | n + 1, k, bits, x, y, hx, hi, hm, hk, hs, h => by
    unfold emitBits at h
    split at h
    · cases h
    · next z hz =>
      unfold emitBit at hz
      split at hz
      · cases hz
      · next u hu =>
        cases hz
        obtain ⟨hu1, hu2, hu3, hu4, hu5⟩ := nextPosition_emitOk hx (by omega) hu
        have hout : Memory.wf (if codewordBit c u.1.cwidx u.1.cwmask then setPosition u else u.2) ∧
            Table.Below P.outCap (if codewordBit c u.1.cwidx u.1.cwmask then setPosition u else u.2) := by
          split
          · exact ⟨wf_memWrite _ _ _ hu1.out.1, below_memWrite _ hu2 hu1.out.2⟩
          · exact hu1.out
        have hk8 : k % 8 < 8 := Nat.mod_lt _ (by decide)
        have hnext : u.1.nextCodeBit.cwidx = (k + 1) / 8 ∧ u.1.nextCodeBit.cwmask = 0x80#8 >>> ((k + 1) % 8) := by
          unfold Work.nextCodeBit
          by_cases h7 : k % 8 = 7
          · rw [if_pos (by rw [hu4, hm, h7]; decide)]
            exact ⟨show u.1.cwidx + 1 = _ by rw [hu3, hi]; omega,
              show (0x80 : Byte) = _ by rw [show (k + 1) % 8 = 0 by omega]; rfl⟩
          · have hne : u.1.cwmask >>> 1 ≠ 0 := by
              rw [hu4, hm]
              have : k % 8 < 7 := by omega
              interval_cases k % 8 <;> decide
            rw [if_neg hne]
            exact ⟨show u.1.cwidx = _ by rw [hu3, hi]; omega,
              show u.1.cwmask >>> 1 = _ by rw [hu4, hm, show (k + 1) % 8 = k % 8 + 1 by omega, BitVec.shiftRight_add]⟩
        have hshape : u.1.nextCodeBit = { u.1 with cwidx := u.1.nextCodeBit.cwidx, cwmask := u.1.nextCodeBit.cwmask } := by
          unfold Work.nextCodeBit; split <;> rfl
        have hlt : u.1.nextCodeBit.cwidx < 2 ^ 5 := by rw [hnext.1]; omega
        have hok : EmitOk P start (bits + 1)
            (u.1.nextCodeBit, if codewordBit c u.1.cwidx u.1.cwmask then setPosition u else u.2) := by
          rw [hshape]
          exact ⟨{ hu1.work with cwidx := hlt }, hout, hu1.opos, hu1.word, hu1.room⟩
        have := emitBits_emitOk (k := k + 1) hok hnext.1 hnext.2 (by omega) (by omega) h
        refine ⟨by rw [show bits + (n + 1) = bits + 1 + n by omega]; exact this.1, this.2.trans ?_⟩
        rw [hshape]; exact hu5

/-- One input byte: at most 255 bits more, and `EPOS` one further. -/
theorem emitByte_emitOk {P : Params} {m : Table Byte} {start bits : Nat} {x y : Work × Table Byte} (hx : EmitOk P start bits x)
    (hs : 8 * start + (bits + 255) + 64 < 2 ^ 35) (he : x.1.epos + 1 < 2 ^ 32) (h : emitByte P m x = .ok y) :
    (∃ k ≤ 255, EmitOk P start (bits + k) y) ∧ y.1.epos = x.1.epos + 1 := by
  unfold emitByte at h
  simp only at h
  split at h
  · split at h
    · cases h
    · next z hz =>
      cases h
      have hn : (x.1.codeAt (memRead1 m x.1.epos)).nbits < 2 ^ 8 := (hx.work.codes _).1
      obtain ⟨hz', hp⟩ := emitBits_emitOk (k := 0)
        (x := ({ x.1 with cwmask := 0x80, cwidx := 0 }, x.2)) ⟨{ hx.work with cwidx := Nat.two_pow_pos 5 }, hx.out, hx.opos, hx.word, hx.room⟩ rfl rfl
        (by omega) (by omega) hz
      have hp' : z.1.epos = x.1.epos := hp
      refine ⟨⟨_, by omega, ⟨{ hz'.work with epos := ?_ }, hz'.out, hz'.opos, hz'.word, hz'.room⟩⟩, ?_⟩
      · show z.1.epos + 1 < 2 ^ 32
        omega
      · show z.1.epos + 1 = _
        omega
  · cases h

theorem emitBytes_emitOk {P : Params} {m : Table Byte} {start : Nat} : ∀ {n bits : Nat} {x y : Work × Table Byte}, EmitOk P start bits x →
    8 * start + (bits + 255 * n) + 64 < 2 ^ 35 → x.1.epos + n < 2 ^ 32 → emitBytes P m n x = .ok y → ∃ k, EmitOk P start k y
  | 0, bits, _, _, hx, _, _, h => by cases h; exact ⟨bits, hx⟩
  | n + 1, bits, x, _, hx, hs, he, h => by
    unfold emitBytes at h
    split at h
    · cases h
    · next z hz =>
      obtain ⟨⟨k, hk, hz1⟩, hz2⟩ := emitByte_emitOk hx (by linarith) (by omega) hz
      exact emitBytes_emitOk hz1 (by omega) (by omega) h

/-- The stream of an accepted input, begun within the header and the tree (44_enc_codes_emit R184, R185). -/
theorem emitStream_inBounds {P : Params} {m : Table Byte} {n : Nat} {x y : Work × Table Byte} (hw : x.1.InBounds P)
    (ho : Memory.wf x.2 ∧ Table.Below P.outCap x.2) (hc : x.1.opos ≤ P.outCap) (hs : x.1.opos ≤ 4 + maxCtLen) (hn : n ≤ maxLen)
    (h : emitStream P m n x = .ok y) : y.1.InBounds P ∧ (Memory.wf y.2 ∧ Table.Below P.outCap y.2) ∧ y.1.opos ≤ P.outCap := by
  have h1 : maxCtLen = 512 := rfl
  have h2 : maxLen = 2 ^ 24 - 1 := rfl
  have hs1 : 8 * x.1.opos + (0 + 255 * n) + 64 < 2 ^ 35 := by omega
  have he1 : 0 + n < 2 ^ 32 := by omega
  obtain ⟨k, hk⟩ := emitBytes_emitOk (x := ({ x.1 with emask4 := 0, epos := 0 }, x.2))
    ⟨{ hw with epos := Nat.two_pow_pos 32 }, ho, hc, .inl rfl, ⟨0, Nat.zero_le _, rfl, .inl ⟨rfl, rfl⟩⟩⟩ hs1 he1 h
  exact ⟨hk.work, hk.out, hk.opos⟩

/-! ## The decoder -/

theorem toRoot_inBounds {P : Params} {w : Work} (h : w.InBounds P) : w.toRoot.InBounds P := { h with next := Nat.two_pow_pos 16 }

theorem copyTree_inBounds {m : Table Byte} : ∀ {n i : Nat} {t : Table Byte}, i + n ≤ maxCtLen → Memory.wf t →
    Table.Below maxCtLen t → Memory.wf (copyTree m n i t) ∧ Table.Below maxCtLen (copyTree m n i t)
  | 0, _, _, _, h, h' => ⟨h, h'⟩
  | n + 1, i, _, hn, h, h' =>
    copyTree_inBounds (n := n) (i := i + 1) (by omega) (Table.canonical_set _ _ h) (Table.below_set _ (by omega) h')

/-- What the tree copy leaves in each slot (45_dec R202). -/
theorem get_copyTree {m : Table Byte} : ∀ (n i : Nat) (t : Table Byte) (a : Nat),
    Table.get (0 : Byte) (copyTree m n i t) a = if i ≤ a ∧ a < i + n then memRead1 m (4 + a) else Table.get 0 t a
  | 0, i, t, a => by simp [copyTree]
  | n + 1, i, t, a => by
    rw [copyTree, get_copyTree n (i + 1), Table.get_set]
    by_cases h : a = i
    · subst h; simp
    · rw [if_neg h]; exact if_congr (by omega) rfl rfl

theorem treeLen_le (b : Byte) : treeLen b.toNat ≤ maxCtLen := by
  have := b.isLt; unfold treeLen maxCtLen; omega

end Sys2Proof.Machine
end

