-- ==== Sys2Proof/Laws/Container.lean ====
section
/-! SUPPORT. What a transform of the container layer that succeeds has done, and where a relocation leaves a slot. -/

namespace Sys2Proof.Machine

/-- A number read from four bytes (47_host_container R243). -/
theorem u32le_ok {bytes : List Byte} {a : Nat} {v : Word} : u32le bytes a = .ok v ↔
    ∃ b0 b1 b2 b3 rest, bytes.drop a = b0 :: b1 :: b2 :: b3 :: rest ∧ v = wordOf b0 b1 b2 b3 := by
  unfold u32le
  split
  · next b0 b1 b2 b3 rest h =>
    constructor
    · exact fun e => ⟨b0, b1, b2, b3, rest, h, (Except.ok.inj e).symm⟩
    · rintro ⟨c0, c1, c2, c3, r, e, rfl⟩
      rw [h] at e
      cases e
      rfl
  · next h => exact ⟨nofun, fun ⟨b0, b1, b2, b3, rest, e, _⟩ => absurd e (h b0 b1 b2 b3 rest)⟩

/-- A raw record that was compressed: the block's payload and the checksum of R239 behind the preamble. -/
theorem compress_ok {H : HostParams} {r r' : Record} {s t : State} (hr : r.isCompressed = false) (h : compress H r s = (.ok r', t)) :
    ∃ p c, drive 1 r.body s = (.ok p, t) ∧ recordChecksum H r.header r.body = .ok c ∧
      r' = { bytes := compressedBytes H r.header r.body c p, isCompressed := true, isChapter := r.isChapter } := by
  unfold compress at h
  rw [hr, if_neg (by decide)] at h
  split at h
  · cases h
  · split at h
    · cases h
    · next p u hd =>
      split at h
      · cases h
      · next c hc => cases h; exact ⟨p, c, hd, hc, rfl⟩

/-- A compressed record that was decompressed: the block's result behind the header. -/
theorem decompress_ok {H : HostParams} {r r' : Record} {s t : State} (hr : r.isCompressed = true) (h : decompress H r s = (.ok r', t)) :
    r.headerSize + preambleSize ≤ r.bytes.length ∧
      ∃ x, drive 2 r.payload s = (.ok x, t) ∧ r' = { bytes := r.header ++ x, isCompressed := false, isChapter := r.isChapter } := by
  unfold decompress at h
  rw [hr, if_neg (by decide)] at h
  split at h
  · cases h
  · next start hs =>
    split at h
    · cases h
    · next hl =>
      have : start = r.headerSize + preambleSize := by
        unfold HostParams.offset at hs
        split at hs
        · exact (Except.ok.inj hs).symm
        · cases hs
      split at h
      · cases h
      · next x u hd => cases h; exact ⟨by omega, x, hd, rfl⟩

/-! ## Slots after a relocation (43_enc_ctree R157) -/

/-- Step (a): the acting slot and the distance are the ones that `actingSlot` and `pullBy` name; nothing else changes. -/
theorem chooseSlot_ok {w w' : Work} (h : chooseSlot w = .ok w') : w' = { w with upI := w.actingSlot, upInc := w.pullBy } := by
  have full : ∀ {f : Bool}, fullSibling w w.siblingSlot = .ok f → (f = true ↔ w.SiblingFull) := by
    intro f hf
    obtain ⟨-, rfl⟩ := fullSibling_ok.mp hf
    simp [Work.SiblingFull]
  have done : ∀ {f : Bool}, (f = true ↔ w.SiblingFull) → (if f then Except.ok { w with upI := w.siblingSlot, upInc := 1 }
      else do let t ← treeRead w w.upI; .ok { w with upInc := t.toNat - hufNext }) = Except.ok w' →
      w' = { w with upI := w.actingSlot, upInc := w.pullBy } := by
    intro f hf h
    unfold Work.actingSlot Work.pullBy
    split at h
    · next g => cases h; rw [if_pos (hf.mp g), if_pos (hf.mp g)]
    · next g =>
      obtain ⟨t, ht, h⟩ := except_bind_ok.mp h
      obtain ⟨-, rfl⟩ := treeRead_ok.mp ht
      cases h
      rw [if_neg (fun k => g (hf.mpr k)), if_neg (fun k => g (hf.mpr k))]; rfl
  unfold chooseSlot at h
  split at h
  · next hp =>
    have hs : w.siblingSlot = w.upI - 1 := if_pos hp
    obtain ⟨f, hf, h⟩ := except_bind_ok.mp h
    rw [← hs] at h
    rw [show ((w.upI : Int) - 1) = ((w.siblingSlot : Nat) : Int) by omega] at hf
    exact done (full hf) h
  · next hp =>
    have hs : w.siblingSlot = w.upI + 1 := if_neg hp
    obtain ⟨f, hf, h⟩ := except_bind_ok.mp h
    rw [← hs] at h hf
    exact done (full hf) h

theorem slotAfter_pair (w : Work) (x : Nat) : w.slotAfter x / 2 = w.pairAfter (x / 2) := by unfold Work.slotAfter; omega

theorem slotAfter_side (w : Work) (x : Nat) : w.slotAfter x % 2 = x % 2 := by unfold Work.slotAfter; omega

/-- The pairs below the window keep their place. -/
theorem pairAfter_below {w : Work} {k : Nat} (h : k < w.movedPair - w.pullBy) : w.pairAfter k = k := by
  unfold Work.pairAfter
  rw [if_neg (by omega), if_neg (by omega)]

/-- The pairs above the window keep their place. -/
theorem pairAfter_above {w : Work} {k : Nat} (h : w.movedPair < k) : w.pairAfter k = k := by
  unfold Work.pairAfter
  rw [if_neg (by omega), if_neg (by omega)]

/-- The moved pair stands at `N0`. -/
theorem pairAfter_moved (w : Work) : w.pairAfter w.movedPair = w.movedPair - w.pullBy := if_pos rfl

/-- The pairs of the window stand one further up. -/
theorem pairAfter_window {w : Work} {k : Nat} (h1 : w.movedPair - w.pullBy ≤ k) (h2 : k < w.movedPair) : w.pairAfter k = k + 1 := by
  unfold Work.pairAfter
  rw [if_neg (by omega), if_pos ⟨h1, h2⟩]

end Sys2Proof.Machine
end

