-- ==== Sys2Proof/Laws/PerInstr.lean ====
section
/-! SUPPORT. One lemma for each operation: its encoding has the width of its format (30_encoding R83, 10_state R24, 30_encoding R71 to R79). -/

namespace Sys2Proof.Laws.EncodedWidth

/-- An operation is encoded in as many bytes as its format has. -/
def Statement (i : Instr) : Prop := (encode i).length = i.format.size

theorem cmdNop : Statement .cmdNop := rfl
theorem cmdEncode : Statement .cmdEncode := rfl
theorem cmdDecode : Statement .cmdDecode := rfl
theorem cmdClear : Statement .cmdClear := rfl
theorem encInit : Statement .encInit := rfl
theorem encCount : Statement .encCount := rfl
theorem encPatch : Statement .encPatch := rfl
theorem encLeaves : Statement .encLeaves := rfl
theorem encMerge : Statement .encMerge := rfl
theorem encAlloc : Statement .encAlloc := rfl
theorem encPack : Statement .encPack := rfl
theorem encUpdate : Statement .encUpdate := rfl
theorem encFinal : Statement .encFinal := rfl
theorem encDerive : Statement .encDerive := rfl
theorem encHdr : Statement .encHdr := rfl
theorem encTreeout : Statement .encTreeout := rfl
theorem encEmit : Statement .encEmit := rfl
theorem encDone : Statement .encDone := rfl
theorem decHdr : Statement .decHdr := rfl
theorem decTree : Statement .decTree := rfl
theorem decStep : Statement .decStep := rfl
theorem decDone : Statement .decDone := rfl
theorem cw (len : BitVec 24) (kind nbits : BitVec 4) : Statement (.cw len kind nbits) := rfl
theorem tbSize (size : BitVec 8) : Statement (.tbSize size) := rfl
theorem tbNode (left right : Bool) (offset : BitVec 6) : Statement (.tbNode left right offset) := rfl
theorem tbLeaf (symbol : BitVec 8) : Statement (.tbLeaf symbol) := rfl
theorem swBit (bit : Bool) : Statement (.swBit bit) := rfl

end Sys2Proof.Laws.EncodedWidth
end

