-- ==== Sys2Proof/Tests/Slice0.lean ====
section
/-! SUPPORT. The model's own tests: the well-formedness smoke test, words written out from the spec's encodings, one or two steps for each operation with the
results of 95_test_vectors and 40_host_commands, and for each statement with hypotheses a state that meets them. -/

namespace Sys2Proof.Tests

set_option Elab.async false

open Sys2Proof.Machine

/-! ## Helpers -/

/-- Whether an answer is a next state that `p` accepts. -/
def holds (a : Answer) (p : State → Bool) : Bool :=
  match a with
  | .next t => p t
  | .fault _ | .refused _ => false

/-- Buffer or flat tree contents from address 0 on. -/
def bytes (l : List Nat) : Table Byte := Table.ofFn (0 : Byte) l.length fun i => BitVec.ofNat 8 (l.getD i 0)

/-- The first `n` bytes of a table, as numbers. -/
def first (n : Nat) (t : Table Byte) : List Nat := (List.range n).map fun i => (Table.get (0 : Byte) t i).toNat

/-- Small legal parameters. -/
def params : Params := { inCap := 64, outCap := 64, freqBits := 25, updateMaxMoves := 4, packStack := 193 }

/-- The block after reset, with `params`. -/
def fresh : State := { State.reset with params := params }

/-- A running block at a phase, with an input. -/
def busyAt (phase : Phase) (input : List Nat) (w : Work) : State :=
  { fresh with mode := .busy, phase := phase, inBuf := bytes input, inLen := BitVec.ofNat 32 input.length, work := w }

/-- A block in FAULT at PHASE 17, as T7 of 95_test_vectors leaves it. -/
def faulted : State := { fresh with mode := .fault, phase := 17, errCode := 8, errIndex := 4, errLen := 4, inLen := 4 }

/-- `ABRACADABRA`, the input of V5 (95_test_vectors). -/
def abra : List Nat := [0x41, 0x42, 0x52, 0x41, 0x43, 0x41, 0x44, 0x41, 0x42, 0x52, 0x41]

/-- The counters of V5. -/
def abraFreq : Table Nat := [(0x41, 5), (0x42, 2), (0x43, 1), (0x44, 1), (0x52, 2)]

/-- A leaf as ENC.LEAVES makes it. -/
def leafNode (sym : BitVec 9) (weight : Nat) : Node := { sym := sym, weight := weight, leafs := 1, dad := none, lson := none, rson := none }

/-- The leaves of V5. -/
def abraLeaves : Table Node :=
  [(0, leafNode 0x41 5), (1, leafNode 0x42 2), (2, leafNode 0x43 1), (3, leafNode 0x44 1), (4, leafNode 0x52 2)]

/-- The tree of V5. -/
def abraNodes : Table Node :=
  [(0, { leafNode 0x41 5 with dad := some 8 }), (1, { leafNode 0x42 2 with dad := some 6 }), (2, { leafNode 0x43 1 with dad := some 5 }),
    (3, { leafNode 0x44 1 with dad := some 5 }), (4, { leafNode 0x52 2 with dad := some 6 }),
    (5, { sym := 256, weight := 2, leafs := 2, dad := some 7, lson := some 2, rson := some 3 }),
    (6, { sym := 257, weight := 4, leafs := 2, dad := some 7, lson := some 1, rson := some 4 }),
    (7, { sym := 258, weight := 6, leafs := 4, dad := some 8, lson := some 5, rson := some 6 }),
    (8, { sym := 259, weight := 11, leafs := 5, dad := none, lson := some 0, rson := some 7 })]

/-- The flat tree of V5 after ENC.PACK, and its masks. -/
def abraPacked : List Nat := [0x05, 0x00, 0x41, 0x00, 0x00, 0x01, 0x43, 0x44, 0x42, 0x52, 0x00, 0x00]
def abraMask : List Nat := [0x00, 0x80, 0xFF, 0x00, 0xC0, 0xC0, 0xFF, 0xFF, 0xFF, 0xFF, 0x00, 0x00]

/-- The flat tree of V5 after ENC.FINAL. -/
def abraTree : List Nat := [0x05, 0x80, 0x41, 0x00, 0xC0, 0xC1, 0x43, 0x44, 0x42, 0x52, 0x00, 0x00]

/-- A valid codeword entry of one byte. -/
def codeEntry (nbits : Nat) (cw : Byte) : Code := { valid := true, nbits := nbits, cw := if cw = 0 then [] else [(0, cw)] }

/-- The codewords of V5. -/
def abraCodes : Table Code :=
  [(0x41, codeEntry 1 0x00), (0x42, codeEntry 3 0xC0), (0x43, codeEntry 3 0x80), (0x44, codeEntry 3 0xA0), (0x52, codeEntry 3 0xE0)]

/-- V5 once its tree is built. -/
def abraWork : Work := { Work.zero with nleaf := 5, nnode := 9, node := abraNodes, freq := abraFreq }

/-- The payload of V5. -/
def abraPayload : List Nat := [0x28, 0x0B, 0x00, 0x00] ++ abraTree ++ [0x00, 0xDC, 0x8A, 0x6E]

/-- The decoder on the tree of V5 as DEC.TREE leaves it. -/
def abraWalk : Work :=
  { Work.zero with numBits := 8, dlen := 11, ctLen := 12, ctree := bytes abraTree, rpos := 16, pos := 0x80 }

/-! ## Well-formedness: an ill-formed command word for the one check there is -/

theorem test_wellFormed_refuses_widths :
    ∀ n ∈ [0, 3, 5, 6, 7, 9, 10, 11, 12, 13, 14, 15], (Instr.cw 11 2 (BitVec.ofNat 4 n)).wellFormed = false := by decide

theorem test_wellFormed_accepts_widths : ∀ n ∈ [1, 2, 4, 8], (Instr.cw 11 0 (BitVec.ofNat 4 n)).wellFormed = true := by decide

/-! ## Decoding: words written out from the spec's encodings -/

/-- 30_encoding R83: CMD[7:0] = 0, 1, 2, 3; CMD[31:8] is ignored; code 4 is reserved. -/
theorem test_decode_hostCmd :
    decode .hostCmd [0x00, 0x00, 0x00, 0x00] = .ok (.cmdNop, []) ∧ decode .hostCmd [0x01, 0x00, 0x00, 0x00] = .ok (.cmdEncode, []) ∧
    decode .hostCmd [0x02, 0x34, 0x12, 0x00] = .ok (.cmdDecode, []) ∧ decode .hostCmd [0x03, 0x00, 0x00, 0x80] = .ok (.cmdClear, []) ∧
    decode .hostCmd [0x04, 0x00, 0x00, 0x00] = .error (.reservedCommand 4) := by decide

/-- 10_state R24, the PHASE codes of the encoder. -/
theorem test_decode_encoder_phases :
    decode .phase [0x01] = .ok (.encInit, []) ∧ decode .phase [0x02] = .ok (.encCount, []) ∧
    decode .phase [0x03] = .ok (.encPatch, []) ∧ decode .phase [0x04] = .ok (.encLeaves, []) ∧
    decode .phase [0x05] = .ok (.encMerge, []) ∧ decode .phase [0x06] = .ok (.encAlloc, []) ∧
    decode .phase [0x07] = .ok (.encPack, []) ∧ decode .phase [0x08] = .ok (.encUpdate, []) ∧
    decode .phase [0x09] = .ok (.encFinal, []) ∧ decode .phase [0x0A] = .ok (.encDerive, []) ∧
    decode .phase [0x0B] = .ok (.encHdr, []) ∧ decode .phase [0x0C] = .ok (.encTreeout, []) ∧
    decode .phase [0x0D] = .ok (.encEmit, []) ∧ decode .phase [0x0E] = .ok (.encDone, []) := by and_intros <;> rfl

/-- 10_state R24, the PHASE codes of the decoder, and the codes that stand for no phase. -/
theorem test_decode_decoder_phases :
    decode .phase [0x10] = .ok (.decHdr, []) ∧ decode .phase [0x11] = .ok (.decTree, []) ∧
    decode .phase [0x12] = .ok (.decStep, []) ∧ decode .phase [0x13] = .ok (.decDone, []) ∧
    decode .phase [0x00] = .error (.noPhase 0) ∧ decode .phase [0x0F] = .error (.noPhase 15) ∧
    decode .phase [0x14] = .error (.noPhase 20) ∧ decode .phase [0x1F] = .error (.noPhase 31) := by decide

/-- 30_encoding R71, 95_test_vectors S1 and T2: `0x0003E828` is LEN 1000, TYPE 2, NBITS 8; bytes `24 02 00 00` are LEN 2, TYPE 2, NBITS 4. -/
theorem test_decode_cw :
    decode .cw [0x28, 0xE8, 0x03, 0x00] = .ok (.cw 1000 2 8, []) ∧ decode .cw [0x24, 0x02, 0x00, 0x00, 0x01] = .ok (.cw 2 2 4, [0x01]) ∧
    decode .cw [0x28, 0x01, 0x00] = .error (.truncated .cw) := by decide

/-- 30_encoding R74 to R76, R79, 95_test_vectors S3: `0xC1` is LCHAR, RCHAR, OFFSET 1; `0x80` is LCHAR alone, `0x40` RCHAR alone. -/
theorem test_decode_payload_bytes :
    decode .tbSize [0x81] = .ok (.tbSize 0x81, []) ∧ decode .tbNode [0xC1] = .ok (.tbNode true true 1, []) ∧
    decode .tbNode [0x80] = .ok (.tbNode true false 0, []) ∧ decode .tbNode [0x7F] = .ok (.tbNode false true 63, []) ∧
    decode .tbLeaf [0x52] = .ok (.tbLeaf 0x52, []) ∧ decode .swBit [0x00] = .ok (.swBit false, []) ∧
    decode .swBit [0x01] = .ok (.swBit true, []) := by decide

/-- The table's own numbering: eight bits are a PHASE code, 32 bits a host command or a command word (log 16). -/
theorem test_decodeTableWord :
    decodeTableWord 8 0x0D = some .encEmit ∧ decodeTableWord 32 2 = some .cmdDecode ∧
    decodeTableWord 32 0x00000B28 = some (.cw 11 2 8) ∧ decodeTableWord 8 0x1F = none := by decide

/-- 30_encoding R72, 95_test_vectors S1: the command word of length 11. -/
theorem test_commandWord : commandWord 11 = 0x00000B28 ∧ cwWord 11 2 8 = 0x00000B28 := by decide

/-! ## The step: a word placed where the next step fetches runs -/

theorem test_withFetchWord_decode : holds (step (fresh.withFetchWord 32 2)) (fun t => t.mode = .busy ∧ t.phase = 16) = true := by decide +kernel

theorem test_withFetchWord_phase : holds (step (fresh.withFetchWord 8 6)) (fun t => t.mode = .busy ∧ t.phase = 7 ∧ t.work.ctLen = 4) = true := by
  decide +kernel

theorem test_withFetchWord_cw :
    holds (step (fresh.withFetchWord 32 0x00000B28)) (fun t => t.phase = 17 ∧ t.work.dlen = 11 ∧ t.work.numBits = 8) = true := by decide +kernel

/-! ## The host commands (40_host_commands R100 to R105) -/

theorem test_nop_in_fault : holds (exec .cmdNop faulted) (fun t => t = faulted) = true := by decide +kernel

theorem test_encode_from_done :
    holds (exec .cmdEncode { fresh with mode := .done, phase := 19, eos := true, outLen := 5, wpos := 4, inLen := 3 })
      (fun t => t.mode = .busy ∧ t.phase = 1 ∧ t.eos = false ∧ t.outLen = 0 ∧ t.wpos = 0 ∧ t.inLen = 3) = true := by decide +kernel

/-- ENCODE above `2^24 - 1` bytes takes `LengthOverflow` with `0x1000000`. -/
theorem test_encode_too_long :
    holds (exec .cmdEncode { fresh with params := { params with inCap := 0x2000000 }, inLen := 0x1000000 })
      (fun t => t.mode = .fault ∧ t.errCode = 10 ∧ t.errIndex = 0x1000000 ∧ t.errLen = 0x1000000 ∧ t.phase = 1) = true := by decide +kernel

theorem test_decode_beyond_capacity :
    holds (exec .cmdDecode { fresh with inLen := 65 })
      (fun t => t.mode = .fault ∧ t.errCode = 10 ∧ t.errIndex = 65 ∧ t.errLen = 64 ∧ t.phase = 16) = true := by decide +kernel

theorem test_decode_ignored_in_fault : holds (exec .cmdDecode faulted) (fun t => t = faulted) = true := by decide +kernel

theorem test_clear_from_fault : holds (exec .cmdClear faulted) (fun t => t = { fresh with inLen := 4 }) = true := by decide +kernel

theorem test_clear_ignored_while_busy :
    holds (exec .cmdClear (busyAt 18 [0x28] Work.zero)) (fun t => t = busyAt 18 [0x28] Work.zero) = true := by decide +kernel

/-- STATUS after a DECODE that ended with EOS is 0x1306 (95_test_vectors T3). -/
theorem test_status_word : statusWord .done true 19 = 0x1306 ∧ statusWord .done false 14 = 0x0E02 ∧ statusWord .fault false 16 = 0x1003 := by decide

/-! ## ENCODE, phase by phase, on V5 and V1, V2 -/

theorem test_init : holds (exec .encInit (busyAt 1 abra { abraWork with code := abraCodes, moves := 7 }))
    (fun t => t.phase = 2 ∧ t.work.freq = [] ∧ t.work.nleaf = 0 ∧ t.work.nnode = 0 ∧ t.work.moves = 0 ∧
      (t.work.codeAt 0x42).valid = false) = true := by decide +kernel

theorem test_count_V5 : holds (exec .encCount (busyAt 2 abra Work.zero)) (fun t => t.phase = 3 ∧ t.work.freq = abraFreq ∧ t.work.nleaf = 5) = true := by
  decide +kernel

theorem test_count_overflow : holds (exec .encCount (busyAt 2 [0x41] { Work.zero with freq := [(0x41, 2 ^ 25 - 1)] }))
    (fun t => t.mode = .fault ∧ t.errCode = 1 ∧ t.errIndex = 0x41 ∧ t.errLen = 0 ∧ t.phase = 2) = true := by decide +kernel

theorem test_patch_V1 : holds (exec .encPatch (busyAt 3 [] Work.zero)) (fun t => t.work.freq = [(0, 2), (1, 2)] ∧ t.work.nleaf = 2) = true := by
  decide +kernel

/-- V4: the only symbol, counted 8 times, gets exactly 1. -/
theorem test_patch_V4 : holds (exec .encPatch (busyAt 3 [] { Work.zero with freq := [(0x41, 8)], nleaf := 1 }))
    (fun t => t.work.freq = [(0, 2), (0x41, 1)] ∧ t.work.nleaf = 2) = true := by decide +kernel

theorem test_leaves_V5 : holds (exec .encLeaves (busyAt 4 abra { Work.zero with freq := abraFreq, nleaf := 5 }))
    (fun t => t.phase = 5 ∧ t.work.node = abraLeaves ∧ t.work.nnode = 5) = true := by decide +kernel

theorem test_merge_V5 : holds (exec .encMerge (busyAt 5 abra { Work.zero with node := abraLeaves, nleaf := 5, nnode := 5 }))
    (fun t => t.phase = 6 ∧ t.work.node = abraNodes ∧ t.work.nnode = 9) = true := by decide +kernel

theorem test_merge_without_nodes : holds (exec .encMerge (busyAt 5 abra { Work.zero with nleaf := 5 }))
    (fun t => t.mode = .fault ∧ t.errCode = 2 ∧ t.errIndex = 0 ∧ t.errLen = 0) = true := by decide +kernel

/-- S4: five leaves give slot 0 = 5 and 12 slots, four leaves 3 and 8. -/
theorem test_alloc_S4 : holds (exec .encAlloc (busyAt 6 abra { abraWork with ctree := bytes [9, 9, 9], cmask := bytes [9] }))
    (fun t => t.phase = 7 ∧ t.work.ctLen = 12 ∧ first 12 t.work.ctree = [5, 0, 0, 0, 0, 0, 0, 0, 0, 0, 0, 0] ∧ t.work.cmask = []) = true := by
  decide +kernel

theorem test_alloc_S4_even : holds (exec .encAlloc (busyAt 6 abra { Work.zero with nleaf := 4 }))
    (fun t => t.work.ctLen = 8 ∧ t.work.slot 0 = 3) = true := by decide +kernel

theorem test_pack_V5 : holds (exec .encPack (busyAt 7 abra { abraWork with ctLen := 12, ctree := bytes [5] }))
    (fun t => t.phase = 8 ∧ first 12 t.work.ctree = abraPacked ∧ first 12 t.work.cmask = abraMask) = true := by decide +kernel

/-- A flat tree that is too short takes `CodeTreeIOOB`. -/
theorem test_pack_outside : holds (exec .encPack (busyAt 7 abra { abraWork with ctLen := 4 }))
    (fun t => t.mode = .fault ∧ t.errCode = 6 ∧ t.errIndex = 4 ∧ t.errLen = 4) = true := by decide +kernel

/-- The slots that the one relocation of V10 looks at, before it: slot 3 with offset 0x40, the pair 128, 129, and the window 130 to 133. -/
def v10Work : Work :=
  { Work.zero with
    ctLen := 260
    ctree := [(0, 0x81), (3, 0x40), (128, 0x81), (130, 0x01), (131, 0x02)]
    cmask := [(3, 0x80), (128, 0xFF), (130, 0xFF), (131, 0xFF), (132, 0xFF)] }

/-- V10's relocation: slot 3 becomes 3F, slot 129 becomes 01, the window `00 01 01 02` under the masks `FF 00 FF FF`. -/
theorem test_update_V10 : holds (exec .encUpdate (busyAt 8 [] v10Work))
    (fun t => t.phase = 9 ∧ t.work.moves = 1 ∧
      t.work.ctree = [(0, 0x81), (3, 0x3F), (128, 0x81), (129, 0x01), (131, 0x01), (132, 0x01), (133, 0x02)] ∧
      t.work.cmask = [(3, 0x80), (128, 0xFF), (130, 0xFF), (132, 0xFF), (133, 0xFF)]) = true := by decide +kernel

/-- With the fuel of one relocation, a second overflow takes `TreeUnresolved` (43_enc_ctree R157). -/
theorem test_update_fuel :
    holds (exec .encUpdate { busyAt 8 [] { v10Work with
        ctree := Table.set (0 : Byte) v10Work.ctree 5 0x41, cmask := v10Work.cmask ++ [(134, 0xFF), (135, 0xFF), (136, 0xFF), (137, 0xFF)] }
        with params := { params with updateMaxMoves := 1 } })
      (fun t => t.mode = .fault ∧ t.errCode = 12 ∧ t.errIndex = 5 ∧ t.errLen = 260) = true := by decide +kernel

theorem test_final_V5 : holds (exec .encFinal (busyAt 9 abra { abraWork with ctLen := 12, ctree := bytes abraPacked, cmask := bytes abraMask }))
    (fun t => t.phase = 10 ∧ first 12 t.work.ctree = abraTree) = true := by decide +kernel

theorem test_final_unresolved : holds (exec .encFinal (busyAt 9 [] v10Work))
    (fun t => t.mode = .fault ∧ t.errCode = 12 ∧ t.errIndex = 3 ∧ t.errLen = 260) = true := by decide +kernel

theorem test_derive_V5 : holds (exec .encDerive (busyAt 10 abra abraWork)) (fun t => t.phase = 11 ∧ t.work.code = abraCodes) = true := by decide +kernel

/-- A leaf without a parent has the empty path (44_enc_codes_emit R180). -/
theorem test_derive_empty_path : holds (exec .encDerive (busyAt 10 [] { Work.zero with nleaf := 1, node := [(0, leafNode 0x41 1)] }))
    (fun t => t.mode = .fault ∧ t.errCode = 4 ∧ t.errIndex = 0x41 ∧ t.errLen = 0) = true := by decide +kernel

theorem test_hdr_S1 : holds (exec .encHdr { busyAt 11 [] abraWork with inLen := 1000 })
    (fun t => t.phase = 12 ∧ first 5 t.outBuf = [0x28, 0xE8, 0x03, 0x00, 0x00] ∧ t.work.opos = 4) = true := by decide +kernel

theorem test_hdr_no_room : holds (exec .encHdr { busyAt 11 abra abraWork with params := { params with outCap := 3 } })
    (fun t => t.mode = .fault ∧ t.errCode = 13 ∧ t.errIndex = 3 ∧ t.errLen = 3) = true := by decide +kernel

theorem test_treeout_V5 : holds (exec .encTreeout { busyAt 12 abra { abraWork with ctLen := 12, ctree := bytes abraTree, opos := 4 } with outBuf := bytes [0x28, 0x0B] })
    (fun t => t.phase = 13 ∧ first 16 t.outBuf = [0x28, 0x0B, 0x00, 0x00] ++ abraTree ∧ t.work.opos = 16) = true := by decide +kernel

theorem test_emit_V5 : holds (exec .encEmit (busyAt 13 abra { abraWork with code := abraCodes, opos := 16 }))
    (fun t => t.phase = 14 ∧ t.outBuf = [(17, 0xDC), (18, 0x8A), (19, 0x6E)] ∧ t.work.opos = 20) = true := by decide +kernel

theorem test_emit_no_code : holds (exec .encEmit (busyAt 13 [0x41, 0x99] { abraWork with code := abraCodes, opos := 16 }))
    (fun t => t.mode = .fault ∧ t.errCode = 3 ∧ t.errIndex = 0x99 ∧ t.errLen = 1) = true := by decide +kernel

theorem test_encDone : holds (exec .encDone { busyAt 14 abra { abraWork with opos := 2 } with outBuf := bytes [0x28, 0x0B], wpos := 3, eos := true })
    (fun t => t.mode = .done ∧ t.outLen = 2 ∧ t.wpos = 0 ∧ t.eos = false ∧ t.phase = 14 ∧ memRead1 t.outBuf 1 = 0x0B) = true := by decide +kernel

/-! ## DECODE, phase by phase -/

theorem test_decHdr_T2 : holds (exec .decHdr { busyAt 16 [0x24, 0x02, 0, 0, 0x01, 0xC0, 0x03, 0x0A, 0, 0, 0, 0x60] Work.zero with outBuf := bytes [7, 7, 7] })
    (fun t => t.phase = 17 ∧ t.work.numBits = 4 ∧ t.work.dlen = 2 ∧ first 3 t.outBuf = [0, 0, 7]) = true := by decide +kernel

theorem test_decHdr_T6 : holds (exec .decHdr (busyAt 16 [0x28, 0x01, 0x00] Work.zero))
    (fun t => t.mode = .fault ∧ t.errCode = 9 ∧ t.errIndex = 0 ∧ t.errLen = 3 ∧ t.phase = 16) = true := by decide +kernel

/-- T12: the even size byte 2 gives CT_LEN 6 and the stream at address 10. -/
theorem test_decTree_T12 : holds (exec .decTree (busyAt 17 [0x28, 1, 0, 0, 2, 0xC0, 0x41, 0x42, 0, 0, 0, 0, 0, 0x80] { Work.zero with numBits := 8, dlen := 1 }))
    (fun t => t.phase = 18 ∧ t.work.ctLen = 6 ∧ t.work.rpos = 10 ∧ t.work.pos = 0xC0 ∧ t.work.next = 0) = true := by decide +kernel

theorem test_decTree_T8 : holds (exec .decTree (busyAt 17 [0x28, 1, 0, 0, 3, 0xC0, 0x41, 0x42] { Work.zero with numBits := 8, dlen := 1 }))
    (fun t => t.mode = .fault ∧ t.errCode = 8 ∧ t.errIndex = 8 ∧ t.errLen = 8 ∧ t.phase = 17) = true := by decide +kernel

/-- T1's first step: bit 0 at slot 1 outputs `41`. -/
theorem test_decStep_T1 : holds (exec .decStep (busyAt 18 abraPayload abraWalk))
    (fun t => t.phase = 18 ∧ t.wpos = 1 ∧ memRead1 t.outBuf 0 = 0x41 ∧ t.work.codew = 0x6E8ADC00 ∧ t.work.dmask4 = 0x80000000 ∧
      t.work.rpos = 20 ∧ t.work.pos = 0x80) = true := by decide +kernel

/-- T3: no stream word is there. -/
theorem test_decStep_T3 : holds (exec .decStep (busyAt 18 (abraPayload.take 16) abraWalk))
    (fun t => t.mode = .busy ∧ t.phase = 19 ∧ t.eos = true ∧ t.wpos = 0) = true := by decide +kernel

theorem test_decDone : holds (exec .decDone { busyAt 19 abraPayload { abraWalk with dlen := 2 } with wpos := 1, eos := true, outBuf := bytes [0x41, 0x42] })
    (fun t => t.mode = .done ∧ t.outLen = 2 ∧ t.wpos = 1 ∧ t.eos = true ∧ t.phase = 19 ∧ first 2 t.outBuf = [0x41, 0x42]) = true := by decide +kernel

/-! ## The payload's elements -/

/-- T10: width 3 is refused. -/
theorem test_cw_T10 : holds (exec (.cw 1 2 3) (busyAt 16 [] Work.zero))
    (fun t => t.mode = .fault ∧ t.errCode = 11 ∧ t.errIndex = 3 ∧ t.errLen = 0) = true := by decide +kernel

/-- T19b: an output that does not fit. -/
theorem test_cw_T19b : holds (exec (.cw 16777215 2 8) { busyAt 16 [] Work.zero with params := { params with outCap := 4096 } })
    (fun t => t.mode = .fault ∧ t.errCode = 13 ∧ t.errIndex = 16777214 ∧ t.errLen = 4096) = true := by decide +kernel

theorem test_tbSize : holds (exec (.tbSize 5) (busyAt 17 abraPayload { Work.zero with numBits := 8, dlen := 11 }))
    (fun t => t.phase = 18 ∧ t.work = abraWalk) = true := by decide +kernel

theorem test_tbNode : holds (exec (.tbNode true true 1) (busyAt 18 abraPayload { abraWalk with next := 4 }))
    (fun t => t.work.pos = 0xC1 ∧ t.work.next = 4 ∧ t.wpos = 0) = true := by decide +kernel

/-- T15: a symbol wider than 4 bits is not masked: `41 | (12 << 4) mod 256 = 61`. -/
theorem test_tbLeaf_T15 :
    holds (exec (.tbLeaf 0x12) { busyAt 18 [] { abraWalk with numBits := 4, acc := 4, dlen := 1, ctree := bytes [1, 0xC0, 0x41, 0x12] } with outBuf := bytes [0x41] })
      (fun t => t.phase = 19 ∧ t.wpos = 1 ∧ memRead1 t.outBuf 0 = 0x61 ∧ t.work.acc = 0 ∧ t.work.pos = 0xC0) = true := by decide +kernel

/-- T9: the root's offset 63 leaves the tree of 4 bytes. -/
theorem test_swBit_T9 : holds (exec (.swBit false) (busyAt 18 [] { abraWalk with ctLen := 4, ctree := bytes [1, 0x3F, 0x41, 0x42], pos := 0x3F }))
    (fun t => t.mode = .fault ∧ t.errCode = 6 ∧ t.errIndex = 128 ∧ t.errLen = 4) = true := by decide +kernel

/-- T1's second step: bit 1 at slot 1 stands on slot 3. -/
theorem test_swBit_T1 : holds (exec (.swBit true) (busyAt 18 [] abraWalk)) (fun t => t.work.next = 2 ∧ t.work.pos = 0 ∧ t.wpos = 0) = true := by
  decide +kernel

/-! ## The container layer (47_host_container) -/

/-- A host model with distinct magics, whose collaborators do not fail. -/
def hostParams : HostParams :=
  { magicComp := 0x31435A48, magicIndex := 0x58444E49, checksum := fun seed bytes => some (seed + BitVec.ofNat 32 bytes.length)
    writes := fun _ => true, offsetBits := 32 }

/-- A raw record: the index magic and nothing more. -/
def rawRecord : Record := { bytes := [0x49, 0x4E, 0x44, 0x58], isCompressed := false, isChapter := false }

/-- A compressed record cut off in its preamble. -/
def shortRecord : Record := { bytes := [0x48, 0x5A, 0x43, 0x31], isCompressed := true, isChapter := false }

/-- What a transform fails with. -/
def errorOf (x : Except HostError Record × State) : Option HostError :=
  match x.1 with
  | .ok _ => none
  | .error e => some e

/-- R235. -/
theorem test_detect :
    detect hostParams [0x48, 0x5A, 0x43, 0x31, 0] = .ok ⟨[0x48, 0x5A, 0x43, 0x31, 0], true, false⟩ ∧
    detect hostParams rawRecord.bytes = .ok rawRecord ∧ detect hostParams [0x48, 0x5A, 0x43] = .error .invalidData := by decide

/-- R243: the read of a number that begins one byte too late. -/
theorem test_u32le : u32le [0x49, 0x4E, 0x44, 0x58] 0 = .ok 0x58444E49 ∧ u32le [0x49, 0x4E, 0x44, 0x58] 1 = .error .bytesToU32Error := by decide

/-- R240, R241: a block in FAULT is not driven; R237, R242: the other errors of the host's side. -/
theorem test_host_errors :
    errorOf (compress hostParams rawRecord faulted) = some .blockNotReady ∧
    errorOf (compress { hostParams with checksum := fun _ _ => none } rawRecord fresh) = some .checksumError ∧
    errorOf (decompress hostParams shortRecord fresh) = some .invalidData ∧
    errorOf (decompress { hostParams with offsetBits := 4 } shortRecord fresh) = some .unsupportedArchitecture ∧
    writeFile { hostParams with writes := fun _ => false } { name := [], bytes := [] } = .error .writeError := by decide +kernel

/-- R240: the block's own fault record, followed by CLEAR. -/
theorem test_drive_fault : (drive 2 [0x28, 1, 0] fresh).1 = .error (.blockFault 9 0 3) ∧ (drive 2 [0x28, 1, 0] fresh).2.mode = .idle := by decide +kernel

/-- R244: the suffixes of the files written. -/
theorem test_outputName :
    outputName true ['a', '_', 'd', 'e', 'c'] = ['a', '_', 'c', 'o', 'm'] ∧ outputName false ['a', '_', 'c', 'o', 'm'] = ['a', '_', 'c', 'o', 'm', '_', 'd', 'e', 'c'] := by decide

/-! ## Witnesses: for each statement with hypotheses, and each of its clauses, a state and operands that meet them together -/

/-- DEC.STEP placed at the last slot of the tree of V5: the walk stands at slot 5, pair base 4, on the byte `c` (offset 2 leads to slots 10 and 11). -/
def atLastPair (c : Byte) : State := busyAt 18 abraPayload { abraWalk with pos := c, next := 4, codew := 0x80000001, dmask4 := 2, rpos := 20 }

/-- The decoder at the end of its stream. -/
def atStreamEnd : State := busyAt 18 abraPayload { abraWalk with dmask4 := 1, rpos := 17 }

/-- The arena of V5 before its last merge. -/
def abraArena : Work := { Work.zero with nleaf := 5, nnode := 8, node := (abraNodes.take 8).map fun c =>
  (c.1, if c.1 = 0 ∨ c.1 = 7 then { c.2 with dad := none } else c.2) }

/-- V5 packed. -/
def abraPackedWork : Work := { abraWork with ctLen := 12, ctree := bytes abraPacked, cmask := bytes abraMask }

theorem witness_PayloadEncodingExact :
    decode .cw [0xF8, 0xFF, 0xFF, 0xFF, 7] = .ok (.cw 0xFFFFFF 15 8, [7]) ∧ decode .tbSize [0xFF] = .ok (.tbSize 0xFF, []) ∧
    decode .tbNode [0xFF, 1] = .ok (.tbNode true true 63, [1]) ∧ decode .tbLeaf [0x00] = .ok (.tbLeaf 0, []) := by decide

theorem witness_StepRunsDecoded_host : ({ fresh with turns := [.host (.writeReg 0 0xFFFFFF02)] } : State).turns = [.host (.writeReg 0 0xFFFFFF02)] ∧
    decode .hostCmd (wordBytes 0xFFFFFF02) = .ok (.cmdDecode, []) := by decide +kernel

theorem witness_StepRunsDecoded_phase :
    (busyAt 1 [] Work.zero).mode = .busy ∧ decode .phase [(busyAt 1 [] Work.zero).phase.setWidth 8] = .ok (.encInit, []) ∧
    (busyAt 19 [] Work.zero).mode = .busy ∧ decode .phase [(busyAt 19 [] Work.zero).phase.setWidth 8] = .ok (.decDone, []) ∧
    (busyAt 1 [] Work.zero).turns = [] ∧ ({ busyAt 1 [] Work.zero with turns := [.sequencer, .poll] } : State).turns = .sequencer :: [.poll] ∧
    ({ busyAt 1 [] Work.zero with turns := [.poll] } : State).turns = .poll :: [] := by decide +kernel

theorem witness_StepRunsDecoded_rest : fresh.mode ≠ .busy ∧ fresh.turns = [] := by decide +kernel

theorem witness_PayloadElementsAreRun_words :
    4 ≤ (busyAt 16 [0x28, 0, 0, 0] Work.zero).inLen.toNat ∧ decode .cw [memRead1 (bytes [0x28, 0, 0, 0]) 0, memRead1 (bytes [0x28, 0, 0, 0]) 1,
      memRead1 (bytes [0x28, 0, 0, 0]) 2, memRead1 (bytes [0x28, 0, 0, 0]) 3] = .ok (.cw 0 2 8, []) ∧
    5 ≤ (busyAt 17 [0x28, 0, 0, 0, 1] Work.zero).inLen.toNat ∧
    decode .tbSize [memRead1 (busyAt 17 [0x28, 0, 0, 0, 1] Work.zero).inBuf 4] = .ok (.tbSize 1, []) := by decide +kernel

theorem witness_PayloadElementsAreRun_bit :
    ¬ (atLastPair 0x82).StreamEnded ∧
      decode .swBit [if (atLastPair 0x82).fetched.work.codew &&& (atLastPair 0x82).fetched.work.dmask4 = 0 then 0 else 1] = .ok (.swBit true, []) := by
  decide +kernel

/-- The last slot, 11, reached by bit 1 as a node's child (RCHAR clear) and as a leaf (RCHAR set). -/
theorem witness_PayloadElementsAreRun_byte :
    (atLastPair 0x82).work.next + 2 * ((atLastPair 0x82).work.pos.toNat % 64 + 1) + 1 = 11 ∧ 11 < (atLastPair 0x82).work.ctLen ∧
    decode (if (atLastPair 0x82).work.pos.getLsbD 6 then .tbLeaf else .tbNode) [(atLastPair 0x82).work.slot 11] = .ok (.tbNode false false 0, []) ∧
    decode (if (atLastPair 0x42).work.pos.getLsbD 6 then .tbLeaf else .tbNode) [(atLastPair 0x42).work.slot 11] = .ok (.tbLeaf 0, []) := by
  decide +kernel

theorem witness_NopChangesNothing : (0 : Word).toNat % 256 = 0 ∧ (0xFFFFFF00 : Word).toNat % 256 = 0 := by decide

theorem witness_ReservedCommandsIgnored : (4 : Word).toNat % 256 ≥ 4 ∧ (0xFF : Word).toNat % 256 ≥ 4 ∧
    ({ faulted with turns := [.host (.writeReg 0 4)] } : State).turns = .host (.writeReg 0 4) :: [] := by decide

/-- At the bounds: `IN_LEN = IN_CAP`, and for ENCODE `2^24 - 1`. -/
theorem witness_CommandsStart : ∃ s : State, (s.mode = .idle ∨ s.mode = .done) ∧ s.inLen.toNat = s.params.inCap ∧ s.inLen.toNat = 2 ^ 24 - 1 :=
  ⟨{ fresh with inLen := 0xFFFFFF, params := { params with inCap := 0xFFFFFF } }, by decide +kernel⟩

theorem witness_OverlongInputFaults_capacity : ∃ s : State, (s.mode = .idle ∨ s.mode = .done) ∧ s.params.inCap < s.inLen.toNat :=
  ⟨{ fresh with mode := .done, inLen := 65 }, by decide +kernel⟩

theorem witness_OverlongInputFaults_field :
    ∃ s : State, (s.mode = .idle ∨ s.mode = .done) ∧ s.inLen.toNat ≤ s.params.inCap ∧ 2 ^ 24 - 1 < s.inLen.toNat :=
  ⟨{ fresh with inLen := 0x1000000, params := { params with inCap := 0x1000000 } }, by decide +kernel⟩

theorem witness_ClearReturnsToIdle : faulted.mode ≠ .busy ∧ (busyAt 14 [] Work.zero).mode = .busy := by decide +kernel

theorem witness_CommandsIgnoredByState : (∃ s : State, s.turns = .host (.writeReg 0 3) :: [] ∧ s.mode = .busy) ∧
    (∃ s : State, s.turns = .host (.writeReg 0 1) :: [] ∧ s.mode = .fault ∧ (1 : Word).toNat % 256 ≠ 3) :=
  ⟨⟨{ busyAt 1 [] Work.zero with turns := [.host (.writeReg 0 3)] }, by decide +kernel⟩,
    ⟨{ faulted with turns := [.host (.writeReg 0 1)] }, by decide +kernel⟩⟩

theorem witness_ResetClearsRegisters : ∃ s : State, s.turns = .host .reset :: [] ∧ s.mode = .busy :=
  ⟨{ busyAt 8 abra abraWork with turns := [.host .reset] }, by decide +kernel⟩

theorem witness_RegisterReads : (∃ s : State, s.mode ≠ .busy ∧ s.turns = .host (.readReg 0x1C) :: []) ∧
    (∃ s : State, s.mode ≠ .busy ∧ s.turns = .host (.readReg 0x04) :: []) ∧
    (∃ s : State, s.mode = .busy ∧ s.turns = .host (.readReg 0x00) :: [] ∧
      (0x00 : Word) ∈ [(0x00 : Word), 0x04, 0x08, 0x0C, 0x10, 0x14, 0x18, 0x1C]) :=
  ⟨⟨{ faulted with turns := [.host (.readReg 0x1C)] }, by decide +kernel⟩, ⟨{ fresh with turns := [.host (.readReg 0x04)] }, by decide +kernel⟩,
    ⟨{ busyAt 1 [] Work.zero with turns := [.host (.readReg 0x00)] }, by decide +kernel⟩⟩

theorem witness_RegisterWrites : (∃ s : State, s.turns = .host (.writeReg 0x14 0xFFFFFFFF) :: [] ∧ s.mode ≠ .busy) ∧
    (∃ s : State, s.turns = .host (.writeReg 0x14 5) :: [] ∧ s.mode = .busy) ∧ (∃ s : State, s.turns = .host (.writeReg 0x1C 5) :: []) :=
  ⟨⟨{ fresh with turns := [.host (.writeReg 0x14 0xFFFFFFFF)] }, by decide +kernel⟩,
    ⟨{ busyAt 1 [] Work.zero with turns := [.host (.writeReg 0x14 5)] }, by decide +kernel⟩, ⟨{ fresh with turns := [.host (.writeReg 0x1C 5)] }, rfl⟩⟩

theorem witness_BufferAccess : (∃ s : State, s.mode ≠ .busy ∧ 63 < s.params.inCap ∧ s.turns = .host (.writeIn 63 0xFF) :: []) ∧
    (∃ s : State, s.mode ≠ .busy ∧ 63 < s.params.outCap ∧ s.turns = .host (.readOut 63) :: []) :=
  ⟨⟨{ fresh with turns := [.host (.writeIn 63 0xFF)] }, by decide +kernel⟩, ⟨{ fresh with turns := [.host (.readOut 63)] }, by decide +kernel⟩⟩

/-- The counter of 0x41 one below and at its largest value. -/
theorem witness_CountAddsOccurrences :
    (∃ s : State, s.inLen.toNat = 1 ∧ ∀ k < s.inLen.toNat,
      ¬ s.work.freqAt (memRead1 s.inBuf k).toNat + occurrences s.inBuf k (memRead1 s.inBuf k) = 2 ^ s.params.freqBits - 1) ∧
    (∃ s : State, 1 < s.inLen.toNat ∧ s.work.freqAt (memRead1 s.inBuf 1).toNat + occurrences s.inBuf 1 (memRead1 s.inBuf 1) = 2 ^ s.params.freqBits - 1 ∧
      ∀ j < 1, ¬ s.work.freqAt (memRead1 s.inBuf j).toNat + occurrences s.inBuf j (memRead1 s.inBuf j) = 2 ^ s.params.freqBits - 1) :=
  ⟨⟨busyAt 2 [0x41] { Work.zero with freq := [(0x41, 2 ^ 25 - 2)] }, by decide +kernel⟩,
    ⟨busyAt 2 [0x41, 0x41] { Work.zero with freq := [(0x41, 2 ^ 25 - 2)] }, by decide +kernel⟩⟩

theorem witness_PatchOutcomes : (∃ s : State, s.work.nleaf = s.work.presentBelow 256 ∧ s.work.nleaf = 0) ∧
    (∃ s : State, s.work.nleaf = s.work.presentBelow 256 ∧ s.work.freqAt 255 ≠ 0 ∧ s.work.nleaf = 1) ∧
    (∃ s : State, s.work.nleaf = s.work.presentBelow 256 ∧ s.work.freqAt 0 ≠ 0 ∧ s.work.nleaf = 1) ∧
    (∃ s : State, s.work.nleaf = s.work.presentBelow 256 ∧ s.work.nleaf = 2) :=
  ⟨⟨busyAt 3 [] Work.zero, by decide +kernel⟩, ⟨busyAt 3 [] { Work.zero with freq := [(255, 8)], nleaf := 1 }, by decide +kernel⟩,
    ⟨busyAt 3 [] { Work.zero with freq := [(0, 8)], nleaf := 1 }, by decide +kernel⟩,
    ⟨busyAt 3 [] { Work.zero with freq := [(0, 8), (1, 1)], nleaf := 2 }, by decide +kernel⟩⟩

/-- The empty and the longest input. -/
theorem witness_CountThenPatchInvariant : (fresh.params.Legal ∧ fresh.inLen.toNat ≤ 2 ^ 24 - 1 ∧ ∀ b < 256, fresh.work.freqAt b = 0) ∧
    ({ fresh with inLen := 0xFFFFFF } : State).inLen.toNat ≤ 2 ^ 24 - 1 := by decide +kernel

theorem witness_MergeBuildsTree : ({ Work.zero with node := abraLeaves, nleaf := 5, nnode := 5 } : Work).OnlyLeaves ∧
    ({ Work.zero with node := abraLeaves, nleaf := 2, nnode := 2 } : Work).OnlyLeaves :=
  ⟨⟨by decide, by decide⟩, ⟨by decide, by decide⟩⟩

/-- All 256 symbols. -/
theorem witness_MergeBuildsTree_full :
    ({ Work.zero with node := Table.ofFn Node.null 256 fun i => leafNode (BitVec.ofNat 9 i) 1, nleaf := 256, nnode := 256 } : Work).OnlyLeaves :=
  ⟨by decide, by
    intro i hi
    have hi : i < 256 := hi
    simp only [Work.leafsOf, Work.nodeAt, Table.get_ofFn]
    rw [if_pos hi]
    exact ⟨by simp only [leafNode, BitVec.toNat_ofNat]; omega, rfl, rfl, rfl, rfl⟩⟩

theorem witness_MergeTakesLightest : ∃ s : State, s.work.nnode + 2 = 2 * s.work.nleaf ∧
    s.work.Selected (fun i => i < s.work.nnode ∧ (s.work.nodeAt i).dad = none) 0 ∧
    s.work.Selected (fun i => (i < s.work.nnode ∧ (s.work.nodeAt i).dad = none) ∧ i ≠ 0) 7 := by
  refine ⟨busyAt 5 [] abraArena, rfl, ⟨by decide, ?_⟩, ⟨by decide, ?_⟩⟩
  · rintro c ⟨h, g⟩
    have h : c < 8 := h
    revert g
    interval_cases c <;> decide
  · rintro c ⟨⟨h, g⟩, k⟩
    have h : c < 8 := h
    revert g k
    interval_cases c <;> decide

theorem witness_MergeTakesLightest_none : ∃ s : State, s.work.nnode + 2 = 2 * s.work.nleaf ∧
    ∀ i j, i < s.work.nnode ∧ (s.work.nodeAt i).dad = none → j < s.work.nnode ∧ (s.work.nodeAt j).dad = none → i = j :=
  ⟨busyAt 5 [] { Work.zero with nleaf := 1 }, rfl, fun _ _ h _ => absurd h.1 (Nat.not_lt_zero _)⟩

theorem abraWork_isTree : abraWork.IsTree where
  count := by decide
  leaf := by decide
  internal := by
    intro i h1 h2
    have h1 : 5 ≤ i := h1
    have h2 : i < 9 := h2
    interval_cases i
    · exact ⟨2, 3, by decide⟩
    · exact ⟨1, 4, by decide⟩
    · exact ⟨5, 6, by decide⟩
    · exact ⟨0, 7, by decide⟩
  parent := by
    intro i h
    have h : i < 8 := Nat.lt_of_succ_lt_succ h
    interval_cases i
    · exact ⟨8, by decide⟩
    · exact ⟨6, by decide⟩
    · exact ⟨5, by decide⟩
    · exact ⟨5, by decide⟩
    · exact ⟨6, by decide⟩
    · exact ⟨7, by decide⟩
    · exact ⟨7, by decide⟩
    · exact ⟨8, by decide⟩
  root := by decide

theorem witness_PathsDescendFromRoot : abraWork.IsTree ∧ 0 < abraWork.nleaf ∧ 4 < abraWork.nleaf := ⟨abraWork_isTree, by decide, by decide⟩

theorem witness_AllocSizesTree : (1 ≤ ({ Work.zero with nleaf := 1 } : Work).nleaf ∧ ({ Work.zero with nleaf := 1 } : Work).nleaf ≤ 256) ∧
    1 ≤ ({ Work.zero with nleaf := 256 } : Work).nleaf ∧ ({ Work.zero with nleaf := 256 } : Work).nleaf ≤ 256 := by decide

theorem witness_PackSpellsTree : ∃ s : State, s.params.Legal ∧ s.work.IsTree ∧ s.work.ctLen = 2 * (((s.work.nleaf - 1) ||| 1) + 1) :=
  ⟨busyAt 7 abra { abraWork with ctLen := 12 }, by decide +kernel, { abraWork_isTree with count := by decide }, by decide⟩

/-- No slot at all, and an offset of exactly 0x3F. -/
theorem witness_UpdateKeepsFittingTree : Work.zero.NoOverflow ∧ ({ Work.zero with ctLen := 4, ctree := [(1, 0x3F)] } : Work).NoOverflow := by
  constructor
  · intro i h1 h2
    exact absurd h2 (Nat.not_lt_zero _)
  · intro i h1 h2
    have h2 : i < 4 := h2
    interval_cases i <;> decide

/-- A packed tree of three leaves, all of the symbol 0x41, whose slot 3 has the offset 0x40: its children stand at the pair 66. -/
def stretchedWork : Work :=
  { Work.zero with
    nleaf := 1, nnode := 3, ctLen := 260
    node := [(0, { leafNode 0x41 1 with dad := some 1 }), (1, { sym := 256, weight := 2, leafs := 2, dad := some 2, lson := some 0, rson := some 0 }),
      (2, { sym := 257, weight := 3, leafs := 3, dad := none, lson := some 0, rson := some 1 })]
    ctree := [(2, 0x41), (3, 0x40), (132, 0x41), (133, 0x41)]
    cmask := [(1, 0x80), (2, 0xFF), (3, 0xC0), (130, 0xFF), (131, 0xFF), (132, 0xFF), (133, 0xFF)] }

theorem stretchedWork_packed : stretchedWork.Packed 2 1 := by
  have leaf : ∀ x, stretchedWork.maskSlot x = leafSentinel → (stretchedWork.slot x).toNat = 0x41 → stretchedWork.Packed 0 x :=
    fun x h g => .leaf 0 x (by decide) h g
  exact .node 2 1 (by decide) (by decide) (by decide) (leaf 2 (by decide) (by decide))
    (.node 1 3 (by decide) (by decide) (by decide) (leaf 132 (by decide) (by decide)) (leaf 133 (by decide) (by decide)))

/-- The relocation of slot 3 alone, and the whole pass. -/
theorem witness_UpdateEndsWithoutOverflow :
    (∃ s : State, s.work.updateSafe s.params = true ∧ ¬ s.work.NoOverflow ∧ s.work.Packed 2 1 ∧
      holds (exec .encUpdate s) (fun t => t.mode = .busy ∧ t.work.moves = 1) = true) ∧
    ∃ w w' : Work, w.RelocationSafe ∧ relocate params w = .ok w' ∧ w.Packed 2 1 := by
  refine ⟨⟨busyAt 8 [] stretchedWork, by decide +kernel, ?_, stretchedWork_packed, by decide +kernel⟩, { stretchedWork with upI := 3 }, ?_⟩
  · intro h
    exact absurd (h 3 (by decide) (by decide) (by decide)) (by decide)
  · have h : (match relocate params { stretchedWork with upI := 3 } with | .ok _ => true | .error _ => false) = true := by decide +kernel
    generalize hr : relocate params { stretchedWork with upI := 3 } = x at h
    cases x with
    | error _ => cases h
    | ok w' =>
      refine ⟨w', ⟨by decide +kernel, by decide +kernel, by decide +kernel⟩, rfl, ?_⟩
      have leaf : ∀ x, stretchedWork.maskSlot x = leafSentinel → (stretchedWork.slot x).toNat = 0x41 →
          ({ stretchedWork with upI := 3 } : Work).Packed 0 x := fun x h g => .leaf 0 x (by decide) h g
      exact .node 2 1 (by decide) (by decide) (by decide) (leaf 2 (by decide) (by decide))
        (.node 1 3 (by decide) (by decide) (by decide) (leaf 132 (by decide) (by decide)) (leaf 133 (by decide) (by decide)))

/-- V10's relocation beside a leaf of symbol 0x3F at slot 2, which stays as it is while slot 3 is pulled to the full offset (43_enc_ctree R159). -/
theorem witness_UpdateKeepsLeaves :
    (∃ w w' : Work, w.overflows w.upI = true ∧ relocate params w = .ok w' ∧ 2 < w.ctLen ∧ w.maskSlot 2 = leafSentinel) ∧
    ∃ (s : State) (w : Work), updateTree s.params s.work = .ok w ∧ s.work.overflows 1 = false ∧ s.work.slot 2 = 0x3F ∧
      s.work.maskSlot 2 = leafSentinel ∧ w.slot 2 = 0x3F ∧ w.slot 3 = 0x3F ∧ w.moves = 1 := by
  let start : Work := { v10Work with
    ctree := Table.set (0 : Byte) v10Work.ctree 2 0x3F, cmask := Table.set (0 : Byte) v10Work.cmask 2 leafSentinel, upI := 3 }
  constructor
  · have h : (match relocate params start with | .ok _ => true | .error _ => false) = true := by decide +kernel
    generalize hr : relocate params start = x at h
    cases x with
    | error _ => cases h
    | ok w' => exact ⟨start, w', by decide +kernel, hr, by decide, by decide⟩
  · have h : (match updateTree params start with
        | .ok w => w.slot 2 == 0x3F && w.slot 3 == 0x3F && w.moves == 1
        | .error _ => false) = true := by decide +kernel
    generalize hr : updateTree params start = x at h
    cases x with
    | error _ => cases h
    | ok w =>
      simp only [Bool.and_eq_true, beq_iff_eq] at h
      exact ⟨busyAt 8 [] start, w, hr, by decide +kernel, by decide, by decide, h.1.1, h.1.2, h.2⟩

theorem witness_FinalAppliesMasks : (∃ s : State, s.work.NoOverflow ∧ 1 < s.work.ctLen) ∧
    (∃ s : State, 3 < s.work.ctLen ∧ s.work.maskSlot 3 ≠ 0xFF ∧ 0x3F < (s.work.slot 3).toNat ∧
      ∀ j, 1 ≤ j → j < 3 → s.work.maskSlot j ≠ 0xFF → (s.work.slot j).toNat ≤ 0x3F) := by
  refine ⟨⟨busyAt 9 abra abraPackedWork, ?_, by decide⟩, ⟨busyAt 9 [] v10Work, by decide, by decide, by decide, ?_⟩⟩
  · intro i h1 h2
    have h2 : i < 12 := h2
    interval_cases i <;> decide
  · intro j h1 h2
    interval_cases j <;> decide

theorem witness_FinalSpellsTree : ∃ s : State, 1 < s.work.ctLen ∧ s.work.NoOverflow ∧ s.work.Packed 8 1 ∧ s.work.IsTree ∧
    8 = 2 * s.work.nleaf - 2 ∧ 4 < s.work.nleaf := by
  refine ⟨busyAt 9 abra abraPackedWork, by decide, ?_, ?_, { abraWork_isTree with }, by decide, by decide⟩
  · intro i h1 h2
    have h2 : i < 12 := h2
    interval_cases i <;> decide
  · show abraPackedWork.Packed 8 1
    have leaf : ∀ n x, abraPackedWork.leafsOf n = 1 → abraPackedWork.maskSlot x = leafSentinel →
        (abraPackedWork.slot x).toNat = (abraPackedWork.nodeAt n).sym.toNat → abraPackedWork.Packed n x := .leaf
    refine .node 8 1 (by decide) (by decide) (by decide) (leaf 0 2 (by decide) (by decide) (by decide)) ?_
    refine .node 7 3 (by decide) (by decide) (by decide) ?_ ?_
    · exact .node 5 4 (by decide) (by decide) (by decide) (leaf 2 6 (by decide) (by decide) (by decide)) (leaf 3 7 (by decide) (by decide) (by decide))
    · exact .node 6 5 (by decide) (by decide) (by decide) (leaf 1 8 (by decide) (by decide) (by decide)) (leaf 4 9 (by decide) (by decide) (by decide))

theorem witness_DerivePacksPaths : (∃ s : State, s.work.nleaf = 5 ∧
      (∀ i < s.work.nleaf, (1 ≤ (s.work.path i).length ∧ (s.work.path i).length ≤ 255) ∧ (s.work.nodeAt i).sym.toNat < 256) ∧
      ∀ i < s.work.nleaf, ∀ j < s.work.nleaf, (s.work.nodeAt i).sym.toNat = (s.work.nodeAt j).sym.toNat → i = j) ∧
    (∃ s : State, 1 < s.work.nleaf ∧ ¬ (1 ≤ (s.work.path 1).length ∧ (s.work.path 1).length ≤ 255) ∧
      ∀ j < 1, 1 ≤ (s.work.path j).length ∧ (s.work.path j).length ≤ 255) :=
  ⟨⟨busyAt 10 abra abraWork, by decide +kernel⟩,
    ⟨busyAt 10 [] { abraWork with nleaf := 2, node := [(0, { leafNode 0x41 1 with dad := some 1 })] }, by decide +kernel⟩⟩

theorem witness_HeaderAppended : (∃ s : State, 4 = s.params.outCap) ∧ (∃ s : State, s.params.outCap = 3) :=
  ⟨⟨{ fresh with params := { params with outCap := 4 } }, rfl⟩, ⟨{ fresh with params := { params with outCap := 3 } }, rfl⟩⟩

/-- The tree that fits exactly, the empty tree, and the tree one byte too long. -/
theorem witness_TreeOutAppendsSlots : (∃ s : State, s.work.opos + s.work.ctLen = s.params.outCap) ∧ (∃ s : State, s.work.ctLen = 0) ∧
    (∃ s : State, s.work.opos ≤ s.params.outCap ∧ s.params.outCap + 1 = s.work.opos + s.work.ctLen) :=
  ⟨⟨busyAt 12 [] { Work.zero with opos := 4, ctLen := 60 }, rfl⟩, ⟨fresh, rfl⟩, ⟨busyAt 12 [] { Work.zero with opos := 4, ctLen := 61 }, by decide +kernel⟩⟩

theorem witness_EmitSpellsInput : (∃ s : State, (∀ i < s.inLen.toNat, (s.work.codeAt (memRead1 s.inBuf i)).valid = true) ∧
      s.work.opos + 4 * wordsFor (s.work.inputBits s.inBuf s.inLen.toNat).length = s.params.outCap) ∧
    (∃ s : State, (∀ i < s.inLen.toNat, (s.work.codeAt (memRead1 s.inBuf i)).valid = true) ∧
      wordsFor (s.work.inputBits s.inBuf s.inLen.toNat).length = 0) :=
  ⟨⟨busyAt 13 abra { abraWork with code := abraCodes, opos := 60 }, by decide +kernel⟩, ⟨busyAt 13 [] Work.zero, by decide +kernel⟩⟩

theorem witness_EmitFaults : (∃ s : State, 1 < s.inLen.toNat ∧ ¬ (s.work.codeAt (memRead1 s.inBuf 1)).valid = true ∧
      (∀ j < 1, (s.work.codeAt (memRead1 s.inBuf j)).valid = true) ∧
      s.work.opos + 4 * wordsFor (s.work.inputBits s.inBuf 1).length = s.params.outCap) ∧
    (∃ s : State, 0 < s.inLen.toNat ∧ ¬ (s.work.codeAt (memRead1 s.inBuf 0)).valid = true ∧
      wordsFor (s.work.inputBits s.inBuf 0).length = 0 ∧ s.params.outCap < s.work.opos) ∧
    (∃ s : State, 0 < s.inLen.toNat ∧ (∀ j ≤ 0, (s.work.codeAt (memRead1 s.inBuf j)).valid = true) ∧
      wordsFor (s.work.inputBits s.inBuf 0).length = 0 ∧ wordsFor (s.work.inputBits s.inBuf 1).length ≠ 0 ∧
      s.params.outCap + 1 = s.work.opos + 4 * wordsFor (s.work.inputBits s.inBuf 1).length ∧
      ¬ (s.work.codeAt (memRead1 s.inBuf 1)).valid = true) :=
  ⟨⟨busyAt 13 [0x41, 0x99] { abraWork with code := abraCodes, opos := 60 }, by decide +kernel⟩,
    ⟨busyAt 13 [0x99] { abraWork with code := abraCodes, opos := 65 }, by decide +kernel⟩,
    ⟨busyAt 13 [0x41, 0x99] { abraWork with code := abraCodes, opos := 61 }, by decide +kernel⟩⟩

theorem witness_EncodePhaseOrder : (∃ s : State, s.mode = .busy ∧ s.phase = 1 ∧ s.turns = []) ∧
    (∃ s : State, s.mode = .busy ∧ s.phase.toNat = 13 ∧ s.turns = []) :=
  ⟨⟨busyAt 1 abra Work.zero, by decide +kernel⟩, ⟨busyAt 13 abra Work.zero, by decide +kernel⟩⟩

/-- The output that just fits, the largest and least widths, the widths 0 and 15, and the output one byte too long. -/
theorem witness_CommandWordTaken : ((8 : BitVec 4).toNat ∈ [1, 2, 4, 8] ∧ (1 : BitVec 4).toNat ∈ [1, 2, 4, 8] ∧ (64 : BitVec 24).toNat = fresh.params.outCap) ∧
    ((0 : BitVec 4).toNat ∉ [1, 2, 4, 8] ∧ (15 : BitVec 4).toNat ∉ [1, 2, 4, 8]) ∧ fresh.params.outCap < (65 : BitVec 24).toNat := by decide +kernel

theorem witness_HeaderRead : (∃ s : State, s.inLen.toNat = 3) ∧ (∃ s : State, 4 = s.inLen.toNat ∧ (memRead1 s.inBuf 0).toNat % 16 ∉ [1, 2, 4, 8]) ∧
    (∃ s : State, 4 = s.inLen.toNat ∧ (memRead1 s.inBuf 0).toNat % 16 ∈ [1, 2, 4, 8] ∧
      s.params.outCap + 1 = (memRead1 s.inBuf 1).toNat + 256 * (memRead1 s.inBuf 2).toNat + 65536 * (memRead1 s.inBuf 3).toNat) ∧
    (∃ s : State, 4 = s.inLen.toNat ∧ (memRead1 s.inBuf 0).toNat % 16 ∈ [1, 2, 4, 8] ∧
      (memRead1 s.inBuf 1).toNat + 256 * (memRead1 s.inBuf 2).toNat + 65536 * (memRead1 s.inBuf 3).toNat = s.params.outCap) :=
  ⟨⟨busyAt 16 [0x28, 1, 0] Work.zero, by decide +kernel⟩, ⟨busyAt 16 [0x23, 1, 0, 0] Work.zero, by decide +kernel⟩,
    ⟨busyAt 16 [0x28, 65, 0, 0] Work.zero, by decide +kernel⟩, ⟨busyAt 16 [0x24, 64, 0, 0] Work.zero, by decide +kernel⟩⟩

/-- Also of TreeRegionRead: the tree that just fits (an even size byte), one byte too long, and no size byte. -/
theorem witness_SizeByteTaken : (∃ s : State, (memRead1 s.inBuf 4).toNat = 0 ∧ 4 + 2 * ((memRead1 s.inBuf 4).toNat + 1) = s.inLen.toNat) ∧
    (∃ s : State, 5 ≤ s.inLen.toNat ∧ s.inLen.toNat + 1 = 4 + 2 * ((memRead1 s.inBuf 4).toNat + 1)) ∧ (∃ s : State, s.inLen.toNat = 4) :=
  ⟨⟨busyAt 17 [0x28, 1, 0, 0, 0, 0xC0] Work.zero, by decide +kernel⟩, ⟨busyAt 17 [0x28, 1, 0, 0, 0] Work.zero, by decide +kernel⟩,
    ⟨busyAt 17 [0x28, 1, 0, 0] Work.zero, by decide +kernel⟩⟩

/-- The slots 12 (outside), 11 (inside, node) and 11 (inside, leaf). -/
theorem witness_StreamBitBranches :
    (let w := (atLastPair 0x83).work; w.ctLen = w.next + 2 * (w.pos.toNat % 64 + 1)) ∧
    (let w := (atLastPair 0x82).work; w.next + 2 * (w.pos.toNat % 64 + 1) + 1 < w.ctLen ∧ w.pos.getLsbD 6 = false) ∧
    (let w := (atLastPair 0xC2).work; w.next + 2 * (w.pos.toNat % 64 + 1) + 1 < w.ctLen ∧ w.pos.getLsbD 6 = true) := by decide +kernel

/-- The same where DEC.STEP reads the bit from the stream word (its last bit, 1), and the end of the stream. -/
theorem witness_StepConsumesStreamBit : atStreamEnd.StreamEnded ∧
    ¬ (atLastPair 0x83).StreamEnded ∧ ¬ (atLastPair 0x82).StreamEnded ∧ ¬ (atLastPair 0xC2).StreamEnded ∧
    (atLastPair 0x82).fetched.work.codew &&& (atLastPair 0x82).fetched.work.dmask4 ≠ 0 := by decide +kernel

theorem witness_DecodeIgnoresOldState : (∃ s : State, s.mode = .busy ∧ s.phase = 1 ∧ s.turns = []) ∧
    (∃ s : State, s.mode = .busy ∧ s.phase = 16 ∧ s.turns = []) :=
  ⟨⟨busyAt 1 abra Work.zero, by decide +kernel⟩, ⟨busyAt 16 abraPayload Work.zero, by decide +kernel⟩⟩

theorem witness_DecodeTerminates : ∃ s : State, s.mode = .busy ∧ s.phase = 16 ∧ s.turns = [] := ⟨busyAt 16 abraPayload Work.zero, by decide +kernel⟩

theorem witness_DecodeFollowsWalk : ∃ s : State, s.mode = .busy ∧ s.phase = 16 ∧ s.turns = [] ∧ s.eos = false ∧
    (memRead1 s.inBuf 0).toNat % 16 = 8 ∧ 11 ≤ s.params.outCap ∧ 4 + 2 * ((memRead1 s.inBuf 4).toNat + 1) ≤ s.inLen.toNat ∧
    (memRead1 s.inBuf 1).toNat + 256 * (memRead1 s.inBuf 2).toNat + 65536 * (memRead1 s.inBuf 3).toNat = 11 ∧
    walkMany (fun i => memRead1 s.inBuf (4 + i)) 12 11 (streamBits s.inBuf 16 ((s.inLen.toNat - 16) / 4)) =
      some (abra.map (BitVec.ofNat 8)) := ⟨busyAt 16 abraPayload Work.zero, by decide +kernel⟩

/-- A running DECODE of V5 at DEC.STEP meets the invariant. -/
theorem decodeV5_inv : (busyAt 18 abraPayload abraWalk).Inv where
  legal := by decide
  inBuf := by decide +kernel
  outBuf := by decide +kernel
  work := { Work.zero_inBounds params with
    ctree := by decide +kernel
    ctLen := by decide
    rpos := by decide
    numBits := by decide
    dlen := by decide }
  status := ⟨nofun, fun _ => by decide +kernel, nofun, nofun⟩
  encode := by constructor <;> exact fun _ => by decide +kernel
  decode := ⟨fun _ => by decide +kernel, fun _ => by decide +kernel, fun _ => by decide +kernel, fun _ => by decide +kernel⟩

/-- A running ENCODE of V5 at ENC.MERGE meets the invariant. -/
theorem encodeV5_inv : (busyAt 5 abra { Work.zero with node := abraLeaves, nleaf := 5, nnode := 5 }).Inv where
  legal := by decide
  inBuf := by decide +kernel
  outBuf := by decide +kernel
  work := { Work.zero_inBounds params with
    nleaf := by decide
    node := by decide
    nodes := by
      refine Table.all_get (P := fun n => n.InBounds params) (Node.null_inBounds params) (t := abraLeaves) ?_
      simp only [abraLeaves, List.forall_mem_cons, List.not_mem_nil, false_implies, implies_true, and_true]
      exact ⟨leaf_inBounds _ (by decide), leaf_inBounds _ (by decide), leaf_inBounds _ (by decide), leaf_inBounds _ (by decide),
        leaf_inBounds _ (by decide)⟩
    nnode := by decide }
  status := ⟨nofun, fun _ => by decide +kernel, nofun, nofun⟩
  encode := by constructor <;> exact fun _ => by decide +kernel
  decode := by constructor <;> exact fun _ => by decide +kernel

/-- Whether a step answers a next state in the given STATE, as a witness of one. -/
theorem exists_of_holds {a : Answer} {p : State → Bool} (h : holds a p = true) : ∃ t, a = .next t ∧ p t = true := by
  cases a with
  | next t => exact ⟨t, rfl, h⟩
  | fault _ => cases h
  | refused _ => cases h

theorem witness_DecodeWritesBelowLength : ∃ s t : State, s.Inv ∧ s.mode = .busy ∧ s.phase = 18 ∧ s.turns = [] ∧ step s = .next t ∧ t.mode = .busy ∧
    t.work.dlen ≤ 11 := by
  obtain ⟨t, h, g⟩ := exists_of_holds (a := step (busyAt 18 abraPayload abraWalk)) (p := fun t => t.mode = .busy ∧ t.work.dlen ≤ 11) (by decide +kernel)
  have g := of_decide_eq_true g
  exact ⟨_, t, decodeV5_inv, rfl, rfl, rfl, h, g.1, g.2⟩

/-- A step of each command. -/
theorem witness_StepKeepsInvariant : (∃ s t : State, s.Inv ∧ s.phase = 18 ∧ step s = .next t) ∧ ∃ s t : State, s.Inv ∧ s.phase = 5 ∧ step s = .next t := by
  obtain ⟨_, t, h, _, hp, _, g, _⟩ := witness_DecodeWritesBelowLength
  exact ⟨⟨_, t, h, hp, g⟩, _, _, encodeV5_inv, rfl, rfl⟩

/-- A phase, a command and a payload element that end in FAULT from elsewhere. -/
theorem witness_FaultEntryRecords :
    (∃ s t : State, s.mode ≠ .fault ∧ exec .decHdr s = .next t ∧ t.mode = .fault) ∧
    (∃ s t : State, s.mode ≠ .fault ∧ exec .cmdDecode s = .next t ∧ t.mode = .fault) ∧
    (∃ s t : State, s.mode ≠ .fault ∧ exec (.cw 1 2 3) s = .next t ∧ t.mode = .fault) :=
  ⟨⟨busyAt 16 [] Work.zero, _, by decide +kernel, rfl, rfl⟩, ⟨{ fresh with inLen := 65 }, _, by decide +kernel, rfl, rfl⟩,
    ⟨busyAt 16 [] Work.zero, _, by decide +kernel, rfl, rfl⟩⟩

theorem witness_FaultIsSticky : ∃ s t : State, s.mode = .fault ∧ step s = .next t ∧ s.turns = [.host (.writeReg 0 1)] ∧ (1 : Word).toNat % 256 ≠ 3 :=
  ⟨{ faulted with turns := [.host (.writeReg 0 1)] }, _, rfl, rfl, rfl, by decide⟩

theorem witness_OperationsKeepOperands : ∃ s t : State, exec .decHdr s = .next t := ⟨busyAt 16 abraPayload Work.zero, _, rfl⟩

/-- Two inputs that differ at the first byte past IN_LEN. -/
theorem witness_InputBeyondLengthUnread : ∃ (s t : State) (m : Table Byte), (∀ a < s.inLen.toNat, memRead1 m a = memRead1 s.inBuf a) ∧
    memRead1 m 20 ≠ memRead1 s.inBuf 20 ∧ exec .decStep s = .next t :=
  ⟨busyAt 18 abraPayload abraWalk, _, bytes (abraPayload ++ [0xFF]), by decide +kernel, by decide +kernel, rfl⟩

/-- Whether an operation ends in FAULT. -/
def faultsWith (code : Byte) (i : Instr) (s : State) : Bool := holds (exec i s) fun t => t.mode = .fault ∧ t.errCode = code

/-- Each phase's clause, from a state that is not in FAULT; those of the other phases are in the tests above. -/
theorem witness_FaultsByPhase :
    faultsWith 10 .cmdDecode { fresh with inLen := 65 } = true ∧
    faultsWith 1 .encCount (busyAt 2 [0x41] { Work.zero with freq := [(0x41, 2 ^ 25 - 1)] }) = true ∧
    faultsWith 2 .encMerge (busyAt 5 [] { Work.zero with nleaf := 2 }) = true ∧
    faultsWith 6 .encPack (busyAt 7 [] { abraWork with ctLen := 4 }) = true ∧
    faultsWith 5 .encPack { busyAt 7 [] { abraWork with ctLen := 12 } with params := { params with packStack := 0 } } = true ∧
    faultsWith 12 .encUpdate { busyAt 8 [] v10Work with params := { params with updateMaxMoves := 0 } } = true ∧
    faultsWith 12 .encFinal (busyAt 9 [] v10Work) = true ∧
    faultsWith 4 .encDerive (busyAt 10 [] { Work.zero with nleaf := 1 }) = true ∧
    faultsWith 13 .encTreeout (busyAt 12 [] { Work.zero with opos := 64, ctLen := 4 }) = true ∧
    faultsWith 3 .encEmit (busyAt 13 [0] Work.zero) = true ∧ faultsWith 9 .decHdr (busyAt 16 [] Work.zero) = true ∧
    faultsWith 8 .decTree (busyAt 17 [] Work.zero) = true ∧ faultsWith 6 .decStep (busyAt 18 abraPayload { abraWalk with ctLen := 2 }) = true ∧
    faultsWith 13 (.cw 65 2 8) fresh = true ∧ faultsWith 8 (.tbSize 255) fresh = true ∧ faultsWith 6 (.swBit true) fresh = true := by
  decide +kernel

theorem witness_FaultsByPhase_pack : ({ abraWork with ctLen := 4 } : Work).IsTree := { abraWork_isTree with count := by decide }

theorem exists_of_succeeds {x : Except HostError Record × State} (h : errorOf x = none) : ∃ r t, x = (.ok r, t) := by
  obtain ⟨r, t⟩ := x
  cases r with
  | ok r' => exact ⟨r', t, rfl⟩
  | error _ => cases h

theorem witness_CompressedRecordLayout : hostParams.Legal ∧ detect hostParams rawRecord.bytes = .ok rawRecord ∧ rawRecord.isCompressed = false ∧
    ∃ r' t, compress hostParams rawRecord fresh = (.ok r', t) :=
  ⟨by decide, rfl, rfl, exists_of_succeeds (by decide +kernel)⟩

/-- A compressed record decompressed: V1's payload, which has no byte to produce, behind its preamble. -/
def emptyRecord : Record :=
  { bytes := (le32 0x31435A48 ++ le32 2 ++ le32 0 ++ le32 0 ++ le32 0x28 ++ [0x01, 0xC0, 0x00, 0x01]), isCompressed := true, isChapter := false }

theorem witness_TransformsIdempotent : shortRecord.isCompressed = true ∧ rawRecord.isCompressed = false ∧
    (∃ r' t, compress hostParams rawRecord fresh = (.ok r', t)) ∧ (∃ r' t, decompress hostParams emptyRecord fresh = (.ok r', t)) :=
  ⟨rfl, rfl, exists_of_succeeds (by decide +kernel), exists_of_succeeds (by decide +kernel)⟩

end Sys2Proof.Tests
end

/-! PROOFS. The registers the host sees and what one step runs (10_state R21 to R28, 40_host_commands R106). -/

namespace Sys2Proof.Machine

/-! ## What a step does, turn by turn -/

theorem step_of_idle_turns {s : State} (h : s.turns = []) : step s = sequence s := by simp only [step, h]

theorem step_of_sequencer {s : State} {rest : List Turn} (h : s.turns = .sequencer :: rest) :
    step s = sequence { s with turns := rest } := by simp only [step, h]

theorem step_of_host {s : State} {a : HostAction} {rest : List Turn} (h : s.turns = .host a :: rest) :
    step s = hostAct a { s with turns := rest } := by simp only [step, h]

theorem step_of_poll {s : State} {rest : List Turn} (h : s.turns = .poll :: rest) :
    step s = if s.mode = .busy then sequence s else .next (readRegister .status { s with turns := rest }) := by simp only [step, h]

theorem sequence_of_not_busy {s : State} (h : s.mode ≠ .busy) : sequence s = .next s := if_neg h

theorem sequence_of_busy {s : State} {i : Instr} (h : s.mode = .busy) (hi : decodePhase s.phase = .ok i) : sequence s = exec i s := by
  simp only [sequence, h, hi, if_true]

/-! ## The decoded operation -/

/-- The bytes of a word decode to a host command exactly as the word does. -/
theorem decodeCommand_of_decode {v : Word} {i : Instr} (h : decode .hostCmd (wordBytes v) = .ok (i, [])) : decodeCommand v = .ok i := by
  simp only [wordBytes, decode, wordOf_byteOf] at h
  cases hc : decodeCommand v with
  | ok j => rw [hc] at h; cases h; rfl
  | error e => rw [hc] at h; cases h

/-- A PHASE code read from the low bits of its byte decodes as it does in the register. -/
theorem decodePhase_of_decode {p : Phase} {i : Instr} (h : decode .phase [p.setWidth 8] = .ok (i, [])) : decodePhase p = .ok i := by
  simp only [decode, BitVec.setWidth_setWidth_of_le p (show 5 ≤ 8 by decide), BitVec.setWidth_eq] at h
  cases hc : decodePhase p with
  | ok j => rw [hc] at h; cases h; rfl
  | error e => rw [hc] at h; cases h

theorem writeCmd_of_decodeCommand {v : Word} {i : Instr} (h : decodeCommand v = .ok i) (s : State) :
    hostAct (.writeReg 0 v) s = exec i s := by
  show writeRegister .cmd v s = exec i s
  simp only [writeRegister, h]

/-- Settles O5: each turn of the schedule is one lemma above. -/
theorem stepRunsDecoded : Obligations.StepRunsDecoded := by
  refine ⟨fun s rest v i ht hd => ?_, fun s i hb hd => ⟨fun ht => ?_, fun rest ht => ?_, fun rest ht => ?_⟩, fun s hb ht => ?_⟩
  · rw [step_of_host ht, writeCmd_of_decodeCommand (decodeCommand_of_decode hd)]
  · rw [step_of_idle_turns ht, sequence_of_busy hb (decodePhase_of_decode hd)]
  · rw [step_of_sequencer ht, sequence_of_busy (s := { s with turns := rest }) hb (decodePhase_of_decode hd)]
  · rw [step_of_poll ht, if_pos hb, sequence_of_busy hb (decodePhase_of_decode hd)]
  · rw [step_of_idle_turns ht, sequence_of_not_busy hb]

/-! ## The registers -/

/-- The bits of STATUS (10_state R23). -/
theorem getLsbD_statusWord (m : Mode) (eos : Bool) (p : Phase) {i : Nat} (hi : i < 32) : (statusWord m eos p).getLsbD i =
    (m.code.getLsbD i || (decide (i = 2) && eos) || (decide (8 ≤ i) && p.getLsbD (i - 8))) := by
  have h4 : (if eos then 4#32 else 0#32).getLsbD i = (decide (i = 2) && eos) := by
    cases eos with
    | false => simp
    | true => rw [if_pos rfl, show 4#32 = BitVec.twoPow 32 2 from rfl, BitVec.getLsbD_twoPow]; simp [eq_comm]
  rw [statusWord, BitVec.getLsbD_or, BitVec.getLsbD_or, h4, BitVec.getLsbD_shiftLeft, BitVec.getLsbD_setWidth, BitVec.getLsbD_setWidth]
  by_cases h8 : i < 8
  · simp [hi, h8, Nat.not_le.mpr h8]
  · simp [hi, h8, Nat.le_of_not_lt h8, show i - 8 < 32 by omega]

/-- The fields of STATUS, and the reserved bits between and above them (10_state R23). -/
theorem statusWord_fields (m : Mode) (eos : Bool) (p : Phase) :
    (statusWord m eos p).extractLsb' 0 2 = m.code ∧ (statusWord m eos p).getLsbD 2 = eos ∧
      (statusWord m eos p).extractLsb' 3 5 = 0#5 ∧ (statusWord m eos p).extractLsb' 8 5 = p ∧
      (statusWord m eos p).extractLsb' 13 19 = 0#19 := by
  have code (i : Nat) (h : 2 ≤ i) : m.code.getLsbD i = false := BitVec.getLsbD_of_ge _ _ h
  refine ⟨?_, ?_, ?_, ?_, ?_⟩
  · refine BitVec.eq_of_getLsbD_eq fun i hi => ?_
    rw [BitVec.getLsbD_extractLsb', getLsbD_statusWord _ _ _ (by omega)]
    simp [hi, show i ≠ 2 by omega, show ¬ 8 ≤ i by omega]
  · rw [getLsbD_statusWord _ _ _ (by decide), code 2 le_rfl]
    simp
  · refine BitVec.eq_of_getLsbD_eq fun i hi => ?_
    rw [BitVec.getLsbD_extractLsb', getLsbD_statusWord _ _ _ (by omega), code _ (by omega)]
    simp [show ¬ 3 + i = 2 by omega, show ¬ 8 ≤ 3 + i by omega]
  · refine BitVec.eq_of_getLsbD_eq fun i hi => ?_
    rw [BitVec.getLsbD_extractLsb', getLsbD_statusWord _ _ _ (by omega), code _ (by omega)]
    simp [hi, show ¬ 8 + i = 2 by omega]
  · refine BitVec.eq_of_getLsbD_eq fun i hi => ?_
    rw [BitVec.getLsbD_extractLsb', getLsbD_statusWord _ _ _ (by omega), code _ (by omega),
      BitVec.getLsbD_of_ge p _ (by omega)]
    simp [show ¬ 13 + i = 2 by omega]

theorem step_readReg_of_not_busy {s : State} {rest : List Turn} {off : Word} {r : Reg} (ht : s.turns = .host (.readReg off) :: rest)
    (hr : regAt off = some r) (hb : s.mode ≠ .busy) : step s = .next { s with turns := rest, rdData := r.value s } := by
  rw [step_of_host ht]
  simp only [hostAct, hr, readRegister, if_neg hb]
  cases r <;> rfl

theorem step_readReg_of_busy {s : State} {rest : List Turn} {off : Word} {r : Reg} (ht : s.turns = .host (.readReg off) :: rest)
    (hr : regAt off = some r) (hb : s.mode = .busy) :
    step s = .next { s with turns := rest, rdData := r.busyValue s, draws := s.draws + 1 } := by
  rw [step_of_host ht]
  simp only [hostAct, hr, readRegister, if_pos hb]
  cases r <;> rfl

/-- Each offset of the map is a register, and no two are the same one. -/
theorem regAt_offsets {off : Word} (h : off ∈ [(0x00 : Word), 0x04, 0x08, 0x0C, 0x10, 0x14, 0x18, 0x1C]) :
    ∃ r, regAt off = some r ∧ (off = 0x00 → r = .cmd) ∧ (off = 0x14 → r = .inLen) ∧ (off = 0x04 → r = .status) := by
  simp only [List.mem_cons, List.not_mem_nil, or_false] at h
  rcases h with rfl | rfl | rfl | rfl | rfl | rfl | rfl | rfl <;> exact ⟨_, rfl, by decide, by decide, by decide⟩

/-- What the host reads of each register but STATUS while the block is not BUSY (10_state R21, R25 to R28). -/
theorem regAt_value {s : State} {off v : Word} (h : (off, v) ∈ [((0x00 : Word), (0 : Word)), (0x08, s.errCode.setWidth 32), (0x0C, s.errIndex),
    (0x10, s.errLen), (0x14, s.inLen), (0x18, s.outLen), (0x1C, s.wpos)]) : ∃ r, regAt off = some r ∧ r.value s = v := by
  simp only [List.mem_cons, Prod.mk.injEq, List.not_mem_nil, or_false] at h
  rcases h with ⟨rfl, rfl⟩ | ⟨rfl, rfl⟩ | ⟨rfl, rfl⟩ | ⟨rfl, rfl⟩ | ⟨rfl, rfl⟩ | ⟨rfl, rfl⟩ | ⟨rfl, rfl⟩ <;> exact ⟨_, rfl, rfl⟩

/-- Settles O14: the block's value of each register when it is not BUSY, and the value of the busy read otherwise. -/
theorem registerReads : Obligations.RegisterReads := by
  refine ⟨fun s rest off v hb ht hv => ?_, fun s rest hb ht => ?_, fun s rest off hb ht ho => ?_⟩
  · obtain ⟨r, hr, rfl⟩ := regAt_value hv
    exact step_readReg_of_not_busy ht hr hb
  · exact ⟨_, step_readReg_of_not_busy ht (r := .status) rfl hb, statusWord_fields _ _ _⟩
  · obtain ⟨r, hr, hcmd, hlen, hstatus⟩ := regAt_offsets ho
    refine ⟨_, _, step_readReg_of_busy ht hr hb, fun e => ?_, fun e => ?_, fun e => ?_⟩
    · rw [hcmd e]; rfl
    · rw [hlen e]; rfl
    · obtain ⟨hmode, -, hlow, -, hhigh⟩ := statusWord_fields .busy (Config.free s.draws 30 0 % 2 == 1) (freeBits 5 s.draws 30 1)
      rw [hstatus e]
      exact ⟨hmode, hlow, hhigh⟩

theorem writeReg_of_regAt {s : State} {off : Word} {r : Reg} (hr : regAt off = some r) (v : Word) :
    hostAct (.writeReg off v) s = writeRegister r v s := by simp only [hostAct, hr]

/-- Settles O15: `IN_LEN` and the six read-only registers are the ones that a write other than CMD can reach. -/
theorem registerWrites : Obligations.RegisterWrites := by
  refine fun s rest off v ht => ⟨?_, ?_, fun ho => ?_⟩
  · rintro rfl hb
    rw [step_of_host ht, writeReg_of_regAt (r := .inLen) rfl]
    simp only [writeRegister, hb, if_false]
  · rintro rfl hb
    rw [step_of_host ht, writeReg_of_regAt (r := .inLen) rfl]
    simp only [writeRegister, hb, if_true]
  · rw [step_of_host ht]
    simp only [List.mem_cons, List.not_mem_nil, or_false] at ho
    rcases ho with rfl | rfl | rfl | rfl | rfl | rfl <;> rfl

end Sys2Proof.Machine

/-! PROOFS. Every step keeps the invariant of the block (10_state R23 to R34, 60_exceptions R262). A BUSY block meets it when what holds in every phase
(`State.Running`) holds and the phase at PHASE finds what it expects; so each phase owes what the next one expects, and a fault owes nothing. -/

namespace Sys2Proof.Machine

/-! ## The invariant, by STATE -/

/-- A buffer in canonical form and within its capacity. -/
abbrev BufferOk (cap : Nat) (m : Table Byte) : Prop := Memory.wf m ∧ Table.Below cap m

/-- What holds of a BUSY block in every phase. -/
structure State.Running (s : State) : Prop where
  legal : s.params.Legal
  inBuf : BufferOk s.params.inCap s.inBuf
  outBuf : BufferOk s.params.outCap s.outBuf
  work : s.work.InBounds s.params
  mode : s.mode = .busy
  record : s.NoRecord
  outLen : s.outLen = 0
  inLen : s.inLen.toNat ≤ s.params.inCap

/-- What ENCODE keeps of its operands (40_host_commands R102). -/
abbrev State.EncodeOperands (s : State) : Prop := s.eos = false ∧ s.wpos = 0 ∧ s.inLen.toNat ≤ maxLen

/-- What the ENCODE phase `p` expects of the internal state at its start. -/
def EncoderExpects (P : Params) (p : Phase) (w : Work) : Prop :=
  match p.toNat with
  | 2 => w.freqTotal = 0
  | 3 => w.freqTotal ≤ maxLen
  | 4 => w.freqTotal ≤ maxLen + 4
  | 5 => w.FreeBound
  | 12 => w.opos = 4 ∧ w.opos ≤ P.outCap
  | 13 => w.opos ≤ 4 + maxCtLen ∧ w.opos ≤ P.outCap
  | 14 => w.opos ≤ P.outCap
  | _ => True

theorem State.Inv.running {s : State} (h : s.Inv) (hb : s.mode = .busy) : s.Running :=
  have ⟨_, hrecord, hout, hin⟩ := h.status.busy hb
  ⟨h.legal, h.inBuf, h.outBuf, h.work, hb, hrecord, hout, hin⟩

theorem State.Running.statusOk {s : State} (h : s.Running) (hp : s.phase.Encoder ∨ s.phase.Decoder) : s.StatusOk where
  idle e := nomatch h.mode.symm.trans e
  busy _ := ⟨hp, h.record, h.outLen, h.inLen⟩
  done e := nomatch h.mode.symm.trans e
  fault e := nomatch h.mode.symm.trans e

theorem Phase.not_decoder {p : Phase} (h : p.Encoder) : ¬ p.Decoder := fun h' => by have := h.2; have := h'.1; omega

/-- The clauses of the invariant about DECODE say nothing of a block in a phase of ENCODE. -/
theorem decodeOk_of_encoder {s : State} (hp : s.phase.Encoder) : s.DecodeOk := by
  have no {q : Phase} (hq : q.Decoder) (e : s.phase = q) : False := Phase.not_decoder hp (e ▸ hq)
  refine ⟨fun _ e => ?_, fun _ e => ?_, fun _ e => (no (by decide) e).elim, fun _ e => (no (by decide) e).elim⟩
  · rcases e with e | e <;> exact (no (by decide) e).elim
  · rcases e with e | e | e <;> exact (no (by decide) e).elim

/-- The clauses of the invariant about ENCODE say nothing of a block in a phase of DECODE. -/
theorem encodeOk_of_decoder {s : State} (hp : s.phase.Decoder) : s.EncodeOk := by
  have no {q : Phase} (hq : q.Encoder) (e : s.phase = q) : False := Phase.not_decoder hq (e ▸ hp)
  refine ⟨fun _ e => (Phase.not_decoder e hp).elim, fun _ e => (no (by decide) e).elim, fun _ e => (no (by decide) e).elim,
    fun _ e => (no (by decide) e).elim, fun _ e => (no (by decide) e).elim, fun _ e => (no (by decide) e).elim,
    fun _ e => (no (by decide) e).elim, fun _ e => ?_⟩
  rcases e with e | e | e <;> exact (no (by decide) e).elim

/-- A running ENCODE whose phase finds what it expects meets the invariant. -/
theorem inv_of_encoder {s : State} (h : s.Running) (hp : s.phase.Encoder) (ho : s.EncodeOperands)
    (hw : EncoderExpects s.params s.phase s.work) : s.Inv where
  legal := h.legal
  inBuf := h.inBuf
  outBuf := h.outBuf
  work := h.work
  status := h.statusOk (.inl hp)
  encode :=
    { operands := fun _ _ => ho
      count := fun _ e => by rw [e] at hw; exact hw
      patch := fun _ e => by rw [e] at hw; exact hw
      leaves := fun _ e => by rw [e] at hw; exact hw
      merge := fun _ e => by rw [e] at hw; exact hw
      treeout := fun _ e => by rw [e] at hw; exact hw.1
      emit := fun _ e => by rw [e] at hw; exact hw.1
      output := fun _ e => by
        rcases e with e | e | e <;> rw [e] at hw
        · exact hw.2
        · exact hw.2
        · exact hw }
  decode := decodeOk_of_encoder hp

/-- A running DECODE that is as far as its phase says meets the invariant. -/
theorem inv_of_decoder {s : State} (h : s.Running) (hp : s.phase.Decoder) (hd : s.DecodeOk) : s.Inv :=
  ⟨h.legal, h.inBuf, h.outBuf, h.work, h.statusOk (.inr hp), encodeOk_of_decoder hp, hd⟩

/-- A block that runs no command meets the invariant when its buffers, its internal state and its registers do. -/
theorem inv_of_not_busy {s : State} (hb : s.mode ≠ .busy) (hl : s.params.Legal) (hi : BufferOk s.params.inCap s.inBuf)
    (ho : BufferOk s.params.outCap s.outBuf) (hw : s.work.InBounds s.params) (hs : s.StatusOk) : s.Inv where
  legal := hl
  inBuf := hi
  outBuf := ho
  work := hw
  status := hs
  encode := by constructor <;> exact fun e => absurd e hb
  decode := by constructor <;> exact fun e => absurd e hb

theorem bufferOk_free (draw field cap : Nat) : BufferOk cap (freeBuffer draw field cap) := ⟨wf_freeBuffer _ _ _, below_freeBuffer _ _ _⟩

/-! ## Fault entry, CLEAR and reset -/

theorem FaultName.code_range (n : FaultName) : 1 ≤ n.code.toNat ∧ n.code.toNat ≤ 13 := by cases n <;> decide

/-- Fault entry needs nothing of the phase that raised but that it is one (60_exceptions R262). -/
theorem takeFault_inv {s : State} (hl : s.params.Legal) (hi : BufferOk s.params.inCap s.inBuf)
    (hp : s.phase.Encoder ∨ s.phase.Decoder) (r : Raise) : (s.takeFault r).Inv :=
  inv_of_not_busy nofun hl hi (bufferOk_free _ _ _) (Work.unspecified_inBounds _ _)
    ⟨nofun, nofun, nofun, fun _ => ⟨hp, rfl, rfl, rfl, r.name.code_range⟩⟩

theorem idle_statusOk {s : State} (hm : s.mode = .idle) (h : s.phase = Phase.none ∧ s.eos = false ∧ s.NoRecord ∧ s.outLen = 0 ∧ s.wpos = 0) :
    s.StatusOk := by
  refine ⟨fun _ => h, ?_, ?_, ?_⟩ <;> exact fun e => nomatch (hm.symm.trans e)

theorem clear_inv {s : State} (h : s.Inv) : s.clear.Inv :=
  inv_of_not_busy nofun h.legal h.inBuf h.outBuf h.work (idle_statusOk rfl ⟨rfl, rfl, ⟨rfl, rfl, rfl⟩, rfl, rfl⟩)

theorem resetInput_inv {s : State} (h : s.Inv) : s.resetInput.Inv :=
  inv_of_not_busy nofun h.legal (bufferOk_free _ _ _) (bufferOk_free _ _ _) (Work.unspecified_inBounds _ _)
    (idle_statusOk rfl ⟨rfl, rfl, ⟨rfl, rfl, rfl⟩, rfl, rfl⟩)

/-- The parameters of the implementation are legal (00_scope R10). -/
theorem chip_legal : Config.chip.Legal := ⟨Nat.le_add_right _ _, Nat.le_add_right _ _, Nat.le_add_right _ _⟩

/-- Settles O53: the block is IDLE with its registers 0, and its tables are empty. -/
theorem resetSatisfiesInvariant : Obligations.ResetSatisfiesInvariant :=
  inv_of_not_busy nofun chip_legal ⟨wf_reset.1, Table.below_nil _⟩ ⟨wf_reset.2, Table.below_nil _⟩ (Work.zero_inBounds _)
    (idle_statusOk rfl ⟨rfl, rfl, ⟨rfl, rfl, rfl⟩, rfl, rfl⟩)

/-! ## The host commands -/

theorem acceptEncode_inv {s : State} (h : s.Inv) : (acceptEncode s).Inv := by
  have fault (r : Raise) : ((s.startCommand Phase.encInit).takeFault r).Inv :=
    takeFault_inv (s := s.startCommand _) h.legal h.inBuf (.inl (show Phase.encInit.Encoder by decide)) r
  unfold acceptEncode
  simp only
  split
  · exact fault _
  · next hin =>
    split
    · exact fault _
    · next hmax =>
      exact inv_of_encoder ⟨h.legal, h.inBuf, h.outBuf, h.work, rfl, ⟨rfl, rfl, rfl⟩, rfl, Nat.le_of_not_lt hin⟩ (show Phase.encInit.Encoder by decide)
        ⟨rfl, rfl, Nat.le_of_not_lt hmax⟩ trivial

theorem acceptDecode_inv {s : State} (h : s.Inv) : (acceptDecode s).Inv := by
  unfold acceptDecode
  simp only
  split
  · exact takeFault_inv (s := s.startCommand _) h.legal h.inBuf (.inr (show Phase.decHdr.Decoder by decide)) _
  · next hin =>
    exact inv_of_decoder ⟨h.legal, h.inBuf, h.outBuf, h.work, rfl, ⟨rfl, rfl, rfl⟩, rfl, Nat.le_of_not_lt hin⟩ (show Phase.decHdr.Decoder by decide)
      ⟨fun _ _ => ⟨rfl, rfl⟩, fun _ => nofun, fun _ => nofun, fun _ => nofun⟩

/-! ## The phases of ENCODE -/

/-- A phase of ENCODE keeps the invariant when its result, if it does not fault, is in bounds and is what the next phase expects. -/
theorem settle_onOut_inv {s t : State} {next : Phase} {r : Except Raise (Work × Table Byte)} (h : s.Inv) (hb : s.mode = .busy)
    (hp : s.phase.Encoder) (e : s.settle (fun _ => next) (s.onOut r) = .next t) (hn : next.Encoder)
    (hr : ∀ x, r = .ok x → x.1.InBounds s.params ∧ BufferOk s.params.outCap x.2 ∧ EncoderExpects s.params next x.1) : t.Inv := by
  cases r with
  | ok x =>
    obtain ⟨hw, ho, hx⟩ := hr x rfl
    cases e
    exact inv_of_encoder { h.running hb with outBuf := ho, work := hw } hn (h.encode.operands hb hp) hx
  | error r =>
    cases e
    exact takeFault_inv h.legal h.inBuf (.inl hp) r

/-- The same for a phase that does not write `OUT`. -/
theorem settle_onWork_inv {s t : State} {next : Phase} {r : Except Raise Work} (h : s.Inv) (hb : s.mode = .busy)
    (hp : s.phase.Encoder) (e : s.settle (fun _ => next) (s.onWork r) = .next t) (hn : next.Encoder)
    (hr : ∀ w, r = .ok w → w.InBounds s.params ∧ EncoderExpects s.params next w) : t.Inv := by
  refine settle_onOut_inv (r := r.map (·, s.outBuf)) h hb hp ?_ hn (fun x hx => ?_)
  · cases r <;> exact e
  · cases r with
    | ok w => cases hx; exact ⟨(hr w rfl).1, h.outBuf, (hr w rfl).2⟩
    | error _ => cases hx

section EncoderPhases

variable {s t : State} (h : s.Inv) (hb : s.mode = .busy)
include h hb

theorem execEncInit_inv (hp : s.phase = Phase.encInit) (e : execEncInit s = .next t) : t.Inv := by
  refine settle_onWork_inv h hb (by rw [hp]; decide) e (by decide) (fun w hw => ?_)
  obtain rfl := Except.ok.inj hw
  exact ⟨initTables_inBounds h.work, initTables_freqTotal s.work⟩

theorem execEncCount_inv (hp : s.phase = Phase.encCount) (e : execEncCount s = .next t) : t.Inv := by
  have hs : s.phase.Encoder := by rw [hp]; decide
  refine settle_onWork_inv h hb hs e (by decide) (fun w hw => ⟨countInput_inBounds h.work hw, ?_⟩)
  have htotal := countInput_freqTotal hw
  rw [h.encode.count hb hp, Nat.zero_add] at htotal
  exact htotal.trans_le (h.encode.operands hb hs).2.2

theorem execEncPatch_inv (hp : s.phase = Phase.encPatch) (e : execEncPatch s = .next t) : t.Inv := by
  refine settle_onWork_inv h hb (by rw [hp]; decide) e (by decide) (fun w hw => ?_)
  obtain rfl := Except.ok.inj hw
  exact ⟨patchFreq_inBounds h.legal h.work, (patchFreq_freqTotal s.work).trans (Nat.add_le_add_right (h.encode.patch hb hp) 4)⟩

theorem execEncLeaves_inv (hp : s.phase = Phase.encLeaves) (e : execEncLeaves s = .next t) : t.Inv := by
  refine settle_onWork_inv h hb (by rw [hp]; decide) e (by decide) (fun w hw => ?_)
  obtain rfl := Except.ok.inj hw
  obtain ⟨hweight, hleafs⟩ := makeLeaves_free s.work
  exact ⟨makeLeaves_inBounds h.work, hweight.trans_le (h.encode.leaves hb hp), hleafs⟩

theorem execEncMerge_inv (hp : s.phase = Phase.encMerge) (e : execEncMerge s = .next t) : t.Inv :=
  settle_onWork_inv h hb (by rw [hp]; decide) e (by decide)
    (fun _ hw => ⟨buildTree_inBounds h.legal h.work (h.encode.merge hb hp) hw, trivial⟩)

theorem execEncAlloc_inv (hp : s.phase = Phase.encAlloc) (e : execEncAlloc s = .next t) : t.Inv := by
  refine settle_onWork_inv h hb (by rw [hp]; decide) e (by decide) (fun w hw => ?_)
  obtain rfl := Except.ok.inj hw
  exact ⟨allocTree_inBounds h.work, trivial⟩

theorem execEncPack_inv (hp : s.phase = Phase.encPack) (e : execEncPack s = .next t) : t.Inv :=
  settle_onWork_inv h hb (by rw [hp]; decide) e (by decide) (fun _ hw => ⟨(packTree_step hw).inBounds h.work, trivial⟩)

theorem execEncUpdate_inv (hp : s.phase = Phase.encUpdate) (e : execEncUpdate s = .next t) : t.Inv :=
  settle_onWork_inv h hb (by rw [hp]; decide) e (by decide) (fun _ hw => ⟨(updateTree_step hw).inBounds h.work, trivial⟩)

theorem execEncFinal_inv (hp : s.phase = Phase.encFinal) (e : execEncFinal s = .next t) : t.Inv :=
  settle_onWork_inv h hb (by rw [hp]; decide) e (by decide) (fun _ hw => ⟨(finalTree_step hw).inBounds h.work, trivial⟩)

theorem execEncDerive_inv (hp : s.phase = Phase.encDerive) (e : execEncDerive s = .next t) : t.Inv :=
  settle_onWork_inv h hb (by rw [hp]; decide) e (by decide) (fun _ hw => ⟨deriveFrom_inBounds h.work hw, trivial⟩)

theorem execEncHdr_inv (hp : s.phase = Phase.encHdr) (e : execEncHdr s = .next t) : t.Inv := by
  refine settle_onOut_inv h hb (by rw [hp]; decide) e (by decide) (fun x hx => ?_)
  obtain ⟨hw, ho, hcap, hpos⟩ := append_emitOk (x := ({ s.work with opos := 0 }, s.outBuf)) { h.work with opos := Nat.two_pow_pos 32 } h.outBuf
    (by decide : 0 + 4 < 2 ^ 32) hx
  exact ⟨hw, ho, hpos, hcap⟩

theorem execEncTreeout_inv (hp : s.phase = Phase.encTreeout) (e : execEncTreeout s = .next t) : t.Inv := by
  refine settle_onOut_inv h hb (by rw [hp]; decide) e (by decide) (fun x hx => ?_)
  have hstart := h.encode.treeout hb hp
  have hlen : s.work.ctLen ≤ 512 := h.work.ctLen
  obtain ⟨hw, ho, hcap, hpos⟩ := emitSlots_emitOk h.work h.outBuf (h.encode.output hb (.inl hp))
    (show s.work.opos + s.work.ctLen < 2 ^ 32 by omega) hx
  refine ⟨hw, ho, ?_, hcap⟩
  rw [hpos, hstart]
  exact Nat.add_le_add_left hlen 4

theorem execEncEmit_inv (hp : s.phase = Phase.encEmit) (e : execEncEmit s = .next t) : t.Inv := by
  have hs : s.phase.Encoder := by rw [hp]; decide
  exact settle_onOut_inv h hb hs e (by decide) (fun x hx => emitStream_inBounds h.work h.outBuf
    (h.encode.output hb (.inr (.inl hp))) (h.encode.emit hb hp) (h.encode.operands hb hs).2.2 hx)

theorem execEncDone_inv (hp : s.phase = Phase.encDone) (e : execEncDone s = .next t) : t.Inv := by
  cases e
  have hpos := h.encode.output hb (.inr (.inr hp))
  refine inv_of_not_busy nofun h.legal h.inBuf
    ⟨wf_splice _ h.outBuf.1 (bufferOk_free _ _ _).1, Table.below_splice _ h.outBuf.2 (bufferOk_free _ _ _).2⟩
    (Work.unspecified_inBounds _ _) ⟨nofun, nofun, fun _ => ⟨(h.running hb).record, ?_, .inl ⟨hp, rfl, rfl⟩⟩, nofun⟩
  exact (Nat.mod_eq_of_lt h.work.opos).trans_le hpos

end EncoderPhases


/-! ## The phases of DECODE -/

/-- What DECODE has from its header on (45_dec R201). -/
abbrev State.HeaderTaken (s : State) : Prop := s.work.dlen ≤ s.params.outCap ∧ s.work.numBits ∈ [1, 2, 4, 8]

/-- A DECODE whose tree is read: the next phase is DEC.STEP, or DEC.DONE when the output is complete (45_dec R207). -/
structure State.Decoding (s : State) : Prop where
  running : s.Running
  header : s.HeaderTaken
  eos : s.eos = false
  wpos : s.wpos.toNat ≤ s.work.dlen
  rpos : s.work.rpos ≤ s.inLen.toNat

theorem decodeNext_inv {s : State} (h : s.Decoding) : ({ s with phase := s.decodeNext } : State).Inv := by
  have hrun (p : Phase) : ({ s with phase := p } : State).Running := { h.running with }
  unfold State.decodeNext
  split
  · next hlt =>
    exact inv_of_decoder (hrun _) (show Phase.decStep.Decoder by decide)
      ⟨fun _ => nofun, fun _ _ => h.header, fun _ _ => ⟨h.eos, hlt, h.rpos⟩, fun _ => nofun⟩
  · next hge =>
    exact inv_of_decoder (hrun _) (show Phase.decDone.Decoder by decide)
      ⟨fun _ => nofun, fun _ _ => h.header, fun _ => nofun,
        fun _ _ => ⟨fun e => (nomatch h.eos.symm.trans e), fun _ => Nat.le_antisymm h.wpos (Nat.le_of_not_lt hge)⟩⟩

theorem legalWidth_mem : ∀ n : BitVec 4, legalWidth n = true → n.toNat ∈ [1, 2, 4, 8] := by decide

/-- A header taken has a legal width and a length that fits `OUT` (45_dec R201). -/
theorem takeHeader_ok {s u : State} {len : BitVec 24} {nbits : BitVec 4} (h : takeHeader s len nbits = .ok u) :
    nbits.toNat ∈ [1, 2, 4, 8] ∧ len.toNat ≤ s.params.outCap ∧ u = { s with
      outBuf := Table.clearBelow len.toNat s.outBuf
      wpos := 0
      work := { s.work with numBits := nbits.toNat, dlen := len.toNat, acc := 0, dmask4 := 0, codew := 0 } } := by
  unfold takeHeader at h
  split at h
  · cases h
  · next hwidth =>
    split at h
    · cases h
    · next hlen => exact ⟨legalWidth_mem _ (by simpa using hwidth), Nat.le_of_not_lt hlen, (Except.ok.inj h).symm⟩

/-- A tree region taken lies within the input (45_dec R202). -/
theorem takeSize_ok {s u : State} {b : Byte} (h : takeSize s b = .ok u) : 4 + treeLen b.toNat ≤ s.inLen.toNat ∧
    u = { s with work := Work.toRoot { s.work with
      ctLen := treeLen b.toNat, ctree := copyTree s.inBuf (treeLen b.toNat) 0 s.work.ctree, rpos := 4 + treeLen b.toNat } } := by
  unfold takeSize at h
  simp only at h
  split at h
  · cases h
  · next hlen => exact ⟨Nat.le_of_not_lt hlen, (Except.ok.inj h).symm⟩

/-- FETCH ends the stream or places the next bit (45_dec R204). -/
theorem fetchBit_eq (s : State) : fetchBit s = if s.StreamEnded then none else some s.fetched := by
  unfold fetchBit State.fetched State.StreamEnded
  by_cases hm : s.work.dmask4 >>> 1 = 0
  · by_cases hl : s.inLen.toNat < s.work.rpos + 4
    · rw [if_pos hm, if_pos hl, if_pos ⟨hm, hl⟩]
    · rw [if_pos hm, if_neg hl, if_neg fun h => hl h.2, if_pos hm]; rfl
  · rw [if_neg hm, if_neg fun h => hm h.1, if_neg hm]

/-- BRANCH stays inside the tree and arrives at a node or a leaf (45_dec R205). -/
theorem branchOn_ok {s u : State} {bit : Bool} (h : branchOn s bit = .ok u) : s.work.branchSlot bit < s.work.ctLen ∧
    ∃ b, let t := { s with work := { s.work with next := s.work.next + pairDistance (offsetOf s.work.pos) } }
      u = arriveLeaf t b ∨ u = arriveNode t b := by
  unfold branchOn at h
  simp only at h
  split at h
  · cases h
  · next hidx =>
    refine ⟨Nat.lt_of_not_le hidx, s.work.slot (s.work.branchSlot bit), ?_⟩
    cases h
    split
    · exact .inl rfl
    · exact .inr rfl

theorem arriveNode_decoding {s : State} (h : s.Decoding) (b : Byte) : (arriveNode s b).Decoding :=
  { h with running := { h.running with work := { h.running.work with } } }

/-- OUTPUT writes below DLEN and advances `WPOS` by at most one (45_dec R206). -/
theorem arriveLeaf_decoding {s : State} (h : s.Decoding) (hlt : s.wpos.toNat < s.work.dlen) (b : Byte) : (arriveLeaf s b).Decoding where
  running := { h.running with
    outBuf := ⟨wf_memWrite1 _ _ h.running.outBuf.1, below_memWrite1 _ (hlt.trans_le h.header.1) h.running.outBuf.2⟩
    work := toRoot_inBounds { h.running.work with acc := Nat.mod_lt _ (by decide) } }
  header := h.header
  eos := h.eos
  wpos := by
    have hd := h.running.work.dlen
    show (if 8 ≤ s.work.acc + s.work.numBits then s.wpos + 1 else s.wpos).toNat ≤ s.work.dlen
    split
    · rw [BitVec.toNat_add, show (1 : Word).toNat = 1 from rfl, Nat.mod_eq_of_lt (by omega)]
      exact hlt
    · exact hlt.le
  rpos := h.rpos

section DecoderPhases

variable {s t : State} (h : s.Inv) (hb : s.mode = .busy)
include h hb

theorem execDecHdr_inv (hp : s.phase = Phase.decHdr) (e : execDecHdr s = .next t) : t.Inv := by
  rcases State.settle_next e with ⟨u, hu, rfl⟩ | ⟨r, -, rfl⟩
  · unfold readHeader at hu
    split at hu
    · cases hu
    · obtain ⟨hwidth, hlen, rfl⟩ := takeHeader_ok hu
      have hrun := h.running hb
      refine inv_of_decoder { hrun with
          outBuf := ⟨wf_clearBelow _ hrun.outBuf.1, Table.below_clearBelow _ hrun.outBuf.2⟩
          work := { hrun.work with acc := Nat.two_pow_pos 3, numBits := BitVec.isLt _, dlen := BitVec.isLt _ } }
        (show Phase.decTree.Decoder by decide)
        ⟨fun _ _ => ⟨(h.decode.start hb (.inl hp)).1, rfl⟩, fun _ _ => ⟨hlen, hwidth⟩, fun _ => nofun, fun _ => nofun⟩
  · exact takeFault_inv h.legal h.inBuf (.inr (by rw [hp]; decide)) r

theorem execDecTree_inv (hp : s.phase = Phase.decTree) (e : execDecTree s = .next t) : t.Inv := by
  rcases State.settle_next e with ⟨u, hu, rfl⟩ | ⟨r, -, rfl⟩
  · unfold readTree at hu
    split at hu
    · cases hu
    · obtain ⟨hlen, rfl⟩ := takeSize_ok hu
      obtain ⟨heos, hwpos⟩ := h.decode.start hb (.inr hp)
      have hrun := h.running hb
      have hsize := treeLen_le (memRead1 s.inBuf 4)
      have htree := copyTree_inBounds (m := s.inBuf) (i := 0) ((Nat.zero_add _).trans_le hsize) h.work.ctree.1 h.work.ctree.2
      refine decodeNext_inv ⟨{ hrun with work := toRoot_inBounds { hrun.work with
          ctLen := hsize, ctree := htree, rpos := hlen.trans_lt s.inLen.isLt } },
        h.decode.header hb (.inl hp), heos, ?_, hlen⟩
      show s.wpos.toNat ≤ s.work.dlen
      rw [hwpos]
      exact Nat.zero_le _
  · exact takeFault_inv h.legal h.inBuf (.inr (by rw [hp]; decide)) r

/-- A stream bit fetched leaves the walk where it stood. -/
theorem fetched_decoding (hp : s.phase = Phase.decStep) (hs : ¬ s.StreamEnded) :
    s.fetched.Decoding ∧ s.fetched.wpos.toNat < s.fetched.work.dlen ∧ s.fetched.phase = s.phase := by
  obtain ⟨heos, hwpos, hrpos⟩ := h.decode.walk hb hp
  have hrun := h.running hb
  have hheader := h.decode.header hb (.inr (.inl hp))
  unfold State.fetched
  split
  · next hm =>
    have hin : s.work.rpos + 4 ≤ s.inLen.toNat := Nat.le_of_not_lt fun hl => hs ⟨hm, hl⟩
    exact ⟨⟨{ hrun with work := { hrun.work with rpos := hin.trans_lt s.inLen.isLt } }, hheader, heos, hwpos.le, hin⟩, hwpos, rfl⟩
  · exact ⟨⟨{ hrun with work := { hrun.work with } }, hheader, heos, hwpos.le, hrpos⟩, hwpos, rfl⟩

theorem endOfStream_inv (hp : s.phase = Phase.decStep) : s.endOfStream.Inv := by
  obtain ⟨-, hwpos, -⟩ := h.decode.walk hb hp
  have hrun := h.running hb
  exact inv_of_decoder { hrun with work := { hrun.work with } } (show Phase.decDone.Decoder by decide)
    ⟨fun _ => nofun, fun _ _ => h.decode.header hb (.inr (.inl hp)), fun _ => nofun, fun _ _ => ⟨fun _ => hwpos, nofun⟩⟩

theorem execDecStep_inv (hp : s.phase = Phase.decStep) (e : execDecStep s = .next t) : t.Inv := by
  unfold execDecStep at e
  rw [fetchBit_eq] at e
  split at e
  · next hf => cases e; exact endOfStream_inv h hb hp
  · next f hf =>
    have hs : ¬ s.StreamEnded := fun hs => by rw [if_pos hs] at hf; cases hf
    rw [if_neg hs] at hf
    cases hf
    obtain ⟨hdec, hlt, hphase⟩ := fetched_decoding h hb hp hs
    rcases State.settle_next e with ⟨u, hu, rfl⟩ | ⟨r, -, rfl⟩
    · obtain ⟨hidx, b, hu⟩ := branchOn_ok hu
      have hnext : s.fetched.work.next + pairDistance (offsetOf s.fetched.work.pos) < 2 ^ 16 := by
        have hlen : s.fetched.work.ctLen ≤ 512 := hdec.running.work.ctLen
        unfold Work.branchSlot at hidx
        omega
      have hwalk : ({ s.fetched with work := { s.fetched.work with
          next := s.fetched.work.next + pairDistance (offsetOf s.fetched.work.pos) } } : State).Decoding :=
        { hdec with running := { hdec.running with work := { hdec.running.work with next := hnext } } }
      rcases hu with rfl | rfl
      · exact decodeNext_inv (arriveLeaf_decoding hwalk hlt b)
      · exact decodeNext_inv (arriveNode_decoding hwalk b)
    · exact takeFault_inv hdec.running.legal hdec.running.inBuf (.inr (by rw [hphase, hp]; decide)) r

theorem execDecDone_inv (hp : s.phase = Phase.decDone) (e : execDecDone s = .next t) : t.Inv := by
  cases e
  have hlen : (BitVec.ofNat 32 s.work.dlen).toNat = s.work.dlen := Nat.mod_eq_of_lt (h.work.dlen.trans (by decide))
  obtain ⟨hshort, hfull⟩ := h.decode.finish hb hp
  have hcap := (h.decode.header hb (.inr (.inr hp))).1
  refine inv_of_not_busy nofun h.legal h.inBuf
    ⟨wf_splice _ h.outBuf.1 (bufferOk_free _ _ _).1, Table.below_splice _ h.outBuf.2 (bufferOk_free _ _ _).2⟩
    (Work.unspecified_inBounds _ _) ⟨nofun, nofun, fun _ => ⟨(h.running hb).record, hlen.trans_le hcap,
      .inr ⟨hp, fun e => (hshort e).trans_eq hlen.symm, fun e => BitVec.eq_of_toNat_eq ((hfull e).trans hlen.symm)⟩⟩, nofun⟩

end DecoderPhases

/-! ## Every step -/

/-- The PHASE codes that a BUSY block can stand at (10_state R24). -/
theorem phase_cases : ∀ {p : Phase}, p.Encoder ∨ p.Decoder → p = Phase.encInit ∨ p = Phase.encCount ∨ p = Phase.encPatch ∨
    p = Phase.encLeaves ∨ p = Phase.encMerge ∨ p = Phase.encAlloc ∨ p = Phase.encPack ∨ p = Phase.encUpdate ∨ p = Phase.encFinal ∨
    p = Phase.encDerive ∨ p = Phase.encHdr ∨ p = Phase.encTreeout ∨ p = Phase.encEmit ∨ p = Phase.encDone ∨ p = Phase.decHdr ∨
    p = Phase.decTree ∨ p = Phase.decStep ∨ p = Phase.decDone := by decide

theorem sequence_inv {s t : State} (h : s.Inv) (e : sequence s = .next t) : t.Inv := by
  by_cases hb : s.mode = .busy
  · have run (i : Instr) (hi : decodePhase s.phase = .ok i) : exec i s = .next t := (sequence_of_busy hb hi).symm.trans e
    rcases phase_cases (h.status.busy hb).1 with hp | hp | hp | hp | hp | hp | hp | hp | hp | hp | hp | hp | hp | hp | hp | hp | hp | hp
    · exact execEncInit_inv h hb hp (run .encInit (by rw [hp]; rfl))
    · exact execEncCount_inv h hb hp (run .encCount (by rw [hp]; rfl))
    · exact execEncPatch_inv h hb hp (run .encPatch (by rw [hp]; rfl))
    · exact execEncLeaves_inv h hb hp (run .encLeaves (by rw [hp]; rfl))
    · exact execEncMerge_inv h hb hp (run .encMerge (by rw [hp]; rfl))
    · exact execEncAlloc_inv h hb hp (run .encAlloc (by rw [hp]; rfl))
    · exact execEncPack_inv h hb hp (run .encPack (by rw [hp]; rfl))
    · exact execEncUpdate_inv h hb hp (run .encUpdate (by rw [hp]; rfl))
    · exact execEncFinal_inv h hb hp (run .encFinal (by rw [hp]; rfl))
    · exact execEncDerive_inv h hb hp (run .encDerive (by rw [hp]; rfl))
    · exact execEncHdr_inv h hb hp (run .encHdr (by rw [hp]; rfl))
    · exact execEncTreeout_inv h hb hp (run .encTreeout (by rw [hp]; rfl))
    · exact execEncEmit_inv h hb hp (run .encEmit (by rw [hp]; rfl))
    · exact execEncDone_inv h hb hp (run .encDone (by rw [hp]; rfl))
    · exact execDecHdr_inv h hb hp (run .decHdr (by rw [hp]; rfl))
    · exact execDecTree_inv h hb hp (run .decTree (by rw [hp]; rfl))
    · exact execDecStep_inv h hb hp (run .decStep (by rw [hp]; rfl))
    · exact execDecDone_inv h hb hp (run .decDone (by rw [hp]; rfl))
  · rw [sequence_of_not_busy hb] at e
    cases e
    exact h

/-- The invariant does not look at the schedule, the data last read or the count of free values. -/
theorem State.Inv.hostFields {s : State} (h : s.Inv) (turns : List Turn) (rdData : Word) (draws : Nat) :
    ({ s with turns := turns, rdData := rdData, draws := draws } : State).Inv :=
  { h with status := { h.status with }, encode := { h.encode with }, decode := { h.decode with } }

theorem State.Inv.setTurns {s : State} (h : s.Inv) (turns : List Turn) : ({ s with turns := turns } : State).Inv :=
  h.hostFields turns s.rdData s.draws

theorem readRegister_inv {s : State} (h : s.Inv) (r : Reg) : (readRegister r s).Inv := by
  unfold readRegister
  split
  · exact h.hostFields _ _ _
  · exact h.hostFields _ _ _

theorem setInLen_inv {s : State} (h : s.Inv) (hb : s.mode ≠ .busy) (v : Word) : ({ s with inLen := v } : State).Inv :=
  inv_of_not_busy hb h.legal h.inBuf h.outBuf h.work { h.status with busy := fun e => absurd e hb }

theorem setInBuf_inv {s : State} (h : s.Inv) (hb : s.mode ≠ .busy) {m : Table Byte} (hm : BufferOk s.params.inCap m) :
    ({ s with inBuf := m } : State).Inv :=
  inv_of_not_busy hb h.legal hm h.outBuf h.work { h.status with }

/-- The four host commands keep the invariant, accepted or ignored (40_host_commands R100). -/
theorem decodeCommand_inv {s t : State} (h : s.Inv) {v : Word} {i : Instr} (hi : decodeCommand v = .ok i) (e : exec i s = .next t) :
    t.Inv := by
  unfold decodeCommand at hi
  split at hi
  · cases hi; cases e; exact h
  · cases hi; cases e
    split
    · exact acceptEncode_inv h
    · exact h
  · cases hi; cases e
    split
    · exact acceptDecode_inv h
    · exact h
  · cases hi; cases e
    split
    · exact clear_inv h
    · exact h
  · cases hi

theorem writeRegister_inv {s t : State} (h : s.Inv) {r : Reg} {v : Word} (e : writeRegister r v s = .next t) : t.Inv := by
  cases r with
  | cmd =>
    unfold writeRegister at e
    simp only at e
    split at e
    · next hi => exact decodeCommand_inv h hi e
    · cases e; exact h
  | inLen =>
    cases e
    split
    · exact h
    · next hb => exact setInLen_inv h hb v
  | status | errCode | errIndex | errLen | outLen | wpos => cases e; exact h

theorem hostAct_inv {s t : State} (h : s.Inv) {a : HostAction} (e : hostAct a s = .next t) : t.Inv := by
  cases a with
  | writeReg offset v =>
    unfold hostAct at e
    simp only at e
    split at e
    · exact writeRegister_inv h e
    · cases e
  | readReg offset =>
    unfold hostAct at e
    simp only at e
    split at e
    · cases e; exact readRegister_inv h _
    · cases e
  | writeIn addr b =>
    unfold hostAct at e
    simp only at e
    split at e
    · cases e
    · next hb =>
      split at e
      · cases e
      · next haddr =>
        cases e
        exact setInBuf_inv h hb ⟨wf_memWrite1 _ _ h.inBuf.1, below_memWrite1 _ (Nat.lt_of_not_le haddr) h.inBuf.2⟩
  | readOut addr =>
    unfold hostAct at e
    simp only at e
    split at e
    · cases e
    · split at e
      · cases e
      · cases e; exact h.hostFields _ _ _
  | reset => cases e; exact resetInput_inv h

/-- Settles O52: whoever moves, the sequencer or the host, the invariant is kept. -/
theorem stepKeepsInvariant : Obligations.StepKeepsInvariant := by
  intro s t h e
  match ht : s.turns with
  | [] =>
    rw [step_of_idle_turns ht] at e
    exact sequence_inv h e
  | .sequencer :: rest =>
    rw [step_of_sequencer ht] at e
    exact sequence_inv (h.setTurns rest) e
  | .host a :: rest =>
    rw [step_of_host ht] at e
    exact hostAct_inv (h.setTurns rest) e
  | .poll :: rest =>
    rw [step_of_poll ht] at e
    split at e
    · exact sequence_inv h e
    · cases e
      exact readRegister_inv (h.setTurns rest) .status

end Sys2Proof.Machine

/-! PROOFS. The old internal state is never seen by a command (10_state R38, 70_reset_and_hazards R282). Two runs that begin a command with different
internal states agree, at each phase, on everything that phase and the later ones read before they write it; so they answer alike. -/

namespace Sys2Proof.Machine

/-! ## Results that agree -/

/-- Two results that raise the same fault, or both succeed with values that `R` relates. -/
def Agree {α β : Type} (R : α → β → Prop) (x : Except Raise α) (y : Except Raise β) : Prop :=
  (∃ e, x = .error e ∧ y = .error e) ∨ ∃ a b, x = .ok a ∧ y = .ok b ∧ R a b

namespace Agree

variable {α β γ δ : Type} {R : α → β → Prop} {S : γ → δ → Prop}

theorem ok {a : α} {b : β} (h : R a b) : Agree R (.ok a) (.ok b) := .inr ⟨a, b, rfl, rfl, h⟩

theorem error (e : Raise) : Agree R (.error e) (.error e) := .inl ⟨e, rfl, rfl⟩

theorem bind {x : Except Raise α} {y : Except Raise β} {f : α → Except Raise γ} {g : β → Except Raise δ} (h : Agree R x y)
    (hf : ∀ a b, R a b → Agree S (f a) (g b)) : Agree S (x >>= f) (y >>= g) := by
  rcases h with ⟨e, rfl, rfl⟩ | ⟨a, b, rfl, rfl, hab⟩
  · exact .error e
  · exact hf a b hab

/-- The same value is read on both sides. -/
theorem bind_same {x : Except Raise α} {f : α → Except Raise γ} {g : α → Except Raise δ} (hf : ∀ a, Agree S (f a) (g a)) :
    Agree S (x >>= f) (x >>= g) := by
  cases x with
  | error e => exact .error e
  | ok a => exact hf a

/-- What is related may also use how the two results came about. -/
theorem imp {R' : α → β → Prop} {x : Except Raise α} {y : Except Raise β} (h : Agree R x y)
    (hR : ∀ a b, x = .ok a → y = .ok b → R a b → R' a b) : Agree R' x y := by
  rcases h with h | ⟨a, b, hx, hy, hab⟩
  · exact .inl h
  · exact .inr ⟨a, b, hx, hy, hR a b hx hy hab⟩

end Agree

/-! ## What two internal states can agree on -/

/-- The 256 counters (10_state R29). -/
abbrev FreqAlike (f f' : Table Nat) : Prop := ∀ s < nsym, Table.get 0 f' s = Table.get 0 f s

/-- The codeword entries, but for those that are not valid on either side (10_state R32). -/
def CodeAlike (w w' : Work) : Prop := ∀ b, w'.codeAt b = w.codeAt b ∨ (w.codeAt b).valid = false ∧ (w'.codeAt b).valid = false

/-- The arena up to `NNODE` (10_state R30), in which every link that can be followed leads to a node in use. -/
structure ArenaAlike (w w' : Work) : Prop where
  nleaf : w'.nleaf = w.nleaf
  nnode : w'.nnode = w.nnode
  node : ∀ i < w.nnode, w'.nodeAt i = w.nodeAt i
  sons : ∀ i < w.nnode, w.leafsOf i = 1 ∨ w.leftOf i < w.nnode ∧ w.rightOf i < w.nnode
  dad : ∀ i < w.nnode, ∀ d, (w.nodeAt i).dad = some d → d < w.nnode

/-- The flat tree up to `CT_LEN` (10_state R31), and of the registers what `R` says. -/
structure SlotsAlike (R : Work → Work → Prop) (w w' : Work) : Prop where
  ctLen : w'.ctLen = w.ctLen
  slot : ∀ i < w.ctLen, w'.slot i = w.slot i
  mask : ∀ i < w.ctLen, w'.maskSlot i = w.maskSlot i
  registers : R w w'

/-- The arena holds the whole tree: the root is a node in use (42_enc_tree R134). -/
abbrev Work.Rooted (w : Work) : Prop := 1 ≤ w.nleaf ∧ 2 * w.nleaf ≤ w.nnode + 1

/-- What ENC.ALLOC to ENC.DERIVE agree on. -/
structure SerializerAlike (w w' : Work) : Prop where
  arena : ArenaAlike w w'
  code : CodeAlike w w'
  rooted : w.Rooted
  slots : SlotsAlike (fun _ _ => True) w w'

/-- The decoder's registers from its header on (10_state R34). -/
structure HeaderAlike (w w' : Work) : Prop where
  dlen : w'.dlen = w.dlen
  numBits : w'.numBits = w.numBits
  acc : w'.acc = w.acc
  dmask4 : w'.dmask4 = w.dmask4
  codew : w'.codew = w.codew

/-- What DEC.STEP agrees on. -/
structure WalkAlike (w w' : Work) : Prop extends HeaderAlike w w' where
  ctLen : w'.ctLen = w.ctLen
  slot : ∀ i < w.ctLen, w'.slot i = w.slot i
  rpos : w'.rpos = w.rpos
  pos : w'.pos = w.pos
  next : w'.next = w.next

/-- What two runs agree on at the start of each phase: nothing at the first one of a command. -/
def PhaseAlike (p : Phase) (w w' : Work) : Prop :=
  match p.toNat with
  | 1 | 16 => True
  | 2 => FreqAlike w.freq w'.freq ∧ CodeAlike w w'
  | 3 => FreqAlike w.freq w'.freq ∧ CodeAlike w w' ∧ w'.nleaf = w.nleaf
  | 4 => FreqAlike w.freq w'.freq ∧ CodeAlike w w' ∧ w'.nleaf = w.nleaf ∧ 1 ≤ w.nleaf
  | 5 => ArenaAlike w w' ∧ CodeAlike w w' ∧ 1 ≤ w.nleaf
  | 6 => ArenaAlike w w' ∧ CodeAlike w w' ∧ w.Rooted
  | 7 | 8 | 9 | 10 => SerializerAlike w w'
  | 11 => CodeAlike w w' ∧ SlotsAlike (fun _ _ => True) w w'
  | 12 => CodeAlike w w' ∧ SlotsAlike (fun w w' => w'.opos = w.opos) w w'
  | 13 => CodeAlike w w' ∧ w'.opos = w.opos
  | 14 => w'.opos = w.opos
  | 17 => HeaderAlike w w'
  | 18 => WalkAlike w w'
  | 19 => w'.dlen = w.dlen
  | _ => False

/-! ## The frequency table: ENC.INIT, ENC.COUNT, ENC.PATCH -/

theorem FreqAlike.set {f f' : Table Nat} (h : FreqAlike f f') (s v : Nat) : FreqAlike (Table.set 0 f s v) (Table.set 0 f' s v) := by
  intro k hk
  rw [Table.get_set, Table.get_set, h k hk]

theorem initTables_alike (w w' : Work) : PhaseAlike Phase.encCount (initTables w) (initTables w') := by
  refine ⟨fun s hs => ?_, fun b => .inr ?_⟩
  · show Table.get 0 (Table.clearBelow nsym w'.freq) s = Table.get 0 (Table.clearBelow nsym w.freq) s
    rw [Table.get_clearBelow, Table.get_clearBelow, if_pos hs, if_pos hs]
  · have invalid (u : Work) : ((initTables u).codeAt b).valid = false := by
      simp only [Work.codeAt, initTables]
      rw [get_invalidateCodes, if_pos (show b.toNat < nsym from b.isLt)]
    exact ⟨invalid w, invalid w'⟩

theorem countFrom_alike (P : Params) (m : Table Byte) : ∀ (n i : Nat) {f f' : Table Nat}, FreqAlike f f' →
    Agree FreqAlike (countFrom P m n i f) (countFrom P m n i f')
  | 0, _, _, _, h => .ok h
  | n + 1, i, f, f', h => by
    unfold countFrom
    simp only [h _ (show (memRead1 m i).toNat < nsym from BitVec.isLt _)]
    split
    · exact .error _
    · exact countFrom_alike P m n (i + 1) (h.set _ _)

theorem distinctCount_congr {f f' : Table Nat} (h : FreqAlike f f') : distinctCount f' = distinctCount f :=
  List.countP_congr fun s hs => by rw [h s (List.mem_range.mp hs)]

theorem countInput_alike {P : Params} {m : Table Byte} {n : Nat} {w w' : Work} (hf : FreqAlike w.freq w'.freq) (hc : CodeAlike w w') :
    Agree (PhaseAlike Phase.encPatch) (countInput P m n w) (countInput P m n w') := by
  unfold countInput
  rcases countFrom_alike P m n 0 hf with ⟨e, hx, hy⟩ | ⟨f, f', hx, hy, h⟩
  · rw [hx, hy]; exact .error e
  · rw [hx, hy]; exact .ok ⟨h, hc, distinctCount_congr h⟩

theorem presentSymbol_congr {f f' : Table Nat} (h : FreqAlike f f') : presentSymbol f' = presentSymbol f := by
  unfold presentSymbol
  exact List.find?_congr fun s hs => by rw [h s (List.mem_range.mp hs)]

theorem absentSymbol_congr {f f' : Table Nat} (h : FreqAlike f f') : absentSymbol f' = absentSymbol f := by
  unfold absentSymbol
  exact List.find?_congr fun s hs => by rw [h s (List.mem_range.mp hs)]

theorem flattenOnly_alike {w w' : Work} (h : PhaseAlike Phase.encPatch w w') : PhaseAlike Phase.encPatch (flattenOnly w) (flattenOnly w') := by
  obtain ⟨hf, hc, hn⟩ := h
  unfold flattenOnly
  rw [presentSymbol_congr hf]
  split
  · exact ⟨hf.set _ 1, hc, hn⟩
  · exact ⟨hf, hc, hn⟩

theorem promote_alike : ∀ (n : Nat) {w w' : Work}, PhaseAlike Phase.encPatch w w' → PhaseAlike Phase.encPatch (promote n w) (promote n w')
  | 0, _, _, h => h
  | n + 1, w, w', ⟨hf, hc, hn⟩ => by
    unfold promote
    rw [absentSymbol_congr hf]
    split
    · exact promote_alike n ⟨hf.set _ 2, hc, congrArg (· + 1) hn⟩
    · exact promote_alike n ⟨hf, hc, congrArg (· + 1) hn⟩

theorem promote_nleaf : ∀ (n : Nat) (w : Work), (promote n w).nleaf = w.nleaf + n
  | 0, _ => rfl
  | n + 1, w => by
    unfold promote
    split <;> (rw [promote_nleaf n]; show w.nleaf + 1 + n = _; omega)

theorem patchFreq_nleaf (w : Work) : 1 ≤ (patchFreq w).nleaf := by
  unfold patchFreq
  rw [promote_nleaf]
  split
  · rw [flattenOnly_nleaf]; omega
  · omega

theorem patchFreq_alike {w w' : Work} (h : PhaseAlike Phase.encPatch w w') : PhaseAlike Phase.encLeaves (patchFreq w) (patchFreq w') := by
  have key : PhaseAlike Phase.encPatch (patchFreq w) (patchFreq w') := by
    unfold patchFreq
    rw [h.2.2]
    split
    · exact promote_alike _ (flattenOnly_alike h)
    · exact promote_alike _ h
  exact ⟨key.1, key.2.1, key.2.2, patchFreq_nleaf w⟩

/-! ## The tree builder: ENC.LEAVES, ENC.MERGE -/

/-- A node put at the end of the arena. -/
theorem ArenaAlike.append {w w' : Work} (h : ArenaAlike w w') (v : Node) (hs : v.leafs = 1) (hd : v.dad = none) :
    ArenaAlike { w with node := Table.set Node.null w.node w.nnode v, nnode := w.nnode + 1 }
      { w' with node := Table.set Node.null w'.node w'.nnode v, nnode := w'.nnode + 1 } := by
  have get (u : Work) (i : Nat) : ({ u with node := Table.set Node.null u.node u.nnode v, nnode := u.nnode + 1 } : Work).nodeAt i =
      if i = u.nnode then v else u.nodeAt i := Table.get_set _ _ _ _ _
  refine ⟨h.nleaf, congrArg (· + 1) h.nnode, fun i hi => ?_, fun i hi => ?_, fun i hi d hd' => ?_⟩
  · rw [get, get, h.nnode]
    split
    · rfl
    · next hne => exact h.node i (Nat.lt_of_le_of_ne (Nat.lt_succ_iff.mp hi) hne)
  · simp only [Work.leafsOf, Work.leftOf, Work.rightOf, get]
    split
    · exact .inl hs
    · next hne =>
      exact (h.sons i (Nat.lt_of_le_of_ne (Nat.lt_succ_iff.mp hi) hne)).imp_right fun ⟨hl, hr⟩ => ⟨Nat.lt_succ_of_lt hl, Nat.lt_succ_of_lt hr⟩
  · rw [get] at hd'
    split at hd'
    · exact nomatch hd.symm.trans hd'
    · next hne => exact Nat.lt_succ_of_lt (h.dad i (Nat.lt_of_le_of_ne (Nat.lt_succ_iff.mp hi) hne) d hd')

theorem addLeaf_alike {w w' : Work} (hf : FreqAlike w.freq w'.freq) (h : ArenaAlike w w') {s : Nat} (hs : s < nsym) :
    ArenaAlike (addLeaf w s) (addLeaf w' s) := by
  have hfreq : w'.freqAt s = w.freqAt s := hf s hs
  unfold addLeaf
  rw [hfreq]
  split
  · exact h
  · exact h.append _ rfl rfl

theorem addLeaf_kept (w : Work) (s : Nat) : (addLeaf w s).freq = w.freq ∧ (addLeaf w s).code = w.code ∧ (addLeaf w s).nleaf = w.nleaf := by
  unfold addLeaf
  split <;> exact ⟨rfl, rfl, rfl⟩

theorem addLeaves_alike : ∀ {l : List Nat} {w w' : Work}, (∀ s ∈ l, s < nsym) → FreqAlike w.freq w'.freq → ArenaAlike w w' →
    ArenaAlike (l.foldl addLeaf w) (l.foldl addLeaf w')
  | [], _, _, _, _, h => h
  | s :: l, w, w', hl, hf, h => by
    have hf' : FreqAlike (addLeaf w s).freq (addLeaf w' s).freq := by rw [(addLeaf_kept w s).1, (addLeaf_kept w' s).1]; exact hf
    exact addLeaves_alike (l := l) (fun k hk => hl k (List.mem_cons_of_mem _ hk)) hf' (addLeaf_alike hf h (hl s List.mem_cons_self))

theorem addLeaves_kept : ∀ (l : List Nat) (w : Work), (l.foldl addLeaf w).code = w.code ∧ (l.foldl addLeaf w).nleaf = w.nleaf
  | [], _ => ⟨rfl, rfl⟩
  | s :: l, w => by
    obtain ⟨-, hc, hn⟩ := addLeaf_kept w s
    obtain ⟨hc', hn'⟩ := addLeaves_kept l (addLeaf w s)
    exact ⟨hc'.trans hc, hn'.trans hn⟩

theorem CodeAlike.of_code_eq {w w' u u' : Work} (h : CodeAlike w w') (hu : u.code = w.code) (hu' : u'.code = w'.code) : CodeAlike u u' := by
  simpa only [CodeAlike, Work.codeAt, hu, hu'] using h

theorem makeLeaves_alike {w w' : Work} (h : PhaseAlike Phase.encLeaves w w') : PhaseAlike Phase.encMerge (makeLeaves w) (makeLeaves w') := by
  obtain ⟨hf, hc, hn, h1⟩ := h
  have hstart : ArenaAlike { w with nnode := 0 } { w' with nnode := 0 } :=
    ⟨hn, rfl, fun _ hi => absurd hi (Nat.not_lt_zero _), fun _ hi => absurd hi (Nat.not_lt_zero _), fun _ hi => absurd hi (Nat.not_lt_zero _)⟩
  obtain ⟨hcode, hnleaf⟩ := addLeaves_kept (List.range nsym) { w with nnode := 0 }
  obtain ⟨hcode', -⟩ := addLeaves_kept (List.range nsym) { w' with nnode := 0 }
  exact ⟨addLeaves_alike (fun s hs => List.mem_range.mp hs) hf hstart, hc.of_code_eq hcode hcode', h1.trans_eq hnleaf.symm⟩

theorem lightest_congr {w w' : Work} (h : ArenaAlike w w') : ∀ {l : List Nat}, (∀ i ∈ l, i < w.nnode) → w'.lightest l = w.lightest l
  | [], _ => rfl
  | i :: l, hl => by
    have ih := lightest_congr h (l := l) fun k hk => hl k (List.mem_cons_of_mem _ hk)
    unfold Work.lightest
    rw [ih]
    cases hj : w.lightest l with
    | none => rfl
    | some j => simp only [h.node i (hl i List.mem_cons_self), h.node j (hl j (List.mem_cons_of_mem _ (lightest_mem w hj)))]

theorem parentless_congr {w w' : Work} (h : ArenaAlike w w') : w'.parentless = w.parentless := by
  unfold Work.parentless
  rw [h.nnode]
  exact List.filter_congr fun i hi => by rw [h.node i (List.mem_range.mp hi)]

theorem join_alike {w w' : Work} (h : ArenaAlike w w') {a b : Nat} (ha : a < w.nnode) (hb : b < w.nnode) (hab : a ≠ b) :
    ArenaAlike (w.join a b) (w'.join a b) := by
  have hcount (u : Work) : (u.join a b).nnode = u.nnode + 1 ∧ (u.join a b).nleaf = u.nleaf := by rw [join_eq]; exact ⟨rfl, rfl⟩
  have get := join_nodeAt ha hb hab
  have get' : ∀ i, (w'.join a b).nodeAt i = if i = w.nnode then w'.parentOf a b
      else if i = a ∨ i = b then { w'.nodeAt i with dad := some w.nnode } else w'.nodeAt i := by
    have := join_nodeAt (w := w') (h.nnode ▸ ha) (h.nnode ▸ hb) hab
    rwa [h.nnode] at this
  have hparent : w'.parentOf a b = w.parentOf a b := by
    simp only [Work.parentOf, Work.leafsOf, h.nleaf, h.nnode, h.node a ha, h.node b hb]
  have old {i : Nat} (hi : i < (w.join a b).nnode) (hne : i ≠ w.nnode) : i < w.nnode := by
    rw [(hcount w).1] at hi; omega
  refine ⟨?_, ?_, fun i hi => ?_, fun i hi => ?_, fun i hi d hd => ?_⟩
  · rw [(hcount w).2, (hcount w').2, h.nleaf]
  · rw [(hcount w).1, (hcount w').1, h.nnode]
  · rw [get, get', hparent]
    by_cases hne : i = w.nnode
    · rw [if_pos hne, if_pos hne]
    · rw [if_neg hne, if_neg hne, h.node i (old hi hne)]
  · have keep {j : Nat} (hj : j < w.nnode) : j < (w.join a b).nnode := by rw [(hcount w).1]; exact Nat.lt_succ_of_lt hj
    by_cases hne : i = w.nnode
    · refine .inr ?_
      simp only [Work.leftOf, Work.rightOf, get, if_pos hne]
      exact ⟨keep ha, keep hb⟩
    · have hsame : ((w.join a b).nodeAt i).leafs = (w.nodeAt i).leafs ∧ ((w.join a b).nodeAt i).lson = (w.nodeAt i).lson ∧
          ((w.join a b).nodeAt i).rson = (w.nodeAt i).rson := by
        rw [get, if_neg hne]
        split <;> exact ⟨rfl, rfl, rfl⟩
      obtain ⟨hl, hls, hrs⟩ := hsame
      simp only [Work.leafsOf, Work.leftOf, Work.rightOf, hl, hls, hrs]
      exact (h.sons i (old hi hne)).imp_right fun ⟨hl, hr⟩ => ⟨keep hl, keep hr⟩
  · rw [(hcount w).1]
    rw [get] at hd
    split at hd
    · exact nomatch hd
    · next hne =>
      split at hd
      · exact (Option.some.inj hd).symm.trans_lt (Nat.lt_succ_self _)
      · exact Nat.lt_succ_of_lt (h.dad i (old hi hne) d hd)

theorem mergeOnce_alike {w w' : Work} (h : ArenaAlike w w') (hc : CodeAlike w w') :
    Agree (fun u u' => ArenaAlike u u' ∧ CodeAlike u u') (mergeOnce w) (mergeOnce w') := by
  have hin : ∀ i ∈ w.parentless, i < w.nnode := fun i hi => (mem_parentless.mp hi).1
  unfold mergeOnce
  rw [parentless_congr h, lightest_congr h hin, h.nnode]
  cases ha : w.lightest w.parentless with
  | none => exact .error _
  | some a =>
    simp only
    rw [lightest_congr h fun i hi => hin i (List.mem_filter.mp hi).1]
    cases hb : w.lightest (w.parentless.filter (· ≠ a)) with
    | none => exact .error _
    | some b =>
      obtain ⟨hb', hne⟩ := List.mem_filter.mp (lightest_mem w hb)
      refine .ok ⟨join_alike h (hin a (lightest_mem w ha)) (hin b hb') (Ne.symm (by simpa using hne)), hc.of_code_eq ?_ ?_⟩ <;> rw [join_eq]

theorem mergeTimes_alike : ∀ (n : Nat) {w w' : Work}, ArenaAlike w w' → CodeAlike w w' →
    Agree (fun u u' => ArenaAlike u u' ∧ CodeAlike u u') (mergeTimes n w) (mergeTimes n w')
  | 0, _, _, h, hc => .ok ⟨h, hc⟩
  | n + 1, w, w', h, hc => by
    unfold mergeTimes
    rcases mergeOnce_alike h hc with ⟨e, hx, hy⟩ | ⟨u, u', hx, hy, hu, hcu⟩
    · rw [hx, hy]; exact .error e
    · rw [hx, hy]; exact mergeTimes_alike n hu hcu

theorem mergeTimes_counts : ∀ {n : Nat} {w u : Work}, mergeTimes n w = .ok u → u.nnode = w.nnode + n ∧ u.nleaf = w.nleaf
  | 0, _, _, h => by cases h; exact ⟨rfl, rfl⟩
  | n + 1, w, u, h => by
    unfold mergeTimes at h
    split at h
    · next v hv =>
      obtain ⟨a, b, -, -, rfl⟩ := mergeOnce_ok hv
      obtain ⟨hn, hl⟩ := mergeTimes_counts h
      rw [join_eq] at hn hl
      exact ⟨hn.trans (by show w.nnode + 1 + n = _; omega), hl⟩
    · cases h

theorem buildTree_alike {w w' : Work} (h : PhaseAlike Phase.encMerge w w') : Agree (PhaseAlike Phase.encAlloc) (buildTree w) (buildTree w') := by
  obtain ⟨ha, hc, h1⟩ := h
  unfold buildTree
  rw [ha.nleaf, ha.nnode]
  refine (mergeTimes_alike _ ha hc).imp fun u u' hu _ h => ⟨h.1, h.2, ?_⟩
  obtain ⟨hn, hl⟩ := mergeTimes_counts hu
  exact ⟨by omega, by omega⟩

end Sys2Proof.Machine

/-! PROOFS. Two flat trees that agree up to `CT_LEN` are read, written and rebalanced alike (43_enc_ctree R150 to R160): every access is checked against
`CT_LEN`, and every working register is written before it is read. -/

namespace Sys2Proof.Machine

/-! ## The table primitives -/

/-- A relation of the registers that does not look at the flat tree. -/
def TreeBlind (R : Work → Work → Prop) : Prop :=
  ∀ ⦃w w' : Work⦄ (t t' m m' : Table Byte), R w w' → R { w with ctree := t, cmask := m } { w' with ctree := t', cmask := m' }

namespace SlotsAlike

variable {R : Work → Work → Prop} {w w' : Work}

theorem mono {S : Work → Work → Prop} (h : SlotsAlike R w w') (hS : R w w' → S w w') : SlotsAlike S w w' :=
  { h with registers := hS h.registers }

/-- Only the registers differ. -/
theorem withRegisters {S : Work → Work → Prop} {u u' : Work} (h : SlotsAlike R w w') (hu : u.ctree = w.ctree ∧ u.cmask = w.cmask ∧ u.ctLen = w.ctLen)
    (hu' : u'.ctree = w'.ctree ∧ u'.cmask = w'.cmask ∧ u'.ctLen = w'.ctLen) (hS : S u u') : SlotsAlike S u u' := by
  obtain ⟨ht, hm, hl⟩ := hu
  obtain ⟨ht', hm', hl'⟩ := hu'
  refine ⟨hl'.trans (h.ctLen.trans hl.symm), fun i hi => ?_, fun i hi => ?_, hS⟩
  · simpa only [Work.slot, ht, ht'] using h.slot i (hi.trans_eq hl)
  · simpa only [Work.maskSlot, hm, hm'] using h.mask i (hi.trans_eq hl)

theorem treeRead (h : SlotsAlike R w w') (i : Int) : treeRead w' i = Machine.treeRead w i := by
  unfold Machine.treeRead
  rw [h.ctLen]
  split
  · rfl
  · next hi => rw [h.slot _ (by omega)]

theorem maskRead (h : SlotsAlike R w w') (i : Int) : maskRead w' i = Machine.maskRead w i := by
  unfold Machine.maskRead
  rw [h.ctLen]
  split
  · rfl
  · next hi => rw [h.mask _ (by omega)]

theorem treeWrite (hR : TreeBlind R) (h : SlotsAlike R w w') (i v : Int) :
    Agree (SlotsAlike R) (treeWrite w i v) (Machine.treeWrite w' i v) := by
  unfold Machine.treeWrite
  by_cases hi : i < 0 ∨ (w.ctLen : Int) ≤ i
  · rw [if_pos hi, if_pos (h.ctLen ▸ hi), h.ctLen]
    exact .error _
  · rw [if_neg hi, if_neg (show ¬ (i < 0 ∨ (w'.ctLen : Int) ≤ i) from h.ctLen ▸ hi)]
    split
    · rw [h.ctLen]
      exact .error _
    · refine .ok ⟨h.ctLen, fun j hj => ?_, h.mask, hR _ _ _ _ h.registers⟩
      simp only [Work.slot, Table.get_set]
      split
      · rfl
      · exact h.slot j hj

theorem maskWrite (hR : TreeBlind R) (h : SlotsAlike R w w') (i : Int) (v : Byte) :
    Agree (SlotsAlike R) (maskWrite w i v) (Machine.maskWrite w' i v) := by
  unfold Machine.maskWrite
  by_cases hi : i < 0 ∨ (w.ctLen : Int) ≤ i
  · rw [if_pos hi, if_pos (h.ctLen ▸ hi), h.ctLen]
    exact .error _
  · rw [if_neg hi, if_neg (show ¬ (i < 0 ∨ (w'.ctLen : Int) ≤ i) from h.ctLen ▸ hi)]
    refine .ok ⟨h.ctLen, h.slot, fun j hj => ?_, hR _ _ _ _ h.registers⟩
    simp only [Work.maskSlot, Table.get_set]
    split
    · rfl
    · exact h.mask j hj

end SlotsAlike

/-! ## ENC.ALLOC -/

theorem allocTree_slots {w w' : Work} (h : w'.nleaf = w.nleaf) : SlotsAlike (fun _ _ => True) (allocTree w) (allocTree w') := by
  unfold allocTree
  rw [h]
  refine ⟨rfl, fun i (hi : i < treeLen _) => ?_, fun i (hi : i < treeLen _) => ?_, trivial⟩
  · simp only [Work.slot, Table.get_set, Table.get_clearBelow, if_pos hi]
  · simp only [Work.maskSlot, Table.get_clearBelow, if_pos hi]

theorem allocTree_alike {w w' : Work} (h : PhaseAlike Phase.encAlloc w w') : PhaseAlike Phase.encPack (allocTree w) (allocTree w') := by
  obtain ⟨ha, hc, hroot⟩ := h
  exact ⟨{ ha with }, hc, hroot, allocTree_slots ha.nleaf⟩

/-! ## ENC.PACK -/

/-- While PACK runs: the arenas of `v` and `v'`, and the same frames. -/
structure PackAlike (v v' w w' : Work) : Prop where
  node : w.node = v.node
  node' : w'.node = v'.node
  stack : w'.packStack = w.packStack

/-- While PACK_BFS runs: the same queue of nodes in use too. -/
structure BfsAlike (v v' w w' : Work) : Prop extends PackAlike v v' w w' where
  queue : w'.packQueue = w.packQueue
  dequeued : w'.packS = w.packS
  inUse : ∀ m ∈ w.packQueue, m < v.nnode

theorem PackAlike.blind (v v' : Work) : TreeBlind (PackAlike v v') := fun _ _ _ _ _ _ h => { h with }

theorem BfsAlike.blind (v v' : Work) : TreeBlind (BfsAlike v v') := fun _ _ _ _ _ _ h => { h with }

section Pack

variable {v v' : Work} (ha : ArenaAlike v v')
include ha

theorem nodeAt_alike {w w' : Work} (h : PackAlike v v' w w') {n : Nat} (hn : n < v.nnode) :
    w.nodeAt n = v.nodeAt n ∧ w'.nodeAt n = v.nodeAt n := by
  have hv' : w'.nodeAt n = v'.nodeAt n := congrArg (Table.get Node.null · n) h.node'
  exact ⟨congrArg (Table.get Node.null · n) h.node, hv'.trans (ha.node n hn)⟩

theorem leafsOf_alike {w w' : Work} (h : PackAlike v v' w w') {n : Nat} (hn : n < v.nnode) :
    w.leafsOf n = v.leafsOf n ∧ w'.leafsOf n = v.leafsOf n := by
  simp only [Work.leafsOf, nodeAt_alike ha h hn, and_self]

theorem sonsOf_alike {w w' : Work} (h : PackAlike v v' w w') {n : Nat} (hn : n < v.nnode) :
    (w.leftOf n = v.leftOf n ∧ w'.leftOf n = v.leftOf n) ∧ w.rightOf n = v.rightOf n ∧ w'.rightOf n = v.rightOf n := by
  simp only [Work.leftOf, Work.rightOf, nodeAt_alike ha h hn, and_self]

theorem leafFlags_alike {w w' : Work} (h : PackAlike v v' w w') {n : Nat} (hn : n < v.nnode) (h1 : v.leafsOf n ≠ 1) :
    w.leafFlags n = v.leafFlags n ∧ w'.leafFlags n = v.leafFlags n := by
  obtain ⟨hl, hr⟩ := (ha.sons n hn).resolve_left h1
  obtain ⟨⟨sl, sl'⟩, sr, sr'⟩ := sonsOf_alike ha h hn
  simp only [Work.leafFlags, sl, sl', sr, sr', leafsOf_alike ha h hl, leafsOf_alike ha h hr, and_self]

theorem writeNode_alike {R : Work → Work → Prop} (hR : TreeBlind R) {w w' : Work} (hp : PackAlike v v' w w') (h : SlotsAlike R w w')
    {m : Nat} (hm : m < v.nnode) (slot offset : Nat) : Agree (SlotsAlike R) (writeNode w m slot offset) (writeNode w' m slot offset) := by
  obtain ⟨hl, hl'⟩ := leafsOf_alike ha hp hm
  obtain ⟨hn, hn'⟩ := nodeAt_alike ha hp hm
  unfold writeNode
  rw [hl, hl']
  split
  · rw [hn, hn']
    exact .bind (h.treeWrite hR _ _) fun u u' hu => hu.maskWrite hR _ _
  · next h1 =>
    obtain ⟨hf, hf'⟩ := leafFlags_alike ha hp hm h1
    rw [hf, hf']
    exact .bind (h.treeWrite hR _ _) fun u u' hu => hu.maskWrite hR _ _

theorem bfsLoop_alike : ∀ (room p q : Nat) {w w' : Work}, SlotsAlike (BfsAlike v v') w w' →
    Agree (SlotsAlike (BfsAlike v v')) (bfsLoop room p q w) (bfsLoop room p q w')
  | 0, p, q, w, w', h => by
    unfold bfsLoop Work.packRq
    rw [h.registers.queue, h.registers.dequeued]
    split
    · exact .error _
    · exact .ok h
  | room + 1, p, q, w, w', h => by
    have hq := h.registers.queue
    have hs := h.registers.dequeued
    unfold bfsLoop Work.packRq
    simp only [hq, hs]
    split
    · next hlt =>
      have hm : w.packQueue.getD w.packS 0 < v.nnode := by
        rw [List.getD_eq_getElem _ _ hlt]
        exact h.registers.inUse _ (List.getElem_mem hlt)
      generalize w.packQueue.getD w.packS 0 = m at hm ⊢
      have hnext : SlotsAlike (BfsAlike v v') { w with packS := w.packS + 1 }
          { w' with packQueue := w.packQueue, packS := w.packS + 1 } :=
        h.withRegisters ⟨rfl, rfl, rfl⟩ ⟨rfl, rfl, rfl⟩ { h.registers with queue := rfl, dequeued := rfl }
      rcases writeNode_alike ha (BfsAlike.blind v v') hnext.registers.toPackAlike hnext hm (if w.packS = 0 then p else q)
        ((w.packQueue.length - (w.packS + 1)) / 2) with ⟨e, hx, hy⟩ | ⟨u, u', hx, hy, hu⟩
      · rw [hx, hy]; exact .error e
      · rw [hx, hy]
        obtain ⟨hl, hl'⟩ := leafsOf_alike ha h.registers.toPackAlike hm
        obtain ⟨⟨sl, sl'⟩, sr, sr'⟩ := sonsOf_alike ha h.registers.toPackAlike hm
        simp only [hl, hl', sl, sl', sr, sr']
        split
        · exact bfsLoop_alike room _ _ hu
        · next h1 =>
          obtain ⟨hleft, hright⟩ := (ha.sons m hm).resolve_left h1
          refine bfsLoop_alike room _ _ (hu.withRegisters ⟨rfl, rfl, rfl⟩ ⟨rfl, rfl, rfl⟩
            { hu.registers with queue := by rw [hu.registers.queue], inUse := fun k hk => ?_ })
          simp only [List.mem_append, List.mem_cons, List.not_mem_nil, or_false] at hk
          rcases hk with hk | rfl | rfl
          · exact hu.registers.inUse k hk
          · exact hleft
          · exact hright
    · exact .ok h

theorem packBfs_alike {n : Nat} (hn : n < v.nnode) (p q : Nat) {w w' : Work} (h : SlotsAlike (PackAlike v v') w w') :
    Agree (SlotsAlike (PackAlike v v')) (packBfs n p q w) (packBfs n p q w') := by
  have hstart : SlotsAlike (BfsAlike v v') { w with packQueue := [n], packS := 0 } { w' with packQueue := [n], packS := 0 } :=
    h.withRegisters ⟨rfl, rfl, rfl⟩ ⟨rfl, rfl, rfl⟩
      { h.registers with queue := rfl, dequeued := rfl, inUse := fun m hm => by rwa [List.mem_singleton.mp hm] }
  exact (bfsLoop_alike ha queueCap p q hstart).imp fun _ _ _ _ hu => hu.mono BfsAlike.toPackAlike

omit ha in
/-- The frames are pushed, marked and dropped alike. -/
theorem withStack_alike {w w' : Work} (h : SlotsAlike (PackAlike v v') w w') (f : List Frame → List Frame) :
    SlotsAlike (PackAlike v v') { w with packStack := f w.packStack } { w' with packStack := f w'.packStack } :=
  h.withRegisters ⟨rfl, rfl, rfl⟩ ⟨rfl, rfl, rfl⟩ { h.registers with stack := congrArg f h.registers.stack }

omit ha in
theorem setStage_alike {w w' : Work} (h : SlotsAlike (PackAlike v v') w w') (stage first : Nat) :
    SlotsAlike (PackAlike v v') (w.setStage stage first) (w'.setStage stage first) :=
  h.withRegisters ⟨rfl, rfl, rfl⟩ ⟨rfl, rfl, rfl⟩ { h.registers with stack := by simp only [Work.setStage, h.registers.stack] }

omit ha in
theorem popFrame_alike {w w' : Work} (h : SlotsAlike (PackAlike v v') w w') : SlotsAlike (PackAlike v v') w.popFrame w'.popFrame :=
  withStack_alike h List.tail

/-- PACK_SPLIT once its slot is written: child `a` packed at `pa`, then child `b` at `pb`, and the offset of `b` (43_enc_ctree R153). -/
def packChildren (P : Params) (room a pa b pb q : Nat) (w : Work) : Except Raise Work := do
  let w ← pack P room a pa (q + 2) (w.setStage 1 0)
  let w := w.setStage 2 (w.leafsOf a)
  let w ← pack P room b pb (q + 2 * w.firstCount) w
  let w ← treeWrite w pb ((w.firstCount : Int) - 1)
  .ok w.popFrame

omit ha in
theorem pack_succ (P : Params) (room n p q : Nat) (w : Work) : pack P (room + 1) n p q w =
    (let w := w.pushFrame n p q
    if w.leafsOf n ≤ hufNext + 1 then do
      let w ← packBfs n p q w
      .ok w.popFrame
    else do
      let u ← treeWrite w p 0
      let u ← maskWrite u p (w.leafFlags n)
      if u.leafsOf (w.leftOf n) ≤ u.leafsOf (w.rightOf n) then packChildren P room (w.leftOf n) q (w.rightOf n) (q + 1) q u
      else packChildren P room (w.rightOf n) (q + 1) (w.leftOf n) q q u) := rfl

theorem pack_alike (P : Params) : ∀ (room : Nat) {n : Nat} (p q : Nat) {w w' : Work}, n < v.nnode → SlotsAlike (PackAlike v v') w w' →
    Agree (SlotsAlike (PackAlike v v')) (pack P room n p q w) (pack P room n p q w')
  | 0, n, p, q, w, w', _, h => by
    unfold pack
    rw [h.registers.stack]
    exact .error _
  | room + 1, n, p, q, w, w', hn, h => by
    have children {a b : Nat} (pa pb q : Nat) (hva : a < v.nnode) (hvb : b < v.nnode) {u u' : Work} (hu : SlotsAlike (PackAlike v v') u u') :
        Agree (SlotsAlike (PackAlike v v')) (packChildren P room a pa b pb q u) (packChildren P room a pa b pb q u') := by
      refine .bind (pack_alike P room _ _ hva (setStage_alike hu 1 0)) fun x x' hx => ?_
      obtain ⟨hl, hl'⟩ := leafsOf_alike ha hx.registers hva
      rw [hl, hl']
      have hx2 := setStage_alike hx 2 (v.leafsOf a)
      have hfirst : (x'.setStage 2 (v.leafsOf a)).firstCount = (x.setStage 2 (v.leafsOf a)).firstCount := by
        simp only [Work.firstCount, hx2.registers.stack]
      simp only [hfirst]
      refine .bind (pack_alike P room _ _ hvb hx2) fun y y' hy => ?_
      have hfirst' : y'.firstCount = y.firstCount := by simp only [Work.firstCount, hy.registers.stack]
      rw [hfirst']
      exact .bind (hy.treeWrite (PackAlike.blind v v') _ _) fun z z' hz => .ok (popFrame_alike hz)
    rw [pack_succ, pack_succ]
    have hpush : SlotsAlike (PackAlike v v') (w.pushFrame n p q) (w'.pushFrame n p q) := withStack_alike h _
    generalize w.pushFrame n p q = u at hpush
    generalize w'.pushFrame n p q = u' at hpush
    obtain ⟨hl, hl'⟩ := leafsOf_alike ha hpush.registers hn
    obtain ⟨⟨sl, sl'⟩, sr, sr'⟩ := sonsOf_alike ha hpush.registers hn
    simp only [hl, hl', sl, sl', sr, sr']
    split
    · exact .bind (packBfs_alike ha hn p q hpush) fun x x' hx => .ok (popFrame_alike hx)
    · next hbig =>
      have h1 : v.leafsOf n ≠ 1 := fun h1 => hbig (by rw [h1]; decide)
      obtain ⟨hf, hf'⟩ := leafFlags_alike ha hpush.registers hn h1
      obtain ⟨hleft, hright⟩ := (ha.sons n hn).resolve_left h1
      rw [hf, hf']
      refine .bind (hpush.treeWrite (PackAlike.blind v v') _ _) fun x x' hx => ?_
      refine .bind (hx.maskWrite (PackAlike.blind v v') _ _) fun y y' hy => ?_
      obtain ⟨ll, ll'⟩ := leafsOf_alike ha hy.registers hleft
      obtain ⟨lr, lr'⟩ := leafsOf_alike ha hy.registers hright
      rw [ll, ll', lr, lr']
      split
      · exact children _ _ q hleft hright hy
      · exact children _ _ q hright hleft hy

end Pack

/-- What the serializer's phases leave alone, they leave alike. -/
theorem SerializerAlike.of_treeStep {w w' u u' : Work} (h : SerializerAlike w w') (hw : TreeStep w u) (hw' : TreeStep w' u')
    (hs : SlotsAlike (fun _ _ => True) u u') : SerializerAlike u u' := by
  have keep {w u : Work} (h : TreeStep w u) : u.node = w.node ∧ u.nnode = w.nnode ∧ u.nleaf = w.nleaf ∧ u.code = w.code := by
    rw [h.same]; exact ⟨rfl, rfl, rfl, rfl⟩
  obtain ⟨hn, hnn, hl, hc⟩ := keep hw
  obtain ⟨hn', hnn', hl', hc'⟩ := keep hw'
  obtain ⟨ha, hcode, hroot, -⟩ := h
  refine ⟨⟨?_, ?_, ?_, ?_, ?_⟩, hcode.of_code_eq hc hc', ?_, hs⟩
  · rw [hl, hl', ha.nleaf]
  · rw [hnn, hnn', ha.nnode]
  · simpa only [Work.nodeAt, hn, hn', hnn] using ha.node
  · simpa only [Work.leafsOf, Work.leftOf, Work.rightOf, Work.nodeAt, hn, hnn] using ha.sons
  · simpa only [Work.nodeAt, hn, hnn] using ha.dad
  · simpa only [Work.Rooted, hl, hnn] using hroot

theorem packTree_alike (P : Params) {w w' : Work} (h : PhaseAlike Phase.encPack w w') :
    Agree (PhaseAlike Phase.encUpdate) (packTree P w) (packTree P w') := by
  have hs : SerializerAlike w w' := h
  have hstart : SlotsAlike (PackAlike w w') { w with packStack := [] } { w' with packStack := [] } :=
    hs.slots.withRegisters ⟨rfl, rfl, rfl⟩ ⟨rfl, rfl, rfl⟩ ⟨rfl, rfl, rfl⟩
  have hroot : 2 * w.nleaf - 2 < w.nnode := by obtain ⟨h1, h2⟩ := hs.rooted; omega
  have key : Agree (SlotsAlike (PackAlike w w')) (packTree P w) (packTree P w') := by
    unfold packTree
    rw [show 2 * w'.nleaf - 2 = 2 * w.nleaf - 2 by rw [hs.arena.nleaf]]
    exact pack_alike hs.arena P _ _ _ hroot hstart
  exact key.imp fun u u' hu hu' hr => hs.of_treeStep (packTree_step hu) (packTree_step hu') (hr.mono fun _ => trivial)

end Sys2Proof.Machine

/-! PROOFS. ENC.UPDATE and ENC.FINAL of two flat trees that agree up to `CT_LEN` (43_enc_ctree R156 to R160). Each step of a relocation is given the
registers that the steps before it have set. -/

namespace Sys2Proof.Machine

/-! ## ENC.UPDATE -/

/-- The scan's registers, `I` and `MOVES`. -/
structure ScanAlike (w w' : Work) : Prop where
  upI : w'.upI = w.upI
  moves : w'.moves = w.moves

/-- And the window, from steps (a) and (b) on. -/
structure WindowAlike (w w' : Work) : Prop extends ScanAlike w w' where
  upInc : w'.upInc = w.upInc
  upN0 : w'.upN0 = w.upN0
  upN1 : w'.upN1 = w.upN1
  upL0 : w'.upL0 = w.upL0
  upL1 : w'.upL1 = w.upL1

/-- And the pair saved at the start of step (c). -/
structure SavedAlike (w w' : Work) : Prop extends WindowAlike w w' where
  upT0 : w'.upT0 = w.upT0
  upT1 : w'.upT1 = w.upT1
  upM0 : w'.upM0 = w.upM0
  upM1 : w'.upM1 = w.upM1

theorem WindowAlike.blind : TreeBlind WindowAlike := fun _ _ _ _ _ _ h => { h with }

theorem SavedAlike.blind : TreeBlind SavedAlike := fun _ _ _ _ _ _ h => { h with }

theorem SlotsAlike.fullSibling {R : Work → Work → Prop} {w w' : Work} (h : SlotsAlike R w w') (j : Int) :
    fullSibling w' j = Machine.fullSibling w j := by
  unfold Machine.fullSibling
  rw [h.treeRead, h.maskRead]

/-- Steps (a) and (b) set the acting slot and the window. -/
theorem chooseWindow_alike {w w' : Work} (h : SlotsAlike ScanAlike w w') :
    Agree (SlotsAlike WindowAlike) (chooseSlot w >>= windowOf) (chooseSlot w' >>= windowOf) := by
  have window {u u' : Work} (hu : SlotsAlike (fun u u' => ScanAlike u u' ∧ u'.upInc = u.upInc) u u') :
      Agree (SlotsAlike WindowAlike) (windowOf u) (windowOf u') := by
    obtain ⟨hs, hinc⟩ := hu.registers
    unfold windowOf
    rw [hu.treeRead, hs.upI]
    refine .bind_same fun t => .ok (hu.withRegisters ⟨rfl, rfl, rfl⟩ ⟨rfl, rfl, rfl⟩ ⟨⟨rfl, hs.moves⟩, hinc, ?_, rfl, ?_, rfl⟩)
    · simp only [hinc]
    · simp only [hinc]
  have chosen (i inc : Nat) : SlotsAlike (fun u u' => ScanAlike u u' ∧ u'.upInc = u.upInc) { w with upI := i, upInc := inc }
      { w' with upI := i, upInc := inc } :=
    h.withRegisters ⟨rfl, rfl, rfl⟩ ⟨rfl, rfl, rfl⟩ ⟨⟨rfl, h.registers.moves⟩, rfl⟩
  refine .bind ?_ fun u u' hu => window hu
  unfold chooseSlot
  rw [h.registers.upI]
  simp only [h.fullSibling, h.treeRead]
  split
  · refine .bind_same fun full => ?_
    split
    · exact .ok (chosen _ _)
    · exact .bind_same fun t => .ok (chosen _ _)
  · refine .bind_same fun full => ?_
    split
    · exact .ok (chosen _ _)
    · exact .bind_same fun t => .ok (chosen _ _)

theorem shiftPair_alike {R : Work → Work → Prop} (hR : TreeBlind R) {w w' : Work} (h : SlotsAlike R w w') (j : Int) :
    Agree (SlotsAlike R) (shiftPair w j) (shiftPair w' j) := by
  unfold shiftPair
  rw [h.treeRead]
  refine .bind_same fun a => .bind (h.treeWrite hR _ _) fun w w' h => ?_
  rw [h.treeRead]
  refine .bind_same fun b => .bind (h.treeWrite hR _ _) fun w w' h => ?_
  rw [h.maskRead]
  refine .bind_same fun c => .bind (h.maskWrite hR _ _) fun w w' h => ?_
  rw [h.maskRead]
  exact .bind_same fun d => h.maskWrite hR _ _

theorem shiftPairs_alike {R : Work → Work → Prop} (hR : TreeBlind R) : ∀ (n : Nat) (j : Int) {w w' : Work}, SlotsAlike R w w' →
    Agree (SlotsAlike R) (shiftPairs n j w) (shiftPairs n j w')
  | 0, _, _, _, h => .ok h
  | n + 1, j, _, _, h => .bind (shiftPair_alike hR h j) fun _ _ h => shiftPairs_alike hR n (j - 2) h

theorem rotateWindow_alike {w w' : Work} (h : SlotsAlike WindowAlike w w') :
    Agree (SlotsAlike WindowAlike) (rotateWindow w) (rotateWindow w') := by
  have hR := SavedAlike.blind
  unfold rotateWindow
  rw [h.treeRead, h.treeRead, h.maskRead, h.maskRead, h.registers.upL1]
  refine .bind_same fun t0 => .bind_same fun t1 => .bind_same fun m0 => .bind_same fun m1 => ?_
  rw [h.registers.upL0]
  have hsaved : SlotsAlike SavedAlike { w with upT0 := t0, upT1 := t1, upM0 := m0, upM1 := m1 }
      { w' with upL0 := w.upL0, upL1 := w.upL1, upT0 := t0, upT1 := t1, upM0 := m0, upM1 := m1 } :=
    h.withRegisters ⟨rfl, rfl, rfl⟩ ⟨rfl, rfl, rfl⟩ { h.registers with upL0 := rfl, upL1 := rfl, upT0 := rfl, upT1 := rfl, upM0 := rfl, upM1 := rfl }
  refine .bind (shiftPairs_alike hR _ _ hsaved) fun w w' h => ?_
  rw [h.registers.upL0, h.registers.upT0]
  refine .bind (h.treeWrite hR _ _) fun w w' h => ?_
  rw [h.registers.upL0, h.registers.upT1]
  refine .bind (h.treeWrite hR _ _) fun w w' h => ?_
  rw [h.registers.upL0, h.registers.upM0]
  refine .bind (h.maskWrite hR _ _) fun w w' h => ?_
  rw [h.registers.upL0, h.registers.upM1]
  exact (h.maskWrite hR _ _).imp fun _ _ _ _ h => h.mono SavedAlike.toWindowAlike

theorem pullActing_alike {w w' : Work} (h : SlotsAlike WindowAlike w w') : Agree (SlotsAlike WindowAlike) (pullActing w) (pullActing w') := by
  unfold pullActing
  rw [h.treeRead, h.registers.upI, h.registers.upInc]
  exact .bind_same fun t => h.treeWrite WindowAlike.blind _ _

theorem raiseTargets_alike : ∀ (n j : Nat) {w w' : Work}, SlotsAlike WindowAlike w w' →
    Agree (SlotsAlike WindowAlike) (raiseTargets n j w) (raiseTargets n j w')
  | 0, _, _, _, h => .ok h
  | n + 1, j, w, w', h => by
    unfold raiseTargets
    rw [h.maskRead, h.treeRead, h.registers.upN0, h.registers.upN1]
    refine .bind_same fun m => ?_
    split
    · exact raiseTargets_alike n (j + 1) h
    · refine .bind_same fun t => ?_
      split
      · exact .bind (h.treeWrite WindowAlike.blind _ _) fun _ _ h => raiseTargets_alike n (j + 1) h
      · exact raiseTargets_alike n (j + 1) h

theorem lengthenMoved_alike {w w' : Work} (h : SlotsAlike WindowAlike w w') (j : Nat) :
    Agree (SlotsAlike WindowAlike) (lengthenMoved w j) (lengthenMoved w' j) := by
  unfold lengthenMoved
  rw [h.maskRead, h.treeRead, h.registers.upInc]
  refine .bind_same fun m => ?_
  split
  · exact .ok h
  · exact .bind_same fun t => h.treeWrite WindowAlike.blind _ _

theorem lowerTargets_alike : ∀ (n j : Nat) {w w' : Work}, SlotsAlike WindowAlike w w' →
    Agree (SlotsAlike WindowAlike) (lowerTargets n j w) (lowerTargets n j w')
  | 0, _, _, _, h => .ok h
  | n + 1, j, w, w', h => by
    unfold lowerTargets
    rw [h.maskRead, h.treeRead, h.registers.upN1]
    refine .bind_same fun m => ?_
    split
    · exact lowerTargets_alike n (j + 1) h
    · refine .bind_same fun t => ?_
      split
      · exact .bind (h.treeWrite WindowAlike.blind _ _) fun _ _ h => lowerTargets_alike n (j + 1) h
      · exact lowerTargets_alike n (j + 1) h

theorem countMove_alike (P : Params) {w w' : Work} (h : SlotsAlike WindowAlike w w') :
    Agree (SlotsAlike ScanAlike) (countMove P w) (countMove P w') := by
  unfold countMove
  rw [h.registers.moves, h.registers.upI]
  split
  · rw [h.ctLen]
    exact .error _
  · exact .ok (h.withRegisters ⟨rfl, rfl, rfl⟩ ⟨rfl, rfl, rfl⟩ ⟨rfl, rfl⟩)

theorem relocate_alike (P : Params) {w w' : Work} (h : SlotsAlike ScanAlike w w') :
    Agree (SlotsAlike ScanAlike) (relocate P w) (relocate P w') := by
  have window (w : Work) : relocate P w = (chooseSlot w >>= windowOf) >>= (fun w => do
      let w ← rotateWindow w
      let w ← pullActing w
      let w ← raiseTargets (w.upL0 - (w.upI + 1)) (w.upI + 1) w
      let w ← lengthenMoved w w.upL0
      let w ← lengthenMoved w (w.upL0 + 1)
      let w ← lowerTargets (w.upL1 - w.upL0) (w.upL0 + 2) w
      countMove P w) := by
    unfold relocate
    cases chooseSlot w <;> rfl
  rw [window, window]
  refine .bind (chooseWindow_alike h) fun w w' h => .bind (rotateWindow_alike h) fun w w' h => .bind (pullActing_alike h) fun w w' h => ?_
  rw [h.registers.upL0, h.registers.upI]
  refine .bind (raiseTargets_alike _ _ h) fun w w' h => ?_
  rw [h.registers.upL0]
  refine .bind (lengthenMoved_alike h _) fun w w' h => ?_
  rw [h.registers.upL0]
  refine .bind (lengthenMoved_alike h _) fun w w' h => ?_
  rw [h.registers.upL0, h.registers.upL1]
  exact .bind (lowerTargets_alike _ _ h) fun w w' h => countMove_alike P h

theorem scanFrom_alike : ∀ (n : Nat) {w w' : Work}, n ≤ w.ctLen - w.upI → SlotsAlike ScanAlike w w' →
    SlotsAlike ScanAlike (scanFrom n w) (scanFrom n w')
  | 0, _, _, _, h => h
  | n + 1, w, w', hn, h => by
    have hover : w'.overflows w'.upI = w.overflows w.upI := by
      unfold Work.overflows
      rw [h.registers.upI, h.slot _ (by omega), h.mask _ (by omega)]
    unfold scanFrom
    rw [hover]
    split
    · exact h
    · exact scanFrom_alike n (show n ≤ w.ctLen - (w.upI + 1) by omega)
        (h.withRegisters ⟨rfl, rfl, rfl⟩ ⟨rfl, rfl, rfl⟩ ⟨congrArg (· + 1) h.registers.upI, h.registers.moves⟩)

theorem updateLoop_alike (P : Params) : ∀ (fuel : Nat) {w w' : Work}, SlotsAlike ScanAlike w w' →
    Agree (SlotsAlike ScanAlike) (updateLoop P fuel w) (updateLoop P fuel w')
  | fuel, w, w', h => by
    have hscan := scanFrom_alike (w.ctLen - w.upI) le_rfl h
    unfold updateLoop
    rw [h.ctLen, h.registers.upI]
    generalize scanFrom (w.ctLen - w.upI) w = u at hscan
    generalize scanFrom (w.ctLen - w.upI) w' = u' at hscan
    simp only [hscan.ctLen, hscan.registers.upI]
    split
    · cases fuel with
      | zero => exact .error _
      | succ fuel => exact .bind (relocate_alike P hscan) fun _ _ h => updateLoop_alike P fuel h
    · exact .ok hscan

theorem updateTree_alike (P : Params) {w w' : Work} (h : SerializerAlike w w') :
    Agree SerializerAlike (updateTree P w) (updateTree P w') := by
  have hstart : SlotsAlike ScanAlike { w with moves := 0, upI := 1 } { w' with moves := 0, upI := 1 } :=
    h.slots.withRegisters ⟨rfl, rfl, rfl⟩ ⟨rfl, rfl, rfl⟩ ⟨rfl, rfl⟩
  exact (updateLoop_alike P _ hstart).imp fun u u' hu hu' hr =>
    h.of_treeStep (updateTree_step hu) (updateTree_step hu') (hr.mono fun _ => trivial)

/-! ## ENC.FINAL -/

theorem finalSlot_alike {R : Work → Work → Prop} (hR : TreeBlind R) {w w' : Work} (h : SlotsAlike R w w') (i : Nat) :
    Agree (SlotsAlike R) (finalSlot w i) (finalSlot w' i) := by
  unfold finalSlot
  rw [h.maskRead, h.treeRead, h.ctLen]
  refine .bind_same fun m => ?_
  split
  · exact .ok h
  · refine .bind_same fun v => ?_
    split
    · exact .error _
    · exact h.treeWrite hR _ _

theorem finalFrom_alike {R : Work → Work → Prop} (hR : TreeBlind R) : ∀ (n i : Nat) {w w' : Work}, SlotsAlike R w w' →
    Agree (SlotsAlike R) (finalFrom n i w) (finalFrom n i w')
  | 0, _, _, _, h => .ok h
  | n + 1, i, _, _, h => .bind (finalSlot_alike hR h i) fun _ _ h => finalFrom_alike hR n (i + 1) h

theorem finalTree_alike {w w' : Work} (h : SerializerAlike w w') : Agree SerializerAlike (finalTree w) (finalTree w') := by
  have hslots : Agree (SlotsAlike fun _ _ => True) (finalTree w) (finalTree w') := by
    unfold finalTree
    rw [h.slots.ctLen]
    exact finalFrom_alike (fun _ _ _ _ _ _ _ => trivial) _ _ h.slots
  exact hslots.imp fun u u' hu hu' hr => h.of_treeStep (finalTree_step hu) (finalTree_step hu') hr

end Sys2Proof.Machine

/-! PROOFS. The codewords, the stream and the decoder of two runs that agree (44_enc_codes_emit R180 to R185, 45_dec R201 to R208), and the steps of a whole
command (10_state R38). -/

namespace Sys2Proof.Machine

/-! ## ENC.DERIVE -/

theorem pathFrom_congr {w w' : Work} (h : ArenaAlike w w') : ∀ (n : Nat) {i : Nat}, i < w.nnode → w'.pathFrom n i = w.pathFrom n i
  | 0, _, _ => rfl
  | n + 1, i, hi => by
    unfold Work.pathFrom
    rw [h.node i hi]
    cases hd : (w.nodeAt i).dad with
    | none => rfl
    | some d =>
      have hlt := h.dad i hi d hd
      simp only [h.node d hlt, pathFrom_congr h n hlt]

/-- An entry that is written is the same on both sides. -/
theorem CodeAlike.set {w w' : Work} (h : CodeAlike w w') (k : Nat) (c : Code) :
    CodeAlike { w with code := Table.set Code.null w.code k c } { w' with code := Table.set Code.null w'.code k c } := by
  intro b
  simp only [Work.codeAt, Table.get_set]
  split
  · exact .inl rfl
  · exact h b

theorem deriveLeaf_alike {w w' : Work} (h : SerializerAlike w w') {i : Nat} (hi : i < w.nnode) :
    Agree (fun u u' => SerializerAlike u u' ∧ u.nnode = w.nnode) (deriveLeaf w i) (deriveLeaf w' i) := by
  have hpath : w'.path i = w.path i := pathFrom_congr h.arena maxNodes hi
  unfold deriveLeaf
  simp only [hpath, h.arena.node i hi]
  split
  · exact .error _
  · exact .ok ⟨⟨{ h.arena with }, h.code.set _ _, h.rooted, { h.slots with }⟩, rfl⟩

theorem deriveFrom_alike : ∀ (n i : Nat) {w w' : Work}, i + n ≤ w.nnode → SerializerAlike w w' →
    Agree SerializerAlike (deriveFrom n i w) (deriveFrom n i w')
  | 0, _, _, _, _, h => .ok h
  | n + 1, i, w, w', hn, h => by
    unfold deriveFrom
    rcases deriveLeaf_alike h (show i < w.nnode by omega) with ⟨e, hx, hy⟩ | ⟨u, u', hx, hy, hu, hnn⟩
    · rw [hx, hy]; exact .error e
    · rw [hx, hy]; exact deriveFrom_alike n (i + 1) (by omega) hu

theorem deriveCodes_alike {w w' : Work} (h : SerializerAlike w w') : Agree (PhaseAlike Phase.encHdr) (deriveCodes w) (deriveCodes w') := by
  have hle : 0 + w.nleaf ≤ w.nnode := by obtain ⟨h1, h2⟩ := h.rooted; omega
  unfold deriveCodes
  rw [h.arena.nleaf]
  exact (deriveFrom_alike _ 0 hle h).imp fun _ _ _ _ hu => ⟨hu.code, hu.slots⟩

/-! ## ENC.HDR, ENC.TREEOUT -/

/-- The same output, and internal states that `R` relates. -/
abbrev OutAlike (R : Work → Work → Prop) (x y : Work × Table Byte) : Prop := R x.1 y.1 ∧ y.2 = x.2

theorem append_alike {P : Params} {R : Work → Work → Prop} {n : Nat} {v : Word} {w w' : Work} (o : Table Byte) (h : w'.opos = w.opos)
    (hR : R { w with opos := w.opos + n } { w' with opos := w'.opos + n }) : Agree (OutAlike R) (append P n v (w, o)) (append P n v (w', o)) := by
  unfold append
  simp only [h]
  split
  · exact .error _
  · exact .ok ⟨h ▸ hR, rfl⟩

theorem emitHeader_alike {P : Params} {inLen : Word} {w w' : Work} (o : Table Byte) (h : PhaseAlike Phase.encHdr w w') :
    Agree (OutAlike (PhaseAlike Phase.encTreeout)) (emitHeader P inLen (w, o)) (emitHeader P inLen (w', o)) :=
  append_alike o rfl ⟨h.1, h.2.withRegisters ⟨rfl, rfl, rfl⟩ ⟨rfl, rfl, rfl⟩ rfl⟩

theorem emitSlots_alike {P : Params} : ∀ (n i : Nat) {w w' : Work} (o : Table Byte), PhaseAlike Phase.encTreeout w w' →
    Agree (OutAlike (PhaseAlike Phase.encTreeout)) (emitSlots P n i (w, o)) (emitSlots P n i (w', o))
  | 0, _, _, _, _, h => .ok ⟨h, rfl⟩
  | n + 1, i, w, w', o, h => by
    obtain ⟨hc, hs⟩ := h
    have happend (b : Byte) : Agree (OutAlike (PhaseAlike Phase.encTreeout)) (append P 1 (b.setWidth 32) (w, o)) (append P 1 (b.setWidth 32) (w', o)) :=
      append_alike o hs.registers ⟨hc, hs.withRegisters ⟨rfl, rfl, rfl⟩ ⟨rfl, rfl, rfl⟩ (congrArg (· + 1) hs.registers)⟩
    unfold emitSlots
    simp only [hs.treeRead]
    split
    · exact .error _
    · next b _ =>
      rcases happend b with ⟨e, hx, hy⟩ | ⟨⟨u, p⟩, ⟨u', p'⟩, hx, hy, hu, rfl⟩
      · rw [hx, hy]; exact .error e
      · rw [hx, hy]; exact emitSlots_alike n (i + 1) _ hu

/-! ## ENC.EMIT -/

/-- Between two input bytes; the place of the current word matters only once there is one. -/
structure EmitAlike (w w' : Work) : Prop where
  code : CodeAlike w w'
  opos : w'.opos = w.opos
  epos : w'.epos = w.epos
  emask4 : w'.emask4 = w.emask4
  wordpos : w.emask4 = 0 ∨ w'.wordpos = w.wordpos

/-- Inside a codeword. -/
structure BitsAlike (w w' : Work) : Prop extends EmitAlike w w' where
  cwmask : w'.cwmask = w.cwmask
  cwidx : w'.cwidx = w.cwidx

theorem nextPosition_alike {P : Params} {w w' : Work} (o : Table Byte) (h : BitsAlike w w') :
    Agree (OutAlike fun w w' => BitsAlike w w' ∧ w'.wordpos = w.wordpos) (nextPosition P (w, o)) (nextPosition P (w', o)) := by
  unfold nextPosition
  simp only [h.emask4]
  split
  · exact append_alike o h.opos ⟨{ h with
      opos := congrArg (· + 4) h.opos, emask4 := rfl, wordpos := .inr h.opos }, h.opos⟩
  · next hne =>
    have hword : w'.wordpos = w.wordpos := h.wordpos.resolve_left fun h0 => hne (by rw [h0]; rfl)
    exact .ok ⟨⟨{ h with emask4 := rfl, wordpos := .inr hword }, hword⟩, rfl⟩

theorem emitBit_alike {P : Params} (c : Code) {w w' : Work} (o : Table Byte) (h : BitsAlike w w') :
    Agree (OutAlike BitsAlike) (emitBit P c (w, o)) (emitBit P c (w', o)) := by
  unfold emitBit
  rcases nextPosition_alike (P := P) o h with ⟨e, hx, hy⟩ | ⟨⟨u, p⟩, ⟨u', p'⟩, hx, hy, ⟨hu, hword⟩, rfl⟩
  · rw [hx, hy]; exact .error e
  · rw [hx, hy]
    replace hu : BitsAlike u u' := hu
    have hset : setPosition (u', p') = setPosition (u, p') := by
      unfold setPosition
      simp only [show u'.wordpos = u.wordpos from hword, hu.emask4]
    have hnext : BitsAlike u.nextCodeBit u'.nextCodeBit := by
      unfold Work.nextCodeBit
      rw [hu.cwmask]
      split
      · exact { hu with cwmask := rfl, cwidx := congrArg (· + 1) hu.cwidx }
      · exact { hu with cwmask := rfl }
    refine .ok ⟨hnext, ?_⟩
    simp only [hu.cwidx, hu.cwmask, hset]

theorem emitBits_alike {P : Params} (c : Code) : ∀ (n : Nat) {w w' : Work} (o : Table Byte), BitsAlike w w' →
    Agree (OutAlike BitsAlike) (emitBits P c n (w, o)) (emitBits P c n (w', o))
  | 0, _, _, _, h => .ok ⟨h, rfl⟩
  | n + 1, w, w', o, h => by
    unfold emitBits
    rcases emitBit_alike (P := P) c o h with ⟨e, hx, hy⟩ | ⟨⟨u, p⟩, ⟨u', p'⟩, hx, hy, hu, rfl⟩
    · rw [hx, hy]; exact .error e
    · rw [hx, hy]; exact emitBits_alike c n _ hu

theorem emitByte_alike {P : Params} {m : Table Byte} {w w' : Work} (o : Table Byte) (h : EmitAlike w w') :
    Agree (OutAlike EmitAlike) (emitByte P m (w, o)) (emitByte P m (w', o)) := by
  unfold emitByte
  simp only [h.epos]
  rcases h.code (memRead1 m w.epos) with hc | ⟨hc, hc'⟩
  · rw [hc]
    split
    · have hbits : BitsAlike { w with cwmask := 0x80, cwidx := 0 } { w' with epos := w.epos, cwmask := 0x80, cwidx := 0 } :=
        { h with epos := rfl, cwmask := rfl, cwidx := rfl }
      rcases emitBits_alike (P := P) (w.codeAt (memRead1 m w.epos)) (w.codeAt (memRead1 m w.epos)).nbits o hbits with
        ⟨e, hx, hy⟩ | ⟨⟨u, p⟩, ⟨u', p'⟩, hx, hy, hu, rfl⟩
      · rw [hx, hy]; exact .error e
      · rw [hx, hy]; exact .ok ⟨{ hu with epos := congrArg (· + 1) hu.epos }, rfl⟩
    · exact .error _
  · simp only [hc, hc', Bool.false_eq_true, if_false]
    exact .error _

theorem emitBytes_alike {P : Params} {m : Table Byte} : ∀ (n : Nat) {w w' : Work} (o : Table Byte), EmitAlike w w' →
    Agree (OutAlike EmitAlike) (emitBytes P m n (w, o)) (emitBytes P m n (w', o))
  | 0, _, _, _, h => .ok ⟨h, rfl⟩
  | n + 1, w, w', o, h => by
    unfold emitBytes
    rcases emitByte_alike (P := P) (m := m) o h with ⟨e, hx, hy⟩ | ⟨⟨u, p⟩, ⟨u', p'⟩, hx, hy, hu, rfl⟩
    · rw [hx, hy]; exact .error e
    · rw [hx, hy]; exact emitBytes_alike n _ hu

theorem emitStream_alike {P : Params} {m : Table Byte} {n : Nat} {w w' : Work} (o : Table Byte) (h : PhaseAlike Phase.encEmit w w') :
    Agree (OutAlike (PhaseAlike Phase.encDone)) (emitStream P m n (w, o)) (emitStream P m n (w', o)) :=
  (emitBytes_alike n o (show EmitAlike { w with emask4 := 0, epos := 0 } { w' with emask4 := 0, epos := 0 } from
    ⟨h.1, h.2, rfl, rfl, .inl rfl⟩)).imp fun _ _ _ _ hu => ⟨hu.1.opos, hu.2⟩

/-! ## The end of a phase -/

/-- The two blocks answer next states that differ in the internal state alone, and in that not where the next phase looks. -/
def AnswersAlike (x y : Answer) : Prop :=
  ∃ (s : State) (w : Work), x = .next s ∧ y = .next { s with work := w } ∧ s.turns = [] ∧ (s.mode = .busy → PhaseAlike s.phase s.work w)

/-- Once no command runs, nothing is asked of the internal state. -/
theorem AnswersAlike.of_not_busy {s : State} (w : Work) (ht : s.turns = []) (hb : s.mode ≠ .busy) :
    AnswersAlike (.next s) (.next { s with work := w }) := ⟨s, w, rfl, rfl, ht, fun h => absurd h hb⟩

theorem settle_alike {s : State} {w : Work} {next : State → Phase} {r r' : Except Raise State} (ht : s.turns = [])
    (h : Agree (fun u v => ∃ w, v = { u with work := w } ∧ u.turns = [] ∧ next v = next u ∧ PhaseAlike (next u) u.work w) r r') :
    AnswersAlike (s.settle next r) ({ s with work := w }.settle next r') := by
  rcases h with ⟨e, rfl, rfl⟩ | ⟨u, v, rfl, rfl, w', rfl, hu, hnext, hw⟩
  · exact .of_not_busy (s.takeFault e).work ht nofun
  · refine ⟨{ u with phase := next u }, w', rfl, ?_, hu, fun _ => hw⟩
    rw [State.settle_ok, hnext]

theorem settle_onOut_alike {s : State} {w : Work} {next : Phase} {r r' : Except Raise (Work × Table Byte)} (ht : s.turns = [])
    (h : Agree (OutAlike (PhaseAlike next)) r r') :
    AnswersAlike (s.settle (fun _ => next) (s.onOut r)) ({ s with work := w }.settle (fun _ => next) ({ s with work := w }.onOut r')) := by
  refine settle_alike ht ?_
  rcases h with ⟨e, rfl, rfl⟩ | ⟨x, y, rfl, rfl, hw, ho⟩
  · exact .error e
  · exact .ok ⟨y.1, by rw [ho], ht, rfl, hw⟩

theorem settle_onWork_alike {s : State} {w : Work} {next : Phase} {r r' : Except Raise Work} (ht : s.turns = [])
    (h : Agree (PhaseAlike next) r r') :
    AnswersAlike (s.settle (fun _ => next) (s.onWork r)) ({ s with work := w }.settle (fun _ => next) ({ s with work := w }.onWork r')) := by
  refine settle_alike ht ?_
  rcases h with ⟨e, rfl, rfl⟩ | ⟨u, u', rfl, rfl, hw⟩
  · exact .error e
  · exact .ok ⟨u', rfl, ht, rfl, hw⟩

/-! ## The phases of DECODE -/

theorem decodeNext_alike {u : State} {w : Work} (h : WalkAlike u.work w) :
    ({ u with work := w } : State).decodeNext = u.decodeNext ∧ PhaseAlike u.decodeNext u.work w := by
  unfold State.decodeNext
  refine ⟨by rw [h.dlen], ?_⟩
  split
  · exact h
  · exact h.dlen

theorem execDecHdr_alike {s : State} (w : Work) (ht : s.turns = []) :
    AnswersAlike (execDecHdr s) (execDecHdr { s with work := w }) := by
  refine settle_alike ht ?_
  unfold readHeader takeHeader
  simp only
  split
  · exact .error _
  · split
    · exact .error _
    · split
      · exact .error _
      · exact .ok ⟨_, rfl, ht, trivial, ⟨rfl, rfl, rfl, rfl, rfl⟩⟩

theorem execDecTree_alike {s : State} {w : Work} (ht : s.turns = []) (h : HeaderAlike s.work w) :
    AnswersAlike (execDecTree s) (execDecTree { s with work := w }) := by
  refine settle_alike ht ?_
  unfold readTree takeSize
  simp only
  split
  · exact .error _
  · split
    · exact .error _
    · have hcopy : ∀ i < treeLen (memRead1 s.inBuf 4).toNat,
          Table.get (0 : Byte) (copyTree s.inBuf (treeLen (memRead1 s.inBuf 4).toNat) 0 w.ctree) i =
            Table.get 0 (copyTree s.inBuf (treeLen (memRead1 s.inBuf 4).toNat) 0 s.work.ctree) i := by
        intro i hi
        rw [get_copyTree, get_copyTree, if_pos (by omega), if_pos (by omega)]
      have hwalk := decodeNext_alike (u := { s with work := Work.toRoot { s.work with
          ctLen := treeLen (memRead1 s.inBuf 4).toNat
          ctree := copyTree s.inBuf (treeLen (memRead1 s.inBuf 4).toNat) 0 s.work.ctree
          rpos := 4 + treeLen (memRead1 s.inBuf 4).toNat } })
        (w := Work.toRoot { w with
          ctLen := treeLen (memRead1 s.inBuf 4).toNat
          ctree := copyTree s.inBuf (treeLen (memRead1 s.inBuf 4).toNat) 0 w.ctree
          rpos := 4 + treeLen (memRead1 s.inBuf 4).toNat })
        { h with
          ctLen := rfl, slot := hcopy, rpos := rfl, pos := hcopy 1 (by unfold treeLen; omega), next := rfl }
      exact .ok ⟨_, rfl, ht, hwalk.1, hwalk.2⟩

theorem fetched_alike {s : State} {w : Work} (h : WalkAlike s.work w) :
    ∃ w', ({ s with work := w } : State).fetched = { s.fetched with work := w' } ∧ WalkAlike s.fetched.work w' := by
  unfold State.fetched
  rw [h.dmask4]
  split
  · exact ⟨_, rfl, { h with codew := by rw [h.rpos], rpos := congrArg (· + 4) h.rpos, dmask4 := rfl }⟩
  · exact ⟨_, rfl, { h with dmask4 := rfl }⟩

theorem arriveNode_alike {s : State} {w : Work} (h : WalkAlike s.work w) (b : Byte) :
    ∃ w', arriveNode { s with work := w } b = { arriveNode s b with work := w' } ∧ WalkAlike (arriveNode s b).work w' :=
  ⟨_, rfl, { h with pos := rfl }⟩

/-- OUTPUT writes the same byte and returns both walks to the root, which is a slot of the tree (45_dec R206). -/
theorem arriveLeaf_alike {s : State} {w : Work} (h : WalkAlike s.work w) (h1 : 1 < s.work.ctLen) (b : Byte) :
    ∃ w', arriveLeaf { s with work := w } b = { arriveLeaf s b with work := w' } ∧ WalkAlike (arriveLeaf s b).work w' := by
  refine ⟨(arriveLeaf { s with work := w } b).work, ?_, { h with acc := ?_, pos := h.slot 1 h1, next := rfl }⟩
  · simp only [arriveLeaf, outputSymbol, h.acc, h.numBits]
  · show (w.acc + w.numBits) % 8 = (s.work.acc + s.work.numBits) % 8
    rw [h.acc, h.numBits]

theorem branchOn_alike {s : State} {w : Work} (ht : s.turns = []) (h : WalkAlike s.work w) (bit : Bool) :
    Agree (fun u v => ∃ w, v = { u with work := w } ∧ u.turns = [] ∧ v.decodeNext = u.decodeNext ∧ PhaseAlike u.decodeNext u.work w)
      (branchOn s bit) (branchOn { s with work := w } bit) := by
  have hidx : w.branchSlot bit = s.work.branchSlot bit := by simp only [Work.branchSlot, h.next, h.pos]
  unfold branchOn
  simp only
  have hcond : w.ctLen ≤ w.branchSlot bit ↔ s.work.ctLen ≤ s.work.branchSlot bit := by rw [h.ctLen, hidx]
  by_cases hout : s.work.ctLen ≤ s.work.branchSlot bit
  · rw [if_pos hout, if_pos (hcond.mpr hout), h.ctLen, hidx]
    exact .error _
  · have hin : s.work.branchSlot bit < s.work.ctLen := Nat.lt_of_not_le hout
    have h1 : 1 < s.work.ctLen := by unfold Work.branchSlot pairDistance at hin; omega
    have hslot : w.slot (w.branchSlot bit) = s.work.slot (s.work.branchSlot bit) := by rw [hidx, h.slot _ hin]
    have hleaf : childIsLeaf w.pos bit = childIsLeaf s.work.pos bit := by rw [h.pos]
    have hmoved : WalkAlike { s.work with next := s.work.next + pairDistance (offsetOf s.work.pos) }
        { w with next := w.next + pairDistance (offsetOf w.pos) } := { h with next := by simp only [h.next, h.pos] }
    rw [if_neg hout, if_neg (hcond.not.mpr hout), hslot, hleaf]
    have arrived {u v : State} (ha : ∃ w', v = { u with work := w' } ∧ WalkAlike u.work w') (hu : u.turns = []) :
        ∃ w', v = { u with work := w' } ∧ u.turns = [] ∧ v.decodeNext = u.decodeNext ∧ PhaseAlike u.decodeNext u.work w' := by
      obtain ⟨w', rfl, hw⟩ := ha
      exact ⟨w', rfl, hu, decodeNext_alike hw⟩
    split
    · exact .ok (arrived (arriveLeaf_alike (s := { s with work := { s.work with
        next := s.work.next + pairDistance (offsetOf s.work.pos) } }) hmoved h1 _) ht)
    · exact .ok (arrived (arriveNode_alike (s := { s with work := { s.work with
        next := s.work.next + pairDistance (offsetOf s.work.pos) } }) hmoved _) ht)

theorem execDecStep_alike {s : State} {w : Work} (ht : s.turns = []) (h : WalkAlike s.work w) :
    AnswersAlike (execDecStep s) (execDecStep { s with work := w }) := by
  have hend : ({ s with work := w } : State).StreamEnded ↔ s.StreamEnded := by
    simp only [State.StreamEnded, h.dmask4, h.rpos]
  unfold execDecStep
  rw [fetchBit_eq, fetchBit_eq]
  by_cases he : s.StreamEnded
  · rw [if_pos he, if_pos (hend.mpr he)]
    exact ⟨s.endOfStream, _, rfl, rfl, ht, fun _ => h.dlen⟩
  · rw [if_neg he, if_neg fun h => he (hend.mp h)]
    obtain ⟨w', hf, hw⟩ := fetched_alike h
    have hturns : s.fetched.turns = [] := by unfold State.fetched; split <;> exact ht
    have hbit : w'.streamBit = s.fetched.work.streamBit := by simp only [Work.streamBit, hw.codew, hw.dmask4]
    simp only [hf, hbit]
    exact settle_alike hturns (branchOn_alike hturns hw _)

/-! ## Every step of a command -/

theorem PhaseAlike.phase {p : Phase} {w w' : Work} (h : PhaseAlike p w w') : p.Encoder ∨ p.Decoder := by
  unfold PhaseAlike at h
  unfold Phase.Encoder Phase.Decoder
  split at h
  case h_19 => exact h.elim
  all_goals omega

theorem execEncDone_alike {s : State} {w : Work} (ht : s.turns = []) (h : w.opos = s.work.opos) :
    AnswersAlike (execEncDone s) (execEncDone { s with work := w }) := by
  have he : execEncDone { s with work := w } = execEncDone s := by
    unfold execEncDone
    rw [h]
    rfl
  rw [he]
  exact .of_not_busy (s := { s.finish (BitVec.ofNat 32 s.work.opos) with wpos := 0, eos := false }) _ ht nofun

theorem execDecDone_alike {s : State} {w : Work} (ht : s.turns = []) (h : w.dlen = s.work.dlen) :
    AnswersAlike (execDecDone s) (execDecDone { s with work := w }) := by
  have he : execDecDone { s with work := w } = execDecDone s := by
    unfold execDecDone
    rw [h]
    rfl
  rw [he]
  exact .of_not_busy (s := s.finish (BitVec.ofNat 32 s.work.dlen)) _ ht nofun

theorem sequence_alike {s : State} {w : Work} (ht : s.turns = []) (h : s.mode = .busy → PhaseAlike s.phase s.work w) :
    AnswersAlike (sequence s) (sequence { s with work := w }) := by
  by_cases hb : s.mode = .busy
  · have h := h hb
    have run (i : Instr) (hi : decodePhase s.phase = .ok i) (hx : AnswersAlike (exec i s) (exec i { s with work := w })) :
        AnswersAlike (sequence s) (sequence { s with work := w }) := by
      rwa [sequence_of_busy hb hi, sequence_of_busy (s := { s with work := w }) hb hi]
    rcases phase_cases h.phase with hp | hp | hp | hp | hp | hp | hp | hp | hp | hp | hp | hp | hp | hp | hp | hp | hp | hp <;> rw [hp] at h
    · exact run .encInit (by rw [hp]; rfl) (settle_onWork_alike ht (.ok (initTables_alike _ _)))
    · exact run .encCount (by rw [hp]; rfl) (settle_onWork_alike ht (countInput_alike h.1 h.2))
    · exact run .encPatch (by rw [hp]; rfl) (settle_onWork_alike ht (.ok (patchFreq_alike h)))
    · exact run .encLeaves (by rw [hp]; rfl) (settle_onWork_alike ht (.ok (makeLeaves_alike h)))
    · exact run .encMerge (by rw [hp]; rfl) (settle_onWork_alike ht (buildTree_alike h))
    · exact run .encAlloc (by rw [hp]; rfl) (settle_onWork_alike ht (.ok (allocTree_alike h)))
    · exact run .encPack (by rw [hp]; rfl) (settle_onWork_alike ht (packTree_alike _ h))
    · exact run .encUpdate (by rw [hp]; rfl) (settle_onWork_alike ht (updateTree_alike _ h))
    · exact run .encFinal (by rw [hp]; rfl) (settle_onWork_alike ht (finalTree_alike h))
    · exact run .encDerive (by rw [hp]; rfl) (settle_onWork_alike ht (deriveCodes_alike h))
    · exact run .encHdr (by rw [hp]; rfl) (settle_onOut_alike ht (emitHeader_alike _ h))
    · have hlen : w.ctLen = s.work.ctLen := h.2.ctLen
      refine run .encTreeout (by rw [hp]; rfl) ?_
      show AnswersAlike _ (({ s with work := w } : State).settle _ (({ s with work := w } : State).onOut (emitSlots s.params w.ctLen 0 (w, s.outBuf))))
      rw [hlen]
      exact settle_onOut_alike ht ((emitSlots_alike _ _ _ h).imp fun _ _ _ _ ⟨hw, ho⟩ => ⟨⟨hw.1, hw.2.registers⟩, ho⟩)
    · exact run .encEmit (by rw [hp]; rfl) (settle_onOut_alike ht (emitStream_alike _ h))
    · exact run .encDone (by rw [hp]; rfl) (execEncDone_alike ht h)
    · exact run .decHdr (by rw [hp]; rfl) (execDecHdr_alike w ht)
    · exact run .decTree (by rw [hp]; rfl) (execDecTree_alike ht h)
    · exact run .decStep (by rw [hp]; rfl) (execDecStep_alike ht h)
    · exact run .decDone (by rw [hp]; rfl) (execDecDone_alike ht h)
  · rw [sequence_of_not_busy hb, sequence_of_not_busy (s := { s with work := w }) hb]
    exact .of_not_busy w ht hb

theorem run_succ {s t : State} (h : step s = .next t) (n : Nat) : core.run (n + 1) s = core.run n t := by
  have hstep : core.step s = .next t := h
  simp only [Host.Core.run, hstep]

/-- Any number of steps. -/
theorem run_alike : ∀ (n : Nat) {s : State} {w : Work}, s.turns = [] → (s.mode = .busy → PhaseAlike s.phase s.work w) →
    ∃ (t : State) (u : Work), core.run n s = .next t ∧ core.run n { s with work := w } = .next { t with work := u }
  | 0, s, w, _, _ => ⟨s, w, rfl, rfl⟩
  | n + 1, s, w, ht, h => by
    obtain ⟨s', w', hs, hw, ht', h'⟩ := sequence_alike ht h
    rw [run_succ ((step_of_idle_turns ht).trans hs), run_succ ((step_of_idle_turns (s := { s with work := w }) ht).trans hw)]
    exact run_alike n ht' h'

/-- Settles O51: at the first phase of a command the two runs need agree on nothing, and every later phase keeps what the next ones need. -/
theorem decodeIgnoresOldState : Obligations.DecodeIgnoresOldState := by
  intro s w n _ hp ht
  have hstart : PhaseAlike s.phase s.work w := by rcases hp with hp | hp <;> rw [hp] <;> trivial
  obtain ⟨t, u, hs, hu⟩ := run_alike n ht fun _ => hstart
  exact ⟨t, _, hs, hu, ⟨rfl, rfl, rfl⟩, ⟨rfl, rfl, rfl⟩, ⟨rfl, rfl, rfl⟩, rfl, fun _ _ => rfl⟩

end Sys2Proof.Machine

/-! PROOFS. Who writes the buffers (20_memory R50, R66): the host one byte of `IN`, the operations never. What the host owns is kept by every state update that
an operation is made of, so each operation keeps it whatever it computes. -/

namespace Sys2Proof.Machine

/-! ## The host's accesses (20_memory R50, R66) -/

theorem hostAct_writeIn {s : State} {a : Nat} (b : Byte) (hb : s.mode ≠ .busy) (ha : a < s.params.inCap) :
    hostAct (.writeIn a b) s = .next { s with inBuf := memWrite1 s.inBuf a b } := by
  simp only [hostAct, if_neg hb, if_neg (Nat.not_le.mpr ha)]

theorem hostAct_readOut {s : State} {a : Nat} (hb : s.mode ≠ .busy) (ha : a < s.params.outCap) :
    hostAct (.readOut a) s = .next { s with rdData := (memRead1 s.outBuf a).setWidth 32 } := by
  simp only [hostAct, if_neg hb, if_neg (Nat.not_le.mpr ha)]

/-- Settles O16: the write of `IN` is one byte write, read back by the law of the memory primitives; the read of `OUT` is one byte read. -/
theorem bufferAccess : Obligations.BufferAccess := by
  refine ⟨fun s rest a b hb ha ht => ⟨memWrite1 s.inBuf a b, ?_, memRead1_memWrite1 s.inBuf a b⟩, fun s rest a hb ha ht => ?_⟩
  · rw [step_of_host ht, hostAct_writeIn (s := { s with turns := rest }) b hb ha]
  · rw [step_of_host ht, hostAct_readOut (s := { s with turns := rest }) hb ha]

/-! ## What the operations leave to the host (20_memory R50, 10_state R26) -/

namespace HostSideKept

variable {s t : State}

theorem refl (s : State) : HostSideKept s s := ⟨rfl, rfl, rfl, rfl, rfl⟩

theorem trans {u : State} (h : HostSideKept s t) (g : HostSideKept t u) : HostSideKept s u :=
  ⟨g.inBuf.trans h.inBuf, g.inLen.trans h.inLen, g.params.trans h.params, g.turns.trans h.turns, g.rdData.trans h.rdData⟩

theorem of_takeFault (s : State) (r : Raise) : HostSideKept s (s.takeFault r) := ⟨rfl, rfl, rfl, rfl, rfl⟩

theorem of_startCommand (s : State) (p : Phase) : HostSideKept s (s.startCommand p) := ⟨rfl, rfl, rfl, rfl, rfl⟩

/-- A phase keeps the host's side when its own effect does, for the fault entry does (60_exceptions R262). -/
theorem of_settle {next : State → Phase} {r : Except Raise State} (hr : ∀ u, r = .ok u → HostSideKept s u)
    (e : s.settle next r = .next t) : HostSideKept s t := by
  obtain ⟨u, hu, rfl⟩ | ⟨f, -, rfl⟩ := State.settle_next e
  · exact (hr u hu).trans ⟨rfl, rfl, rfl, rfl, rfl⟩
  · exact of_takeFault s f

/-- A phase that writes `OUT` and the internal state alone. -/
theorem of_settle_onOut {next : State → Phase} {r : Except Raise (Work × Table Byte)} (e : s.settle next (s.onOut r) = .next t) :
    HostSideKept s t := by
  refine of_settle (fun u hu => ?_) e
  cases r with
  | ok x => cases hu; exact ⟨rfl, rfl, rfl, rfl, rfl⟩
  | error f => cases hu

/-- A phase that writes the internal state alone. -/
theorem of_settle_onWork {next : State → Phase} {r : Except Raise Work} (e : s.settle next (s.onWork r) = .next t) :
    HostSideKept s t := by
  refine of_settle (fun u hu => ?_) e
  cases r with
  | ok w => cases hu; exact ⟨rfl, rfl, rfl, rfl, rfl⟩
  | error f => cases hu

/-! ### The host commands -/

theorem of_acceptEncode (s : State) : HostSideKept s (acceptEncode s) := by
  have hstart := of_startCommand s Phase.encInit
  unfold acceptEncode
  split
  · exact hstart.trans (of_takeFault _ _)
  · split
    · exact hstart.trans (of_takeFault _ _)
    · exact hstart

theorem of_acceptDecode (s : State) : HostSideKept s (acceptDecode s) := by
  have hstart := of_startCommand s Phase.decHdr
  unfold acceptDecode
  split
  · exact hstart.trans (of_takeFault _ _)
  · exact hstart

/-- A command is ignored, or accepted with the effect `u`. -/
theorem of_accepted {c : Bool} {u : State} (hu : HostSideKept s u) : HostSideKept s (if c then u else s) := by
  cases c with
  | true => exact hu
  | false => exact refl s

/-! ### The decoder -/

theorem of_takeHeader {len : BitVec 24} {nbits : BitVec 4} (h : takeHeader s len nbits = .ok t) : HostSideKept s t := by
  obtain ⟨-, -, rfl⟩ := takeHeader_ok h
  exact ⟨rfl, rfl, rfl, rfl, rfl⟩

theorem of_readHeader (h : readHeader s = .ok t) : HostSideKept s t := by
  unfold readHeader at h
  split at h
  · cases h
  · exact of_takeHeader h

theorem of_takeSize {b : Byte} (h : takeSize s b = .ok t) : HostSideKept s t := by
  obtain ⟨-, rfl⟩ := takeSize_ok h
  exact ⟨rfl, rfl, rfl, rfl, rfl⟩

theorem of_readTree (h : readTree s = .ok t) : HostSideKept s t := by
  unfold readTree at h
  split at h
  · cases h
  · exact of_takeSize h

theorem of_branchOn {bit : Bool} (h : branchOn s bit = .ok t) : HostSideKept s t := by
  obtain ⟨-, b, rfl | rfl⟩ := branchOn_ok h
  · exact ⟨rfl, rfl, rfl, rfl, rfl⟩
  · exact ⟨rfl, rfl, rfl, rfl, rfl⟩

theorem of_fetchBit (h : fetchBit s = some t) : HostSideKept s t := by
  unfold fetchBit at h
  split at h
  · split at h
    · cases h
    · cases h; exact ⟨rfl, rfl, rfl, rfl, rfl⟩
  · cases h; exact ⟨rfl, rfl, rfl, rfl, rfl⟩

/-- One stream bit: the early end, or the bit fetched and branched on (45_dec R203, R204). -/
theorem of_execDecStep (e : execDecStep s = .next t) : HostSideKept s t := by
  unfold execDecStep at e
  split at e
  · cases e; exact ⟨rfl, rfl, rfl, rfl, rfl⟩
  · next f hf => exact (of_fetchBit hf).trans (of_settle (fun _ => of_branchOn) e)

end HostSideKept

open HostSideKept in
/-- Settles O56: by the operation. One that cannot fault is a single state update; ENCODE's other phases write the internal state, and from ENC.HDR on `OUT`;
what the decoder's operations do before they end or fault is in the lemmas above. -/
theorem operationsKeepOperands : Obligations.OperationsKeepOperands := by
  intro i s t e
  cases i with
  | cmdEncode => cases e; exact of_accepted (of_acceptEncode s)
  | cmdDecode => cases e; exact of_accepted (of_acceptDecode s)
  | cmdClear => cases e; exact of_accepted ⟨rfl, rfl, rfl, rfl, rfl⟩
  | cmdNop | encInit | encPatch | encLeaves | encAlloc | encDone | decDone | tbNode | tbLeaf => cases e; exact ⟨rfl, rfl, rfl, rfl, rfl⟩
  | encCount | encMerge | encPack | encUpdate | encFinal | encDerive => exact of_settle_onWork e
  | encHdr | encTreeout | encEmit => exact of_settle_onOut e
  | decHdr => exact of_settle (fun _ => of_readHeader) e
  | decTree => exact of_settle (fun _ => of_readTree) e
  | decStep => exact of_execDecStep e
  | cw => exact of_settle (fun _ => of_takeHeader) e
  | tbSize => exact of_settle (fun _ => of_takeSize) e
  | swBit => exact of_settle (fun _ => of_branchOn) e

end Sys2Proof.Machine

/-! PROOFS. The encodings (30_encoding R71 to R85): each format's decoder reads back what the encoder wrote, by the bits of the command word and of the node
byte; and which codes stand for no operation. -/

namespace Sys2Proof.Machine

/-! ## The bits of the command word and of the node byte (30_encoding R71, R75) -/

theorem getLsbD_cwWord (len : BitVec 24) (kind nbits : BitVec 4) (i : Nat) : (cwWord len kind nbits).getLsbD i =
    if i < 4 then nbits.getLsbD i else if i < 8 then kind.getLsbD (i - 4) else len.getLsbD (i - 8) := by
  have hn (h : ¬ i < 4) : nbits.getLsbD i = false := BitVec.getLsbD_of_ge _ _ (by omega)
  have hk (h : ¬ i < 8) : kind.getLsbD (i - 4) = false := BitVec.getLsbD_of_ge _ _ (by omega)
  have hl (h : ¬ i < 32) : len.getLsbD (i - 8) = false := BitVec.getLsbD_of_ge _ _ (by omega)
  rw [cwWord, BitVec.getLsbD_or, BitVec.getLsbD_or, BitVec.getLsbD_shiftLeft, BitVec.getLsbD_shiftLeft, BitVec.getLsbD_setWidth,
    BitVec.getLsbD_setWidth, BitVec.getLsbD_setWidth]
  by_cases h4 : i < 4
  · simp [h4, show i < 32 by omega, show i < 8 by omega]
  · by_cases h8 : i < 8
    · simp [h4, h8, hn h4, show i < 32 by omega, show i - 4 < 32 by omega]
    · by_cases h32 : i < 32
      · simp [h4, h8, h32, hn h4, hk h8, show i - 8 < 32 by omega]
      · simp [h4, h8, h32, hl h32]

theorem and_twoPow_ne_zero {w : Nat} (x : BitVec w) {k : Nat} (hk : k < w) : (x &&& BitVec.twoPow w k != 0) = x.getLsbD k := by
  have hne : BitVec.twoPow w k ≠ 0#w := fun h => by simpa [hk] using congrArg (BitVec.getLsbD · k) h
  rw [BitVec.and_twoPow]
  cases x.getLsbD k with
  | false => simp
  | true => simpa using hne

/-- The flag of a left leaf is bit 7 of the node's byte. -/
@[simp] theorem and_lchar_ne_zero (b : Byte) : (b &&& lchar != 0) = b.getLsbD 7 := and_twoPow_ne_zero b (k := 7) (by decide)

/-- The flag of a right leaf is bit 6 of the node's byte. -/
@[simp] theorem and_rchar_ne_zero (b : Byte) : (b &&& rchar != 0) = b.getLsbD 6 := and_twoPow_ne_zero b (k := 6) (by decide)

theorem getLsbD_ite_twoPow {w : Nat} (c : Bool) (k i : Nat) :
    (if c then BitVec.twoPow w k else 0).getLsbD i = (c && (decide (k < w) && decide (k = i))) := by
  cases c with
  | false => simp
  | true => simp [BitVec.getLsbD_twoPow]

theorem getLsbD_nodeByte (l r : Bool) (o : BitVec 6) (i : Nat) :
    (nodeByte l r o).getLsbD i = if i < 6 then o.getLsbD i else (decide (i = 6) && r || decide (i = 7) && l) := by
  have hl : (if l then lchar else 0).getLsbD i = (l && decide (7 = i)) := getLsbD_ite_twoPow l 7 i
  have hr : (if r then rchar else 0).getLsbD i = (r && decide (6 = i)) := getLsbD_ite_twoPow r 6 i
  rw [nodeByte, BitVec.getLsbD_or, BitVec.getLsbD_or, BitVec.getLsbD_setWidth, hl, hr]
  by_cases h6 : i < 6
  · simp [h6, show ¬ 7 = i by omega, show ¬ 6 = i by omega, show i < 8 by omega]
  · rw [if_neg h6, BitVec.getLsbD_of_ge o i (by omega), Bool.and_false, Bool.or_false, Bool.or_comm, Bool.and_comm l, Bool.and_comm r]
    simp [eq_comm]

/-- The fields of a node byte (30_encoding R75). -/
theorem nodeByte_fields (l r : Bool) (o : BitVec 6) : (nodeByte l r o).getLsbD 7 = l ∧ (nodeByte l r o).getLsbD 6 = r ∧
    (nodeByte l r o).extractLsb' 0 6 = o := by
  refine ⟨by rw [getLsbD_nodeByte]; simp, by rw [getLsbD_nodeByte]; simp, BitVec.eq_of_getLsbD_eq fun i hi => ?_⟩
  rw [BitVec.getLsbD_extractLsb', getLsbD_nodeByte]
  simp [hi]

/-! ## Decoding what was encoded -/

@[simp] theorem decodeCw_cwWord (len : BitVec 24) (kind nbits : BitVec 4) : decodeCw (cwWord len kind nbits) = .cw len kind nbits := by
  unfold decodeCw
  congr 1 <;> refine BitVec.eq_of_getLsbD_eq fun i hi => ?_ <;> rw [BitVec.getLsbD_extractLsb', getLsbD_cwWord]
  · simp [hi, show ¬ 8 + i < 4 by omega]
  · simp [hi, show 4 + i < 8 by omega]
  · simp [hi]

@[simp] theorem decodeNode_nodeByte (l r : Bool) (o : BitVec 6) : decodeNode (nodeByte l r o) = .tbNode l r o := by
  obtain ⟨hl, hr, ho⟩ := nodeByte_fields l r o
  rw [decodeNode, and_lchar_ne_zero, and_rchar_ne_zero, hl, hr, ho]

theorem decode_hostCmd_wordBytes (v : Word) (rest : List Byte) :
    decode .hostCmd (wordBytes v ++ rest) = (decodeCommand v).map (·, rest) := by
  simp only [wordBytes, List.cons_append, List.nil_append, decode, wordOf_byteOf]

theorem decode_cw_wordBytes (v : Word) (rest : List Byte) : decode .cw (wordBytes v ++ rest) = .ok (decodeCw v, rest) := by
  simp only [wordBytes, List.cons_append, List.nil_append, decode, wordOf_byteOf]

@[simp] theorem byteOf_setWidth_zero (b : Byte) : byteOf (b.setWidth 32) 0 = b := by
  refine BitVec.eq_of_getLsbD_eq fun i hi => ?_
  rw [getLsbD_byteOf, BitVec.getLsbD_setWidth]
  simp [hi, show i < 32 by omega]

/-- A byte's encoding is itself. -/
theorem encode_tbSize (size : Byte) : encode (.tbSize size) = [size] := congrArg (fun b => [b]) (byteOf_setWidth_zero size)

theorem encode_tbNode (l r : Bool) (o : BitVec 6) : encode (.tbNode l r o) = [nodeByte l r o] :=
  congrArg (fun b => [b]) (byteOf_setWidth_zero _)

theorem encode_tbLeaf (symbol : Byte) : encode (.tbLeaf symbol) = [symbol] := congrArg (fun b => [b]) (byteOf_setWidth_zero symbol)

theorem encode_cw (len : BitVec 24) (kind nbits : BitVec 4) : encode (.cw len kind nbits) = wordBytes (cwWord len kind nbits) := rfl

theorem decode_tbNode (b : Byte) (rest : List Byte) : decode .tbNode (b :: rest) = .ok (decodeNode b, rest) := rfl

/-- Settles O2: a host command and a command word by their four bytes, a node byte by its bits; the other codes are constants or a whole byte. -/
theorem decodeEncodeAgree : Obligations.DecodeEncodeAgree := by
  intro i rest
  cases i with
  | cmdNop | cmdEncode | cmdDecode | cmdClear => exact decode_hostCmd_wordBytes _ rest
  | encInit | encCount | encPatch | encLeaves | encMerge | encAlloc | encPack | encUpdate | encFinal | encDerive | encHdr
  | encTreeout | encEmit | encDone | decHdr | decTree | decStep | decDone => rfl
  | cw len kind nbits => rw [encode_cw, Instr.format, decode_cw_wordBytes, decodeCw_cwWord]
  | tbSize size => rw [encode_tbSize]; rfl
  | tbNode l r o => rw [encode_tbNode, Instr.format, List.singleton_append, decode_tbNode, decodeNode_nodeByte]
  | tbLeaf symbol => rw [encode_tbLeaf]; rfl
  | swBit bit => cases bit <;> rfl

/-- Settles O1: each word is decoded by evaluation. -/
theorem specWordsDecode : Obligations.SpecWordsDecode :=
  ⟨rfl, rfl, rfl, rfl, rfl, rfl, rfl, rfl, rfl, rfl⟩

/-! ## Encoding what was decoded -/

theorem cwWord_fields (v : Word) : cwWord (v.extractLsb' 8 24) (v.extractLsb' 4 4) (v.extractLsb' 0 4) = v := by
  refine BitVec.eq_of_getLsbD_eq fun i hi => ?_
  simp only [getLsbD_cwWord, BitVec.getLsbD_extractLsb']
  by_cases h4 : i < 4
  · simp [h4]
  · by_cases h8 : i < 8
    · simp [h4, h8, show i - 4 < 4 by omega, show 4 + (i - 4) = i by omega]
    · simp [h4, h8, show i - 8 < 24 by omega, show 8 + (i - 8) = i by omega]

theorem nodeByte_of_fields (b : Byte) : nodeByte (b.getLsbD 7) (b.getLsbD 6) (b.extractLsb' 0 6) = b := by
  refine BitVec.eq_of_getLsbD_eq fun i hi => ?_
  rw [getLsbD_nodeByte, BitVec.getLsbD_extractLsb']
  by_cases h6 : i < 6
  · simp [h6]
  · obtain rfl | rfl : i = 6 ∨ i = 7 := by omega
    · simp
    · simp

theorem wordBytes_wordOf (b0 b1 b2 b3 : Byte) : wordBytes (wordOf b0 b1 b2 b3) = [b0, b1, b2, b3] := by
  obtain ⟨h0, h1, h2, h3⟩ := byteOf_wordOf b0 b1 b2 b3
  rw [wordBytes, h0, h1, h2, h3]

theorem encode_decodeCw (v : Word) : encode (decodeCw v) = wordBytes v := congrArg wordBytes (cwWord_fields v)

theorem encode_decodeNode (b : Byte) : encode (decodeNode b) = [b] := by
  rw [decodeNode, encode_tbNode, and_lchar_ne_zero, and_rchar_ne_zero, nodeByte_of_fields]

/-- Settles O3: by the format and the bytes it takes; with too few bytes nothing is decoded. -/
theorem payloadEncodingExact : Obligations.PayloadEncodingExact := by
  intro f bytes rest i hf h
  obtain rfl | rfl | rfl | rfl := hf
  · match bytes, h with
    | b0 :: b1 :: b2 :: b3 :: bs, h =>
      cases h
      exact ⟨rfl, by rw [encode_decodeCw, wordBytes_wordOf]; rfl⟩
  · match bytes, h with
    | b :: bs, h => cases h; exact ⟨rfl, by rw [encode_tbSize]; rfl⟩
  · match bytes, h with
    | b :: bs, h => cases h; exact ⟨rfl, by rw [encode_decodeNode]; rfl⟩
  · match bytes, h with
    | b :: bs, h => cases h; exact ⟨rfl, by rw [encode_tbLeaf]; rfl⟩

/-! ## The codes that stand for no operation (30_encoding R83, R85, 10_state R24) -/

theorem decodeCommand_error (v : Word) : (∃ e, decodeCommand v = .error e) ↔ 4 ≤ v.toNat % 256 := by
  have hv : (v.setWidth 8).toNat = v.toNat % 256 := BitVec.toNat_setWidth 8 v
  unfold decodeCommand
  split
  case h_5 =>
    simp only [imp_false] at *
    exact iff_of_true ⟨_, rfl⟩ (by omega)
  all_goals exact iff_of_false nofun (by omega)

theorem decodePhase_error (p : Phase) : (∃ e, decodePhase p = .error e) ↔ p.toNat = 0 ∨ p.toNat = 15 ∨ 20 ≤ p.toNat := by
  unfold decodePhase
  split
  case h_19 =>
    simp only [imp_false] at *
    exact iff_of_true ⟨_, rfl⟩ (by omega)
  all_goals exact iff_of_false nofun (by omega)

/-- The widths of 30_encoding R73. -/
theorem legalWidth_iff : ∀ n : BitVec 4, legalWidth n = true ↔ n.toNat ∈ [1, 2, 4, 8] := by decide

theorem wellFormed_eq_false (i : Instr) :
    i.wellFormed = false ↔ ∃ len kind nbits, i = .cw len kind nbits ∧ nbits.toNat ∉ [1, 2, 4, 8] := by
  cases i with
  | cw len kind nbits =>
    rw [Instr.wellFormed, ← Bool.not_eq_true, legalWidth_iff]
    exact ⟨fun h => ⟨_, _, _, rfl, h⟩, fun ⟨_, _, _, e, h⟩ => by cases e; exact h⟩
  | _ => exact iff_of_false nofun (fun ⟨_, _, _, e, _⟩ => nomatch e)

/-- Settles O4: each clause is one lemma above. -/
theorem unassignedCodesRejected : Obligations.UnassignedCodesRejected :=
  ⟨decodeCommand_error, decodePhase_error, wellFormed_eq_false⟩

end Sys2Proof.Machine

/-! PROOFS. The payload's elements consumed by the decoder (30_encoding R73 to R76, 45_dec R201 to R207): each is one update of the decoder's registers, or the
entry of a fault. -/

namespace Sys2Proof.Machine

/-! ## Fault entry as the statements have it (60_exceptions R262) -/

theorem takeFault_faulted (s : State) (name : FaultName) (index : Int) (length : Nat) :
    Faulted s (s.takeFault ⟨name, index, length⟩) name index length :=
  ⟨rfl, rfl, rfl, rfl, rfl, rfl, rfl, rfl, rfl, rfl, rfl, rfl, rfl⟩

/-- An operation whose effect faults takes that fault. -/
theorem settle_faulted {s : State} {next : State → Phase} {r : Except Raise State} {name : FaultName} {index : Int} {length : Nat}
    (h : r = .error ⟨name, index, length⟩) : ∃ t, s.settle next r = .next t ∧ Faulted s t name index length :=
  ⟨_, by rw [h, State.settle_error], takeFault_faulted s name index length⟩

/-! ## The command word (30_encoding R73, 45_dec R201) -/

theorem takeHeader_of_fits {s : State} {len : BitVec 24} {nbits : BitVec 4} (hn : nbits.toNat ∈ [1, 2, 4, 8])
    (hl : len.toNat ≤ s.params.outCap) : takeHeader s len nbits = .ok { s with
      outBuf := Table.clearBelow len.toNat s.outBuf
      wpos := 0
      work := { s.work with numBits := nbits.toNat, dlen := len.toNat, acc := 0, dmask4 := 0, codew := 0 } } := by
  rw [takeHeader, (legalWidth_iff nbits).mpr hn, if_neg nofun, if_neg (Nat.not_lt.mpr hl)]

theorem takeHeader_of_width {s : State} {len : BitVec 24} {nbits : BitVec 4} (hn : nbits.toNat ∉ [1, 2, 4, 8]) :
    takeHeader s len nbits = .error ⟨.unsupportedWidth, nbits.toNat, 0⟩ := by
  rw [← legalWidth_iff, Bool.not_eq_true] at hn
  rw [takeHeader, if_pos hn, raise_eq_error]

theorem takeHeader_of_length {s : State} {len : BitVec 24} {nbits : BitVec 4} (hn : nbits.toNat ∈ [1, 2, 4, 8])
    (hl : s.params.outCap < len.toNat) :
    takeHeader s len nbits = .error ⟨.outOverflow, (len.toNat - 1 : Nat), s.params.outCap⟩ := by
  rw [takeHeader, (legalWidth_iff nbits).mpr hn, if_neg nofun, if_pos hl, raise_eq_error, Nat.cast_pred (Nat.zero_lt_of_lt hl)]

/-- Settles O39: the checks of the width and of the length, in that order, then one update. -/
theorem commandWordTaken : Obligations.CommandWordTaken := by
  refine fun s len kind nbits => ⟨fun hn hl => ?_, fun hn => ?_, fun hn hl => ?_⟩
  · exact ⟨Table.clearBelow len.toNat s.outBuf, congrArg (s.settle _) (takeHeader_of_fits hn hl), Table.get_clearBelow 0 _ _⟩
  · exact settle_faulted (takeHeader_of_width hn)
  · exact settle_faulted (takeHeader_of_length hn hl)

/-! ## The size byte (30_encoding R74, 45_dec R202) -/

theorem takeSize_of_fits {s : State} {b : Byte} (h : 4 + treeLen b.toNat ≤ s.inLen.toNat) : takeSize s b = .ok { s with
      work := { s.work with
        ctLen := treeLen b.toNat, ctree := copyTree s.inBuf (treeLen b.toNat) 0 s.work.ctree, rpos := 4 + treeLen b.toNat
        pos := memRead1 s.inBuf 5, next := 0 } } := by
  have hroot : Table.get (0 : Byte) (copyTree s.inBuf (treeLen b.toNat) 0 s.work.ctree) 1 = memRead1 s.inBuf 5 := by
    rw [get_copyTree, if_pos (by unfold treeLen; omega)]
  rw [takeSize]
  simp only [if_neg (Nat.not_lt.mpr h), Work.toRoot, Work.slot, hroot]

theorem takeSize_of_short {s : State} {b : Byte} (h : s.inLen.toNat < 4 + treeLen b.toNat) :
    takeSize s b = .error ⟨.decompressDataIOOB, s.inLen.toNat, s.inLen.toNat⟩ := if_pos h

/-- The slots of the tree after the copy (45_dec R202). -/
theorem get_copyTree_zero (m : Table Byte) (n : Nat) (t : Table Byte) (i : Nat) :
    Table.get (0 : Byte) (copyTree m n 0 t) i = if i < n then memRead1 m (4 + i) else Table.get 0 t i := by
  rw [get_copyTree]
  exact if_congr (by omega) rfl rfl

/-- Settles O41: the check of the length, then one update; the walk stands on slot 1 of the tree copied. -/
theorem sizeByteTaken : Obligations.SizeByteTaken := by
  refine fun s b => ⟨fun h => ?_, fun h => settle_faulted (takeSize_of_short h)⟩
  exact ⟨copyTree s.inBuf (treeLen b.toNat) 0 s.work.ctree, congrArg (s.settle State.decodeNext) (takeSize_of_fits h), get_copyTree_zero _ _ _⟩

/-! ## The bytes of the tree (30_encoding R75, R76, 45_dec R205, R206) -/

/-- Settles O43: the byte stood on is the one with these fields. -/
theorem nodeByteStoodOn : Obligations.NodeByteStoodOn := fun _ l r o => ⟨nodeByte l r o, rfl, nodeByte_fields l r o⟩

/-- The byte that OUTPUT writes: the symbol shifted to its place and cut to eight bits (45_dec R206). -/
theorem shiftLeft_eq_ofNat (b : Byte) (k : Nat) : b <<< k = BitVec.ofNat 8 (b.toNat * 2 ^ k) := by
  rw [← Nat.shiftLeft_eq]
  exact BitVec.eq_of_toNat_eq (BitVec.toNat_shiftLeft)

/-- Settles O44: OUTPUT is one byte write. -/
theorem leafByteOutput : Obligations.LeafByteOutput := by
  refine fun s b => ⟨memWrite1 s.outBuf s.wpos.toNat (memRead1 s.outBuf s.wpos.toNat ||| b <<< s.work.acc), rfl, fun a => ?_⟩
  rw [memRead1_memWrite1, shiftLeft_eq_ofNat]
  split
  · next h => rw [h]
  · rfl

end Sys2Proof.Machine

/-! PROOFS. DECODE of 8-bit symbols follows the list-level walk (45_dec R203 to R208). `State.Looping p k out` says that DECODE of the payload `p` has consumed
`k` bits of the stream and produced `out`; a stream bit keeps it, with the byte of a leaf added to `out`, so it holds along the walk of one symbol and of many. -/

namespace Sys2Proof.Machine

/-! ## Runs -/

/-- A run is its first `j` steps and then the others. -/
theorem run_trans {t : State} : ∀ {j : Nat} {s : State} (i : Nat), core.run j s = .next t → core.run (j + i) s = core.run i t
  | 0, s, i, h => by cases h; rw [Nat.zero_add]
  | j + 1, s, i, h => by
    rw [Nat.succ_add]
    cases hs : step s with
    | next u =>
      rw [run_succ hs] at h ⊢
      exact run_trans i h
    | fault r =>
      simp only [Host.Core.run, show core.step s = .fault r from hs] at h
      cases h
    | refused r =>
      simp only [Host.Core.run, show core.step s = .refused r from hs] at h
      cases h

/-- A block that runs no command stays as it is while the host does nothing (70_reset_and_hazards R281). -/
theorem run_of_not_busy {s : State} (ht : s.turns = []) (hb : s.mode ≠ .busy) : ∀ n, core.run n s = .next s
  | 0 => rfl
  | n + 1 => by
    rw [run_succ ((step_of_idle_turns ht).trans (sequence_of_not_busy hb))]
    exact run_of_not_busy ht hb n

theorem step_of_phase {s : State} {i : Instr} (ht : s.turns = []) (hb : s.mode = .busy) (hi : decodePhase s.phase = .ok i) :
    step s = exec i s := (step_of_idle_turns ht).trans (sequence_of_busy hb hi)

/-! ## The fields of the header (30_encoding R71) -/

theorem byteOf_toNat (v : Word) (k : Nat) : (byteOf v k).toNat = v.toNat / 2 ^ (8 * k) % 256 := by
  rw [byteOf, BitVec.extractLsb'_toNat, Nat.shiftRight_eq_div_pow]

/-- `NBITS` and `LEN` of the word at the head of the payload, from its bytes. -/
theorem header_fields (m : Table Byte) : (cwNbits (memRead4 m 0)).toNat = (memRead1 m 0).toNat % 16 ∧
    (cwLen (memRead4 m 0)).toNat =
      (memRead1 m 1).toNat + 256 * (memRead1 m 2).toNat + 65536 * (memRead1 m 3).toNat := by
  obtain ⟨h0, h1, h2, h3⟩ := byteOf_wordOf (memRead1 m 0) (memRead1 m 1) (memRead1 m 2) (memRead1 m 3)
  have hv : memRead4 m 0 = wordOf (memRead1 m 0) (memRead1 m 1) (memRead1 m 2) (memRead1 m 3) := rfl
  rw [← hv] at h0 h1 h2 h3
  rw [← h0, ← h1, ← h2, ← h3, byteOf_toNat, byteOf_toNat, byteOf_toNat, byteOf_toNat, cwNbits, cwLen, BitVec.extractLsb'_toNat,
    BitVec.extractLsb'_toNat, Nat.shiftRight_eq_div_pow, Nat.shiftRight_eq_div_pow]
  have := (memRead4 m 0).isLt
  omega

/-! ## The stream registers (45_dec R204) -/

/-- The stream registers once `k` bits of the stream that begins at byte address `a` are consumed. -/
structure State.StreamAt (s : State) (a k : Nat) : Prop where
  rpos : s.work.rpos = a + 4 * wordsFor k
  mask : s.work.dmask4 >>> 1 = if k % 32 = 0 then 0 else topBit >>> (k % 32)
  word : k % 32 ≠ 0 → s.work.codew = memRead4 s.inBuf (a + 4 * (k / 32))

theorem topBit_shift : ∀ j < 32, topBit >>> j = BitVec.twoPow 32 (31 - j) ∧ topBit >>> j ≠ 0 := by decide

theorem State.StreamAt.not_ended {s : State} {a k : Nat} (h : s.StreamAt a k) (hk : a + 4 * (k / 32) + 4 ≤ s.inLen.toNat) :
    ¬ s.StreamEnded := by
  rintro ⟨hm, hl⟩
  rw [h.mask] at hm
  rw [h.rpos, wordsFor] at hl
  split at hm
  · omega
  · exact (topBit_shift (k % 32) (Nat.mod_lt _ (by decide))).2 hm

/-- A fetch selects bit `31 - k mod 32` of word `k div 32` of the stream. -/
theorem State.StreamAt.fetched_eq {s : State} {a k : Nat} (h : s.StreamAt a k) : s.fetched = { s with work := { s.work with
    codew := memRead4 s.inBuf (a + 4 * (k / 32)), rpos := a + 4 * wordsFor (k + 1), dmask4 := topBit >>> (k % 32) } } := by
  have hw : wordsFor (k + 1) = k / 32 + 1 := by unfold wordsFor; omega
  unfold State.fetched
  rw [h.mask, hw]
  by_cases hz : k % 32 = 0
  · have hr : s.work.rpos = a + 4 * (k / 32) := by rw [h.rpos, wordsFor]; omega
    rw [if_pos hz, if_pos rfl, hr, hz]
    rfl
  · have hr : a + 4 * (k / 32 + 1) = s.work.rpos := by rw [h.rpos, wordsFor]; omega
    rw [if_neg hz, if_neg (topBit_shift _ (Nat.mod_lt _ (by decide))).2, ← h.word hz, hr]

theorem State.StreamAt.fetched {s : State} {a k : Nat} (h : s.StreamAt a k) : s.fetched.StreamAt a (k + 1) := by
  rw [h.fetched_eq]
  refine ⟨rfl, ?_, fun hz => ?_⟩
  · show topBit >>> (k % 32) >>> 1 = _
    rw [← BitVec.shiftRight_add]
    split
    · rw [show k % 32 + 1 = 32 by omega]; rfl
    · rw [show k % 32 + 1 = (k + 1) % 32 by omega]
  · rw [show (k + 1) / 32 = k / 32 by omega]

theorem State.StreamAt.streamBit {s : State} {a k : Nat} (h : s.StreamAt a k) : s.fetched.work.streamBit = streamBitAt s.inBuf a k := by
  rw [h.fetched_eq]
  show (memRead4 s.inBuf (a + 4 * (k / 32)) &&& topBit >>> (k % 32) != 0) = _
  rw [(topBit_shift _ (Nat.mod_lt _ (by decide))).1, and_twoPow_ne_zero _ (by omega), streamBitAt]

/-! ## A running DECODE of 8-bit symbols -/

/-- What DECODE reads: the buffer `IN` with its length, the length of the tree and that of the output. -/
structure Payload where
  inBuf : Table Byte
  inLen : Nat
  treeLen : Nat
  len : Nat

/-- Slot `i` of the tree, in `IN` from address 4 on (45_dec R202). -/
def Payload.tree (p : Payload) (i : Nat) : Byte := memRead1 p.inBuf (4 + i)

/-- How many whole stream words follow the tree (45_dec R204). -/
def Payload.words (p : Payload) : Nat := (p.inLen - (4 + p.treeLen)) / 4

/-- The bits of the stream. -/
def Payload.stream (p : Payload) : List Bool := streamBits p.inBuf (4 + p.treeLen) p.words

theorem Payload.stream_drop_cons {p : Payload} {k : Nat} {bit : Bool} {rest : List Bool} (h : p.stream.drop k = bit :: rest) :
    k < 32 * p.words ∧ streamBitAt p.inBuf (4 + p.treeLen) k = bit ∧ p.stream.drop (k + 1) = rest := by
  have hlen : p.stream.length = 32 * p.words := by simp [Payload.stream, streamBits]
  have hk : k < p.stream.length := by
    by_contra hk
    rw [List.drop_eq_nil_of_le (Nat.le_of_not_lt hk)] at h
    cases h
  rw [List.drop_eq_getElem_cons hk] at h
  obtain ⟨hbit, hrest⟩ := List.cons.inj h
  refine ⟨hlen ▸ hk, ?_, hrest⟩
  rw [← hbit]
  simp [Payload.stream, streamBits]

/-- DECODE of `p` has consumed `k` bits of the stream and produced the symbols `out`, 8 bits each; the bytes of the result that are still to come
are zero (45_dec R201 to R206). -/
structure State.Decodes (s : State) (p : Payload) (k : Nat) (out : List Byte) : Prop where
  busy : s.mode = .busy
  turns : s.turns = []
  eos : s.eos = false
  inBuf : s.inBuf = p.inBuf
  inLen : s.inLen.toNat = p.inLen
  width : s.work.numBits = 8 ∧ s.work.acc = 0
  dlen : s.work.dlen = p.len ∧ p.len < 2 ^ 24
  ctLen : s.work.ctLen = p.treeLen
  slot : ∀ i < p.treeLen, s.work.slot i = p.tree i
  stream : s.StreamAt (4 + p.treeLen) k
  wpos : s.wpos.toNat = out.length
  written : (List.range out.length).map (memRead1 s.outBuf) = out
  blank : ∀ a, out.length ≤ a → a < p.len → memRead1 s.outBuf a = 0

/-- The same between two steps: at DEC.STEP while the output is not complete (45_dec R207). -/
structure State.Looping (s : State) (p : Payload) (k : Nat) (out : List Byte) : Prop extends State.Decodes s p k out where
  phase : s.phase = if out.length < p.len then Phase.decStep else Phase.decDone

/-- The walk stands on the root node (45_dec R206). -/
abbrev State.AtRoot (s : State) (p : Payload) : Prop := s.work.pos = p.tree 1 ∧ s.work.next = 0

section Loop

variable {s : State} {p : Payload} {k : Nat} {out : List Byte}

theorem State.Decodes.looping (h : s.Decodes p k out) : ({ s with phase := s.decodeNext } : State).Looping p k out where
  toDecodes := { h with stream := { h.stream with } }
  phase := by
    show s.decodeNext = _
    rw [State.decodeNext, h.wpos, h.dlen.1]

theorem State.Decodes.not_ended (h : s.Decodes p k out) (hk : k < 32 * p.words) : ¬ s.StreamEnded := by
  refine h.stream.not_ended ?_
  rw [h.inLen]
  unfold Payload.words at hk
  omega

/-- A fetch consumes the next bit of the stream. -/
theorem State.Decodes.fetched (h : s.Decodes p k out) : s.fetched.Decodes p (k + 1) out := by
  have hstream := h.stream.fetched
  rw [h.stream.fetched_eq] at hstream ⊢
  exact { h with stream := hstream }

/-- The walk moves without producing anything. -/
theorem State.Decodes.moved (h : s.Decodes p k out) (b : Byte) (base : Nat) :
    ({ s with work := { s.work with pos := b, next := base } } : State).Decodes p k out := { h with stream := { h.stream with } }

/-- OUTPUT adds the symbol that the walk stands on (45_dec R206). -/
theorem State.Decodes.output (h : s.Decodes p k out) (hlt : out.length < p.len) :
    (outputSymbol s).Decodes p k (out ++ [s.work.pos]) := by
  have hread (a : Nat) : memRead1 (outputSymbol s).outBuf a = if a = out.length then s.work.pos else memRead1 s.outBuf a := by
    show memRead1 (memWrite1 s.outBuf s.wpos.toNat (memRead1 s.outBuf s.wpos.toNat ||| s.work.pos <<< s.work.acc)) a = _
    rw [memRead1_memWrite1, h.wpos, h.blank _ le_rfl hlt, h.width.2, BitVec.shiftLeft_zero, show (0 : Byte) ||| s.work.pos = s.work.pos from BitVec.zero_or]
  have hwpos : (outputSymbol s).wpos.toNat = out.length + 1 := by
    show (if 8 ≤ s.work.acc + s.work.numBits then s.wpos + 1 else s.wpos).toNat = _
    rw [h.width.1, h.width.2, if_pos (by decide), BitVec.toNat_add, h.wpos, show (1 : Word).toNat = 1 from rfl]
    have := h.dlen.2
    omega
  refine { h with
    width := ⟨h.width.1, ?_⟩, stream := { h.stream with }, wpos := ?_, written := ?_, blank := fun a ha hlen => ?_ }
  · show (s.work.acc + s.work.numBits) % 8 = 0
    rw [h.width.1, h.width.2]
  · rw [hwpos, List.length_append, List.length_singleton]
  · rw [List.length_append, List.length_singleton, List.range_succ, List.map_append, List.map_singleton, hread, if_pos rfl]
    congr 1
    conv_rhs => rw [← h.written]
    refine List.map_congr_left fun a ha => ?_
    rw [hread, if_neg (Nat.ne_of_lt (List.mem_range.mp ha))]
  · rw [List.length_append, List.length_singleton] at ha
    rw [hread, if_neg (by omega)]
    exact h.blank a (by omega) hlen

/-! ## One stream bit -/

theorem branchOn_of_inside {bit : Bool} (h : s.work.branchSlot bit < s.work.ctLen) :
    branchOn s bit = .ok (if childIsLeaf s.work.pos bit
      then arriveLeaf { s with work := { s.work with next := s.work.next + pairDistance (offsetOf s.work.pos) } } (s.work.slot (s.work.branchSlot bit))
      else arriveNode { s with work := { s.work with next := s.work.next + pairDistance (offsetOf s.work.pos) } }
        (s.work.slot (s.work.branchSlot bit))) := if_neg (Nat.not_le.mpr h)

/-- DEC.STEP fetches a bit and branches on it (45_dec R203). -/
theorem State.Looping.step_eq (h : s.Looping p k out) (hlt : out.length < p.len) (hk : k < 32 * p.words) :
    step s = s.fetched.settle State.decodeNext (branchOn s.fetched (streamBitAt p.inBuf (4 + p.treeLen) k)) := by
  have hphase : s.phase = Phase.decStep := h.phase.trans (if_pos hlt)
  rw [step_of_phase h.turns h.busy (i := .decStep) (by rw [hphase]; rfl)]
  show execDecStep s = _
  rw [execDecStep, fetchBit_eq, if_neg (h.not_ended hk), ← h.inBuf, ← h.stream.streamBit]

/-- The list-level walk of one bit, from where the registers stand (45_dec R205). -/
theorem walk_cons (tree : Nat → Byte) (len : Nat) (w : Work) (bit : Bool) (rest : List Bool) :
    walk tree len w.pos w.next (bit :: rest) =
      if len ≤ w.branchSlot bit then none
      else if childIsLeaf w.pos bit then some (tree (w.branchSlot bit), rest)
      else walk tree len (tree (w.branchSlot bit)) (w.next + pairDistance (offsetOf w.pos)) rest := by
  cases bit <;> rfl

/-- One symbol: the walk of the stream from where DECODE stands leads it, bit by bit, back to the root with the symbol produced. -/
theorem walk_run {b : Byte} {rest : List Bool} : ∀ {bits : List Bool} {k : Nat} {s : State}, s.Looping p k out → out.length < p.len →
    p.stream.drop k = bits → walk p.tree p.treeLen s.work.pos s.work.next bits = some (b, rest) →
    ∃ j t, core.run j s = .next t ∧ t.Looping p (k + j) (out ++ [b]) ∧ t.AtRoot p ∧ p.stream.drop (k + j) = rest ∧
      k + j ≤ 32 * p.words := by
  intro bits
  induction bits with
  | nil => intro k s _ _ _ hw; cases hw
  | cons bit bits ih =>
    intro k s h hlt hbits hw
    obtain ⟨hk, rfl, hrest⟩ := Payload.stream_drop_cons hbits
    have hf := h.fetched
    have hwork : s.fetched.work.pos = s.work.pos ∧ s.fetched.work.next = s.work.next := by
      rw [h.stream.fetched_eq]; exact ⟨rfl, rfl⟩
    rw [← hwork.1, ← hwork.2, walk_cons] at hw
    have hstep := h.step_eq hlt hk
    generalize streamBitAt p.inBuf (4 + p.treeLen) k = bit at hw hstep
    split at hw
    · cases hw
    · next hin =>
      replace hin := Nat.lt_of_not_le hin
      rw [branchOn_of_inside (by rwa [hf.ctLen]), hf.slot _ hin] at hstep
      split at hw
      · next hleaf =>
        cases hw
        rw [if_pos hleaf] at hstep
        refine ⟨1, _, run_succ hstep 0, ?_, ⟨?_, rfl⟩, hrest, hk⟩
        · exact State.Decodes.looping ((hf.moved _ _).output hlt)
        · exact hf.slot 1 (by unfold Work.branchSlot pairDistance at hin; omega)
      · next hnode =>
        rw [if_neg hnode] at hstep
        obtain ⟨j, t, hrun, ht, hroot, hdrop, hj⟩ := ih (hf.moved _ _).looping hlt hrest hw
        refine ⟨j + 1, t, (run_succ hstep j).trans hrun, ?_, hroot, ?_, ?_⟩
        · rwa [Nat.add_assoc, Nat.add_comm 1] at ht
        · rwa [Nat.add_assoc, Nat.add_comm 1] at hdrop
        · omega

/-! ## The whole stream -/

/-- The symbols still to come, each walked from the root. -/
theorem walkMany_run : ∀ {n : Nat} {k : Nat} {out symbols : List Byte} {s : State}, s.Looping p k out → s.AtRoot p →
    out.length + n = p.len → k ≤ 32 * p.words → walkMany p.tree p.treeLen n (p.stream.drop k) = some symbols →
    ∃ j t, core.run j s = .next t ∧ t.Looping p (k + j) (out ++ symbols) ∧ (out ++ symbols).length = p.len ∧ k + j ≤ 32 * p.words := by
  intro n
  induction n with
  | zero =>
    intro k out symbols s h _ hlen hk hw
    cases hw
    rw [List.append_nil]
    exact ⟨0, s, rfl, h, hlen, hk⟩
  | succ n ih =>
    intro k out symbols s h ⟨hpos, hnext⟩ hlen hk hw
    rw [walkMany] at hw
    split at hw
    · cases hw
    · next b rest hone =>
      obtain ⟨syms, hmany, rfl⟩ := Option.map_eq_some_iff.mp hw
      rw [← hpos, ← hnext] at hone
      obtain ⟨j, t, hrun, ht, hroot, hdrop, hj⟩ := walk_run h (by omega) rfl hone
      rw [← hdrop] at hmany
      obtain ⟨i, u, hrun', hu, hlen', hi⟩ := ih ht hroot (by rw [List.length_append, List.length_singleton]; omega) hj hmany
      rw [List.append_assoc, List.singleton_append] at hu hlen'
      exact ⟨j + i, u, (run_trans i hrun).trans hrun', by rwa [← Nat.add_assoc], hlen', by rwa [← Nat.add_assoc]⟩

/-- DEC.DONE, and the block at rest afterwards (45_dec R208). -/
theorem run_decDone (h : s.Looping p k out) (hlen : out.length = p.len) (n : Nat) :
    core.run (n + 1) s = .next (s.finish (BitVec.ofNat 32 p.len)) := by
  have hphase : s.phase = Phase.decDone := h.phase.trans (if_neg (by omega))
  have hstep : step s = .next (s.finish (BitVec.ofNat 32 p.len)) := by
    rw [step_of_phase h.turns h.busy (i := .decDone) (by rw [hphase]; rfl), ← h.dlen.1]
    rfl
  rw [run_succ hstep]
  exact run_of_not_busy (s := s.finish _) h.turns nofun n

end Loop

/-! ## The header and the tree -/

/-- The registers and `OUT` once a header is taken (45_dec R201). -/
def State.withHeader (s : State) (len numBits : Nat) : State :=
  { s with
    outBuf := Table.clearBelow len s.outBuf
    wpos := 0
    phase := Phase.decTree
    work := { s.work with numBits := numBits, dlen := len, acc := 0, dmask4 := 0, codew := 0 } }

theorem execDecHdr_of_fits {s : State} (h : 4 ≤ s.inLen.toNat) (hn : (cwNbits (memRead4 s.inBuf 0)).toNat ∈ [1, 2, 4, 8])
    (hl : (cwLen (memRead4 s.inBuf 0)).toNat ≤ s.params.outCap) : execDecHdr s =
      .next (s.withHeader (cwLen (memRead4 s.inBuf 0)).toNat (cwNbits (memRead4 s.inBuf 0)).toNat) := by
  have hread : readHeader s = takeHeader s (cwLen (memRead4 s.inBuf 0)) (cwNbits (memRead4 s.inBuf 0)) := if_neg (Nat.not_lt.mpr h)
  rw [execDecHdr, hread, takeHeader_of_fits hn hl, State.settle_ok]
  rfl

/-- The registers once a tree of `n` slots is read (45_dec R202). -/
def State.withTree (s : State) (n : Nat) : State :=
  { s with work := { s.work with
      ctLen := n, ctree := copyTree s.inBuf n 0 s.work.ctree, rpos := 4 + n, pos := memRead1 s.inBuf 5, next := 0 } }

theorem execDecTree_of_fits {s : State} (h : 4 + treeLen (memRead1 s.inBuf 4).toNat ≤ s.inLen.toNat) : execDecTree s =
    s.settle State.decodeNext (.ok (s.withTree (treeLen (memRead1 s.inBuf 4).toNat))) := by
  have hread : readTree s = takeSize s (memRead1 s.inBuf 4) := if_neg (by unfold treeLen at h; omega)
  rw [execDecTree, hread, takeSize_of_fits h]
  rfl

/-- The payload of 8-bit symbols in `IN` (30_encoding R70). -/
def State.payload (s : State) : Payload where
  inBuf := s.inBuf
  inLen := s.inLen.toNat
  treeLen := treeLen (memRead1 s.inBuf 4).toNat
  len := (cwLen (memRead4 s.inBuf 0)).toNat

/-- DEC.HDR and DEC.TREE lead to the root with nothing produced. -/
theorem run_header_tree {s : State} (hb : s.mode = .busy) (hp : s.phase = Phase.decHdr) (ht : s.turns = []) (he : s.eos = false)
    (hwidth : (cwNbits (memRead4 s.inBuf 0)).toNat = 8) (hout : s.payload.len ≤ s.params.outCap)
    (hfit : 4 + s.payload.treeLen ≤ s.inLen.toNat) :
    ∃ t, core.run 2 s = .next t ∧ t.Looping s.payload 0 [] ∧ t.AtRoot s.payload := by
  have hhdr : step s = .next (s.withHeader s.payload.len 8) := by
    rw [step_of_phase ht hb (i := .decHdr) (by rw [hp]; rfl), ← hwidth]
    exact execDecHdr_of_fits (Nat.le_of_add_right_le hfit) (by rw [hwidth]; decide) hout
  have htree := (step_of_phase (s := s.withHeader s.payload.len 8) (i := .decTree) ht hb rfl).trans (execDecTree_of_fits hfit)
  have hdec : ((s.withHeader s.payload.len 8).withTree s.payload.treeLen).Decodes s.payload 0 [] :=
    { busy := hb, turns := ht, eos := he, inBuf := rfl, inLen := rfl, width := ⟨rfl, rfl⟩, dlen := ⟨rfl, BitVec.isLt _⟩, ctLen := rfl
      slot := fun i hi => (get_copyTree_zero _ _ _ i).trans (if_pos hi)
      stream := ⟨rfl, show (0 : Word) >>> 1 = 0 by decide, fun h => absurd rfl h⟩
      wpos := rfl, written := rfl
      blank := fun a _ ha => (Table.get_clearBelow 0 _ _ a).trans (if_pos ha) }
  exact ⟨_, (run_succ hhdr 1).trans (run_succ htree 0), hdec.looping, rfl, rfl⟩

/-- Settles O49: the header and the tree, the walk of the symbols, DEC.DONE; the stream holds at most `8 * IN_LEN` bits. -/
theorem decodeFollowsWalk : Obligations.DecodeFollowsWalk := by
  intro s symbols hb hp ht he n len hwidth hout hfit hw
  obtain ⟨hnbits, hlen⟩ := header_fields s.inBuf
  replace hlen : s.payload.len = len := hlen
  rw [← hlen] at hout hw ⊢
  obtain ⟨t, hrun, hloop, hroot⟩ := run_header_tree hb hp ht he (hnbits.trans hwidth) hout hfit
  obtain ⟨j, u, hrun', hu, hfull, hj⟩ := walkMany_run hloop hroot (Nat.zero_add _) (Nat.zero_le _) hw
  rw [List.nil_append] at hu hfull
  obtain ⟨i, hi⟩ : ∃ i, 8 * s.inLen.toNat + 4 = 2 + (j + (i + 1)) := by
    have hwords : s.payload.words = (s.inLen.toNat - (4 + n)) / 4 := rfl
    exact ⟨8 * s.inLen.toNat + 1 - j, by omega⟩
  have hoc : (BitVec.ofNat 32 s.payload.len).toNat = s.payload.len := Nat.mod_eq_of_lt (hu.dlen.2.trans (by decide))
  refine ⟨u.finish (BitVec.ofNat 32 s.payload.len), ?_, rfl, ?_, hu.eos, hoc, ?_, ?_⟩
  · rw [hi, run_trans _ hrun, run_trans _ hrun', run_decDone hu hfull]
  · exact hu.phase.trans (if_neg (by omega))
  · exact BitVec.eq_of_toNat_eq (hu.wpos.trans (hfull.trans hoc.symm))
  · conv_rhs => rw [← hu.written, hfull]
    refine List.map_congr_left fun a ha => ?_
    have ha : a < (BitVec.ofNat 32 s.payload.len).toNat := hoc.symm ▸ List.mem_range.mp ha
    exact (Table.get_splice 0 _ _ _ a).trans (if_pos ha)

end Sys2Proof.Machine

/-! PROOFS. The host commands (40_host_commands R100 to R109): which STATE accepts which command, what an accepted one does, what leaves FAULT, and the order of
the phases that ENCODE starts. -/

namespace Sys2Proof.Machine

/-! ## Acceptance (40_host_commands R100) -/

theorem Mode.acceptsRun_iff (m : Mode) : m.acceptsRun = true ↔ m = .idle ∨ m = .done := by cases m <;> decide

theorem Mode.acceptsClear_iff (m : Mode) : m.acceptsClear = true ↔ m ≠ .busy := by cases m <;> decide

theorem exec_cmdEncode_of_accepted {s : State} (h : s.mode = .idle ∨ s.mode = .done) : exec .cmdEncode s = .next (acceptEncode s) :=
  congrArg _ (if_pos ((Mode.acceptsRun_iff _).mpr h))

theorem exec_cmdDecode_of_accepted {s : State} (h : s.mode = .idle ∨ s.mode = .done) : exec .cmdDecode s = .next (acceptDecode s) :=
  congrArg _ (if_pos ((Mode.acceptsRun_iff _).mpr h))

theorem exec_cmdEncode_of_ignored {s : State} (h : ¬ (s.mode = .idle ∨ s.mode = .done)) : exec .cmdEncode s = .next s :=
  congrArg _ (if_neg (mt (Mode.acceptsRun_iff _).mp h))

theorem exec_cmdDecode_of_ignored {s : State} (h : ¬ (s.mode = .idle ∨ s.mode = .done)) : exec .cmdDecode s = .next s :=
  congrArg _ (if_neg (mt (Mode.acceptsRun_iff _).mp h))

theorem exec_cmdClear_of_accepted {s : State} (h : s.mode ≠ .busy) : exec .cmdClear s = .next s.clear :=
  congrArg _ (if_pos ((Mode.acceptsClear_iff _).mpr h))

theorem exec_cmdClear_of_busy {s : State} (h : s.mode = .busy) : exec .cmdClear s = .next s :=
  congrArg _ (if_neg (mt (Mode.acceptsClear_iff _).mp (not_not_intro h)))

/-! ## The start of ENCODE and DECODE (40_host_commands R102, R103, 60_exceptions R254) -/

theorem acceptEncode_of_fits {s : State} (hc : s.inLen.toNat ≤ s.params.inCap) (hl : s.inLen.toNat ≤ maxLen) :
    acceptEncode s = s.startCommand Phase.encInit := by
  rw [acceptEncode, if_neg (Nat.not_lt.mpr hc), if_neg (Nat.not_lt.mpr hl)]

theorem acceptEncode_of_capacity {s : State} (hc : s.params.inCap < s.inLen.toNat) :
    acceptEncode s = (s.startCommand Phase.encInit).takeFault ⟨.lengthOverflow, s.inLen.toNat, s.params.inCap⟩ := if_pos hc

theorem acceptEncode_of_length {s : State} (hc : s.inLen.toNat ≤ s.params.inCap) (hl : maxLen < s.inLen.toNat) :
    acceptEncode s = (s.startCommand Phase.encInit).takeFault ⟨.lengthOverflow, s.inLen.toNat, maxLen + 1⟩ := by
  rw [acceptEncode, if_neg (Nat.not_lt.mpr hc), if_pos hl]

theorem acceptDecode_of_fits {s : State} (hc : s.inLen.toNat ≤ s.params.inCap) :
    acceptDecode s = s.startCommand Phase.decHdr := if_neg (Nat.not_lt.mpr hc)

theorem acceptDecode_of_capacity {s : State} (hc : s.params.inCap < s.inLen.toNat) :
    acceptDecode s = (s.startCommand Phase.decHdr).takeFault ⟨.lengthOverflow, s.inLen.toNat, s.params.inCap⟩ := if_pos hc

/-- A fault taken right after the start of a command: of what the start wrote, the fault entry leaves only PHASE. -/
theorem startCommand_takeFault_faulted (s : State) (p : Phase) (name : FaultName) (index : Int) (length : Nat) :
    Faulted { s with phase := p } ((s.startCommand p).takeFault ⟨name, index, length⟩) name index length :=
  { takeFault_faulted (s.startCommand p) name index length with }

/-- Settles O10: each test of an accepted command, in its order, takes the fault. -/
theorem overlongInputFaults : Obligations.OverlongInputFaults := by
  refine fun s hm => ⟨fun hc => ?_, fun hc hl => ?_, fun hc => ?_⟩
  · rw [exec_cmdEncode_of_accepted hm, acceptEncode_of_capacity hc]
    exact ⟨_, rfl, startCommand_takeFault_faulted s _ _ _ _⟩
  · rw [exec_cmdEncode_of_accepted hm, acceptEncode_of_length hc hl]
    exact ⟨_, rfl, startCommand_takeFault_faulted s _ _ _ _⟩
  · rw [exec_cmdDecode_of_accepted hm, acceptDecode_of_capacity hc]
    exact ⟨_, rfl, startCommand_takeFault_faulted s _ _ _ _⟩

/-- Settles O9: within the bounds, accepting a command is its start and nothing more. -/
theorem commandsStart : Obligations.CommandsStart := by
  refine ⟨fun s hm hc hl => ?_, fun s hm hc => ?_⟩
  · rw [exec_cmdEncode_of_accepted hm, acceptEncode_of_fits hc hl]
    rfl
  · rw [exec_cmdDecode_of_accepted hm, acceptDecode_of_fits hc]
    rfl

/-- Settles O11: accepted, CLEAR is the one update `State.clear`. -/
theorem clearReturnsToIdle : Obligations.ClearReturnsToIdle :=
  fun _ => ⟨exec_cmdClear_of_accepted, exec_cmdClear_of_busy⟩

/-! ## Writes of CMD that are ignored (40_host_commands R100, R101, R105) -/

/-- Each command's code in the low byte of CMD (30_encoding R83). -/
theorem decodeCommand_ok {v : Word} {i : Instr} (h : decodeCommand v = .ok i) :
    (i = .cmdNop ∧ v.toNat % 256 = 0) ∨ (i = .cmdEncode ∧ v.toNat % 256 = 1) ∨ (i = .cmdDecode ∧ v.toNat % 256 = 2) ∨
      (i = .cmdClear ∧ v.toNat % 256 = 3) := by
  rw [← show (v.setWidth 8).toNat = v.toNat % 256 from BitVec.toNat_setWidth 8 v]
  unfold decodeCommand at h
  split at h
  case h_5 => cases h
  all_goals
    next hv => cases h; simp [hv]

/-- Settles O7: of the commands a word can decode to, NOP is the one with code 0. -/
theorem nopChangesNothing : Obligations.NopChangesNothing := by
  refine ⟨fun v hv => ?_, fun _ => rfl⟩
  cases hd : decodeCommand v with
  | error e => exact absurd ((decodeCommand_error v).mp ⟨e, hd⟩) (by omega)
  | ok i =>
    obtain ⟨rfl, -⟩ | ⟨-, h⟩ | ⟨-, h⟩ | ⟨-, h⟩ := decodeCommand_ok hd
    · rfl
    all_goals omega

theorem writeCmd_of_error {v : Word} {e : Reject} (h : decodeCommand v = .error e) (s : State) :
    hostAct (.writeReg 0 v) s = .next s := by
  show writeRegister .cmd v s = .next s
  simp only [writeRegister, h]

/-- Settles O8: a reserved code does not decode. -/
theorem reservedCommandsIgnored : Obligations.ReservedCommandsIgnored := by
  intro s rest v ht hv
  obtain ⟨e, he⟩ := (decodeCommand_error v).mpr hv
  rw [step_of_host ht, writeCmd_of_error he]

/-- What a BUSY block and a block in FAULT do not accept. -/
theorem writeCmd_of_ignored {s : State} {v : Word} (h : s.mode = .busy ∨ (s.mode = .fault ∧ v.toNat % 256 ≠ 3)) :
    hostAct (.writeReg 0 v) s = .next s := by
  have hrun : ¬ (s.mode = .idle ∨ s.mode = .done) := by rcases h with h | ⟨h, -⟩ <;> simp [h]
  cases hd : decodeCommand v with
  | error e => exact writeCmd_of_error hd s
  | ok i =>
    rw [writeCmd_of_decodeCommand hd]
    obtain ⟨rfl, -⟩ | ⟨rfl, -⟩ | ⟨rfl, -⟩ | ⟨rfl, h3⟩ := decodeCommand_ok hd
    · rfl
    · exact exec_cmdEncode_of_ignored hrun
    · exact exec_cmdDecode_of_ignored hrun
    · exact exec_cmdClear_of_busy (h.resolve_right fun h => h.2 h3)

/-- Settles O12: the write is the step. -/
theorem commandsIgnoredByState : Obligations.CommandsIgnoredByState := by
  intro s rest v ht h
  rw [step_of_host ht, writeCmd_of_ignored (s := { s with turns := rest }) h]

/-! ## What keeps FAULT (60_exceptions R264) -/

/-- `t` has the STATE, the fault record and the PHASE of `s`. -/
structure RecordKept (s t : State) : Prop where
  mode : t.mode = s.mode
  errCode : t.errCode = s.errCode
  errIndex : t.errIndex = s.errIndex
  errLen : t.errLen = s.errLen
  phase : t.phase = s.phase

theorem RecordKept.refl (s : State) : RecordKept s s := ⟨rfl, rfl, rfl, rfl, rfl⟩

theorem readRegister_recordKept (r : Reg) (s : State) : RecordKept s (readRegister r s) := by
  unfold readRegister
  split
  · exact ⟨rfl, rfl, rfl, rfl, rfl⟩
  · exact ⟨rfl, rfl, rfl, rfl, rfl⟩

theorem regAt_cmd {off : Word} (h : regAt off = some .cmd) : off = 0 := by
  unfold regAt at h
  split at h
  case h_1 hoff => exact BitVec.eq_of_toNat_eq hoff
  all_goals cases h

/-- A write of a register other than CMD reaches `IN_LEN` at most (10_state R21, R26). -/
theorem writeRegister_recordKept {r : Reg} {v : Word} {s t : State} (hr : r ≠ .cmd) (e : writeRegister r v s = .next t) :
    RecordKept s t := by
  cases r with
  | cmd => exact absurd rfl hr
  | inLen =>
    cases e
    split
    · exact .refl s
    · exact ⟨rfl, rfl, rfl, rfl, rfl⟩
  | status | errCode | errIndex | errLen | outLen | wpos => cases e; exact .refl s

/-- Of the host's acts in FAULT, only the reset input and the write of CLEAR do more than access `IN_LEN`, `IN` and the data last read. -/
theorem hostAct_recordKept {a : HostAction} {s t : State} (hm : s.mode = .fault) (hreset : a ≠ .reset)
    (hclear : ∀ v, a = .writeReg 0 v → v.toNat % 256 ≠ 3) (e : hostAct a s = .next t) : RecordKept s t := by
  have hb : s.mode ≠ .busy := by simp [hm]
  cases a with
  | writeReg off v =>
    cases hr : regAt off with
    | none => simp [hostAct, hr] at e
    | some r =>
      by_cases hcmd : r = .cmd
      · obtain rfl := regAt_cmd (hcmd ▸ hr)
        rw [writeCmd_of_ignored (.inr ⟨hm, hclear v rfl⟩)] at e
        cases e
        exact .refl s
      · rw [writeReg_of_regAt hr] at e
        exact writeRegister_recordKept hcmd e
  | readReg off =>
    cases hr : regAt off with
    | none => simp [hostAct, hr] at e
    | some r =>
      simp only [hostAct, hr] at e
      cases e
      exact readRegister_recordKept r s
  | writeIn a b =>
    simp only [hostAct, if_neg hb] at e
    split at e
    · cases e
    · cases e; exact ⟨rfl, rfl, rfl, rfl, rfl⟩
  | readOut a =>
    simp only [hostAct, if_neg hb] at e
    split at e
    · cases e
    · cases e; exact ⟨rfl, rfl, rfl, rfl, rfl⟩
  | reset => exact absurd rfl hreset

/-- A step in FAULT is the host's act: the sequencer does not move, and a POLL reads STATUS. -/
theorem step_recordKept {s t : State} (hm : s.mode = .fault) (e : step s = .next t) (hreset : ∀ rest, s.turns ≠ .host .reset :: rest)
    (hclear : ∀ v rest, s.turns = .host (.writeReg 0 v) :: rest → v.toNat % 256 ≠ 3) : RecordKept s t := by
  have hb : s.mode ≠ .busy := by simp [hm]
  match ht : s.turns with
  | [] =>
    rw [step_of_idle_turns ht, sequence_of_not_busy hb] at e
    cases e
    exact .refl s
  | .sequencer :: rest =>
    rw [step_of_sequencer ht, sequence_of_not_busy (s := { s with turns := rest }) hb] at e
    cases e
    exact ⟨rfl, rfl, rfl, rfl, rfl⟩
  | .host a :: rest =>
    rw [step_of_host ht] at e
    exact { hostAct_recordKept (s := { s with turns := rest }) hm (fun ha => hreset rest (ha ▸ ht))
      (fun v ha => hclear v rest (ha ▸ ht)) e with }
  | .poll :: rest =>
    rw [step_of_poll ht, if_neg hb] at e
    cases e
    exact { readRegister_recordKept .status { s with turns := rest } with }

/-- Settles O55: the frame of a step in FAULT. -/
theorem faultIsSticky : Obligations.FaultIsSticky := by
  intro s t hm e hreset hclear
  have h := step_recordKept hm e hreset hclear
  exact ⟨h.mode.trans hm, h.errCode, h.errIndex, h.errLen, h.phase⟩

/-! ## The order of ENCODE's phases (40_host_commands R106, R109) -/

/-- An effect on the internal state is one on the internal state and `OUT` that leaves `OUT` as it is. -/
theorem State.onWork_eq_onOut (s : State) (r : Except Raise Work) : s.onWork r = s.onOut (r.map (·, s.outBuf)) := by cases r <;> rfl

/-- `i` is the phase at the PHASE code `p`, and it hands over to the next code unless it faults. -/
def HandsOver (p : Phase) (i : Instr) : Prop :=
  decodePhase p = .ok i ∧ ∀ s, ∃ r, exec i s = s.settle (fun _ => p + 1) (s.onOut r)

theorem HandsOver.of_onWork {p : Phase} {i : Instr} {f : State → Except Raise Work} (hi : decodePhase p = .ok i)
    (h : ∀ s, exec i s = s.settle (fun _ => p + 1) (s.onWork (f s))) : HandsOver p i :=
  ⟨hi, fun s => ⟨_, (h s).trans (congrArg _ (s.onWork_eq_onOut _))⟩⟩

/-- The PHASE codes before ENC.DONE, in order. -/
theorem encoder_handsOver {p : Phase} (h1 : 1 ≤ p.toNat) (h13 : p.toNat ≤ 13) : ∃ i, HandsOver p i := by
  have codes : ∀ p : Phase, 1 ≤ p.toNat → p.toNat ≤ 13 → p = Phase.encInit ∨ p = Phase.encCount ∨ p = Phase.encPatch ∨
      p = Phase.encLeaves ∨ p = Phase.encMerge ∨ p = Phase.encAlloc ∨ p = Phase.encPack ∨ p = Phase.encUpdate ∨ p = Phase.encFinal ∨
      p = Phase.encDerive ∨ p = Phase.encHdr ∨ p = Phase.encTreeout ∨ p = Phase.encEmit := by decide
  rcases codes p h1 h13 with rfl | rfl | rfl | rfl | rfl | rfl | rfl | rfl | rfl | rfl | rfl | rfl | rfl
  · exact ⟨.encInit, .of_onWork (f := fun s => .ok (initTables s.work)) rfl fun _ => rfl⟩
  · exact ⟨.encCount, .of_onWork rfl fun _ => rfl⟩
  · exact ⟨.encPatch, .of_onWork (f := fun s => .ok (patchFreq s.work)) rfl fun _ => rfl⟩
  · exact ⟨.encLeaves, .of_onWork (f := fun s => .ok (makeLeaves s.work)) rfl fun _ => rfl⟩
  · exact ⟨.encMerge, .of_onWork rfl fun _ => rfl⟩
  · exact ⟨.encAlloc, .of_onWork (f := fun s => .ok (allocTree s.work)) rfl fun _ => rfl⟩
  · exact ⟨.encPack, .of_onWork rfl fun _ => rfl⟩
  · exact ⟨.encUpdate, .of_onWork rfl fun _ => rfl⟩
  · exact ⟨.encFinal, .of_onWork rfl fun _ => rfl⟩
  · exact ⟨.encDerive, .of_onWork rfl fun _ => rfl⟩
  · exact ⟨.encHdr, rfl, fun _ => ⟨_, rfl⟩⟩
  · exact ⟨.encTreeout, rfl, fun _ => ⟨_, rfl⟩⟩
  · exact ⟨.encEmit, rfl, fun _ => ⟨_, rfl⟩⟩

/-- A step at a PHASE code before ENC.DONE starts the phase at the next code or ends in FAULT at its own; the host has not moved. -/
theorem step_encoder {s : State} (hb : s.mode = .busy) (h1 : 1 ≤ s.phase.toNat) (h13 : s.phase.toNat ≤ 13) (ht : s.turns = []) :
    ∃ t, step s = .next t ∧ t.turns = [] ∧
      ((t.mode = .busy ∧ t.phase = s.phase + 1) ∨ (t.mode = .fault ∧ t.phase = s.phase)) := by
  obtain ⟨i, hi, hexec⟩ := encoder_handsOver h1 h13
  obtain ⟨r, hr⟩ := hexec s
  rw [step_of_phase ht hb hi, hr]
  cases r with
  | ok x => exact ⟨_, rfl, ht, .inl ⟨hb, rfl⟩⟩
  | error e => exact ⟨_, rfl, ht, .inr ⟨rfl, rfl⟩⟩

/-- From a phase of ENCODE that `n` phases follow, `n + 1` steps end the command. -/
theorem run_encoder : ∀ (n : Nat) {s : State}, s.mode = .busy → 1 ≤ s.phase.toNat → s.phase.toNat + n = 14 → s.turns = [] →
    ∃ t, core.run (n + 1) s = .next t ∧
      ((t.mode = .done ∧ t.phase = 14) ∨ (t.mode = .fault ∧ 1 ≤ t.phase.toNat ∧ t.phase.toNat ≤ 13))
  | 0, s, hb, _, hn, ht => by
    have hp : s.phase = Phase.encDone := BitVec.eq_of_toNat_eq hn
    have hstep := step_of_phase (i := .encDone) ht hb (by rw [hp]; rfl)
    exact ⟨_, run_succ hstep 0, .inl ⟨rfl, hp⟩⟩
  | n + 1, s, hb, h1, hn, ht => by
    obtain ⟨t, hstep, ht', ⟨hb', hp⟩ | ⟨hf, hp⟩⟩ := step_encoder hb h1 (by omega) ht
    · have hnext : t.phase.toNat = s.phase.toNat + 1 := by
        rw [hp, BitVec.toNat_add]
        exact Nat.mod_eq_of_lt (show s.phase.toNat + 1 < 32 by omega)
      rw [run_succ hstep]
      exact run_encoder n hb' (by omega) (by omega) ht'
    · refine ⟨t, (run_succ hstep _).trans (run_of_not_busy ht' (by simp [hf]) _), .inr ⟨hf, ?_⟩⟩
      rw [hp]
      omega

/-- Settles O38: one phase a step, and thirteen phases follow ENC.INIT. -/
theorem encodePhaseOrder : Obligations.EncodePhaseOrder := by
  refine ⟨fun s hb h1 h13 ht => ?_, fun s hb hp ht => ?_⟩
  · obtain ⟨t, hstep, -, hend⟩ := step_encoder hb h1 h13 ht
    exact ⟨t, hstep, hend⟩
  · exact run_encoder 13 hb (by rw [hp]; decide) (by rw [hp]; rfl) ht

end Sys2Proof.Machine

/-! PROOFS. The frequency table (41_enc_freq R120 to R124): what ENC.INIT, ENC.COUNT and ENC.PATCH make of the 256 counters. The counting is an induction on the
bytes counted, split at its end; a patch leaves exactly two counters that are not 0, which `Work.withPair` names. -/

namespace Sys2Proof.Machine

/-! ## ENC.INIT (R120) -/

/-- Settles O17: the reads of the two tables after the zeroing. -/
theorem initZeroesTables : Obligations.InitZeroesTables := fun s =>
  ⟨Table.clearBelow nsym s.work.freq, invalidateCodes nsym s.work.code, rfl, Table.get_clearBelow 0 nsym s.work.freq,
    get_invalidateCodes nsym s.work.code⟩

/-! ## ENC.COUNT (R121) -/

theorem occurrences_succ (m : Table Byte) (n : Nat) (b : Byte) :
    occurrences m (n + 1) b = occurrences m n b + if memRead1 m n = b then 1 else 0 := by
  simp [occurrences, List.range_succ, List.countP_append, List.countP_singleton]

theorem occurrences_le (m : Table Byte) (n : Nat) (b : Byte) : occurrences m n b ≤ n :=
  List.countP_le_length.trans_eq List.length_range

theorem occurrences_pos {m : Table Byte} {n : Nat} {b : Byte} : 0 < occurrences m n b ↔ ∃ i < n, memRead1 m i = b := by
  simp [occurrences, List.countP_pos_iff]

/-- Counting `j + n` bytes is counting `j` and then `n` more. -/
theorem countFrom_add (P : Params) (m : Table Byte) (n : Nat) : ∀ (j i : Nat) (f : Table Nat),
    countFrom P m (j + n) i f = countFrom P m j i f >>= countFrom P m n (i + j)
  | 0, i, f => by rw [Nat.zero_add]; rfl
  | j + 1, i, f => by
    rw [Nat.succ_add, countFrom, countFrom]
    split
    · rfl
    · rw [countFrom_add P m n j, Nat.add_right_comm, Nat.add_assoc]

theorem countFrom_of_full {P : Params} {m : Table Byte} {i : Nat} {f : Table Nat} (n : Nat)
    (h : Table.get 0 f (memRead1 m i).toNat = 2 ^ P.freqBits - 1) :
    countFrom P m (n + 1) i f = .error ⟨.freqOverflow, (memRead1 m i).toNat, 0⟩ := by
  rw [countFrom]
  exact if_pos h

theorem countFrom_one {P : Params} {m : Table Byte} {i : Nat} {f : Table Nat}
    (h : Table.get 0 f (memRead1 m i).toNat ≠ 2 ^ P.freqBits - 1) :
    countFrom P m 1 i f = .ok (Table.set 0 f (memRead1 m i).toNat (Table.get 0 f (memRead1 m i).toNat + 1)) := by
  rw [countFrom]
  exact if_neg h

/-- The counter of byte `k` is at its largest value when that byte comes (R121). -/
abbrev FullAt (P : Params) (m : Table Byte) (w : Work) (k : Nat) : Prop :=
  w.freqAt (memRead1 m k).toNat + occurrences m k (memRead1 m k) = 2 ^ P.freqBits - 1

/-- `f` holds the counters of `w` after the first `n` bytes have been counted. -/
abbrev Work.Counted (w : Work) (m : Table Byte) (n : Nat) (f : Table Nat) : Prop :=
  ∀ b, Table.get 0 f b = if b < nsym then w.freqAt b + occurrences m n (BitVec.ofNat 8 b) else w.freqAt b

theorem Work.Counted.get_byte {w : Work} {m : Table Byte} {n : Nat} {f : Table Nat} (h : w.Counted m n f) (b : Byte) :
    Table.get 0 f b.toNat = w.freqAt b.toNat + occurrences m n b := by
  rw [h, if_pos (show b.toNat < nsym from b.isLt), BitVec.ofNat_toNat, BitVec.setWidth_eq]

/-- One more byte counted. -/
theorem Work.Counted.succ {w : Work} {m : Table Byte} {n : Nat} {f : Table Nat} (h : w.Counted m n f) :
    w.Counted m (n + 1) (Table.set 0 f (memRead1 m n).toNat (Table.get 0 f (memRead1 m n).toNat + 1)) := by
  intro b
  rw [Table.get_set, h.get_byte, h b]
  by_cases hb : b < nsym
  · rw [if_pos hb, if_pos hb, occurrences_succ]
    have hbyte : memRead1 m n = BitVec.ofNat 8 b ↔ b = (memRead1 m n).toNat := by
      rw [← BitVec.toNat_inj, BitVec.toNat_ofNat, Nat.mod_eq_of_lt (show b < 2 ^ 8 from hb), eq_comm]
    by_cases hm : b = (memRead1 m n).toNat
    · rw [if_pos hm, if_pos (hbyte.mpr hm), ← hbyte.mpr hm, ← hm, Nat.add_assoc]
    · rw [if_neg hm, if_neg (mt hbyte.mp hm), Nat.add_zero]
  · rw [if_neg hb, if_neg hb, if_neg (ne_of_gt ((memRead1 m n).isLt.trans_le (Nat.le_of_not_lt hb)))]

/-- The counting completes when no counter is full. -/
theorem countFrom_of_not_full {P : Params} {m : Table Byte} {w : Work} : ∀ {n : Nat}, (∀ k < n, ¬ FullAt P m w k) →
    ∃ f, countFrom P m n 0 w.freq = .ok f ∧ w.Counted m n f
  | 0, _ => ⟨w.freq, rfl, fun b => (ite_self _).symm⟩
  | n + 1, h => by
    obtain ⟨f, hf, hc⟩ := countFrom_of_not_full (n := n) fun k hk => h k (by omega)
    have hne : Table.get 0 f (memRead1 m (0 + n)).toNat ≠ 2 ^ P.freqBits - 1 := by
      rw [Nat.zero_add, hc.get_byte]
      exact h n (Nat.lt_succ_self n)
    refine ⟨_, ?_, hc.succ⟩
    rw [countFrom_add, hf, ok_bind, countFrom_one hne, Nat.zero_add]

theorem countInput_of_not_full {P : Params} {m : Table Byte} {w : Work} {n : Nat} (h : ∀ k < n, ¬ FullAt P m w k) :
    ∃ f, countInput P m n w = .ok { w with freq := f, nleaf := distinctCount f } ∧ w.Counted m n f := by
  obtain ⟨f, hf, hc⟩ := countFrom_of_not_full h
  exact ⟨f, by rw [countInput, hf], hc⟩

theorem countInput_of_full {P : Params} {m : Table Byte} {w : Work} {n k : Nat} (hk : k < n) (hfull : FullAt P m w k)
    (hfirst : ∀ j < k, ¬ FullAt P m w j) : countInput P m n w = .error ⟨.freqOverflow, (memRead1 m k).toNat, 0⟩ := by
  obtain ⟨f, hf, hc⟩ := countFrom_of_not_full hfirst
  obtain ⟨j, rfl⟩ : ∃ j, n = k + (j + 1) := ⟨n - k - 1, by omega⟩
  have hget : Table.get 0 f (memRead1 m (0 + k)).toNat = 2 ^ P.freqBits - 1 := by
    rw [Nat.zero_add, hc.get_byte]
    exact hfull
  rw [countInput, countFrom_add, hf, ok_bind, countFrom_of_full j hget, Nat.zero_add]

theorem exec_encCount_of_ok {s : State} {w : Work} (h : countInput s.params s.inBuf s.inLen.toNat s.work = .ok w) :
    exec .encCount s = .next { s with phase := Phase.encPatch, work := w } :=
  congrArg (fun r => s.settle (fun _ => Phase.encPatch) (s.onWork r)) h

/-- Settles O18: the counters before each byte, by induction on the bytes counted. -/
theorem countAddsOccurrences : Obligations.CountAddsOccurrences := by
  refine fun s => ⟨fun h => ?_, fun k hk hfull hfirst => ?_⟩
  · obtain ⟨f, hf, hc⟩ := countInput_of_not_full h
    exact ⟨f, distinctCount f, exec_encCount_of_ok hf, hc, rfl⟩
  · exact settle_faulted (congrArg s.onWork (countInput_of_full hk hfull hfirst))

/-! ## ENC.PATCH (R122, R123) -/

theorem Work.presentBelow_eq_card (w : Work) (n : Nat) :
    w.presentBelow n = ((Finset.range n).filter fun b => w.freqAt b ≠ 0).card :=
  Nat.count_eq_card_filter_range (fun b => w.freqAt b ≠ 0) n

/-- No symbol but `y` has a counter that is not 0. -/
abbrev Work.OnlyAt (w : Work) (y : Nat) : Prop := ∀ b < nsym, b ≠ y → w.freqAt b = 0

theorem Work.freqAt_eq_zero_of_presentBelow {w : Work} (h : w.presentBelow nsym = 0) {b : Nat} (hb : b < nsym) : w.freqAt b = 0 := by
  rw [Work.presentBelow_eq_card, Finset.card_eq_zero, Finset.filter_eq_empty_iff] at h
  exact not_not.mp (h (Finset.mem_range.mpr hb))

theorem Work.onlyAt_of_presentBelow {w : Work} (h : w.presentBelow nsym = 1) {y : Nat} (hy : y < nsym) (hp : w.freqAt y ≠ 0) :
    w.OnlyAt y := by
  intro b hb hne
  by_contra hb0
  rw [Work.presentBelow_eq_card, Finset.card_eq_one] at h
  obtain ⟨a, ha⟩ := h
  have only : ∀ c < nsym, w.freqAt c ≠ 0 → c = a := fun c hc h0 =>
    Finset.mem_singleton.mp (ha ▸ Finset.mem_filter.mpr ⟨Finset.mem_range.mpr hc, h0⟩)
  exact hne ((only b hb hb0).trans (only y hy hp).symm)

theorem presentSymbol_eq_some {f : Table Nat} {y : Nat} (hy : y < nsym) (hp : Table.get 0 f y ≠ 0)
    (hb : ∀ b < y, Table.get 0 f b = 0) : presentSymbol f = some y :=
  List.find?_range_eq_some.mpr ⟨by simpa using hp, List.mem_range.mpr hy, fun b h => by simp [hb b h]⟩

theorem absentSymbol_eq_some {f : Table Nat} {z : Nat} (hz : z < nsym) (ha : Table.get 0 f z = 0)
    (hb : ∀ b < z, Table.get 0 f b ≠ 0) : absentSymbol f = some z :=
  List.find?_range_eq_some.mpr ⟨by simpa using ha, List.mem_range.mpr hz, fun b h => by simp [hb b h]⟩

theorem promote_of_absent {w : Work} {z : Nat} (h : absentSymbol w.freq = some z) (n : Nat) :
    promote (n + 1) w = promote n { w with freq := Table.set 0 w.freq z 2, nleaf := w.nleaf + 1 } := by
  rw [promote, h]

/-- The internal state with the counters of `y` and `z` written, and the NLEAF that a patch leaves (R123). -/
def Work.withPair (w : Work) (y p z q : Nat) : Work := { w with freq := Table.set 0 (Table.set 0 w.freq y p) z q, nleaf := 2 }

/-- No symbol but `y` is present in `w`, and `z` is another symbol: the two that a patch writes. -/
structure Work.PatchPair (w : Work) (y z : Nat) : Prop where
  only : w.OnlyAt y
  fst : y < nsym
  snd : z < nsym
  ne : z ≠ y

/-- The smallest symbol other than `y`. -/
def smallestOther (y : Nat) : Nat := if y = 0 then 1 else 0

theorem smallestOther_ne (y : Nat) : smallestOther y ≠ y := by unfold smallestOther; split <;> omega

theorem smallestOther_lt (y : Nat) : smallestOther y < nsym := by unfold smallestOther; split <;> decide

theorem Work.OnlyAt.patchPair {w : Work} {y : Nat} (h : w.OnlyAt y) (hy : y < nsym) : w.PatchPair y (smallestOther y) :=
  ⟨h, hy, smallestOther_lt y, smallestOther_ne y⟩

/-- After the counter of the only present symbol has been written, the smallest absent symbol is the smallest other one. -/
theorem Work.OnlyAt.absentSymbol_set {w : Work} {y p : Nat} (h : w.OnlyAt y) (hp : p ≠ 0) :
    absentSymbol (Table.set 0 w.freq y p) = some (smallestOther y) := by
  have hlt := smallestOther_lt y
  have hne := smallestOther_ne y
  refine absentSymbol_eq_some hlt ?_ fun b hb => ?_
  · rw [Table.get_set_other _ _ _ hne]
    exact h _ hlt hne
  · have hby : b = y := by unfold smallestOther at hb; split at hb <;> omega
    rw [hby, Table.get_set_same]
    exact hp

theorem patchFreq_of_none {w : Work} (hn : w.nleaf = 0) (h : ∀ b < nsym, w.freqAt b = 0) : patchFreq w = w.withPair 0 2 1 2 := by
  have h0 : absentSymbol w.freq = some 0 := absentSymbol_eq_some (by decide) (h 0 (by decide)) nofun
  have h1 : absentSymbol (Table.set 0 w.freq 0 2) = some 1 := Work.OnlyAt.absentSymbol_set (fun b hb _ => h b hb) (by decide)
  rw [patchFreq, hn, if_neg (by decide), promote_of_absent h0, promote_of_absent h1, hn]
  rfl

theorem patchFreq_of_one {w : Work} (hn : w.nleaf = 1) {y : Nat} (hy : y < nsym) (hp : w.freqAt y ≠ 0) (h : w.OnlyAt y) :
    patchFreq w = w.withPair y 1 (smallestOther y) 2 := by
  have hpresent : presentSymbol w.freq = some y := presentSymbol_eq_some hy hp fun b hb => h b (hb.trans hy) hb.ne
  have hflat : flattenOnly w = { w with freq := Table.set 0 w.freq y 1 } := by rw [flattenOnly, hpresent]
  rw [patchFreq, hn, if_pos rfl, hflat, promote_of_absent (h.absentSymbol_set Nat.one_ne_zero), hn]
  rfl

theorem patchFreq_of_two {w : Work} (hn : 2 ≤ w.nleaf) : patchFreq w = w := by
  rw [patchFreq, Nat.sub_eq_zero_of_le hn, if_neg (by omega)]
  rfl

theorem Work.PatchPair.withPair_freqIs {w : Work} {y z : Nat} (h : w.PatchPair y z) (p q : Nat) :
    w.FreqIs (w.withPair y p z q).freq fun b => if b = y then p else if b = z then q else 0 := by
  intro b
  show Table.get 0 (Table.set 0 (Table.set 0 w.freq y p) z q) b = _
  rw [Table.get_set, Table.get_set]
  rcases eq_or_ne b z with rfl | hbz
  · simp [h.snd, h.ne]
  · rcases eq_or_ne b y with rfl | hby
    · simp [h.fst, hbz]
    · rw [if_neg hbz, if_neg hby]
      split
      · next hb => exact (h.only b hb hby).trans (by simp [hby, hbz])
      · rfl

theorem exec_encPatch (s : State) : exec .encPatch s = .next { s with phase := Phase.encLeaves, work := patchFreq s.work } := rfl

/-- Settles O19: the patch by NLEAF. -/
theorem patchOutcomes : Obligations.PatchOutcomes := by
  intro s hcount
  have one {y : Nat} (hy : y < nsym) (hp : s.work.freqAt y ≠ 0) (h1 : s.work.nleaf = 1) :
      ∃ f, exec .encPatch s = .next { s with phase := 4#5, work := { s.work with freq := f, nleaf := 2 } } ∧
        s.work.FreqIs f (fun b => if b = y then 1 else if b = smallestOther y then 2 else 0) := by
    have only := Work.onlyAt_of_presentBelow (hcount.symm.trans h1) hy hp
    exact ⟨_, by rw [exec_encPatch, patchFreq_of_one h1 hy hp only]; rfl,
      (only.patchPair hy).withPair_freqIs 1 2⟩
  refine ⟨fun h0 => ?_, fun y hy hy0 hp h1 => ?_, fun hp h1 => ?_, fun h2 => ?_⟩
  · have absent : ∀ b < nsym, s.work.freqAt b = 0 := fun b => Work.freqAt_eq_zero_of_presentBelow (hcount.symm.trans h0)
    have only : s.work.OnlyAt 0 := fun b hb _ => absent b hb
    exact ⟨_, by rw [exec_encPatch, patchFreq_of_none h0 absent]; rfl, (only.patchPair (by decide)).withPair_freqIs 2 2⟩
  · simpa only [smallestOther, if_neg hy0] using one hy hp h1
  · exact one (by decide) hp h1
  · rw [exec_encPatch, patchFreq_of_two h2]
    rfl

/-! ## The invariant after ENC.PATCH (R124) -/

section Pair

variable {w : Work} {y z : Nat} (h : w.PatchPair y z) (p q : Nat)
include h

theorem Work.PatchPair.withPair_freqAt {b : Nat} (hb : b < nsym) :
    (w.withPair y p z q).freqAt b = if b = y then p else if b = z then q else 0 :=
  (h.withPair_freqIs p q b).trans (if_pos hb)

theorem Work.PatchPair.withPair_freqAt_fst : (w.withPair y p z q).freqAt y = p := by rw [h.withPair_freqAt p q h.fst, if_pos rfl]

theorem Work.PatchPair.withPair_freqAt_snd : (w.withPair y p z q).freqAt z = q := by
  rw [h.withPair_freqAt p q h.snd, if_neg h.ne, if_pos rfl]

theorem Work.PatchPair.withPair_freqAt_other {b : Nat} (hb : b < nsym) (hby : b ≠ y) (hbz : b ≠ z) :
    (w.withPair y p z q).freqAt b = 0 := by
  rw [h.withPair_freqAt p q hb, if_neg hby, if_neg hbz]

theorem Work.PatchPair.withPair_freqTotal : (w.withPair y p z q).freqTotal = p + q := by
  calc (w.withPair y p z q).freqTotal = ∑ b ∈ Finset.range nsym, (w.withPair y p z q).freqAt b := by
        rw [← List.toFinset_range, List.sum_toFinset _ List.nodup_range]
        rfl
    _ = (w.withPair y p z q).freqAt y + (w.withPair y p z q).freqAt z :=
        Finset.sum_eq_add_of_mem y z (Finset.mem_range.mpr h.fst) (Finset.mem_range.mpr h.snd) h.ne.symm fun _ hb hother =>
          h.withPair_freqAt_other p q (Finset.mem_range.mp hb) hother.1 hother.2
    _ = p + q := by rw [h.withPair_freqAt_fst, h.withPair_freqAt_snd]

theorem Work.PatchPair.withPair_presentBelow {p q : Nat} (hp : p ≠ 0) (hq : q ≠ 0) : (w.withPair y p z q).presentBelow nsym = 2 := by
  have present : ((Finset.range nsym).filter fun b => (w.withPair y p z q).freqAt b ≠ 0) = {y, z} := by
    ext b
    rw [Finset.mem_filter, Finset.mem_range, Finset.mem_insert, Finset.mem_singleton]
    constructor
    · rintro ⟨hb, h0⟩
      by_contra hother
      rw [not_or] at hother
      exact h0 (h.withPair_freqAt_other p q hb hother.1 hother.2)
    · rintro (rfl | rfl)
      · exact ⟨h.fst, by rwa [h.withPair_freqAt_fst]⟩
      · exact ⟨h.snd, by rwa [h.withPair_freqAt_snd]⟩
  rw [Work.presentBelow_eq_card, present, Finset.card_pair h.ne.symm]

end Pair

/-- A patch that is applied writes two counters that add up to 3 or 4 and leaves no other one. -/
theorem patchFreq_of_lt_two {w : Work} (hcount : w.nleaf = w.presentBelow nsym) (h2 : w.nleaf < 2) :
    ∃ y p z q, patchFreq w = w.withPair y p z q ∧ w.PatchPair y z ∧ p ≠ 0 ∧ q ≠ 0 ∧ (p + q = 3 ∨ p + q = 4) := by
  obtain h0 | h1 : w.nleaf = 0 ∨ w.nleaf = 1 := by omega
  · have absent : ∀ b < nsym, w.freqAt b = 0 := fun b => Work.freqAt_eq_zero_of_presentBelow (hcount.symm.trans h0)
    have only : w.OnlyAt 0 := fun b hb _ => absent b hb
    exact ⟨0, 2, 1, 2, patchFreq_of_none h0 absent, only.patchPair (by decide), by decide⟩
  · have hone : w.presentBelow nsym = 1 := hcount.symm.trans h1
    obtain ⟨y, hmem, hdec⟩ : ∃ y ∈ List.range nsym, decide (w.freqAt y ≠ 0) = true :=
      List.countP_pos_iff.mp (Nat.one_pos.trans_eq hone.symm)
    have hy := List.mem_range.mp hmem
    have hp := of_decide_eq_true hdec
    have only := Work.onlyAt_of_presentBelow hone hy hp
    exact ⟨y, 1, smallestOther y, 2, patchFreq_of_one h1 hy hp only, only.patchPair hy, by decide⟩

theorem initTables_freqAt (w : Work) {b : Nat} (hb : b < nsym) : (initTables w).freqAt b = 0 :=
  (Table.get_clearBelow 0 nsym w.freq b).trans (if_pos hb)

/-- From zeroed counters no counter gets full on an input that ENCODE accepts (R121, 00_scope R10). -/
theorem initTables_not_full {P : Params} (hP : P.Legal) (m : Table Byte) (w : Work) {n k : Nat} (hn : n ≤ 2 ^ 24 - 1) (hk : k < n) :
    ¬ FullAt P m (initTables w) k := by
  have hrange : 2 ^ 25 ≤ 2 ^ P.freqBits := Nat.pow_le_pow_right (by decide) hP.1
  have hle := occurrences_le m k (memRead1 m k)
  rw [FullAt, initTables_freqAt w (memRead1 m k).isLt]
  omega

/-- ENC.COUNT after ENC.INIT completes on an input that ENCODE accepts: each counter holds the occurrences of its byte, and NLEAF and the sum of the
counters are as R124 says. -/
theorem countInput_of_accepted {P : Params} (hP : P.Legal) (m : Table Byte) (w : Work) {n : Nat} (hn : n ≤ 2 ^ 24 - 1) :
    ∃ v, countInput P m n (initTables w) = .ok v ∧ v.nleaf = v.presentBelow nsym ∧ v.freqTotal = n ∧
      ∀ b : Byte, v.freqAt b.toNat = occurrences m n b := by
  obtain ⟨f, hok, hcounted⟩ := countInput_of_not_full fun k hk => initTables_not_full hP m w hn hk
  refine ⟨_, hok, rfl, ?_, fun b => ?_⟩
  · rw [countInput_freqTotal hok, initTables_freqTotal, Nat.zero_add]
  · exact (Work.Counted.get_byte hcounted b).trans (by rw [initTables_freqAt _ b.isLt, Nat.zero_add])

/-- Settles O20: no counter gets full, and then a patch is applied or none is. -/
theorem countThenPatchInvariant : Obligations.CountThenPatchInvariant := by
  intro s hP hlen
  obtain ⟨v, hok, hcount, htotal, hfreq⟩ := countInput_of_accepted hP s.inBuf s.work hlen
  have present : ∀ i < s.inLen.toNat, 1 ≤ v.freqAt (memRead1 s.inBuf i).toNat := fun i hi =>
    (occurrences_pos.mpr ⟨i, hi, rfl⟩).trans_eq (hfreq _).symm
  refine ⟨{ s with phase := Phase.encCount, work := initTables s.work }, { s with phase := Phase.encPatch, work := v },
    { s with phase := Phase.encLeaves, work := patchFreq v }, rfl, exec_encCount_of_ok hok, rfl, rfl, ?_⟩
  by_cases h2 : 2 ≤ v.nleaf
  · simp only [patchFreq_of_two h2, if_pos h2]
    refine ⟨h2, hcount.trans_le (Nat.count_le _), hcount, present, htotal, fun b hb h0 => ?_⟩
    have hbyte : (BitVec.ofNat 8 b).toNat = b := Nat.mod_eq_of_lt hb
    rw [← hbyte, hfreq] at h0
    obtain ⟨i, hi, hm⟩ := occurrences_pos.mp (Nat.pos_of_ne_zero h0)
    exact ⟨i, hi, hm ▸ hbyte⟩
  · obtain ⟨y, p, z, q, hpatch, pair, hp, hq, hsum⟩ := patchFreq_of_lt_two hcount (Nat.lt_of_not_le h2)
    simp only [hpatch, if_neg h2]
    refine ⟨le_rfl, show 2 ≤ 256 by decide, (pair.withPair_presentBelow hp hq).symm, fun i hi => ?_, ?_⟩
    · have heq : (memRead1 s.inBuf i).toNat = y := by
        by_contra hother
        exact Nat.pos_iff_ne_zero.mp (present i hi) (pair.only _ (memRead1 s.inBuf i).isLt hother)
      rw [heq, pair.withPair_freqAt_fst]
      exact Nat.pos_of_ne_zero hp
    · have hpair : ((List.range 256).map (v.withPair y p z q).freqAt).sum = p + q := pair.withPair_freqTotal p q
      rwa [hpair]

end Sys2Proof.Machine

/-! PROOFS. The Huffman tree builder (42_enc_tree R130 to R136). ENC.LEAVES is an induction on the symbols visited. ENC.MERGE keeps a forest over the leaves,
`Work.IsForest`, in which each merge makes one root of two; the forest with one root is the tree. A path up the tree is followed by its fuel, since every
parent stands above its children in the arena. -/

namespace Sys2Proof.Machine

/-! ## ENC.LEAVES (R130) -/

/-- The leaf of symbol `b` (R130). -/
def Work.leafOf (w : Work) (b : Nat) : Node :=
  { sym := BitVec.ofNat 9 b, weight := w.freqAt b, leafs := 1, dad := none, lson := none, rson := none }

/-- The arena `t` holds the leaves of the symbols below `n`, in ascending order, and is that of `w` from there on. -/
abbrev Work.LeavesIn (w : Work) (n : Nat) (t : Table Node) : Prop :=
  (∀ b < n, w.freqAt b ≠ 0 → Table.get Node.null t (w.presentBelow b) = w.leafOf b) ∧
    ∀ i, w.presentBelow n ≤ i → Table.get Node.null t i = w.nodeAt i

theorem Work.presentBelow_succ (w : Work) (n : Nat) :
    w.presentBelow (n + 1) = w.presentBelow n + if w.freqAt n ≠ 0 then 1 else 0 :=
  Nat.count_succ (fun b => w.freqAt b ≠ 0) n

/-- A present symbol's leaf stands before those of all greater symbols. -/
theorem Work.presentBelow_lt {w : Work} {b n : Nat} (hp : w.freqAt b ≠ 0) (h : b < n) : w.presentBelow b < w.presentBelow n :=
  Nat.count_strict_mono (p := fun b => w.freqAt b ≠ 0) hp h

theorem Work.LeavesIn.absent {w : Work} {n : Nat} {t : Table Node} (h : w.LeavesIn n t) (h0 : w.freqAt n = 0) : w.LeavesIn (n + 1) t := by
  obtain ⟨hleaf, hbeyond⟩ := h
  have hcount : w.presentBelow (n + 1) = w.presentBelow n := by rw [w.presentBelow_succ, if_neg (not_not.mpr h0)]; rfl
  refine ⟨fun b hb hp => hleaf b (Nat.lt_of_le_of_ne (Nat.le_of_lt_succ hb) fun e => hp (e ▸ h0)) hp, fun i hi => ?_⟩
  exact hbeyond i (hcount ▸ hi)

theorem Work.LeavesIn.present {w : Work} {n : Nat} {t : Table Node} (h : w.LeavesIn n t) (hp : w.freqAt n ≠ 0) :
    w.LeavesIn (n + 1) (Table.set Node.null t (w.presentBelow n) (w.leafOf n)) := by
  obtain ⟨hleaf, hbeyond⟩ := h
  refine ⟨fun b hb hpb => ?_, fun i hi => ?_⟩
  · rcases Nat.lt_succ_iff_lt_or_eq.mp hb with hlt | rfl
    · rw [Table.get_set_other _ _ _ (Work.presentBelow_lt hpb hlt).ne]
      exact hleaf b hlt hpb
    · exact Table.get_set_same _ _ _ _
  · have hlt : w.presentBelow n < i := (Work.presentBelow_lt hp (Nat.lt_succ_self n)).trans_le hi
    rw [Table.get_set_other _ _ _ hlt.ne']
    exact hbeyond i hlt.le

/-- The arena after the first `n` symbols have been visited. -/
theorem addLeaves_below (w : Work) : ∀ n, ∃ t, (List.range n).foldl addLeaf { w with nnode := 0 } =
    { w with node := t, nnode := w.presentBelow n } ∧ w.LeavesIn n t
  | 0 => ⟨w.node, rfl, nofun, fun _ _ => rfl⟩
  | n + 1 => by
    obtain ⟨t, ht, h⟩ := addLeaves_below w n
    rw [List.range_succ, List.foldl_append, ht, w.presentBelow_succ]
    by_cases h0 : w.freqAt n = 0
    · rw [if_neg (not_not.mpr h0)]
      exact ⟨t, if_pos h0, h.absent h0⟩
    · rw [if_pos h0]
      exact ⟨_, if_neg h0, h.present h0⟩

/-- Settles O21: the arena after all 256 symbols. -/
theorem leavesInSymbolOrder : Obligations.LeavesInSymbolOrder := by
  intro s
  obtain ⟨t, ht, hleaf, hbeyond⟩ := addLeaves_below s.work nsym
  have hexec : exec .encLeaves s = .next { s with
      phase := 5#5, work := { s.work with node := t, nnode := s.work.presentBelow 256 } } :=
    congrArg (fun w => s.settle (fun _ => Phase.encMerge) (s.onWork (.ok w))) ht
  exact ⟨t, hexec, hleaf, hbeyond, fun hcount => ⟨_, hexec, hcount.symm⟩⟩

/-! ## The two lightest nodes without a parent (R131, R132) -/

/-- Node `i` is in use and has no parent. -/
abbrev Work.Free (w : Work) (i : Nat) : Prop := i < w.nnode ∧ (w.nodeAt i).dad = none

/-- `a` and `b` are the nodes that a merge selects, in this order. -/
structure Work.Lightest (w : Work) (a b : Nat) : Prop where
  fst : w.Selected w.Free a
  snd : w.Selected (fun i => w.Free i ∧ i ≠ a) b

theorem Work.Selected.unique {w : Work} {C : Nat → Prop} {a b : Nat} (ha : w.Selected C a) (hb : w.Selected C b) : a = b := by
  have h1 := ha.2 b hb.1
  have h2 := hb.2 a ha.1
  omega

theorem lightest_eq_none {w : Work} : ∀ {l : List Nat}, w.lightest l = none ↔ l = []
  | [] => ⟨fun _ => rfl, fun _ => rfl⟩
  | i :: l => by
    refine ⟨fun h => ?_, nofun⟩
    unfold Work.lightest at h
    split at h
    · cases h
    · split at h <;> cases h

/-- In an ascending list the earliest of the least weight has the smallest index. -/
theorem lightest_selected {w : Work} : ∀ {l : List Nat} {a : Nat}, l.Pairwise (· < ·) → w.lightest l = some a → w.Selected (· ∈ l) a
  | [], _, _, h => nomatch h
  | i :: l, a, hl, h => by
    obtain ⟨hi, hl⟩ := List.pairwise_cons.mp hl
    refine ⟨lightest_mem w h, fun c hc => ?_⟩
    have hc := List.mem_cons.mp hc
    unfold Work.lightest at h
    cases hj : w.lightest l with
    | none =>
      rw [hj] at h
      obtain rfl : i = a := Option.some.inj h
      rw [lightest_eq_none.mp hj] at hc
      obtain rfl : c = i := hc.resolve_right List.not_mem_nil
      exact .inr ⟨rfl, le_rfl⟩
    | some j =>
      have hrest (hc : c ∈ l) := And.intro (hi c hc) ((lightest_selected hl hj).2 c hc)
      rw [hj] at h
      simp only at h
      split at h
      all_goals
        obtain rfl := Option.some.inj h
        rcases hc with rfl | hc
        · omega
        · have := hrest hc
          omega

theorem lightest_eq_some {w : Work} {l : List Nat} (hl : l.Pairwise (· < ·)) {a : Nat} : w.lightest l = some a ↔ w.Selected (· ∈ l) a := by
  refine ⟨lightest_selected hl, fun h => ?_⟩
  cases hc : w.lightest l with
  | none => exact absurd h.1 (lightest_eq_none.mp hc ▸ List.not_mem_nil)
  | some c => rw [(lightest_selected hl hc).unique h]

theorem Work.parentless_ascending (w : Work) : w.parentless.Pairwise (· < ·) := List.pairwise_lt_range.filter _

theorem mem_parentless_ne {w : Work} {a i : Nat} : i ∈ w.parentless.filter (· ≠ a) ↔ w.Free i ∧ i ≠ a := by
  rw [List.mem_filter, mem_parentless, decide_eq_true_eq]

theorem lightest_parentless {w : Work} {a : Nat} : w.lightest w.parentless = some a ↔ w.Selected w.Free a := by
  simpa only [mem_parentless] using lightest_eq_some (w := w) w.parentless_ascending

theorem lightest_parentless_ne {w : Work} {a b : Nat} :
    w.lightest (w.parentless.filter (· ≠ a)) = some b ↔ w.Selected (fun i => w.Free i ∧ i ≠ a) b := by
  simpa only [mem_parentless_ne] using lightest_eq_some (w := w) (w.parentless_ascending.filter (· ≠ a))

theorem mergeOnce_of_lightest {w : Work} {a b : Nat} (h : w.Lightest a b) : mergeOnce w = .ok (w.join a b) := by
  unfold mergeOnce
  rw [lightest_parentless.mpr h.fst]
  simp only
  rw [lightest_parentless_ne.mpr h.snd]

theorem mergeOnce_of_few {w : Work} (h : ∀ i j, w.Free i → w.Free j → i = j) : mergeOnce w = .error ⟨.nodeNotFound, w.nnode, 0⟩ := by
  unfold mergeOnce
  cases ha : w.lightest w.parentless with
  | none => rfl
  | some a =>
    have hfree : w.Free a := (lightest_parentless.mp ha).1
    have hnil : w.parentless.filter (· ≠ a) = [] := List.eq_nil_iff_forall_not_mem.mpr fun i hi =>
      (mem_parentless_ne.mp hi).2 (h i a (mem_parentless_ne.mp hi).1 hfree)
    simp only [hnil, Work.lightest]
    rfl

/-! ## The arena after one merge (R131, R133) -/

@[simp] theorem join_nnode (w : Work) (a b : Nat) : (w.join a b).nnode = w.nnode + 1 := by rw [join_eq]

@[simp] theorem join_nleaf (w : Work) (a b : Nat) : (w.join a b).nleaf = w.nleaf := by rw [join_eq]

section Join

variable {w : Work} {a b : Nat} (h : w.Lightest a b)
include h

theorem Work.Lightest.ne : a ≠ b := h.snd.1.2.symm

theorem Work.Lightest.weight_le : (w.nodeAt a).weight ≤ (w.nodeAt b).weight := by
  have := h.fst.2 b h.snd.1.1
  omega

theorem Work.Lightest.join_nodeAt (i : Nat) : (w.join a b).nodeAt i = if i = w.nnode then w.parentOf a b
    else if i = a ∨ i = b then { w.nodeAt i with dad := some w.nnode } else w.nodeAt i :=
  Machine.join_nodeAt h.fst.1.1 h.snd.1.1.1 h.ne i

theorem Work.Lightest.join_nodeAt_new : (w.join a b).nodeAt w.nnode = w.parentOf a b := (h.join_nodeAt _).trans (if_pos rfl)

theorem Work.Lightest.join_nodeAt_child {i : Nat} (hi : i = a ∨ i = b) :
    (w.join a b).nodeAt i = { w.nodeAt i with dad := some w.nnode } := by
  have hne : i ≠ w.nnode := by rcases hi with rfl | rfl; exacts [h.fst.1.1.ne, h.snd.1.1.1.ne]
  rw [h.join_nodeAt, if_neg hne, if_pos hi]

theorem Work.Lightest.join_nodeAt_other {i : Nat} (hne : i ≠ w.nnode) (ha : i ≠ a) (hb : i ≠ b) :
    (w.join a b).nodeAt i = w.nodeAt i := by
  rw [h.join_nodeAt, if_neg hne, if_neg (not_or.mpr ⟨ha, hb⟩)]

/-- A node that has a parent already is not selected. -/
theorem Work.Lightest.join_nodeAt_of_dad {i d : Nat} (hi : i < w.nnode) (hd : (w.nodeAt i).dad = some d) :
    (w.join a b).nodeAt i = w.nodeAt i := by
  refine h.join_nodeAt_other hi.ne ?_ ?_
  · rintro rfl; exact nomatch hd.symm.trans h.fst.1.2
  · rintro rfl; exact nomatch hd.symm.trans h.snd.1.1.2

/-- Of an older node a merge writes the parent at most. -/
theorem Work.Lightest.join_nodeAt_old {i : Nat} (hi : i < w.nnode) : ∃ o, (w.join a b).nodeAt i = { w.nodeAt i with dad := o } := by
  rw [h.join_nodeAt, if_neg hi.ne]
  split
  · exact ⟨_, rfl⟩
  · exact ⟨_, rfl⟩

end Join

/-! ## The last merge -/

theorem buildTree_last {w : Work} (h : w.nnode + 2 = 2 * w.nleaf) : buildTree w = mergeOnce w := by
  have h1 : 2 * w.nleaf - 1 - w.nnode = 1 := by omega
  rw [buildTree, h1]
  unfold mergeTimes
  cases mergeOnce w <;> rfl

theorem exec_encMerge_of_ok {s : State} {w : Work} (h : buildTree s.work = .ok w) :
    exec .encMerge s = .next { s with phase := Phase.encAlloc, work := w } :=
  congrArg (fun r => s.settle (fun _ => Phase.encAlloc) (s.onWork r)) h

/-- Settles O23: one merge over the selected nodes, or none. -/
theorem mergeTakesLightest : Obligations.MergeTakesLightest := by
  intro s hlast
  refine ⟨fun a b ha hb => ?_, fun hfew => ?_⟩
  · have h : s.work.Lightest a b := ⟨ha, hb⟩
    have hok := (buildTree_last hlast).trans (mergeOnce_of_lightest h)
    have hexec := (exec_encMerge_of_ok hok).trans
      (congrArg (fun w => Host.Outcome.next { s with phase := Phase.encAlloc, work := w }) (join_eq s.work a b))
    have get (i : Nat) : Table.get Node.null (s.work.join a b).node i = (s.work.join a b).nodeAt i := rfl
    refine ⟨(s.work.join a b).node, hexec, ?_, ?_, ?_, fun i hn ha hb => ?_⟩
    · rw [get, h.join_nodeAt_new]
      rfl
    · rw [get, h.join_nodeAt_child (.inl rfl)]
    · rw [get, h.join_nodeAt_child (.inr rfl)]
    · rw [get, h.join_nodeAt_other hn ha hb]
  · exact settle_faulted (congrArg s.onWork ((buildTree_last hlast).trans (mergeOnce_of_few hfew)))

/-! ## The forest that ENC.MERGE keeps (R134, R135) -/

/-- Node `i` is a new node over two older ones, as a merge makes it (R131, R133). -/
def Work.Joins (w : Work) (i : Nat) : Prop :=
  ∃ a b, (w.nodeAt i).lson = some a ∧ (w.nodeAt i).rson = some b ∧
    a < i ∧ b < i ∧ a ≠ b ∧ (w.nodeAt a).dad = some i ∧ (w.nodeAt b).dad = some i ∧
    w.leafsOf i = w.leafsOf a + w.leafsOf b ∧ (w.nodeAt i).weight = (w.nodeAt a).weight + (w.nodeAt b).weight ∧
    (w.nodeAt a).weight ≤ (w.nodeAt b).weight ∧ (w.nodeAt i).sym.toNat = 256 + (i - w.nleaf)

/-- `d` is the internal node over `i`. -/
abbrev Work.ParentAt (w : Work) (i d : Nat) : Prop :=
  i < d ∧ d < w.nnode ∧ w.nleaf ≤ d ∧ ((w.nodeAt d).lson = some i ∨ (w.nodeAt d).rson = some i)

/-- The arena between two merges: trees over the leaves, one fewer after each merge, which together have all leaves and their weight. -/
structure Work.IsForest (w : Work) : Prop where
  count : 2 ≤ w.nleaf ∧ w.nleaf ≤ nsym ∧ w.nleaf ≤ w.nnode
  leaf : ∀ i < w.nleaf, (w.nodeAt i).sym.toNat < 256 ∧ w.leafsOf i = 1 ∧ (w.nodeAt i).lson = none ∧ (w.nodeAt i).rson = none
  internal : ∀ i, w.nleaf ≤ i → i < w.nnode → w.Joins i
  parent : ∀ i < w.nnode, ∀ d, (w.nodeAt i).dad = some d → w.ParentAt i d
  roots : w.parentless.length + w.nnode = 2 * w.nleaf
  leafs : w.freeLeafs = w.nleaf
  weight : w.freeWeight = w.leafWeight

theorem Work.OnlyLeaves.isForest {w : Work} (h : w.OnlyLeaves) : w.IsForest := by
  obtain ⟨h2, hmax, hn⟩ := h.count
  have hparentless : w.parentless = List.range w.nleaf := by
    rw [Work.parentless, hn, List.filter_eq_self]
    intro i hi
    obtain ⟨-, -, hdad, -⟩ := h.leaf i (List.mem_range.mp hi)
    exact decide_eq_true hdad
  refine ⟨⟨h2, hmax, hn.ge⟩, fun i hi => ?_, fun i h1 h3 => absurd h3 (by omega), fun i hi d hd => ?_, ?_, ?_, ?_⟩
  · obtain ⟨hsym, hleafs, -, hsons⟩ := h.leaf i hi
    exact ⟨hsym, hleafs, hsons⟩
  · obtain ⟨-, -, hdad, -⟩ := h.leaf i (hn ▸ hi)
    exact nomatch hd.symm.trans hdad
  · rw [hparentless, List.length_range, hn]
    omega
  · have hone : (List.range w.nleaf).map w.leafsOf = (List.range w.nleaf).map fun _ => 1 :=
      List.map_congr_left fun i hi => (h.leaf i (List.mem_range.mp hi)).2.1
    rw [Work.freeLeafs, hparentless, hone]
    simp
  · rw [Work.freeWeight, hparentless]
    rfl

/-! ### The roots -/

theorem length_filter_ne {l : List Nat} (hl : l.Nodup) {a : Nat} (ha : a ∈ l) : (l.filter (· ≠ a)).length + 1 = l.length := by
  have herase : l.filter (· ≠ a) = l.erase a := by
    rw [hl.erase_eq_filter]
    exact List.filter_congr fun i _ => by rw [bne, decide_not, beq_eq_decide]
  rw [herase, List.length_erase_of_mem ha]
  have := List.length_pos_of_mem ha
  omega

theorem Work.parentless_nodup (w : Work) : w.parentless.Nodup := List.nodup_range.filter _

/-- With two roots or more a merge finds its two nodes. -/
theorem exists_lightest {w : Work} (h : 2 ≤ w.parentless.length) : ∃ a b, w.Lightest a b := by
  cases ha : w.lightest w.parentless with
  | none => rw [lightest_eq_none.mp ha] at h; exact absurd h (by decide)
  | some a =>
    cases hb : w.lightest (w.parentless.filter (· ≠ a)) with
    | none =>
      have := length_filter_ne w.parentless_nodup (lightest_mem w ha)
      rw [lightest_eq_none.mp hb, List.length_nil] at this
      omega
    | some b => exact ⟨a, b, lightest_parentless.mp ha, lightest_parentless_ne.mp hb⟩

theorem Work.Lightest.parentless_join {w : Work} {a b : Nat} (h : w.Lightest a b) :
    (w.join a b).parentless = (w.parentless.filter (· ≠ a)).filter (· ≠ b) ++ [w.nnode] := by
  have hnew : decide (((w.join a b).nodeAt w.nnode).dad = none) = true := by rw [h.join_nodeAt_new]; rfl
  have hold : (List.range w.nnode).filter (fun i => ((w.join a b).nodeAt i).dad = none) =
      (w.parentless.filter (· ≠ a)).filter (· ≠ b) := by
    rw [Work.parentless, List.filter_filter, List.filter_filter]
    refine List.filter_congr fun i hi => ?_
    by_cases hab : i = a ∨ i = b
    · rw [h.join_nodeAt_child hab]
      rcases hab with rfl | rfl <;> simp
    · obtain ⟨hna, hnb⟩ := not_or.mp hab
      rw [h.join_nodeAt_other (List.mem_range.mp hi).ne hna hnb]
      simp [hna, hnb]
  rw [Work.parentless, join_nnode, List.range_succ, List.filter_append, List.filter_singleton, hnew, hold]
  rfl

theorem Work.Lightest.parentless_join_length {w : Work} {a b : Nat} (h : w.Lightest a b) :
    (w.join a b).parentless.length + 1 = w.parentless.length := by
  have ha := length_filter_ne w.parentless_nodup (mem_parentless.mpr h.fst.1)
  have hb := length_filter_ne (w.parentless_nodup.filter (· ≠ a)) (mem_parentless_ne.mpr h.snd.1)
  rw [h.parentless_join, List.length_append, List.length_singleton]
  omega

/-! ### A merge keeps the forest -/

section Merge

variable {w : Work} {a b : Nat} (h : w.Lightest a b)
include h

/-- What the new node of a merge is. -/
theorem Work.IsForest.joins_new (hw : w.IsForest) (hroom : w.nnode + 2 ≤ 2 * w.nleaf) : (w.join a b).Joins w.nnode := by
  obtain ⟨-, hmax, -⟩ := hw.count
  have ha := h.join_nodeAt_child (.inl rfl)
  have hb := h.join_nodeAt_child (.inr rfl)
  have hsym : (BitVec.ofNat 9 (256 + (w.nnode - w.nleaf))).toNat = 256 + (w.nnode - w.nleaf) :=
    Nat.mod_eq_of_lt (by unfold nsym at hmax; omega)
  refine ⟨a, b, ?_⟩
  simp only [Work.leafsOf, join_nleaf, h.join_nodeAt_new, ha, hb]
  exact ⟨rfl, rfl, h.fst.1.1, h.snd.1.1.1, h.ne, trivial, trivial, rfl, rfl, h.weight_le, hsym⟩

/-- An older internal node's children have their parent, so that the merge leaves them alone. -/
theorem Work.Joins.join {i : Nat} (hi : i < w.nnode) (hj : w.Joins i) : (w.join a b).Joins i := by
  obtain ⟨p, q, hl, hr, hp, hq, hne, hdp, hdq, hrest⟩ := hj
  obtain ⟨o, ho⟩ := h.join_nodeAt_old hi
  refine ⟨p, q, ?_⟩
  simp only [Work.leafsOf, join_nleaf, ho, h.join_nodeAt_of_dad (hp.trans hi) hdp, h.join_nodeAt_of_dad (hq.trans hi) hdq]
  exact ⟨hl, hr, hp, hq, hne, hdp, hdq, hrest⟩

theorem Work.IsForest.parentAt_join (hw : w.IsForest) {i d : Nat} (hi : i < w.nnode + 1) (hd : ((w.join a b).nodeAt i).dad = some d) :
    (w.join a b).ParentAt i d := by
  obtain ⟨-, -, hle⟩ := hw.count
  rw [Work.ParentAt, join_nnode, join_nleaf]
  rcases Nat.lt_succ_iff_lt_or_eq.mp hi with hi | rfl
  · by_cases hab : i = a ∨ i = b
    · rw [h.join_nodeAt_child hab] at hd
      obtain rfl : w.nnode = d := Option.some.inj hd
      refine ⟨hi, Nat.lt_succ_self _, hle, ?_⟩
      rw [h.join_nodeAt_new]
      exact hab.imp (fun e => congrArg some e.symm) (fun e => congrArg some e.symm)
    · obtain ⟨ha, hb⟩ := not_or.mp hab
      rw [h.join_nodeAt_other hi.ne ha hb] at hd
      obtain ⟨hid, hdn, hnd, hson⟩ := hw.parent i hi d hd
      obtain ⟨o, ho⟩ := h.join_nodeAt_old hdn
      refine ⟨hid, Nat.lt_succ_of_lt hdn, hnd, ?_⟩
      rw [ho]
      exact hson
  · rw [h.join_nodeAt_new] at hd
    exact nomatch hd

theorem Work.IsForest.leafWeight_join (hw : w.IsForest) : (w.join a b).leafWeight = w.leafWeight := by
  obtain ⟨-, -, hle⟩ := hw.count
  rw [Work.leafWeight, Work.leafWeight, join_nleaf]
  refine congrArg List.sum (List.map_congr_left fun i hi => ?_)
  obtain ⟨o, ho⟩ := h.join_nodeAt_old ((List.mem_range.mp hi).trans_le hle)
  rw [ho]

theorem Work.IsForest.join (hw : w.IsForest) (hroom : w.nnode + 2 ≤ 2 * w.nleaf) : (w.join a b).IsForest where
  count := by
    obtain ⟨h2, hmax, hle⟩ := hw.count
    rw [join_nleaf, join_nnode]
    exact ⟨h2, hmax, Nat.le_succ_of_le hle⟩
  leaf i hi := by
    rw [join_nleaf] at hi
    obtain ⟨-, -, hle⟩ := hw.count
    obtain ⟨o, ho⟩ := h.join_nodeAt_old (hi.trans_le hle)
    simp only [Work.leafsOf, ho]
    exact hw.leaf i hi
  internal i h1 h2 := by
    rw [join_nleaf] at h1
    rw [join_nnode] at h2
    rcases Nat.lt_succ_iff_lt_or_eq.mp h2 with hi | rfl
    · exact (hw.internal i h1 hi).join h hi
    · exact hw.joins_new h hroom
  parent i hi d hd := hw.parentAt_join h (join_nnode w a b ▸ hi) hd
  roots := by
    have hlen := h.parentless_join_length
    have hroots := hw.roots
    rw [join_nnode, join_nleaf]
    omega
  leafs := (freeSum_join h.fst.1 h.snd.1.1 h.ne Node.leafs rfl).trans (hw.leafs.trans (join_nleaf w a b).symm)
  weight := (freeSum_join h.fst.1 h.snd.1.1 h.ne Node.weight rfl).trans (hw.weight.trans (hw.leafWeight_join h).symm)

end Merge

/-! ## All merges (R134, R137) -/

/-- `w'` is `w` after some merges: nodes were appended, and of the older ones only the parents were written. -/
structure Work.Grown (w w' : Work) : Prop where
  same : w' = { w with node := w'.node, nnode := w'.nnode }
  nnode_le : w.nnode ≤ w'.nnode
  old : ∀ i < w.nnode, ∃ o, w'.nodeAt i = { w.nodeAt i with dad := o }
  beyond : ∀ i, w'.nnode ≤ i → w'.nodeAt i = w.nodeAt i

theorem Work.Grown.refl (w : Work) : w.Grown w := ⟨rfl, le_rfl, fun _ _ => ⟨_, rfl⟩, fun _ _ => rfl⟩

theorem Work.Grown.trans {u v w : Work} (h : u.Grown v) (g : v.Grown w) : u.Grown w where
  same := by rw [g.same, h.same]
  nnode_le := h.nnode_le.trans g.nnode_le
  old i hi := by
    obtain ⟨o, ho⟩ := h.old i hi
    obtain ⟨p, hp⟩ := g.old i (hi.trans_le h.nnode_le)
    exact ⟨p, by rw [hp, ho]⟩
  beyond i hi := (g.beyond i hi).trans (h.beyond i (g.nnode_le.trans hi))

theorem Work.Lightest.grown {w : Work} {a b : Nat} (h : w.Lightest a b) : w.Grown (w.join a b) where
  same := join_eq w a b
  nnode_le := (Nat.le_succ _).trans_eq (join_nnode w a b).symm
  old _ := h.join_nodeAt_old
  beyond i hi := by
    rw [join_nnode] at hi
    have hi : w.nnode < i := hi
    exact h.join_nodeAt_other hi.ne' (h.fst.1.1.trans hi).ne' (h.snd.1.1.1.trans hi).ne'

/-- A forest with `n + 1` roots has one left after `n` merges. -/
theorem mergeTimes_forest : ∀ (n : Nat) {w : Work}, w.IsForest → w.nnode + n + 1 = 2 * w.nleaf →
    ∃ w', mergeTimes n w = .ok w' ∧ w'.IsForest ∧ w.Grown w' ∧ w'.nnode = w.nnode + n
  | 0, w, hw, _ => ⟨w, rfl, hw, .refl w, rfl⟩
  | n + 1, w, hw, hn => by
    have hroots := hw.roots
    obtain ⟨a, b, h⟩ := exists_lightest (w := w) (by omega)
    have hn' : (w.join a b).nnode + n + 1 = 2 * (w.join a b).nleaf := by rw [join_nnode, join_nleaf]; omega
    obtain ⟨w', hok, hw', hgrown, hcount⟩ := mergeTimes_forest n (hw.join h (by omega)) hn'
    refine ⟨w', ?_, hw', h.grown.trans hgrown, by rw [hcount, join_nnode]; omega⟩
    rw [mergeTimes, mergeOnce_of_lightest h]
    exact hok

/-- The forest with one root is the tree: the newest node has no parent, so that every other one has. -/
theorem Work.IsForest.isTree {w : Work} (hw : w.IsForest) (hn : w.nnode = 2 * w.nleaf - 1) : w.IsTree := by
  obtain ⟨h2, hmax, hle⟩ := hw.count
  have hroots := hw.roots
  have hfree : w.Free (w.nnode - 1) := by
    refine ⟨by omega, Option.eq_none_iff_forall_ne_some.mpr fun d hd => ?_⟩
    obtain ⟨h1, h3, -⟩ := hw.parent _ (by omega) d hd
    omega
  have hone : w.parentless = [w.nnode - 1] := by
    obtain ⟨r, hr⟩ := List.length_eq_one_iff.mp (show w.parentless.length = 1 by omega)
    have hmem := mem_parentless.mpr hfree
    rw [hr, List.mem_singleton] at hmem
    rw [hr, hmem]
  refine ⟨⟨h2, hmax, hn⟩, hw.leaf, hw.internal, fun i hi => ?_, hfree.2, ?_, ?_⟩
  · cases hd : (w.nodeAt i).dad with
    | none =>
      have hmem := mem_parentless.mpr ⟨Nat.lt_of_succ_lt hi, hd⟩
      rw [hone, List.mem_singleton] at hmem
      omega
    | some d => exact ⟨d, rfl, hw.parent i (Nat.lt_of_succ_lt hi) d hd⟩
  · rw [← hw.leafs, Work.freeLeafs, hone, List.map_singleton, List.sum_singleton]
  · rw [← hw.weight, Work.freeWeight, hone, List.map_singleton, List.sum_singleton]

/-- Settles O22: `NLEAF - 1` merges of the forest of leaves. -/
theorem mergeBuildsTree : Obligations.MergeBuildsTree := by
  intro s hs
  obtain ⟨h2, -, hn⟩ := hs.count
  have hmerges : s.work.nnode + (2 * s.work.nleaf - 1 - s.work.nnode) = 2 * s.work.nleaf - 1 := by omega
  obtain ⟨w, hok, hforest, hgrown, hcount⟩ := mergeTimes_forest (2 * s.work.nleaf - 1 - s.work.nnode) hs.isForest (by omega)
  have hcount := hcount.trans hmerges
  have hsame : w = { s.work with node := w.node, nnode := 2 * s.work.nleaf - 1 } := by rw [← hcount]; exact hgrown.same
  have htree : w.IsTree := hforest.isTree (hcount.trans (by rw [hgrown.same]))
  refine ⟨w.node, ?_, hsame ▸ htree, fun i hi => ?_, fun i hi => hgrown.beyond i (hcount.trans_le hi)⟩
  · rw [← hsame]
    exact exec_encMerge_of_ok hok
  · obtain ⟨o, ho⟩ := hgrown.old i (hn ▸ hi)
    have ho : Table.get Node.null w.node i = _ := ho
    rw [ho]
    exact ⟨rfl, rfl⟩

/-! ## PATH (R136) -/

theorem pathFrom_of_root {w : Work} {i : Nat} (h : (w.nodeAt i).dad = none) : ∀ n, w.pathFrom n i = []
  | 0 => rfl
  | n + 1 => by rw [Work.pathFrom, h]

theorem pathFrom_of_dad {w : Work} {i d : Nat} (h : (w.nodeAt i).dad = some d) (n : Nat) :
    w.pathFrom (n + 1) i = decide ((w.nodeAt d).lson ≠ some i) :: w.pathFrom n d := by
  rw [Work.pathFrom, h]

/-- A step down by the last bit of a path. -/
theorem descend_append_one (w : Work) (n : Nat) (bits : List Bool) (bit : Bool) : w.descend n (bits ++ [bit]) =
    if bit then w.rightOf (w.descend n bits) else w.leftOf (w.descend n bits) := by
  simp [Work.descend]

/-- The bit of a child leads from its parent to it. -/
theorem Work.ParentAt.child {w : Work} {i d : Nat} (h : w.ParentAt i d) :
    (if decide ((w.nodeAt d).lson ≠ some i) then w.rightOf d else w.leftOf d) = i := by
  obtain ⟨-, -, -, hson⟩ := h
  by_cases hl : (w.nodeAt d).lson = some i
  · simp [hl, Work.leftOf, linkIndex]
  · simp [hl, hson.resolve_left hl, Work.rightOf, linkIndex]

/-- From node `i` the path rises in the arena at each step, up to the root, and leads back. -/
theorem Work.IsTree.pathFrom {w : Work} (h : w.IsTree) : ∀ (n : Nat) {i : Nat}, i < w.nnode → w.nnode ≤ i + 1 + n →
    (w.pathFrom n i).length + i < w.nnode ∧ w.descend (w.nnode - 1) (w.pathFrom n i).reverse = i := by
  have root {i : Nat} (n : Nat) (hi : i + 1 = w.nnode) :
      (w.pathFrom n i).length + i < w.nnode ∧ w.descend (w.nnode - 1) (w.pathFrom n i).reverse = i := by
    obtain rfl : w.nnode - 1 = i := by omega
    rw [pathFrom_of_root h.root.1]
    exact ⟨by rw [List.length_nil]; omega, rfl⟩
  intro n
  induction n with
  | zero => exact fun hi hn => root 0 (by omega)
  | succ n ih =>
    intro i hi hn
    by_cases hroot : i + 1 = w.nnode
    · exact root _ hroot
    · obtain ⟨d, hd, hparent⟩ := h.parent i (by omega)
      have ⟨hid, hdn, _⟩ := hparent
      obtain ⟨hlen, hdescend⟩ := ih hdn (by omega)
      rw [pathFrom_of_dad hd, List.length_cons, List.reverse_cons, descend_append_one, hdescend]
      exact ⟨by omega, Work.ParentAt.child hparent⟩

/-- Settles O24: a leaf's parent is an internal node, of which there are `NLEAF - 1`. -/
theorem pathsDescendFromRoot : Obligations.PathsDescendFromRoot := by
  intro w h i hi
  obtain ⟨h2, hmax, hn⟩ := h.count
  unfold nsym at hmax
  obtain ⟨d, hd, hid, hdn, hnd, hson⟩ := h.parent i (by omega)
  obtain ⟨hlen, -⟩ := h.pathFrom 510 hdn (by omega)
  obtain ⟨-, hdescend⟩ := h.pathFrom maxNodes (i := i) (by omega) (by unfold maxNodes; omega)
  have hstep : (w.path i).length = (w.pathFrom 510 d).length + 1 := congrArg List.length (pathFrom_of_dad hd 510)
  exact ⟨by omega, by omega, hdescend⟩

end Sys2Proof.Machine

/-! PROOFS. The flat tree (43_enc_ctree R150 to R161): the reads of a slot after each write, ENC.ALLOC, and ENC.FINAL, which is an induction on the slots. In
the finished tree the walk along a leaf's path follows the path node by node, from the root down. -/

namespace Sys2Proof.Machine

/-! ## Slots after a write (00_scope R15) -/

theorem slot_of_treeWrite {w w' : Work} {i : Nat} {v : Int} (h : treeWrite w i v = .ok w') (x : Nat) :
    ((w'.slot x).toNat : Int) = if x = i then v else (w.slot x).toNat := by
  obtain ⟨-, ⟨hv0, hv⟩, rfl⟩ := treeWrite_ok.mp h
  unfold Work.slot
  rw [Int.toNat_natCast, Table.get_set]
  split
  · rw [BitVec.toNat_ofNat, Nat.mod_eq_of_lt (by omega)]; omega
  · rfl

/-- The write of a slot that is in range, of a value that a byte holds. -/
theorem treeWrite_of_fits {w : Work} {i v : Nat} (hi : i < w.ctLen) (hv : v ≤ 255) :
    treeWrite w i v = .ok { w with ctree := Table.set (0 : Byte) w.ctree i (BitVec.ofNat 8 v) } :=
  treeWrite_ok.mpr ⟨by omega, by omega, rfl⟩

theorem treeRead_of_fits {w : Work} {i : Nat} (hi : i < w.ctLen) : treeRead w i = .ok (w.slot i) := treeRead_ok.mpr ⟨by omega, rfl⟩

theorem maskRead_of_fits {w : Work} {i : Nat} (hi : i < w.ctLen) : maskRead w i = .ok (w.maskSlot i) := maskRead_ok.mpr ⟨by omega, rfl⟩

theorem maskWrite_of_fits {w : Work} {i : Nat} (hi : i < w.ctLen) (v : Byte) :
    maskWrite w i v = .ok { w with cmask := Table.set (0 : Byte) w.cmask i v } := maskWrite_ok.mpr ⟨by omega, rfl⟩

/-! ## Overflowing slots (R156) -/

theorem overflows_eq_true {w : Work} {i : Nat} :
    w.overflows i = true ↔ w.maskSlot i ≠ leafSentinel ∧ hufNext < (w.slot i).toNat := by
  simp [Work.overflows]

theorem overflows_eq_false {w : Work} {i : Nat} :
    w.overflows i = false ↔ (w.maskSlot i ≠ leafSentinel → (w.slot i).toNat ≤ hufNext) := by
  rw [← Bool.not_eq_true, overflows_eq_true, not_and, Nat.not_lt]

theorem Work.NoOverflow.overflows {w : Work} (h : w.NoOverflow) {i : Nat} (h1 : 1 ≤ i) (hi : i < w.ctLen) : w.overflows i = false :=
  overflows_eq_false.mpr (h i h1 hi)

/-- The mask of an internal node is no sentinel (30_encoding R82). -/
theorem leafFlags_ne_sentinel (w : Work) (n : Nat) : w.leafFlags n ≠ leafSentinel := by
  unfold Work.leafFlags
  split <;> split <;> decide

/-! ## ENC.ALLOC (R150) -/

/-- Rounding up to odd. -/
theorem or_one_eq (n : Nat) : n ||| 1 = 2 * (n / 2) + 1 := by
  have hdiv : (n ||| 1) / 2 = n / 2 := by rw [Nat.or_div_two, show 1 / 2 = 0 from rfl, Nat.or_zero]
  have hmod : (n ||| 1) % 2 = 1 := Nat.or_mod_two_eq_one.mpr (.inr rfl)
  omega

/-- Settles O25: the size is computed by rounding up to odd, the buffers are read slot by slot. -/
theorem allocSizesTree : Obligations.AllocSizesTree := by
  intro s h1 h256 size
  have hsize : size = 2 * ((s.work.nleaf - 1) / 2) + 1 := or_one_eq _
  have hlen : treeLen (sizeByteOf s.work.nleaf) = 2 * (size + 1) := rfl
  refine ⟨(allocTree s.work).ctree, (allocTree s.work).cmask, rfl, ?_, by omega, by omega, by omega, ?_, fun i hi => ?_, fun i => ?_⟩
  · split <;> omega
  · show (Table.get (0 : Byte) (Table.set _ _ 0 (BitVec.ofNat 8 size)) 0).toNat = size
    rw [Table.get_set_same, BitVec.toNat_ofNat, Nat.mod_eq_of_lt (by omega)]
  · show Table.get (0 : Byte) (Table.set _ _ 0 _) i = _
    rw [Table.get_set_other _ _ _ (by omega), Table.get_clearBelow, hlen]; rfl
  · exact Table.get_clearBelow (0 : Byte) _ s.work.cmask i

/-! ## ENC.FINAL (R160) -/

/-- The byte that ENC.FINAL leaves in a slot. -/
def Work.finalByte (w : Work) (i : Nat) : Byte := if w.maskSlot i ≠ leafSentinel then w.slot i ||| w.maskSlot i else w.slot i

theorem finalSlot_of_fits {w : Work} {i : Nat} (hi : i < w.ctLen) (h : w.overflows i = false) :
    ∃ ct, finalSlot w i = .ok { w with ctree := ct } ∧ ∀ y, Table.get (0 : Byte) ct y = if y = i then w.finalByte i else w.slot y := by
  unfold finalSlot Work.finalByte
  rw [maskRead_of_fits hi, ok_bind]
  by_cases hm : w.maskSlot i = leafSentinel
  · refine ⟨w.ctree, by rw [if_pos hm], fun y => ?_⟩
    rw [if_neg (not_not.mpr hm)]
    split
    · next hy => rw [hy]; rfl
    · rfl
  · refine ⟨Table.set (0 : Byte) w.ctree i (w.slot i ||| w.maskSlot i), ?_, fun y => ?_⟩
    · rw [if_neg hm, treeRead_of_fits hi, ok_bind, if_neg (Nat.not_lt.mpr (overflows_eq_false.mp h hm)), treeWrite_of_fits hi (by omega),
        BitVec.ofNat_toNat, BitVec.setWidth_eq]
    · rw [if_pos hm, Table.get_set]; rfl

theorem finalSlot_of_overflow {w : Work} {i : Nat} (hi : i < w.ctLen) (h : w.overflows i = true) :
    finalSlot w i = .error ⟨.treeUnresolved, i, w.ctLen⟩ := by
  obtain ⟨hm, hv⟩ := overflows_eq_true.mp h
  rw [finalSlot, maskRead_of_fits hi, ok_bind, if_neg hm, treeRead_of_fits hi, ok_bind, if_pos hv, raise_eq_error]

theorem finalFrom_append (b : Nat) : ∀ (a i : Nat) (w : Work), finalFrom (a + b) i w = finalFrom a i w >>= finalFrom b (i + a)
  | 0, i, w => by rw [Nat.zero_add]; rfl
  | a + 1, i, w => by
    rw [Nat.succ_add, finalFrom, finalFrom]
    cases finalSlot w i with
    | error e => rfl
    | ok u => rw [ok_bind, ok_bind, finalFrom_append b a, Nat.add_right_comm, Nat.add_assoc]

/-- The slots from `i` on, none of which overflows, are finished one by one. -/
theorem finalFrom_of_fits : ∀ (n : Nat) {i : Nat} {w : Work}, (∀ j, i ≤ j → j < i + n → j < w.ctLen ∧ w.overflows j = false) →
    ∃ ct, finalFrom n i w = .ok { w with ctree := ct } ∧
      ∀ y, Table.get (0 : Byte) ct y = if i ≤ y ∧ y < i + n then w.finalByte y else w.slot y
  | 0, i, w, _ => ⟨w.ctree, rfl, fun y => by rw [if_neg (by omega)]; rfl⟩
  | n + 1, i, w, h => by
    obtain ⟨hi, hfit⟩ := h i le_rfl (by omega)
    obtain ⟨ct, hstep, hct⟩ := finalSlot_of_fits hi hfit
    have hkept : ∀ y, y ≠ i → ({ w with ctree := ct } : Work).slot y = w.slot y := fun y hy => (hct y).trans (if_neg hy)
    obtain ⟨ct', hrest, hct'⟩ := finalFrom_of_fits n (i := i + 1) (w := { w with ctree := ct }) fun j hj hjn => by
      have hov : ({ w with ctree := ct } : Work).overflows j = w.overflows j := by
        simp only [Work.overflows, hkept j (by omega)]; rfl
      rw [hov]; exact h j (by omega) (by omega)
    refine ⟨ct', by rw [finalFrom, hstep, ok_bind, hrest], fun y => ?_⟩
    rw [hct' y]
    by_cases hy : y = i
    · subst hy
      rw [if_neg (by omega), if_pos (by omega)]
      exact (hct y).trans (if_pos rfl)
    · have hbyte : ({ w with ctree := ct } : Work).finalByte y = w.finalByte y := by
        simp only [Work.finalByte, hkept y hy]; rfl
      rw [hbyte, hkept y hy]
      exact if_congr (by omega) rfl rfl

/-- ENC.FINAL of a tree whose offsets fit the field. -/
theorem finalTree_of_fits {w : Work} (h : w.NoOverflow) : ∃ ct, finalTree w = .ok { w with ctree := ct } ∧
    ∀ y, Table.get (0 : Byte) ct y = if 1 ≤ y ∧ y < w.ctLen then w.finalByte y else w.slot y := by
  obtain ⟨ct, hfinal, hct⟩ := finalFrom_of_fits (w.ctLen - 1) (i := 1) (w := w)
    fun j h1 hj => ⟨by omega, h.overflows h1 (by omega)⟩
  exact ⟨ct, hfinal, fun y => (hct y).trans (if_congr (by omega) rfl rfl)⟩

theorem exec_encFinal_of_ok {s : State} {w : Work} (h : finalTree s.work = .ok w) :
    exec .encFinal s = .next { s with phase := Phase.encDerive, work := w } :=
  congrArg (fun r => s.settle (fun _ => Phase.encDerive) (s.onWork r)) h

/-- Settles O30: without an overflow every slot is finished; else the slots below the first overflowing one are, and that one raises. -/
theorem finalAppliesMasks : Obligations.FinalAppliesMasks := by
  intro s
  refine ⟨fun h => ?_, fun k h1 hk hm hv hfirst => ?_⟩
  · obtain ⟨ct, hfinal, hct⟩ := finalTree_of_fits h
    refine ⟨ct, exec_encFinal_of_ok hfinal, fun i => ?_⟩
    rw [hct i, Work.finalByte, ← ite_and]
    exact if_congr and_assoc rfl rfl
  · refine settle_faulted (r := s.onWork (finalTree s.work)) ?_
    obtain ⟨ct, hbelow, hct⟩ := finalFrom_of_fits (k - 1) (i := 1) (w := s.work)
      fun j hj hjk => ⟨by omega, overflows_eq_false.mpr (hfirst j hj (by omega))⟩
    have hover : ({ s.work with ctree := ct } : Work).overflows k = true := overflows_eq_true.mpr ⟨hm, by
      rw [show ({ s.work with ctree := ct } : Work).slot k = s.work.slot k from (hct k).trans (if_neg (by omega))]; exact hv⟩
    have hraise : finalTree s.work = .error ⟨.treeUnresolved, k, s.work.ctLen⟩ := by
      rw [finalTree, show s.work.ctLen - 1 = (k - 1) + ((s.work.ctLen - k - 1) + 1) by omega, finalFrom_append, hbelow, ok_bind,
        show 1 + (k - 1) = k by omega, finalFrom, finalSlot_of_overflow (w := { s.work with ctree := ct }) hk hover]
      rfl
    rw [hraise, State.onWork_error]

/-! ## The finished flat tree (R161) -/

theorem offsetOf_eq_extract (b : Byte) : offsetOf b = (b.extractLsb' 0 6).toNat := by
  rw [offsetOf, BitVec.toNat_and, BitVec.extractLsb'_toNat, Nat.shiftRight_zero]
  exact Nat.and_two_pow_sub_one_eq_mod _ 6

/-- An offset that fits the field, under the mask of its node, is a node byte. -/
theorem or_leafFlags {v : Byte} (hv : v.toNat ≤ hufNext) (w : Work) (n : Nat) : v ||| w.leafFlags n =
    nodeByte (decide (w.leafsOf (w.leftOf n) = 1)) (decide (w.leafsOf (w.rightOf n) = 1)) (v.setWidth 6) := by
  have hwidth : (v.setWidth 6).setWidth 8 = v := by
    apply BitVec.eq_of_toNat_eq
    have : v.toNat ≤ 63 := hv
    rw [BitVec.toNat_setWidth, BitVec.toNat_setWidth, Nat.mod_eq_of_lt (a := v.toNat) (by omega), Nat.mod_eq_of_lt (by omega)]
  rw [nodeByte, hwidth, BitVec.or_comm]
  simp only [Work.leafFlags, decide_eq_true_eq]

/-- Its fields are the offset and the flags of the leaf children (30_encoding R75). -/
theorem or_leafFlags_fields {v : Byte} (hv : v.toNat ≤ hufNext) (w : Work) (n : Nat) : offsetOf (v ||| w.leafFlags n) = v.toNat ∧
    childIsLeaf (v ||| w.leafFlags n) false = decide (w.leafsOf (w.leftOf n) = 1) ∧
    childIsLeaf (v ||| w.leafFlags n) true = decide (w.leafsOf (w.rightOf n) = 1) := by
  obtain ⟨hleft, hright, hoffset⟩ := nodeByte_fields (decide (w.leafsOf (w.leftOf n) = 1)) (decide (w.leafsOf (w.rightOf n) = 1)) (v.setWidth 6)
  rw [or_leafFlags hv, offsetOf_eq_extract, hoffset]
  refine ⟨?_, (and_lchar_ne_zero _).trans hleft, (and_rchar_ne_zero _).trans hright⟩
  have : v.toNat ≤ 63 := hv
  rw [BitVec.toNat_setWidth, Nat.mod_eq_of_lt (by omega)]

/-- A packed node whose offsets fit stands finished once each slot holds its final byte. -/
theorem Work.Packed.finished {w : Work} {ct : Table Byte} (hfit : w.NoOverflow)
    (hct : ∀ y, Table.get (0 : Byte) ct y = if 1 ≤ y ∧ y < w.ctLen then w.finalByte y else w.slot y) {n x : Nat} (h : w.Packed n x) :
    1 ≤ x → x < w.ctLen → ({ w with ctree := ct } : Work).Finished n x := by
  have hbyte {y : Nat} (h1 : 1 ≤ y) (hy : y < w.ctLen) : ({ w with ctree := ct } : Work).slot y = w.finalByte y := (hct y).trans (if_pos ⟨h1, hy⟩)
  induction h with
  | leaf n x h hm ht =>
    intro h1 hx
    refine .leaf n x h ?_
    rw [hbyte h1 hx, Work.finalByte, if_neg (not_not.mpr hm)]
    exact ht
  | node n x h hm hc hl hr ihl ihr =>
    intro h1 hx
    have hm' : w.maskSlot x ≠ leafSentinel := hm ▸ leafFlags_ne_sentinel w n
    have hb : ({ w with ctree := ct } : Work).slot x = w.slot x ||| w.leafFlags n := by
      rw [hbyte h1 hx, Work.finalByte, if_pos hm', hm]
    obtain ⟨hoffset, hfl, hfr⟩ := or_leafFlags_fields (hfit x h1 hx hm') w n
    have hpair : leftChild x (({ w with ctree := ct } : Work).slot x) = pairBase x + pairDistance (w.slot x).toNat := by
      rw [hb, leftChild, hoffset]
    have hc2 : 2 ≤ pairBase x + pairDistance (w.slot x).toNat := by unfold pairDistance; omega
    refine .node n x h ?_ ?_ ?_ ?_ ?_
    · rw [hpair]; exact hc
    · rw [hb]; exact hfl
    · rw [hb]; exact hfr
    · rw [hpair]; exact ihl (by omega) (by omega)
    · rw [hpair]; exact ihr (by omega) hc

/-! ## The walk along a path (45_dec R205) -/

theorem pairBase_of_even {x : Nat} (h : x % 2 = 0) : pairBase x = x ∧ pairBase (x + 1) = x := by unfold pairBase; omega

theorem leftChild_even (x : Nat) (b : Byte) : leftChild x b % 2 = 0 := by unfold leftChild pairBase pairDistance; omega

/-- One bit leads the walk from a finished internal node to the child that the bit names. -/
theorem Work.Finished.walk_bit {w : Work} {m x : Nat} (h : w.Finished m x) (hm : w.leafsOf m ≠ 1) (bit : Bool) {c : Nat}
    (hc : (if bit then w.rightOf m else w.leftOf m) = c) : ∃ y, w.Finished c y ∧ ∀ rest,
      walk w.slot w.ctLen (w.slot x) (pairBase x) (bit :: rest) =
        if w.leafsOf c = 1 then some (w.slot y, rest) else walk w.slot w.ctLen (w.slot y) (pairBase y) rest := by
  cases h with
  | leaf _ _ h => exact absurd h hm
  | node _ _ h hlen hfl hfr hl hr =>
    obtain ⟨hbase, hbase'⟩ := pairBase_of_even (leftChild_even x (w.slot x))
    unfold leftChild at hlen hl hr hbase hbase'
    subst hc
    cases bit with
    | false =>
      refine ⟨_, hl, fun rest => ?_⟩
      simp only [walk, hfl, decide_eq_true_eq, Bool.false_eq_true, if_false]
      rw [if_neg (by omega), hbase]
    | true =>
      refine ⟨_, hr, fun rest => ?_⟩
      simp only [walk, hfr, decide_eq_true_eq, if_true]
      rw [if_neg (by omega), hbase']

theorem Work.IsTree.leafsOf_pos {w : Work} (h : w.IsTree) {i : Nat} (hi : i < w.nnode) : 1 ≤ w.leafsOf i := by
  induction i using Nat.strongRecOn with
  | ind i ih =>
    by_cases hl : i < w.nleaf
    · exact (h.leaf i hl).2.1.ge
    · obtain ⟨a, b, -, -, ha, hb, -, -, -, hsum, -⟩ := h.internal i (by omega) hi
      have := ih a ha (by omega)
      omega

/-- The node of one leaf is a leaf. -/
theorem Work.IsTree.leafsOf_eq_one {w : Work} (h : w.IsTree) {i : Nat} (hi : i < w.nnode) : w.leafsOf i = 1 ↔ i < w.nleaf := by
  refine ⟨fun h1 => ?_, fun hl => (h.leaf i hl).2.1⟩
  by_contra hl
  obtain ⟨a, b, -, -, ha, hb, -, -, -, hsum, -⟩ := h.internal i (by omega) hi
  have h2 := h.leafsOf_pos (i := a) (by omega)
  have h3 := h.leafsOf_pos (i := b) (by omega)
  omega

/-- The path of a node, root side first, leads the walk from slot 1 to the node. -/
theorem Work.IsTree.walk_path {w : Work} (h : w.IsTree) (hroot : w.Finished (w.nnode - 1) 1) : ∀ (n : Nat) {i : Nat},
    i < w.nnode → w.nnode ≤ i + 1 + n → ∃ x, w.Finished i x ∧ ∀ rest,
      walk w.slot w.ctLen (w.slot 1) 0 ((w.pathFrom n i).reverse ++ rest) =
        if w.leafsOf i = 1 then some (w.slot x, rest) else walk w.slot w.ctLen (w.slot x) (pairBase x) rest := by
  obtain ⟨h2, -, hn⟩ := h.count
  have root {i : Nat} (n : Nat) (hi : i + 1 = w.nnode) : ∃ x, w.Finished i x ∧ ∀ rest,
      walk w.slot w.ctLen (w.slot 1) 0 ((w.pathFrom n i).reverse ++ rest) =
        if w.leafsOf i = 1 then some (w.slot x, rest) else walk w.slot w.ctLen (w.slot x) (pairBase x) rest := by
    obtain rfl : w.nnode - 1 = i := by omega
    refine ⟨1, hroot, fun rest => ?_⟩
    rw [pathFrom_of_root h.root.1, if_neg (fun h1 => by have := (h.leafsOf_eq_one (by omega)).mp h1; omega)]
    rfl
  intro n
  induction n with
  | zero => exact fun hi hn => root 0 (by omega)
  | succ n ih =>
    intro i hi hin
    by_cases hlast : i + 1 = w.nnode
    · exact root _ hlast
    · obtain ⟨d, hd, hparent⟩ := h.parent i (by omega)
      have ⟨hid, hdn, hdl, _⟩ := hparent
      obtain ⟨x, hx, hwalk⟩ := ih hdn (by omega)
      have hd1 : w.leafsOf d ≠ 1 := fun h1 => by have := (h.leafsOf_eq_one hdn).mp h1; omega
      obtain ⟨y, hy, hbit⟩ := hx.walk_bit hd1 _ (Work.ParentAt.child hparent)
      refine ⟨y, hy, fun rest => ?_⟩
      rw [pathFrom_of_dad hd, List.reverse_cons, List.append_assoc, List.singleton_append, hwalk, if_neg hd1, hbit]

/-- The arena alone determines a path. -/
theorem pathFrom_ctree {w : Work} (ct : Table Byte) : ∀ (n i : Nat), ({ w with ctree := ct } : Work).pathFrom n i = w.pathFrom n i
  | 0, _ => rfl
  | n + 1, i => by
    cases hd : (w.nodeAt i).dad with
    | none => rw [pathFrom_of_root hd, pathFrom_of_root (w := { w with ctree := ct }) hd]
    | some d =>
      rw [pathFrom_of_dad hd, pathFrom_of_dad (w := { w with ctree := ct }) hd, pathFrom_ctree ct n d]
      rfl

/-- Settles O31: the packed tree is finished slot by slot, and the walk follows the leaf's path in it. -/
theorem finalSpellsTree : Obligations.FinalSpellsTree := by
  intro s n hlen hfit hpacked
  obtain ⟨ct, hfinal, hct⟩ := finalTree_of_fits hfit
  have hfinished := hpacked.finished hfit hct le_rfl hlen
  refine ⟨_, exec_encFinal_of_ok hfinal, rfl, hfinished, fun htree hn i hi rest => ?_⟩
  have htree' : ({ s.work with ctree := ct } : Work).IsTree := { htree with }
  obtain ⟨h2, hmax, hcount⟩ := htree.count
  unfold nsym at hmax
  have hroot : n = s.work.nnode - 1 := by omega
  obtain ⟨x, hx, hwalk⟩ := htree'.walk_path (hroot ▸ hfinished) maxNodes (i := i) (show i < s.work.nnode by omega)
    (show s.work.nnode ≤ i + 1 + maxNodes by unfold maxNodes; omega)
  have hleaf : s.work.leafsOf i = 1 := (htree.leaf i hi).2.1
  have hsym : ({ s.work with ctree := ct } : Work).slot x = BitVec.ofNat 8 (s.work.nodeAt i).sym.toNat := by
    cases hx with
    | leaf _ _ _ ht => exact BitVec.eq_of_toNat_eq (by rw [BitVec.toNat_ofNat, Nat.mod_eq_of_lt (htree.leaf i hi).1]; exact ht)
    | node _ _ h => exact absurd hleaf h
  rw [Work.path, ← pathFrom_ctree ct, ← hsym]
  exact (hwalk rest).trans (if_pos hleaf)

end Sys2Proof.Machine

/-! PROOFS. What one relocation of ENC.UPDATE does to every slot (43_enc_ctree R157). Step (c) rearranges slots; steps (d) to (g) change tree bytes of internal
slots in disjoint ranges. Together they are `Relocation`: slot `x` goes to `slotAfter x` and its byte changes by `byteChange x`. -/

namespace Sys2Proof.Machine

/-! ## Written slots -/

/-- `w'` is `w` but for the flat tree, whose tree bytes are `t` and mask bytes `m`. -/
structure Written (w w' : Work) (t m : Nat → Byte) : Prop where
  same : w' = { w with ctree := w'.ctree, cmask := w'.cmask }
  slot : w'.slot = t
  mask : w'.maskSlot = m

namespace Written

variable {w u v : Work} {t m t' m' : Nat → Byte}

theorem refl (w : Work) : Written w w w.slot w.maskSlot := ⟨rfl, rfl, rfl⟩

theorem trans (h : Written w u t m) (k : Written u v t' m') : Written w v t' m' := ⟨by rw [k.same, h.same], k.slot, k.mask⟩

theorem congr (h : Written w u t m) (ht : ∀ y, t y = t' y) (hm : ∀ y, m y = m' y) : Written w u t' m' :=
  ⟨h.same, h.slot.trans (funext ht), h.mask.trans (funext hm)⟩

theorem of_treeWrite {i : Nat} {b : Byte} (h : treeWrite w i b.toNat = .ok u) : Written w u (Function.update w.slot i b) w.maskSlot := by
  obtain ⟨-, -, rfl⟩ := treeWrite_ok.mp h
  refine ⟨rfl, funext fun y => ?_, rfl⟩
  rw [Int.toNat_natCast, Int.toNat_natCast, BitVec.ofNat_toNat, BitVec.setWidth_eq, Function.update_apply]
  exact Table.get_set _ _ _ _ _

theorem of_maskWrite {i : Nat} {b : Byte} (h : maskWrite w i b = .ok u) : Written w u w.slot (Function.update w.maskSlot i b) := by
  obtain ⟨-, rfl⟩ := maskWrite_ok.mp h
  refine ⟨rfl, rfl, funext fun y => ?_⟩
  rw [Int.toNat_natCast, Function.update_apply]
  exact Table.get_set _ _ _ _ _

end Written

/-! ## Step (c): the rotation -/

/-- The slot whose entries slot `y` takes when the `n` pairs from slot `b` on move up by one pair. -/
def pairBelow (b n y : Nat) : Nat := if b + 2 ≤ y ∧ y < b + 2 + 2 * n then y - 2 else y

theorem shiftPair_written {w w' : Work} {b : Nat} (h : shiftPair w ((b + 2 : Nat) : Int) = .ok w') :
    Written w w' (w.slot ∘ pairBelow b 1) (w.maskSlot ∘ pairBelow b 1) := by
  unfold shiftPair at h
  rw [show ((b + 2 : Nat) : Int) - 2 = (b : Nat) by omega, show ((b + 2 : Nat) : Int) - 1 = (b + 1 : Nat) by omega,
    show ((b + 2 : Nat) : Int) + 1 = (b + 3 : Nat) by omega] at h
  obtain ⟨t0, h1, h⟩ := except_bind_ok.mp h
  obtain ⟨u1, h2, h⟩ := except_bind_ok.mp h
  obtain ⟨t1, h3, h⟩ := except_bind_ok.mp h
  obtain ⟨u2, h4, h⟩ := except_bind_ok.mp h
  obtain ⟨m0, h5, h⟩ := except_bind_ok.mp h
  obtain ⟨u3, h6, h⟩ := except_bind_ok.mp h
  obtain ⟨m1, h7, h8⟩ := except_bind_ok.mp h
  have w1 := Written.of_treeWrite h2
  have w2 := Written.of_treeWrite h4
  have w3 := Written.of_maskWrite h6
  have w4 := Written.of_maskWrite h8
  obtain ⟨-, rfl⟩ := treeRead_ok.mp h1
  obtain ⟨-, rfl⟩ := treeRead_ok.mp h3
  obtain ⟨-, rfl⟩ := maskRead_ok.mp h5
  obtain ⟨-, rfl⟩ := maskRead_ok.mp h7
  have hmoved (t : Nat → Byte) (y : Nat) : Function.update (Function.update t (b + 2) (t b)) (b + 3) (t (b + 1)) y = t (pairBelow b 1 y) := by
    rw [Function.update_apply, Function.update_apply, pairBelow]
    split
    · next hy => rw [if_pos (by omega), hy]; rfl
    · split
      · next hy => rw [if_pos (by omega), hy]; rfl
      · rw [if_neg (by omega)]
  refine (((w1.trans w2).trans w3).trans w4).congr (fun y => ?_) fun y => ?_
  · rw [w3.slot, w2.slot, w1.slot, Int.toNat_natCast, Int.toNat_natCast, Function.update_of_ne (a := b + 1) (by omega)]
    exact hmoved w.slot y
  · rw [w3.mask, w2.mask, w1.mask, Int.toNat_natCast, Int.toNat_natCast, Function.update_of_ne (a := b + 1) (by omega)]
    exact hmoved w.maskSlot y

theorem pairBelow_succ (b n y : Nat) : pairBelow (b + 2 * n) 1 (pairBelow b n y) = pairBelow b (n + 1) y := by
  unfold pairBelow
  by_cases h : b + 2 ≤ y ∧ y < b + 2 + 2 * n
  · rw [if_pos h, if_neg (by omega), if_pos (by omega)]
  · rw [if_neg h]
    exact if_congr (by omega) rfl rfl

theorem shiftPairs_written {b : Nat} : ∀ {n : Nat} {w w' : Work}, shiftPairs n ((b + 2 * n : Nat) : Int) w = .ok w' →
    Written w w' (w.slot ∘ pairBelow b n) (w.maskSlot ∘ pairBelow b n)
  | 0, w, w', h => by
    cases h
    have hf (y : Nat) : y = pairBelow b 0 y := (if_neg (by omega)).symm
    exact (Written.refl w).congr (fun y => congrArg _ (hf y)) fun y => congrArg _ (hf y)
  | n + 1, w, w', h => by
    obtain ⟨u, h1, h2⟩ := except_bind_ok.mp h
    rw [show (((b + 2 * (n + 1) : Nat) : Int) - 2) = ((b + 2 * n : Nat) : Int) by omega] at h2
    have w1 := shiftPair_written (b := b + 2 * n) h1
    refine (w1.trans (shiftPairs_written h2)).congr (fun y => ?_) fun y => ?_
    · rw [w1.slot]; exact congrArg w.slot (pairBelow_succ b n y)
    · rw [w1.mask]; exact congrArg w.maskSlot (pairBelow_succ b n y)

/-- The slot whose entries slot `y` takes in step (c): the pair `n` pairs above slot `b` moves down to `b`, the `n` pairs from `b` on move up by one. -/
def rotateFrom (b n y : Nat) : Nat := if y = b ∨ y = b + 1 then y + 2 * n else pairBelow b n y

theorem rotateWindow_written {w w' : Work} {n : Nat} (hn : w.upL1 = w.upL0 + 2 * n) (h : rotateWindow w = .ok w') :
    w.upL1 + 1 < w.ctLen ∧ ∃ t0 t1 m0 m1, Written { w with upT0 := t0, upT1 := t1, upM0 := m0, upM1 := m1 } w'
      (w.slot ∘ rotateFrom w.upL0 n) (w.maskSlot ∘ rotateFrom w.upL0 n) := by
  obtain ⟨t0, h1, h⟩ := except_bind_ok.mp h
  obtain ⟨t1, h2, h⟩ := except_bind_ok.mp h
  obtain ⟨m0, h3, h⟩ := except_bind_ok.mp h
  obtain ⟨m1, h4, h⟩ := except_bind_ok.mp h
  obtain ⟨u, h5, h⟩ := except_bind_ok.mp h
  obtain ⟨u1, h6, h⟩ := except_bind_ok.mp h
  obtain ⟨u2, h7, h⟩ := except_bind_ok.mp h
  obtain ⟨u3, h8, h9⟩ := except_bind_ok.mp h
  have shift {L : Nat} {v : Work} (hL : L = w.upL0 + 2 * n) (h : shiftPairs ((L - w.upL0) / 2) L v = .ok u) :
      Written v u (v.slot ∘ pairBelow w.upL0 n) (v.maskSlot ∘ pairBelow w.upL0 n) := by
    rw [hL, show (w.upL0 + 2 * n - w.upL0) / 2 = n by omega] at h
    exact shiftPairs_written h
  have w0 := shift hn h5
  have w1 := Written.of_treeWrite h6
  have w2 := Written.of_treeWrite h7
  have w3 := Written.of_maskWrite h8
  have w4 := Written.of_maskWrite h9
  obtain ⟨-, ht0⟩ := treeRead_ok.mp h1
  obtain ⟨⟨-, hin⟩, ht1⟩ := treeRead_ok.mp h2
  obtain ⟨-, hm0⟩ := maskRead_ok.mp h3
  obtain ⟨-, hm1⟩ := maskRead_ok.mp h4
  rw [Int.toNat_natCast] at ht0 ht1 hm0 hm1
  have hT0 : u.upT0 = w.slot w.upL1 := by rw [w0.same]; exact ht0
  have hT1 : u1.upT1 = w.slot (w.upL1 + 1) := by rw [w1.same, w0.same]; exact ht1
  have hM0 : u2.upM0 = w.maskSlot w.upL1 := by rw [w2.same, w1.same, w0.same]; exact hm0
  have hM1 : u3.upM1 = w.maskSlot (w.upL1 + 1) := by rw [w3.same, w2.same, w1.same, w0.same]; exact hm1
  have hL0 : u.upL0 = w.upL0 := by rw [w0.same]
  have hL1 : u1.upL0 = w.upL0 := by rw [w1.same]; exact hL0
  have hL2 : u2.upL0 = w.upL0 := by rw [w2.same]; exact hL1
  have hL3 : u3.upL0 = w.upL0 := by rw [w3.same]; exact hL2
  have hmoved (t : Nat → Byte) (y : Nat) :
      Function.update (Function.update (t ∘ pairBelow w.upL0 n) w.upL0 (t w.upL1)) (w.upL0 + 1) (t (w.upL1 + 1)) y = t (rotateFrom w.upL0 n y) := by
    rw [Function.update_apply, Function.update_apply, rotateFrom]
    split
    · next hy => rw [if_pos (.inr hy), hy, hn, Nat.add_right_comm]
    · next hy =>
      split
      · next hy' => rw [if_pos (.inl hy'), hy', hn]
      · next hy' => rw [if_neg (not_or.mpr ⟨hy', hy⟩)]; rfl
  refine ⟨by omega, t0, t1, m0, m1, ((((w0.trans w1).trans w2).trans w3).trans w4).congr (fun y => ?_) fun y => ?_⟩
  · rw [w3.slot, w2.slot, w1.slot, w0.slot, hL1, hL0, hT0, hT1]
    exact hmoved w.slot y
  · rw [w3.mask, w2.mask, w1.mask, w0.mask, hL3, hL2, hM0, hM1]
    exact hmoved w.maskSlot y

/-! ## Steps (d) to (g): the offsets -/

/-- `w'` is `w` with other tree bytes: the byte of slot `y` changes by `d y`. -/
structure Retargeted (w w' : Work) (d : Nat → Int) : Prop where
  same : w' = { w with ctree := w'.ctree }
  slot : ∀ y, ((w'.slot y).toNat : Int) = (w.slot y).toNat + d y

/-- A change that is determined by the slot's own entries and the registers. -/
abbrev OfSlot (δ : Work → Nat → Int) : Prop :=
  ∀ {w w' : Work} {y : Nat}, w' = { w with ctree := w'.ctree } → w'.slot y = w.slot y → δ w' y = δ w y

namespace Retargeted

variable {w u v : Work} {d : Nat → Int}

theorem refl (w : Work) : Retargeted w w fun _ => 0 := ⟨rfl, fun _ => (Int.add_zero _).symm⟩

theorem congr {d' : Nat → Int} (h : Retargeted w u d) (hd : ∀ y, d y = d' y) : Retargeted w u d' := ⟨h.same, fun y => hd y ▸ h.slot y⟩

theorem mask (h : Retargeted w u d) : u.maskSlot = w.maskSlot := by rw [h.same]; rfl

theorem slot_eq (h : Retargeted w u d) {y : Nat} (hy : d y = 0) : u.slot y = w.slot y :=
  BitVec.eq_of_toNat_eq (by have := h.slot y; omega)

/-- A change of the slots that `p` names, which were as in `w` so far. -/
theorem trans (h : Retargeted w u d) {δ : Work → Nat → Int} (hδ : OfSlot δ) {p : Nat → Prop} [DecidablePred p]
    (k : Retargeted u v fun y => if p y then δ u y else 0) (hp : ∀ y, p y → d y = 0) :
    Retargeted w v fun y => if p y then δ w y else d y := by
  refine ⟨by rw [k.same, h.same], fun y => ?_⟩
  have hu := h.slot y
  rw [k.slot y, hu]
  by_cases hy : p y
  · rw [if_pos hy, if_pos hy, hp y hy, Int.add_zero, hδ h.same (h.slot_eq (hp y hy))]
  · rw [if_neg hy, if_neg hy, Int.add_zero]

theorem of_treeWrite {i : Nat} {e : Int} (h : treeWrite w i ((w.slot i).toNat + e) = .ok u) :
    Retargeted w u fun y => if y = i then e else 0 := by
  refine ⟨by obtain ⟨-, -, rfl⟩ := treeWrite_ok.mp h; rfl, fun y => ?_⟩
  rw [slot_of_treeWrite h]
  split
  · next hy => rw [hy]
  · exact (Int.add_zero _).symm

end Retargeted

theorem pullActing_retargeted {w u : Work} (h : pullActing w = .ok u) : Retargeted w u fun y => if y = w.upI then -(w.upInc : Int) else 0 := by
  obtain ⟨t, h1, h2⟩ := except_bind_ok.mp h
  obtain ⟨-, rfl⟩ := treeRead_ok.mp h1
  exact .of_treeWrite h2

/-- Step (e) for one slot: an internal slot whose children stood in the window reaches one pair further. -/
def raiseBy (w : Work) (y : Nat) : Int :=
  if w.maskSlot y ≠ leafSentinel ∧ w.upN0 ≤ targetPair y (w.slot y) ∧ targetPair y (w.slot y) < w.upN1 then 1 else 0

/-- Step (f) for one slot: an internal slot of the moved pair reaches `INC` pairs further. -/
def lengthenBy (w : Work) (y : Nat) : Int := if w.maskSlot y ≠ leafSentinel then w.upInc else 0

/-- Step (g) for one slot: an internal slot whose children stand beyond the window reaches one pair less far. -/
def lowerBy (w : Work) (y : Nat) : Int := if w.maskSlot y ≠ leafSentinel ∧ w.upN1 < targetPair y (w.slot y) then -1 else 0

theorem raiseBy_ofSlot : OfSlot raiseBy := fun hs hy => by rw [hs] at hy ⊢; unfold raiseBy; rw [hy]; rfl

theorem lengthenBy_ofSlot : OfSlot lengthenBy := fun hs hy => by rw [hs] at hy ⊢; rfl

theorem lowerBy_ofSlot : OfSlot lowerBy := fun hs hy => by rw [hs] at hy ⊢; unfold lowerBy; rw [hy]; rfl

/-- The entry of a slot that does not change. -/
theorem Retargeted.unchanged {δ : Work → Nat → Int} {w : Work} {j : Nat} (h : δ w j = 0) : Retargeted w w fun y => if y = j then δ w j else 0 :=
  (Retargeted.refl w).congr fun _ => by rw [h, ite_self]

/-- The change of slot `j` and then of the `n` slots after it. -/
theorem Retargeted.cons {δ : Work → Nat → Int} (hδ : OfSlot δ) {w u v : Work} {n j : Nat} (h : Retargeted w u fun y => if y = j then δ w j else 0)
    (k : Retargeted u v fun y => if j + 1 ≤ y ∧ y < j + 1 + n then δ u y else 0) :
    Retargeted w v fun y => if j ≤ y ∧ y < j + (n + 1) then δ w y else 0 := by
  refine (h.trans hδ (p := fun y => j + 1 ≤ y ∧ y < j + 1 + n) k fun y hy => if_neg (by omega)).congr fun y => ?_
  by_cases hy : y = j
  · subst hy; rw [if_neg (by omega), if_pos rfl, if_pos (by omega)]
  · rw [if_neg hy]; exact if_congr (by omega) rfl rfl

theorem raiseTargets_retargeted : ∀ {n j : Nat} {w u : Work}, raiseTargets n j w = .ok u →
    Retargeted w u fun y => if j ≤ y ∧ y < j + n then raiseBy w y else 0
  | 0, j, w, u, h => by cases h; exact (Retargeted.refl w).congr fun y => (if_neg (by omega)).symm
  | n + 1, j, w, u, h => by
    unfold raiseTargets at h
    obtain ⟨m, hm, h⟩ := except_bind_ok.mp h
    obtain ⟨-, rfl⟩ := maskRead_ok.mp hm
    rw [Int.toNat_natCast] at h
    split at h
    · next hm => exact (Retargeted.unchanged (if_neg fun k => k.1 hm)).cons raiseBy_ofSlot (raiseTargets_retargeted h)
    · next hm =>
      obtain ⟨t, ht, h⟩ := except_bind_ok.mp h
      obtain ⟨-, rfl⟩ := treeRead_ok.mp ht
      rw [Int.toNat_natCast] at h
      split at h
      · next hk =>
        obtain ⟨v, h1, h2⟩ := except_bind_ok.mp h
        have h0 : raiseBy w j = 1 := if_pos ⟨hm, hk⟩
        rw [← h0] at h1
        exact (Retargeted.of_treeWrite h1).cons raiseBy_ofSlot (raiseTargets_retargeted h2)
      · next hk => exact (Retargeted.unchanged (if_neg fun k => hk k.2)).cons raiseBy_ofSlot (raiseTargets_retargeted h)

theorem lengthenMoved_retargeted {w u : Work} {j : Nat} (h : lengthenMoved w j = .ok u) :
    Retargeted w u fun y => if y = j then lengthenBy w y else 0 := by
  obtain ⟨m, hm, h⟩ := except_bind_ok.mp h
  obtain ⟨-, rfl⟩ := maskRead_ok.mp hm
  rw [Int.toNat_natCast] at h
  have at_j : ∀ y, (if y = j then lengthenBy w j else 0) = if y = j then lengthenBy w y else 0 := fun y => by
    split
    · next hy => rw [hy]
    · rfl
  split at h
  · next hm =>
    cases h
    refine (Retargeted.refl w).congr fun y => ?_
    rw [← at_j, lengthenBy, if_neg (not_not.mpr hm), ite_self]
  · next hm =>
    obtain ⟨t, ht, h⟩ := except_bind_ok.mp h
    obtain ⟨-, rfl⟩ := treeRead_ok.mp ht
    rw [Int.toNat_natCast, ← show lengthenBy w j = w.upInc from if_pos hm] at h
    exact (Retargeted.of_treeWrite h).congr at_j

theorem lowerTargets_retargeted : ∀ {n j : Nat} {w u : Work}, lowerTargets n j w = .ok u →
    Retargeted w u fun y => if j ≤ y ∧ y < j + n then lowerBy w y else 0
  | 0, j, w, u, h => by cases h; exact (Retargeted.refl w).congr fun y => (if_neg (by omega)).symm
  | n + 1, j, w, u, h => by
    unfold lowerTargets at h
    obtain ⟨m, hm, h⟩ := except_bind_ok.mp h
    obtain ⟨-, rfl⟩ := maskRead_ok.mp hm
    rw [Int.toNat_natCast] at h
    split at h
    · next hm => exact (Retargeted.unchanged (if_neg fun k => k.1 hm)).cons lowerBy_ofSlot (lowerTargets_retargeted h)
    · next hm =>
      obtain ⟨t, ht, h⟩ := except_bind_ok.mp h
      obtain ⟨-, rfl⟩ := treeRead_ok.mp ht
      rw [Int.toNat_natCast] at h
      split at h
      · next hk =>
        obtain ⟨v, h1, h2⟩ := except_bind_ok.mp h
        have h0 : lowerBy w j = -1 := if_pos ⟨hm, hk⟩
        rw [Int.sub_eq_add_neg, ← h0] at h1
        exact (Retargeted.of_treeWrite h1).cons lowerBy_ofSlot (lowerTargets_retargeted h2)
      · next hk => exact (Retargeted.unchanged (if_neg fun k => hk k.2)).cons lowerBy_ofSlot (lowerTargets_retargeted h)

/-- Steps (d) to (g), by ranges from the top down: the pairs that moved up, the moved pair, the slots between `I` and the window, and `I` itself. -/
def Work.offsetChange (w : Work) (y : Nat) : Int :=
  if w.upL0 + 2 ≤ y ∧ y < w.upL0 + 2 + (w.upL1 - w.upL0) then lowerBy w y
  else if y = w.upL0 + 1 then lengthenBy w y
  else if y = w.upL0 then lengthenBy w y
  else if w.upI + 1 ≤ y ∧ y < w.upI + 1 + (w.upL0 - (w.upI + 1)) then raiseBy w y
  else if y = w.upI then -(w.upInc : Int)
  else 0

theorem offsets_retargeted {w a b c d e : Work} (hI : w.upI < w.upL0) (h4 : pullActing w = .ok a)
    (h5 : raiseTargets (a.upL0 - (a.upI + 1)) (a.upI + 1) a = .ok b) (h6 : lengthenMoved b b.upL0 = .ok c)
    (h7 : lengthenMoved c (c.upL0 + 1) = .ok d) (h8 : lowerTargets (d.upL1 - d.upL0) (d.upL0 + 2) d = .ok e) :
    Retargeted w e w.offsetChange := by
  have ra := pullActing_retargeted h4
  have hI4 : a.upI = w.upI := by rw [ra.same]
  have hL4 : a.upL0 = w.upL0 := by rw [ra.same]
  rw [hI4, hL4] at h5
  have rb := ra.trans raiseBy_ofSlot (p := fun y => w.upI + 1 ≤ y ∧ y < w.upI + 1 + (w.upL0 - (w.upI + 1))) (raiseTargets_retargeted h5)
    fun y hy => if_neg (by omega)
  have hL5 : b.upL0 = w.upL0 := by rw [rb.same]
  rw [hL5] at h6
  have rc := rb.trans lengthenBy_ofSlot (p := fun y => y = w.upL0) (lengthenMoved_retargeted h6)
    fun y hy => by rw [if_neg (by omega), if_neg (by omega)]
  have hL6 : c.upL0 = w.upL0 := by rw [rc.same]
  rw [hL6] at h7
  have rd := rc.trans lengthenBy_ofSlot (p := fun y => y = w.upL0 + 1) (lengthenMoved_retargeted h7)
    fun y hy => by rw [if_neg (by omega), if_neg (by omega), if_neg (by omega)]
  have hL7 : d.upL0 = w.upL0 ∧ d.upL1 = w.upL1 := by rw [rd.same]; exact ⟨rfl, rfl⟩
  rw [hL7.1, hL7.2] at h8
  exact rd.trans lowerBy_ofSlot (p := fun y => w.upL0 + 2 ≤ y ∧ y < w.upL0 + 2 + (w.upL1 - w.upL0)) (lowerTargets_retargeted h8)
    fun y hy => by rw [if_neg (by omega), if_neg (by omega), if_neg (by omega), if_neg (by omega)]

/-! ## Step (a): the acting slot and the window -/

theorem siblingSlot_pair (w : Work) : w.siblingSlot / 2 = w.upI / 2 := by
  unfold Work.siblingSlot
  split <;> omega

/-- Beside a full sibling the sibling acts, and its children come one pair nearer. -/
theorem window_of_full {w : Work} (h : w.SiblingFull) : w.actingSlot = w.siblingSlot ∧ w.pullBy = 1 ∧ w.movedPair = w.upI / 2 + 64 := by
  have ha : w.actingSlot = w.siblingSlot := if_pos h
  refine ⟨ha, if_pos h, ?_⟩
  have hslot : (w.slot w.siblingSlot).toNat = 63 := h.1
  unfold Work.movedPair targetPair
  rw [ha, siblingSlot_pair, hslot]

/-- Else the overflowing slot acts, and its children come as near as the field reaches. -/
theorem window_of_not_full {w : Work} (h : ¬ w.SiblingFull) (hov : w.overflows w.upI = true) : w.actingSlot = w.upI ∧
    w.pullBy = (w.slot w.upI).toNat - 63 ∧ 63 < (w.slot w.upI).toNat ∧ w.movedPair - w.pullBy = w.upI / 2 + 64 ∧
    w.movedPair = w.upI / 2 + 64 + w.pullBy := by
  have ha : w.actingSlot = w.upI := if_neg h
  have hp : w.pullBy = (w.slot w.upI).toNat - 63 := if_neg h
  have hslot : 63 < (w.slot w.upI).toNat := (overflows_eq_true.mp hov).2
  have hm : w.movedPair = w.upI / 2 + 1 + (w.slot w.upI).toNat := by unfold Work.movedPair targetPair; rw [ha]
  exact ⟨ha, hp, hslot, by omega, by omega⟩

/-- The acting slot stands in the pair of `I`, far below the window, and is internal. -/
theorem actingSlot_facts {w : Work} (hov : w.overflows w.upI = true) : w.actingSlot / 2 = w.upI / 2 ∧ w.maskSlot w.actingSlot ≠ leafSentinel ∧
    1 ≤ w.pullBy ∧ w.upI / 2 + 63 + w.pullBy ≤ w.movedPair := by
  by_cases h : w.SiblingFull
  · obtain ⟨ha, hp, hm⟩ := window_of_full h
    rw [ha, hp, hm, siblingSlot_pair]
    exact ⟨rfl, h.2, le_rfl, le_rfl⟩
  · obtain ⟨ha, hp, hslot, -, hm⟩ := window_of_not_full h hov
    rw [ha]
    exact ⟨rfl, (overflows_eq_true.mp hov).1, by omega, by omega⟩

/-! ## The relocation -/

/-- How the tree byte of slot `x` changes in a relocation, by where the slot stood: the acting slot, a leaf or a slot below the acting one, a slot below the
window, in it, its moved pair, or beyond (R157 (d) to (g)). -/
def Work.byteChange (w : Work) (x : Nat) : Int :=
  if x = w.actingSlot then -(w.pullBy : Int)
  else if w.maskSlot x = leafSentinel ∨ x < w.actingSlot then 0
  else if x / 2 < w.movedPair - w.pullBy then
    if w.movedPair - w.pullBy ≤ targetPair x (w.slot x) ∧ targetPair x (w.slot x) < w.movedPair then 1 else 0
  else if x / 2 < w.movedPair then if w.movedPair ≤ targetPair x (w.slot x) then -1 else 0
  else if x / 2 = w.movedPair then w.pullBy
  else 0

/-- `w'` is `w` but for the flat tree and the registers of ENC.UPDATE. -/
abbrev UpdateKept (w w' : Work) : Prop := w' = { w with
  ctree := w'.ctree, cmask := w'.cmask, moves := w'.moves, upI := w'.upI, upInc := w'.upInc, upN0 := w'.upN0, upN1 := w'.upN1
  upL0 := w'.upL0, upL1 := w'.upL1, upT0 := w'.upT0, upT1 := w'.upT1, upM0 := w'.upM0, upM1 := w'.upM1 }

/-- All that one relocation does. -/
structure Relocation (P : Params) (w w' : Work) : Prop where
  kept : UpdateKept w w'
  moves : w'.moves = w.moves + 1 ∧ w.moves + 1 ≤ P.updateMaxMoves
  scan : w'.upI = 2 * (w.upI / 2)
  inside : 2 * w.movedPair + 1 < w.ctLen
  mask : ∀ x, w'.maskSlot (w.slotAfter x) = w.maskSlot x
  byte : ∀ x, ((w'.slot (w.slotAfter x)).toNat : Int) = (w.slot x).toNat + w.byteChange x

theorem rotateFrom_slotAfter (w : Work) (h : w.pullBy ≤ w.movedPair) (x : Nat) :
    rotateFrom (2 * (w.movedPair - w.pullBy)) w.pullBy (w.slotAfter x) = x := by
  have hside := slotAfter_side w x
  have hpair := slotAfter_pair w x
  unfold rotateFrom pairBelow
  rcases Nat.lt_trichotomy (x / 2) w.movedPair with hx | hx | hx
  · by_cases hin : w.movedPair - w.pullBy ≤ x / 2
    · rw [pairAfter_window hin hx] at hpair
      rw [if_neg (by omega), if_pos (by omega)]; omega
    · rw [pairAfter_below (by omega)] at hpair
      rw [if_neg (by omega), if_neg (by omega)]; omega
  · rw [hx, pairAfter_moved] at hpair
    rw [if_pos (by omega)]; omega
  · rw [pairAfter_above hx] at hpair
    rw [if_neg (by omega), if_neg (by omega)]; omega

theorem windowOf_ok {w w' : Work} (h : windowOf w = .ok w') : w' = { w with
    upN1 := targetPair w.upI (w.slot w.upI), upN0 := targetPair w.upI (w.slot w.upI) - w.upInc
    upL1 := 2 * targetPair w.upI (w.slot w.upI), upL0 := 2 * (targetPair w.upI (w.slot w.upI) - w.upInc) } := by
  obtain ⟨t, ht, h⟩ := except_bind_ok.mp h
  obtain ⟨-, rfl⟩ := treeRead_ok.mp ht
  cases h
  rfl

theorem countMove_ok {P : Params} {w w' : Work} (h : countMove P w = .ok w') :
    w.moves + 1 ≤ P.updateMaxMoves ∧ w' = { w with moves := w.moves + 1, upI := 2 * (w.upI / 2) } := by
  unfold countMove at h
  split at h
  · cases h
  · next hm =>
    cases h
    exact ⟨Nat.not_lt.mp hm, by rw [or_one_eq, Nat.add_sub_cancel]⟩

/-- The state between steps (b) and (c): the acting slot, the distance and the window. -/
structure Windowed (w u : Work) : Prop where
  slot : ∀ x, u.slot (w.slotAfter x) = w.slot x
  mask : ∀ x, u.maskSlot (w.slotAfter x) = w.maskSlot x
  upI : u.upI = w.actingSlot
  upInc : u.upInc = w.pullBy
  upN0 : u.upN0 = w.movedPair - w.pullBy
  upN1 : u.upN1 = w.movedPair
  upL0 : u.upL0 = 2 * (w.movedPair - w.pullBy)
  upL1 : u.upL1 = 2 * w.movedPair

/-! ### `byteChange`, case by case -/

theorem byteChange_of_acting (w : Work) : w.byteChange w.actingSlot = -(w.pullBy : Int) := if_pos rfl

theorem byteChange_of_leaf {w : Work} {x : Nat} (hx : x ≠ w.actingSlot) (hm : w.maskSlot x = leafSentinel) : w.byteChange x = 0 := by
  rw [Work.byteChange, if_neg hx, if_pos (.inl hm)]

theorem byteChange_of_before {w : Work} {x : Nat} (hx : x < w.actingSlot) : w.byteChange x = 0 := by
  rw [Work.byteChange, if_neg (Nat.ne_of_lt hx), if_pos (.inr hx)]

/-- An internal slot behind the acting one, by the side of the window it stands on. -/
theorem byteChange_of_after {w : Work} {x : Nat} (hx : w.actingSlot < x) (hm : w.maskSlot x ≠ leafSentinel) : w.byteChange x =
    if x / 2 < w.movedPair - w.pullBy then
      if w.movedPair - w.pullBy ≤ targetPair x (w.slot x) ∧ targetPair x (w.slot x) < w.movedPair then 1 else 0
    else if x / 2 < w.movedPair then if w.movedPair ≤ targetPair x (w.slot x) then -1 else 0
    else if x / 2 = w.movedPair then (w.pullBy : Int)
    else 0 := by
  rw [Work.byteChange, if_neg (Nat.ne_of_gt hx), if_neg (not_or.mpr ⟨hm, Nat.not_lt.mpr hx.le⟩)]

theorem byteChange_of_below {w : Work} {x : Nat} (hx : w.actingSlot < x) (hm : w.maskSlot x ≠ leafSentinel) (hp : x / 2 < w.movedPair - w.pullBy) :
    w.byteChange x = if w.movedPair - w.pullBy ≤ targetPair x (w.slot x) ∧ targetPair x (w.slot x) < w.movedPair then 1 else 0 := by
  rw [byteChange_of_after hx hm, if_pos hp]

theorem byteChange_of_window {w : Work} {x : Nat} (hx : w.actingSlot < x) (hm : w.maskSlot x ≠ leafSentinel) (hlo : w.movedPair - w.pullBy ≤ x / 2)
    (hhi : x / 2 < w.movedPair) : w.byteChange x = if w.movedPair ≤ targetPair x (w.slot x) then -1 else 0 := by
  rw [byteChange_of_after hx hm, if_neg (Nat.not_lt.mpr hlo), if_pos hhi]

theorem byteChange_of_moved {w : Work} {x : Nat} (hx : w.actingSlot < x) (hm : w.maskSlot x ≠ leafSentinel) (hp : x / 2 = w.movedPair) :
    w.byteChange x = w.pullBy := by
  rw [byteChange_of_after hx hm, if_neg (by omega), if_neg (by omega), if_pos hp]

theorem byteChange_of_above {w : Work} {x : Nat} (hx : w.actingSlot < x) (hp : w.movedPair < x / 2) : w.byteChange x = 0 := by
  by_cases hm : w.maskSlot x = leafSentinel
  · exact byteChange_of_leaf (Nat.ne_of_gt hx) hm
  · rw [byteChange_of_after hx hm, if_neg (by omega), if_neg (by omega), if_neg (by omega)]

/-- Steps (d) to (g) change the byte of each slot, where it now stands, as `byteChange` says. -/
theorem offsetChange_slotAfter {w u : Work} (hov : w.overflows w.upI = true) (h : Windowed w u) (x : Nat) :
    u.offsetChange (w.slotAfter x) = w.byteChange x := by
  obtain ⟨hpair, -, hpull, hwindow⟩ := actingSlot_facts hov
  have hside := slotAfter_side w x
  have hafter := slotAfter_pair w x
  have hmask := h.mask x
  have hslot := h.slot x
  unfold Work.offsetChange
  rw [h.upI, h.upInc, h.upL0, h.upL1]
  rcases Nat.lt_trichotomy (x / 2) w.movedPair with hx | hx | hx
  · by_cases hin : w.movedPair - w.pullBy ≤ x / 2
    · rw [pairAfter_window hin hx] at hafter
      have htarget : targetPair (w.slotAfter x) (w.slot x) = targetPair x (w.slot x) + 1 := by unfold targetPair; omega
      rw [if_pos (by omega), lowerBy, hmask, hslot, h.upN1, htarget]
      by_cases hm : w.maskSlot x = leafSentinel
      · rw [if_neg fun k => k.1 hm, byteChange_of_leaf (by omega) hm]
      · rw [byteChange_of_window (by omega) hm hin hx]
        exact if_congr ⟨fun k => Nat.lt_succ_iff.mp k.2, fun k => ⟨hm, Nat.lt_succ_iff.mpr k⟩⟩ rfl rfl
    · rw [pairAfter_below (by omega)] at hafter
      rw [show w.slotAfter x = x by omega] at hslot hmask ⊢
      rw [if_neg (by omega), if_neg (by omega), if_neg (by omega)]
      rcases Nat.lt_trichotomy x w.actingSlot with hlt | rfl | hgt
      · rw [if_neg (by omega), if_neg (by omega), byteChange_of_before hlt]
      · rw [if_neg (by omega), if_pos rfl, byteChange_of_acting]
      · rw [if_pos (by omega), raiseBy, hmask, hslot, h.upN0, h.upN1]
        by_cases hm : w.maskSlot x = leafSentinel
        · rw [if_neg fun k => k.1 hm, byteChange_of_leaf (by omega) hm]
        · rw [byteChange_of_below hgt hm (by omega)]
          exact if_congr ⟨fun k => k.2, fun k => ⟨hm, k⟩⟩ rfl rfl
  · rw [hx, pairAfter_moved] at hafter
    have hlengthen : lengthenBy u (w.slotAfter x) = w.byteChange x := by
      rw [lengthenBy, hmask, h.upInc]
      by_cases hm : w.maskSlot x = leafSentinel
      · rw [if_neg (not_not.mpr hm), byteChange_of_leaf (by omega) hm]
      · rw [if_pos hm, byteChange_of_moved (by omega) hm hx]
    rw [if_neg (by omega), hlengthen]
    split
    · rfl
    · rw [if_pos (by omega)]
  · rw [pairAfter_above hx] at hafter
    rw [if_neg (by omega), if_neg (by omega), if_neg (by omega), if_neg (by omega), if_neg (by omega), byteChange_of_above (by omega) hx]

/-- What one relocation of an overflowing slot does, when it raises no fault. -/
theorem relocate_ok {P : Params} {w w' : Work} (hov : w.overflows w.upI = true) (h : relocate P w = .ok w') : Relocation P w w' := by
  obtain ⟨hpair, -, hpull, hwindow⟩ := actingSlot_facts hov
  obtain ⟨u1, h1, h⟩ := except_bind_ok.mp h
  obtain ⟨u2, h2, h⟩ := except_bind_ok.mp h
  obtain ⟨u, h3, h⟩ := except_bind_ok.mp h
  obtain ⟨u4, h4, h⟩ := except_bind_ok.mp h
  obtain ⟨u5, h5, h⟩ := except_bind_ok.mp h
  obtain ⟨u6, h6, h⟩ := except_bind_ok.mp h
  obtain ⟨u7, h7, h⟩ := except_bind_ok.mp h
  obtain ⟨u8, h8, h9⟩ := except_bind_ok.mp h
  have e2 : u2 = { w with
      upI := w.actingSlot, upInc := w.pullBy, upN1 := w.movedPair, upN0 := w.movedPair - w.pullBy
      upL1 := 2 * w.movedPair, upL0 := 2 * (w.movedPair - w.pullBy) } := by
    obtain rfl := chooseSlot_ok h1
    exact windowOf_ok h2
  subst e2
  obtain ⟨hin, t0, t1, m0, m1, hrot⟩ := rotateWindow_written (n := w.pullBy) (show 2 * w.movedPair = 2 * (w.movedPair - w.pullBy) + 2 * w.pullBy by omega) h3
  have hu : Windowed w u := by
    have hfrom := rotateFrom_slotAfter w (by omega)
    refine ⟨fun x => ?_, fun x => ?_, ?_, ?_, ?_, ?_, ?_, ?_⟩
    · rw [hrot.slot]; exact congrArg w.slot (hfrom x)
    · rw [hrot.mask]; exact congrArg w.maskSlot (hfrom x)
    all_goals rw [hrot.same]
  have hr := offsets_retargeted (by rw [hu.upI, hu.upL0]; omega) h4 h5 h6 h7 h8
  obtain ⟨hmoves, rfl⟩ := countMove_ok h9
  have hreg : u8.moves = w.moves ∧ u8.upI = w.actingSlot := by rw [hr.same, hrot.same]; exact ⟨rfl, rfl⟩
  refine ⟨by rw [hr.same, hrot.same], ⟨congrArg (· + 1) hreg.1, hreg.1 ▸ hmoves⟩, ?_, hin, fun x => ?_, fun x => ?_⟩
  · show 2 * (u8.upI / 2) = _
    rw [hreg.2, hpair]
  · exact (congrFun hr.mask _).trans (hu.mask x)
  · rw [← hu.slot x, ← offsetChange_slotAfter hov hu x]
    exact hr.slot _

end Sys2Proof.Machine

/-! PROOFS. The pass of ENC.UPDATE (43_enc_ctree R156 to R159). The scan stops at the first overflowing slot from `I` on or at the end; what every relocation keeps,
the whole pass keeps (`updateLoop_ok`): the frame, the slots below the scan, how many leaf slots hold a byte, and, when each relocation is safe, the packed tree. -/

namespace Sys2Proof.Machine

/-! ## The scan (R156) -/

/-- The state once the scan has stopped. -/
def Work.scanned (w : Work) : Work := scanFrom (w.ctLen - w.upI) w

theorem scanFrom_spec : ∀ (n : Nat) (w : Work), ∃ i, scanFrom n w = { w with upI := i } ∧ w.upI ≤ i ∧ i ≤ w.upI + n ∧
    (∀ j, w.upI ≤ j → j < i → w.overflows j = false) ∧ (i < w.upI + n → w.overflows i = true)
  | 0, w => ⟨w.upI, rfl, le_rfl, le_rfl, fun j h1 h2 => by omega, fun h => by omega⟩
  | n + 1, w => by
    unfold scanFrom
    split
    · next h => exact ⟨w.upI, rfl, le_rfl, Nat.le_add_right _ _, fun j h1 h2 => by omega, fun _ => h⟩
    · next h =>
      obtain ⟨i, hi, hlo, hhi, hbelow, hstop⟩ := scanFrom_spec n { w with upI := w.upI + 1 }
      have hlo : w.upI + 1 ≤ i := hlo
      have hhi : i ≤ w.upI + 1 + n := hhi
      refine ⟨i, hi, by omega, by omega, fun j h1 h2 => ?_, fun hlt => hstop (show i < w.upI + 1 + n by omega)⟩
      rcases Nat.eq_or_lt_of_le h1 with rfl | h1
      · exact Bool.not_eq_true _ ▸ h
      · exact hbelow j h1 h2

/-- The scan moves `I` past the slots that do not overflow, to one that does or to the end. -/
theorem scanned_spec (w : Work) : ∃ i, w.scanned = { w with upI := i } ∧ w.upI ≤ i ∧
    (∀ j, w.upI ≤ j → j < i → w.overflows j = false) ∧ (i < w.ctLen → w.overflows i = true) := by
  obtain ⟨i, hi, hlo, hhi, hbelow, hstop⟩ := scanFrom_spec (w.ctLen - w.upI) w
  exact ⟨i, hi, hlo, hbelow, fun h => hstop (by omega)⟩

/-- Where the scan has stopped inside the tree, the slot overflows. -/
theorem scanned_overflows {w : Work} (h : w.scanned.upI < w.scanned.ctLen) : w.scanned.overflows w.scanned.upI = true := by
  obtain ⟨i, hi, -, -, hstop⟩ := scanned_spec w
  rw [hi] at h ⊢
  exact hstop h

theorem updateLoop_zero (P : Params) (w : Work) : updateLoop P 0 w =
    if w.scanned.upI < w.scanned.ctLen then .error ⟨.treeUnresolved, w.scanned.upI, w.scanned.ctLen⟩ else .ok w.scanned := by
  unfold updateLoop Work.scanned; rfl

theorem updateLoop_succ (P : Params) (fuel : Nat) (w : Work) : updateLoop P (fuel + 1) w =
    if w.scanned.upI < w.scanned.ctLen then relocate P w.scanned >>= updateLoop P fuel else .ok w.scanned := by
  rw [updateLoop]; rfl

theorem updateLoop_of_stopped {P : Params} {fuel : Nat} {w : Work} (h : ¬ w.scanned.upI < w.scanned.ctLen) : updateLoop P fuel w = .ok w.scanned := by
  cases fuel with
  | zero => rw [updateLoop_zero, if_neg h]
  | succ fuel => rw [updateLoop_succ, if_neg h]

/-- What every relocation of the pass keeps holds where the last scan begins, which runs to the end. -/
theorem updateLoop_ok {P : Params} {I : Nat → Work → Prop} (step : ∀ {fuel : Nat} {u v : Work}, I (fuel + 1) u →
      u.scanned.upI < u.scanned.ctLen → relocate P u.scanned = .ok v → I fuel v) : ∀ {fuel : Nat} {w w' : Work}, I fuel w →
    updateLoop P fuel w = .ok w' → ∃ fuel' u, I fuel' u ∧ w' = u.scanned ∧ u.scanned.ctLen ≤ u.scanned.upI
  | 0, w, w', hI, h => by
    rw [updateLoop_zero] at h
    split at h
    · cases h
    · next hend => exact ⟨0, w, hI, (Except.ok.inj h).symm, Nat.not_lt.mp hend⟩
  | fuel + 1, w, w', hI, h => by
    rw [updateLoop_succ] at h
    split at h
    · next hin =>
      obtain ⟨v, hv, h⟩ := except_bind_ok.mp h
      exact updateLoop_ok step (step hI hin hv) h
    · next hend => exact ⟨fuel + 1, w, hI, (Except.ok.inj h).symm, Nat.not_lt.mp hend⟩

theorem updateTree_ok {P : Params} {w w' : Work} {I : Nat → Work → Prop} (init : I (P.updateMaxMoves + 1) { w with moves := 0, upI := 1 })
    (step : ∀ {fuel : Nat} {u v : Work}, I (fuel + 1) u → u.scanned.upI < u.scanned.ctLen → relocate P u.scanned = .ok v → I fuel v)
    (h : updateTree P w = .ok w') : ∃ fuel u, I fuel u ∧ w' = u.scanned ∧ u.scanned.ctLen ≤ u.scanned.upI :=
  updateLoop_ok step init h

theorem exec_encUpdate_of_ok {s : State} {w : Work} (h : updateTree s.params s.work = .ok w) :
    exec .encUpdate s = .next { s with phase := Phase.encFinal, work := w } :=
  congrArg (fun r => s.settle (fun _ => Phase.encFinal) (s.onWork r)) h

/-- Settles O27: the first scan runs to the end. -/
theorem updateKeepsFittingTree : Obligations.UpdateKeepsFittingTree := by
  intro s h
  obtain ⟨i, hi, hlo, -, hstop⟩ := scanned_spec { s.work with moves := 0, upI := 1 }
  have hend : ¬ i < s.work.ctLen := fun hlt => Bool.false_ne_true ((h.overflows hlo hlt).symm.trans (hstop hlt))
  have hloop := updateLoop_of_stopped (P := s.params) (fuel := s.params.updateMaxMoves + 1) (w := { s.work with moves := 0, upI := 1 })
    (by rw [hi]; exact hend)
  rw [hi] at hloop
  exact ⟨i, exec_encUpdate_of_ok hloop⟩

/-! ## What a relocation leaves alone -/

section Relocation

variable {P : Params} {w w' : Work}

theorem Relocation.node (h : Relocation P w w') : w'.node = w.node := by rw [h.kept]
theorem Relocation.ctLen (h : Relocation P w w') : w'.ctLen = w.ctLen := by rw [h.kept]

theorem Relocation.slot_eq (h : Relocation P w w') {x : Nat} (hx : w.byteChange x = 0) : w'.slot (w.slotAfter x) = w.slot x :=
  BitVec.eq_of_toNat_eq (by have := h.byte x; omega)

/-- The symbol of a leaf moves with its slot. -/
theorem Relocation.leaf (h : Relocation P w w') (hov : w.overflows w.upI = true) {x : Nat} (hm : w.maskSlot x = leafSentinel) :
    w'.slot (w.slotAfter x) = w.slot x :=
  h.slot_eq (byteChange_of_leaf (fun hx => (actingSlot_facts hov).2.1 (hx ▸ hm)) hm)

theorem slotAfter_below {x : Nat} (h : x / 2 < w.movedPair - w.pullBy) : w.slotAfter x = x := by
  have h1 := slotAfter_pair w x
  have h2 := slotAfter_side w x
  rw [pairAfter_below h] at h1
  omega

/-- The slots below the pair of `I` stay as they are. -/
theorem Relocation.before (h : Relocation P w w') (hov : w.overflows w.upI = true) {x : Nat} (hx : x < 2 * (w.upI / 2)) :
    w'.slot x = w.slot x ∧ w'.maskSlot x = w.maskSlot x := by
  obtain ⟨hpair, -, -, hwindow⟩ := actingSlot_facts hov
  have hself : w.slotAfter x = x := slotAfter_below (by omega)
  have hslot := h.slot_eq (byteChange_of_before (x := x) (by omega))
  have hmask := h.mask x
  rw [hself] at hslot hmask
  exact ⟨hslot, hmask⟩

theorem pairAfter_le (w : Work) (k : Nat) : w.pairAfter k ≤ k ∨ w.pairAfter k ≤ w.movedPair := by
  unfold Work.pairAfter
  split
  · omega
  · split <;> omega

theorem Relocation.slotAfter_lt (h : Relocation P w w') {x : Nat} (hx : x < w.ctLen) : w.slotAfter x < w.ctLen := by
  have h1 := slotAfter_pair w x
  have h2 := slotAfter_side w x
  have h3 := h.inside
  have := pairAfter_le w (x / 2)
  omega

theorem slotAfter_injective (h : w.pullBy ≤ w.movedPair) : Function.Injective w.slotAfter :=
  Function.LeftInverse.injective (rotateFrom_slotAfter w h)

/-- `slotAfter` rearranges the slots of the tree. -/
theorem Relocation.slotAfter_perm (h : Relocation P w w') (hov : w.overflows w.upI = true) :
    ((List.range w.ctLen).map w.slotAfter).Perm (List.range w.ctLen) := by
  have hpull : w.pullBy ≤ w.movedPair := by have := (actingSlot_facts hov).2.2.2; omega
  have hnodup : ((List.range w.ctLen).map w.slotAfter).Nodup := List.nodup_range.map (slotAfter_injective hpull)
  refine (List.subperm_of_subset hnodup fun y hy => ?_).perm_of_length_le (by rw [List.length_map])
  obtain ⟨x, hx, rfl⟩ := List.mem_map.mp hy
  exact List.mem_range.mpr (h.slotAfter_lt (List.mem_range.mp hx))

theorem Relocation.leavesHolding (h : Relocation P w w') (hov : w.overflows w.upI = true) (b : Byte) :
    w'.leavesHolding b = w.leavesHolding b := by
  unfold Work.leavesHolding
  rw [h.ctLen, ← (h.slotAfter_perm hov).countP_eq, List.countP_map]
  refine List.countP_congr fun x _ => ?_
  simp only [Function.comp_apply, decide_eq_true_eq, h.mask x]
  exact and_congr_right fun hm => by rw [h.leaf hov hm]

end Relocation

/-! ## What the pass keeps -/

theorem UpdateKept.trans {u v w : Work} (h : UpdateKept u v) (k : UpdateKept v w) : UpdateKept u w := by
  unfold UpdateKept at h k ⊢
  rw [k, h]

theorem scanned_kept (w : Work) : UpdateKept w w.scanned := by
  obtain ⟨i, hi, -⟩ := scanned_spec w
  rw [hi]

theorem scanned_leavesHolding (w : Work) (b : Byte) : w.scanned.leavesHolding b = w.leavesHolding b := by
  obtain ⟨i, hi, -⟩ := scanned_spec w
  rw [hi]; rfl

theorem updateTree_leavesHolding {P : Params} {w w' : Work} (h : updateTree P w = .ok w') (b : Byte) : w'.leavesHolding b = w.leavesHolding b := by
  obtain ⟨-, u, hu, rfl, -⟩ := updateTree_ok (I := fun _ u => u.leavesHolding b = w.leavesHolding b) rfl (fun hI hin hv => by
    rw [(relocate_ok (scanned_overflows hin) hv).leavesHolding (scanned_overflows hin), scanned_leavesHolding, hI]) h
  rw [scanned_leavesHolding, hu]

/-- The scan is past slot 0, and slots 0 and 1 are as in `w`. -/
structure RootKept (w u : Work) : Prop where
  scan : 1 ≤ u.upI
  slots : ∀ i < 2, u.slot i = w.slot i ∧ u.maskSlot i = w.maskSlot i

theorem RootKept.scanned {w u : Work} (h : RootKept w u) : RootKept w u.scanned := by
  obtain ⟨i, hi, hlo, -⟩ := scanned_spec u
  rw [hi]
  exact ⟨h.scan.trans hlo, h.slots⟩

theorem RootKept.relocation {P : Params} {w u v : Work} (h : RootKept w u) (hroot : w.overflows 1 = false) (hov : u.overflows u.upI = true)
    (hv : Relocation P u v) : RootKept w v := by
  have h2 : 2 ≤ u.upI := by
    by_contra hlt
    obtain ⟨hs, hm⟩ := h.slots 1 (by omega)
    rw [show u.upI = 1 by have := h.scan; omega, Work.overflows, hs, hm] at hov
    exact Bool.false_ne_true (hroot.symm.trans hov)
  refine ⟨by rw [hv.scan]; omega, fun i hi => ?_⟩
  obtain ⟨hs, hm⟩ := hv.before hov (x := i) (by omega)
  rw [hs, hm]
  exact h.slots i hi

theorem updateTree_rootKept {P : Params} {w w' : Work} (hroot : w.overflows 1 = false) (h : updateTree P w = .ok w') : RootKept w w' := by
  obtain ⟨-, u, hu, rfl, -⟩ := updateTree_ok (I := fun _ u => RootKept w u) ⟨le_rfl, fun _ _ => ⟨rfl, rfl⟩⟩
    (fun hI hin hv => hI.scanned.relocation hroot (scanned_overflows hin) (relocate_ok (scanned_overflows hin) hv)) h
  exact hu.scanned

/-- Settles O29: in one relocation by `Relocation`, in the pass by what each relocation keeps. -/
theorem updateKeepsLeaves : Obligations.UpdateKeepsLeaves := by
  refine ⟨fun P w w' hov h x _ => ?_, fun s w h => ?_⟩
  · have hr := relocate_ok hov h
    exact ⟨hr.mask x, hr.leaf hov⟩
  · exact ⟨exec_encUpdate_of_ok h, updateTree_leavesHolding h, fun hroot => (updateTree_rootKept hroot h).slots⟩

end Sys2Proof.Machine

/-! PROOFS. ENC.UPDATE ends without an overflowing offset or in a fault of its own, and safe relocations keep the packed tree (43_enc_ctree R156 to R158). The fuel
bounds the relocations; below the scan no slot overflows. -/

namespace Sys2Proof.Machine

/-! ## The faults of ENC.UPDATE (60_exceptions R252) -/

/-- Every fault of `x` is one that ENC.UPDATE raises, with the length `n`. -/
def UpdateFaults {α : Type} (n : Nat) (x : Except Raise α) : Prop :=
  ∀ e, x = .error e → e.name ∈ [FaultName.codeTreeIOOB, .codeMaskIOOB, .treeUnresolved] ∧ e.length = n

namespace UpdateFaults

theorem ok {α : Type} (n : Nat) (a : α) : UpdateFaults n (.ok a : Except Raise α) := nofun

theorem error {α : Type} {name : FaultName} (h : name ∈ [FaultName.codeTreeIOOB, .codeMaskIOOB, .treeUnresolved]) (i : Int) (n : Nat) :
    UpdateFaults n (.error ⟨name, i, n⟩ : Except Raise α) := fun e he => by cases he; exact ⟨h, rfl⟩

theorem bind {α β : Type} {n : Nat} {x : Except Raise α} {f : α → Except Raise β} (h : UpdateFaults n x) (hf : ∀ a, UpdateFaults n (f a)) :
    UpdateFaults n (x >>= f) := fun e he => by
  rcases except_bind_error.mp he with h1 | ⟨a, -, h2⟩
  · exact h e h1
  · exact hf a e h2

/-- A step that keeps `CT_LEN`, and the rest. -/
theorem step {w : Work} {x : Except Raise Work} {f : Work → Except Raise Work} (h : UpdateFaults w.ctLen x)
    (hx : ∀ {u}, x = .ok u → TreeStep w u) (hf : ∀ u, UpdateFaults u.ctLen (f u)) : UpdateFaults w.ctLen (x >>= f) := fun e he => by
  rcases except_bind_error.mp he with h1 | ⟨u, hu, h2⟩
  · exact h e h1
  · exact (hx hu).ctLen ▸ hf u e h2

theorem of_ite {α : Type} {n : Nat} {c : Prop} [Decidable c] {x y : Except Raise α} (hx : UpdateFaults n x) (hy : UpdateFaults n y) :
    UpdateFaults n (if c then x else y) := by
  split
  · exact hx
  · exact hy

theorem of_treeRead (w : Work) (i : Int) : UpdateFaults w.ctLen (treeRead w i) := of_ite (error (by decide) _ _) (ok _ _)

theorem of_maskRead (w : Work) (i : Int) : UpdateFaults w.ctLen (maskRead w i) := of_ite (error (by decide) _ _) (ok _ _)

theorem of_treeWrite (w : Work) (i v : Int) : UpdateFaults w.ctLen (treeWrite w i v) :=
  of_ite (error (by decide) _ _) (of_ite (error (by decide) _ _) (ok _ _))

theorem of_maskWrite (w : Work) (i : Int) (v : Byte) : UpdateFaults w.ctLen (maskWrite w i v) := of_ite (error (by decide) _ _) (ok _ _)

theorem of_fullSibling (w : Work) (j : Int) : UpdateFaults w.ctLen (fullSibling w j) :=
  (of_treeRead w j).bind fun _ => (of_maskRead w j).bind fun _ => ok _ _

theorem of_chooseSlot (w : Work) : UpdateFaults w.ctLen (chooseSlot w) :=
  of_ite ((of_fullSibling w _).bind fun _ => of_ite (ok _ _) ((of_treeRead w _).bind fun _ => ok _ _))
    ((of_fullSibling w _).bind fun _ => of_ite (ok _ _) ((of_treeRead w _).bind fun _ => ok _ _))

theorem of_windowOf (w : Work) : UpdateFaults w.ctLen (windowOf w) := (of_treeRead w _).bind fun _ => ok _ _

theorem of_shiftPair (w : Work) (j : Int) : UpdateFaults w.ctLen (shiftPair w j) :=
  (of_treeRead w _).bind fun _ => (of_treeWrite w _ _).step .of_treeWrite fun u => (of_treeRead u _).bind fun _ =>
    (of_treeWrite u _ _).step .of_treeWrite fun v => (of_maskRead v _).bind fun _ => (of_maskWrite v _ _).step .of_maskWrite fun x =>
      (of_maskRead x _).bind fun _ => of_maskWrite x _ _

theorem of_shiftPairs : ∀ (n : Nat) (j : Int) (w : Work), UpdateFaults w.ctLen (shiftPairs n j w)
  | 0, _, _ => ok _ _
  | n + 1, j, w => (of_shiftPair w j).step shiftPair_step fun u => of_shiftPairs n (j - 2) u

theorem of_rotateWindow (w : Work) : UpdateFaults w.ctLen (rotateWindow w) :=
  (of_treeRead w _).bind fun t0 => (of_treeRead w _).bind fun t1 => (of_maskRead w _).bind fun m0 => (of_maskRead w _).bind fun m1 =>
    (of_shiftPairs _ _ { w with upT0 := t0, upT1 := t1, upM0 := m0, upM1 := m1 }).step shiftPairs_step fun u =>
      (of_treeWrite u _ _).step .of_treeWrite fun u1 => (of_treeWrite u1 _ _).step .of_treeWrite fun u2 =>
        (of_maskWrite u2 _ _).step .of_maskWrite fun u3 => of_maskWrite u3 _ _

theorem of_pullActing (w : Work) : UpdateFaults w.ctLen (pullActing w) := (of_treeRead w _).bind fun _ => of_treeWrite w _ _

theorem of_raiseTargets : ∀ (n j : Nat) (w : Work), UpdateFaults w.ctLen (raiseTargets n j w)
  | 0, _, _ => ok _ _
  | n + 1, _, w => (of_maskRead w _).bind fun _ => of_ite (of_raiseTargets n _ w) ((of_treeRead w _).bind fun _ =>
      of_ite ((of_treeWrite w _ _).step .of_treeWrite fun u => of_raiseTargets n _ u) (of_raiseTargets n _ w))

theorem of_lengthenMoved (w : Work) (j : Nat) : UpdateFaults w.ctLen (lengthenMoved w j) :=
  (of_maskRead w _).bind fun _ => of_ite (ok _ _) ((of_treeRead w _).bind fun _ => of_treeWrite w _ _)

theorem of_lowerTargets : ∀ (n j : Nat) (w : Work), UpdateFaults w.ctLen (lowerTargets n j w)
  | 0, _, _ => ok _ _
  | n + 1, _, w => (of_maskRead w _).bind fun _ => of_ite (of_lowerTargets n _ w) ((of_treeRead w _).bind fun _ =>
      of_ite ((of_treeWrite w _ _).step .of_treeWrite fun u => of_lowerTargets n _ u) (of_lowerTargets n _ w))

theorem of_countMove (P : Params) (w : Work) : UpdateFaults w.ctLen (countMove P w) := of_ite (error (by decide) _ _) (ok _ _)

theorem of_relocate (P : Params) (w : Work) : UpdateFaults w.ctLen (relocate P w) :=
  (of_chooseSlot w).step chooseSlot_step fun u1 => (of_windowOf u1).step windowOf_step fun u2 =>
    (of_rotateWindow u2).step rotateWindow_step fun u3 => (of_pullActing u3).step pullActing_step fun u4 =>
      (of_raiseTargets _ _ u4).step raiseTargets_step fun u5 => (of_lengthenMoved u5 _).step lengthenMoved_step fun u6 =>
        (of_lengthenMoved u6 _).step lengthenMoved_step fun u7 => (of_lowerTargets _ _ u7).step lowerTargets_step fun u8 => of_countMove P u8

theorem of_updateLoop (P : Params) : ∀ (fuel : Nat) (w : Work), UpdateFaults w.ctLen (updateLoop P fuel w)
  | 0, w => by
    rw [updateLoop_zero, ← (scanFrom_step _ w).ctLen]
    exact of_ite (error (by decide) _ _) (ok _ _)
  | fuel + 1, w => by
    rw [updateLoop_succ, ← (scanFrom_step _ w).ctLen]
    exact of_ite ((of_relocate P w.scanned).step relocate_step (of_updateLoop P fuel)) (ok _ _)

theorem of_updateTree (P : Params) (w : Work) : UpdateFaults w.ctLen (updateTree P w) :=
  of_updateLoop P (P.updateMaxMoves + 1) { w with moves := 0, upI := 1 }

end UpdateFaults

/-! ## The pass that completes -/

/-- What the pass keeps: the frame, the count of the relocations, and that no slot from 1 up to the scan overflows. -/
structure PassKept (P : Params) (w u : Work) : Prop where
  kept : UpdateKept w u
  moves : u.moves ≤ P.updateMaxMoves
  fits : ∀ j, 1 ≤ j → j < u.upI → u.overflows j = false

theorem PassKept.scanned {P : Params} {w u : Work} (h : PassKept P w u) : PassKept P w u.scanned := by
  obtain ⟨i, hi, hlo, hbelow, -⟩ := scanned_spec u
  refine ⟨h.kept.trans (scanned_kept u), by rw [hi]; exact h.moves, fun j h1 hj => ?_⟩
  rw [hi] at hj ⊢
  rcases Nat.lt_or_ge j u.upI with hlt | hge
  · exact h.fits j h1 hlt
  · exact hbelow j hge hj

theorem PassKept.relocation {P : Params} {w u v : Work} (h : PassKept P w u) (hov : u.overflows u.upI = true) (hv : Relocation P u v) :
    PassKept P w v := by
  refine ⟨h.kept.trans hv.kept, hv.moves.1 ▸ hv.moves.2, fun j h1 hj => ?_⟩
  rw [hv.scan] at hj
  obtain ⟨hs, hm⟩ := hv.before hov hj
  rw [Work.overflows, hs, hm]
  exact h.fits j h1 (by omega)

/-- The pass ends in such a state, with the scan at the end of the tree. -/
theorem updateTree_passKept {P : Params} {w w' : Work} (h : updateTree P w = .ok w') : PassKept P w w' ∧ w'.NoOverflow := by
  obtain ⟨-, u, hu, rfl, hend⟩ := updateTree_ok (I := fun _ u => PassKept P w u) ⟨rfl, Nat.zero_le _, fun _ h1 h2 => absurd h1 (Nat.not_le.mpr h2)⟩
    (fun hI hin hv => hI.scanned.relocation (scanned_overflows hin) (relocate_ok (scanned_overflows hin) hv)) h
  exact ⟨hu.scanned, fun i h1 hi => overflows_eq_false.mp (hu.scanned.fits i h1 (hi.trans_le hend))⟩

/-! ## A safe relocation leads every slot to its pair (R157) -/

theorem Work.RelocationSafe.overflows {w : Work} (h : w.RelocationSafe) : w.overflows w.upI = true := by
  obtain ⟨⟨-, -, hov, -⟩, -⟩ := h
  exact hov

/-- A slot before the acting one reaches no pair of the window. -/
theorem targetPair_before {w : Work} (h : w.RelocationSafe) {x : Nat} (h1 : 1 ≤ x) (hx : x < w.actingSlot) (hm : w.maskSlot x ≠ leafSentinel) :
    targetPair x (w.slot x) < w.movedPair - w.pullBy ∨ w.movedPair < targetPair x (w.slot x) := by
  obtain ⟨⟨-, -, hov, hfirst⟩, -, hsound⟩ := h
  have hover : 63 < (w.slot w.upI).toNat := (overflows_eq_true.mp hov).2
  have hfit (hlt : x < w.upI) : (w.slot x).toNat ≤ 63 := overflows_eq_false.mp (hfirst x hlt h1) hm
  have hpair := (actingSlot_facts hov).1
  unfold targetPair
  by_cases hfull : w.SiblingFull
  · obtain ⟨hacting, hpull, hmoved⟩ := window_of_full hfull
    rw [hpull, hmoved]
    rcases Nat.lt_trichotomy x w.upI with hlt | rfl | hgt
    · have hslot := hfit hlt
      have hbefore : x / 2 < w.upI / 2 := by
        unfold Work.siblingSlot at hacting
        split at hacting <;> omega
      have hne := fun hk => (hsound hfull).2 x hlt h1 hk hm
      unfold hufNext at hne
      left
      omega
    · right; omega
    · unfold Work.siblingSlot at hacting
      split at hacting <;> omega
  · obtain ⟨hacting, -, -, hlow, -⟩ := window_of_not_full hfull hov
    have hslot := hfit (by omega)
    have hne (hk : x / 2 = w.upI / 2) : (w.slot x).toNat ≠ 63 := fun hs => by
      have hsibling : w.siblingSlot = x := by
        unfold Work.siblingSlot
        split <;> omega
      exact hfull ⟨by rw [hsibling]; exact hs, by rw [hsibling]; exact hm⟩
    left
    omega

/-- A pair that no relocation step moves. -/
theorem pairAfter_outside {w : Work} {k : Nat} (h : k < w.movedPair - w.pullBy ∨ w.movedPair < k) : w.pairAfter k = k :=
  h.elim pairAfter_below pairAfter_above

section Safe

variable {P : Params} {w w' : Work} (h : Relocation P w w') (hs : w.RelocationSafe)
include h hs

/-- An internal slot reaches the pair that it reached before, where that now stands. -/
theorem Relocation.reaches {x : Nat} (h1 : 1 ≤ x) (hx : x < w.ctLen) (hm : w.maskSlot x ≠ leafSentinel) :
    targetPair (w.slotAfter x) (w'.slot (w.slotAfter x)) = w.pairAfter (targetPair x (w.slot x)) := by
  have hbefore := targetPair_before hs h1
  obtain ⟨⟨-, -, hov, -⟩, honce, -⟩ := hs
  obtain ⟨hpair, -, hpull, hwindow⟩ := actingSlot_facts hov
  have hbyte := h.byte x
  have hafter := slotAfter_pair w x
  have hother (hne : x ≠ w.actingSlot) := honce x hx h1 hne hm
  have htarget : targetPair x (w.slot x) = x / 2 + 1 + (w.slot x).toNat := rfl
  have hgoal : targetPair (w.slotAfter x) (w'.slot (w.slotAfter x)) = w.slotAfter x / 2 + 1 + (w'.slot (w.slotAfter x)).toNat := rfl
  rw [hgoal]
  rcases Nat.lt_trichotomy x w.actingSlot with hlt | rfl | hgt
  · rw [byteChange_of_before hlt] at hbyte
    rw [pairAfter_below (by omega)] at hafter
    rw [pairAfter_outside (hbefore hlt hm)]
    omega
  · rw [byteChange_of_acting] at hbyte
    rw [pairAfter_below (by omega)] at hafter
    have hmoved : targetPair w.actingSlot (w.slot w.actingSlot) = w.movedPair := rfl
    rw [hmoved, pairAfter_moved]
    omega
  · have hne := hother (Nat.ne_of_gt hgt)
    rcases Nat.lt_trichotomy (x / 2) w.movedPair with hxm | hxm | hxm
    · by_cases hin : w.movedPair - w.pullBy ≤ x / 2
      · rw [byteChange_of_window hgt hm hin hxm] at hbyte
        rw [pairAfter_window hin hxm] at hafter
        split at hbyte
        · rw [pairAfter_above (by omega)]; omega
        · rw [pairAfter_window (by omega) (by omega)]; omega
      · rw [byteChange_of_below hgt hm (by omega)] at hbyte
        rw [pairAfter_below (by omega)] at hafter
        split at hbyte
        · next hk => rw [pairAfter_window hk.1 hk.2]; omega
        · rw [pairAfter_outside (by omega)]; omega
    · rw [byteChange_of_moved hgt hm hxm] at hbyte
      rw [hxm, pairAfter_moved] at hafter
      rw [pairAfter_above (by omega)]
      omega
    · rw [byteChange_of_above hgt hxm] at hbyte
      rw [pairAfter_above hxm] at hafter
      rw [pairAfter_above (by omega)]
      omega

theorem Relocation.relocated : w.Relocated w' where
  mask x _ _ := h.mask x
  leaf _ _ _ hm := h.leaf hs.overflows hm
  internal _ h1 hx hm := h.reaches hs h1 hx hm

end Safe

/-! ## A safe relocation keeps the packed tree (R159) -/

/-- The slots of the children, by the pair that the node's offset reaches. -/
theorem pairBase_add_pairDistance (x : Nat) (b : Byte) : pairBase x + pairDistance b.toNat = 2 * targetPair x b := by
  unfold pairBase pairDistance targetPair
  omega

theorem slotAfter_children (w : Work) (k : Nat) : w.slotAfter (2 * k) = 2 * w.pairAfter k ∧ w.slotAfter (2 * k + 1) = 2 * w.pairAfter k + 1 := by
  have h1 := slotAfter_pair w (2 * k)
  have h2 := slotAfter_side w (2 * k)
  have h3 := slotAfter_pair w (2 * k + 1)
  have h4 := slotAfter_side w (2 * k + 1)
  rw [show 2 * k / 2 = k by omega] at h1
  rw [show (2 * k + 1) / 2 = k by omega] at h3
  omega

/-- The arena alone determines what a node is. -/
theorem node_congr {w w' : Work} (h : w'.node = w.node) (n : Nat) : w'.nodeAt n = w.nodeAt n ∧ w'.leafsOf n = w.leafsOf n ∧
    w'.leftOf n = w.leftOf n ∧ w'.rightOf n = w.rightOf n ∧ w'.leafFlags n = w.leafFlags n := by
  have hnode (n : Nat) : w'.nodeAt n = w.nodeAt n := congrArg (Table.get Node.null · n) h
  have hleafs (n : Nat) : w'.leafsOf n = w.leafsOf n := congrArg Node.leafs (hnode n)
  have hleft : w'.leftOf n = w.leftOf n := congrArg (linkIndex ∘ Node.lson) (hnode n)
  have hright : w'.rightOf n = w.rightOf n := congrArg (linkIndex ∘ Node.rson) (hnode n)
  refine ⟨hnode n, hleafs n, hleft, hright, ?_⟩
  unfold Work.leafFlags
  rw [hleft, hright, hleafs, hleafs]

/-- A node packed at a slot stands packed where the relocation has put the slot. -/
theorem Relocation.packed {P : Params} {w w' : Work} (h : Relocation P w w') (hs : w.RelocationSafe) {n x : Nat} (hp : w.Packed n x) :
    1 ≤ x → x < w.ctLen → w'.Packed n (w.slotAfter x) := by
  have hov := hs.overflows
  induction hp with
  | leaf n x hn hm ht =>
    intro _ _
    obtain ⟨hnode, hleafs, -⟩ := node_congr h.node n
    exact .leaf n _ (hleafs ▸ hn) ((h.mask x).trans hm) (by rw [h.leaf hov hm, hnode]; exact ht)
  | node n x hn hm hc hl hr ihl ihr =>
    intro h1 hx
    obtain ⟨-, hleafs, hleft, hright, hflags⟩ := node_congr h.node n
    have hpair : pairBase (w.slotAfter x) + pairDistance (w'.slot (w.slotAfter x)).toNat = 2 * w.pairAfter (targetPair x (w.slot x)) := by
      rw [pairBase_add_pairDistance, h.reaches hs h1 hx (hm ▸ leafFlags_ne_sentinel w n)]
    rw [pairBase_add_pairDistance] at hc ihl ihr
    obtain ⟨hafter, hafter'⟩ := slotAfter_children w (targetPair x (w.slot x))
    have htarget : 1 ≤ targetPair x (w.slot x) := by unfold targetPair; omega
    refine .node n _ (hleafs ▸ hn) ((h.mask x).trans (hm.trans hflags.symm)) ?_ ?_ ?_
    · rw [hpair, h.ctLen, ← hafter']
      exact h.slotAfter_lt hc
    · rw [hpair, hleft, ← hafter]
      exact ihl (by omega) (by omega)
    · rw [hpair, hright, ← hafter']
      exact ihr (by omega) hc

theorem Relocation.packed_root {P : Params} {w w' : Work} (h : Relocation P w w') (hs : w.RelocationSafe) {n : Nat} (hp : w.Packed n 1) :
    w'.Packed n 1 := by
  obtain ⟨⟨h1, hlen, hov, -⟩, -⟩ := id hs
  have hself : w.slotAfter 1 = 1 := slotAfter_below (by have := (actingSlot_facts hov).2.2.2; omega)
  exact hself ▸ h.packed hs hp le_rfl (by omega)

theorem Work.Packed.withScan {w : Work} (k i : Nat) {n x : Nat} (h : w.Packed n x) : ({ w with moves := k, upI := i } : Work).Packed n x := by
  induction h with
  | leaf n x hn hm ht => exact .leaf n x hn hm ht
  | node n x hn hm hc _ _ ihl ihr => exact .node n x hn hm hc ihl ihr

theorem Work.Packed.scanned {w : Work} {n x : Nat} (h : w.Packed n x) : w.scanned.Packed n x := by
  obtain ⟨i, hi, -⟩ := scanned_spec w
  exact hi ▸ h.withScan w.moves i

/-- In a pass whose relocations are all safe, the next one is, and so are those after it. -/
theorem relocationsSafe_succ {P : Params} {fuel : Nat} {w v : Work} (h : Work.relocationsSafe P (fuel + 1) w = true)
    (hin : w.scanned.upI < w.scanned.ctLen) (hv : relocate P w.scanned = .ok v) :
    w.scanned.RelocationSafe ∧ Work.relocationsSafe P fuel v = true := by
  unfold Work.relocationsSafe at h
  simp only [show scanFrom (w.ctLen - w.upI) w = w.scanned from rfl, if_pos hin, hv, Bool.and_eq_true, decide_eq_true_eq] at h
  obtain ⟨⟨⟨hfirst, honce⟩, hsound⟩, hrest⟩ := h
  exact ⟨⟨hfirst, honce, hsound⟩, hrest⟩

theorem updateTree_packed {P : Params} {w w' : Work} (h : updateTree P w = .ok w') (hsafe : w.updateSafe P = true) {n : Nat}
    (hp : w.Packed n 1) : w'.Packed n 1 := by
  obtain ⟨-, u, ⟨-, hu⟩, rfl, -⟩ := updateTree_ok (I := fun fuel u => Work.relocationsSafe P fuel u = true ∧ u.Packed n 1) ⟨hsafe, hp.withScan 0 1⟩
    (fun hI hin hv => by
      obtain ⟨hnow, hrest⟩ := relocationsSafe_succ hI.1 hin hv
      exact ⟨hrest, (relocate_ok (scanned_overflows hin) hv).packed_root hnow hI.2.scanned⟩) h
  exact hu.scanned

/-- Settles O28: the pass completes with what `PassKept` says or raises one of its own faults; a safe relocation is `Relocation` with every slot led to its pair. -/
theorem updateEndsWithoutOverflow : Obligations.UpdateEndsWithoutOverflow := by
  refine ⟨fun s => ?_, fun P w w' hs hw => ?_⟩
  · cases hr : updateTree s.params s.work with
    | error e =>
      obtain ⟨hname, hlength⟩ := UpdateFaults.of_updateTree s.params s.work e hr
      obtain ⟨t, ht, hfaulted⟩ := settle_faulted (s := s) (next := fun _ => Phase.encFinal) (r := s.onWork (updateTree s.params s.work))
        (name := e.name) (index := e.index) (length := e.length) (by rw [hr]; rfl)
      exact ⟨t, ht, .inr ⟨e.name, e.index, hname, hlength ▸ hfaulted⟩⟩
    | ok w =>
      obtain ⟨⟨hkept, hmoves, -⟩, hfits⟩ := updateTree_passKept hr
      exact ⟨_, exec_encUpdate_of_ok hr, .inl ⟨congrArg (fun w => ({ s with phase := Phase.encFinal, work := w } : State)) hkept, hfits, hmoves,
        (updateTree_step hr).beyond, fun hsafe n => updateTree_packed hr hsafe⟩⟩
  · have h := relocate_ok hs.overflows hw
    exact ⟨h.relocated hs, h.moves.1, h.scan, fun n => h.packed_root hs⟩

end Sys2Proof.Machine

/-! PROOFS. ENC.PACK spells the tree in the flat buffer (43_enc_ctree R151 to R155). A node stands packed by what certain slots hold (`PackedOn`), whatever is written
elsewhere, so a subtree stays packed while the others are written. PACK_BFS is an induction on the nodes it has still to dequeue: the nodes waiting stand in the next
slots, and twice their leaves, less one for each, is how many slots and dequeues the rest takes. PACK_SPLIT is an induction on the frames left. -/

namespace Sys2Proof.Machine

/-! ## Packed by what certain slots hold -/

/-- `w` has the arena of `v` and a buffer of the same length. -/
structure Work.ArenaOf (w v : Work) : Prop where
  node : w.node = v.node
  ctLen : w.ctLen = v.ctLen

/-- Node `n` stands packed at slot `x` by what the slots `S` hold, whatever the others do. -/
def Work.PackedOn (w : Work) (S : Nat → Prop) (n x : Nat) : Prop :=
  ∀ u : Work, u.ArenaOf w → (∀ y, S y → u.slot y = w.slot y ∧ u.maskSlot y = w.maskSlot y) → u.Packed n x

/-- `w'` is `w` but for the flat tree in the slots `R` and the storage of ENC.PACK. -/
structure PackWrites (R : Nat → Prop) (w w' : Work) : Prop where
  same : w' = { w with
    ctree := w'.ctree, cmask := w'.cmask, packStack := w'.packStack, packQueue := w'.packQueue, packS := w'.packS }
  outside : ∀ y, ¬ R y → w'.slot y = w.slot y ∧ w'.maskSlot y = w.maskSlot y

namespace PackWrites

variable {R : Nat → Prop} {w u v : Work}

theorem refl (w : Work) : PackWrites R w w := ⟨rfl, fun _ _ => ⟨rfl, rfl⟩⟩

theorem trans (h : PackWrites R w u) (k : PackWrites R u v) : PackWrites R w v :=
  ⟨by rw [k.same, h.same], fun y hy => ⟨(k.outside y hy).1.trans (h.outside y hy).1, (k.outside y hy).2.trans (h.outside y hy).2⟩⟩

theorem mono {R' : Nat → Prop} (h : PackWrites R w u) (hR : ∀ y, R y → R' y) : PackWrites R' w u :=
  ⟨h.same, fun y hy => h.outside y fun k => hy (hR y k)⟩

theorem arenaOf (h : PackWrites R w u) (hv : w.ArenaOf v) : u.ArenaOf v := by
  rw [h.same]; exact ⟨hv.node, hv.ctLen⟩

theorem of_written {i : Nat} {b k : Byte} (h : Written w u (Function.update w.slot i b) (Function.update w.maskSlot i k)) (hi : R i) :
    PackWrites R w u := by
  refine ⟨by rw [h.same], fun y hy => ?_⟩
  have hne : y ≠ i := fun e => hy (e ▸ hi)
  rw [h.slot, h.mask, Function.update_of_ne hne, Function.update_of_ne hne]
  exact ⟨rfl, rfl⟩

theorem of_treeWritten {i : Nat} {b : Byte} (h : Written w u (Function.update w.slot i b) w.maskSlot) (hi : R i) : PackWrites R w u :=
  of_written (k := w.maskSlot i) (h.congr (fun _ => rfl) fun y => by rw [Function.update_eq_self]) hi

/-- The stack and the queue alone. -/
theorem of_storage (w : Work) (st : List Frame) (qu : List Nat) (n : Nat) :
    PackWrites R w { w with packStack := st, packQueue := qu, packS := n } := ⟨rfl, fun _ _ => ⟨rfl, rfl⟩⟩

end PackWrites

/-- A node packed by `S` stays packed while other slots are written. -/
theorem Work.PackedOn.kept {w w' : Work} {S T R : Nat → Prop} {n x : Nat} (h : w.PackedOn S n x) (k : PackWrites R w w')
    (hR : ∀ y, S y → ¬ R y ∧ T y) : w'.PackedOn T n x := by
  intro u hu hag
  refine h u ?_ fun y hy => ?_
  · rw [k.same] at hu; exact ⟨hu.node, hu.ctLen⟩
  · obtain ⟨hs, hm⟩ := hag y (hR y hy).2
    obtain ⟨hs', hm'⟩ := k.outside y (hR y hy).1
    exact ⟨hs.trans hs', hm.trans hm'⟩

section Tree

variable {v : Work}

theorem packedOn_leaf {w : Work} (hv : w.ArenaOf v) {S : Nat → Prop} {n x : Nat} (hx : S x) (h : v.leafsOf n = 1)
    (hm : w.maskSlot x = leafSentinel) (ht : (w.slot x).toNat = (v.nodeAt n).sym.toNat) : w.PackedOn S n x := by
  intro u hu hag
  obtain ⟨hnode, hleafs, -⟩ := node_congr (hu.node.trans hv.node) n
  obtain ⟨hs, hm'⟩ := hag x hx
  exact .leaf n x (hleafs.trans h) (hm'.trans hm) (by rw [hs, hnode]; exact ht)

theorem packedOn_node {w : Work} (hv : w.ArenaOf v) {S : Nat → Prop} {n x c : Nat} (hx : S x) (h : v.leafsOf n ≠ 1)
    (hm : w.maskSlot x = v.leafFlags n) (hreach : pairBase x + pairDistance (w.slot x).toNat = c) (hc : c + 1 < v.ctLen)
    (hl : w.PackedOn S (v.leftOf n) c) (hr : w.PackedOn S (v.rightOf n) (c + 1)) : w.PackedOn S n x := by
  intro u hu hag
  obtain ⟨-, hleafs, hleft, hright, hflags⟩ := node_congr (hu.node.trans hv.node) n
  obtain ⟨hs, hm'⟩ := hag x hx
  have hchildren : pairBase x + pairDistance (u.slot x).toNat = c := by rw [hs]; exact hreach
  refine .node n x (by rw [hleafs]; exact h) (by rw [hm', hm, hflags]) ?_ ?_ ?_
  · rw [hchildren, hu.ctLen, hv.ctLen]; exact hc
  · rw [hchildren, hleft]; exact hl u hu hag
  · rw [hchildren, hright]; exact hr u hu hag

/-! ## The nodes of the tree -/

theorem Work.IsTree.sons (h : v.IsTree) {n : Nat} (hn : n < v.nnode) (h1 : v.leafsOf n ≠ 1) :
    v.leftOf n < v.nnode ∧ v.rightOf n < v.nnode ∧ v.leafsOf n = v.leafsOf (v.leftOf n) + v.leafsOf (v.rightOf n) := by
  obtain ⟨a, b, hl, hr, ha, hb, -, -, -, hsum, -⟩ := h.internal n (Nat.not_lt.mp fun hlt => h1 ((h.leafsOf_eq_one hn).mpr hlt)) hn
  have hleft : v.leftOf n = a := by rw [Work.leftOf, hl]; rfl
  have hright : v.rightOf n = b := by rw [Work.rightOf, hr]; rfl
  rw [hleft, hright]
  exact ⟨ha.trans hn, hb.trans hn, hsum⟩

theorem Work.IsTree.sym_lt (h : v.IsTree) {n : Nat} (hn : n < v.nnode) (h1 : v.leafsOf n = 1) : (v.nodeAt n).sym.toNat < 256 :=
  (h.leaf n ((h.leafsOf_eq_one hn).mp h1)).1

/-! ## One node written (R152, R153) -/

/-- The tree byte of a node with the given offset. -/
def Work.treeEntry (v : Work) (n offset : Nat) : Byte := BitVec.ofNat 8 (if v.leafsOf n = 1 then (v.nodeAt n).sym.toNat else offset)

/-- The mask byte of a node. -/
def Work.maskEntry (v : Work) (n : Nat) : Byte := if v.leafsOf n = 1 then leafSentinel else v.leafFlags n

theorem treeEntry_of_leaf (h : v.IsTree) {n : Nat} (hn : n < v.nnode) (h1 : v.leafsOf n = 1) (o : Nat) :
    (v.treeEntry n o).toNat = (v.nodeAt n).sym.toNat := by
  rw [Work.treeEntry, if_pos h1, BitVec.toNat_ofNat, Nat.mod_eq_of_lt (h.sym_lt hn h1)]

theorem treeEntry_of_node {n o : Nat} (h1 : v.leafsOf n ≠ 1) (ho : o ≤ 255) : (v.treeEntry n o).toNat = o := by
  rw [Work.treeEntry, if_neg h1, BitVec.toNat_ofNat, Nat.mod_eq_of_lt (by omega)]

theorem treeWrite_written {w : Work} {x t : Nat} (hx : x < w.ctLen) (ht : t ≤ 255) :
    ∃ u, treeWrite w x t = .ok u ∧ Written w u (Function.update w.slot x (BitVec.ofNat 8 t)) w.maskSlot := by
  have hbyte : ((BitVec.ofNat 8 t).toNat : Int) = (t : Int) := by rw [BitVec.toNat_ofNat, Nat.mod_eq_of_lt (by omega)]
  have h := treeWrite_of_fits hx ht
  exact ⟨_, h, Written.of_treeWrite (by rw [hbyte]; exact h)⟩

/-- Both writes of an entry that is in range. -/
theorem writeEntry {w : Work} {x t : Nat} (hx : x < w.ctLen) (ht : t ≤ 255) (m : Byte) :
    ∃ u, (treeWrite w x t >>= fun u => maskWrite u x m) = .ok u ∧
      Written w u (Function.update w.slot x (BitVec.ofNat 8 t)) (Function.update w.maskSlot x m) := by
  obtain ⟨u, h1, w1⟩ := treeWrite_written hx ht
  have h2 := maskWrite_of_fits (w := u) (by rw [w1.same]; exact hx) m
  have w2 := Written.of_maskWrite h2
  exact ⟨_, by rw [h1, ok_bind, h2], (w1.trans w2).congr (fun y => by rw [w1.slot]) fun y => by rw [w1.mask]⟩

theorem writeNode_written (h : v.IsTree) {w : Work} (hv : w.ArenaOf v) {n x o : Nat} (hn : n < v.nnode) (hx : x < v.ctLen) (ho : o ≤ 255) :
    ∃ u, writeNode w n x o = .ok u ∧ Written w u (Function.update w.slot x (v.treeEntry n o)) (Function.update w.maskSlot x (v.maskEntry n)) := by
  obtain ⟨hnode, hleafs, -, -, hflags⟩ := node_congr hv.node n
  have hx : x < w.ctLen := hv.ctLen ▸ hx
  unfold writeNode Work.treeEntry Work.maskEntry
  rw [hleafs, hnode, hflags]
  split
  · next h1 => exact writeEntry hx (by have := h.sym_lt hn h1; omega) leafSentinel
  · exact writeEntry hx ho (v.leafFlags n)

/-! ## PACK_BFS (R152) -/

/-- The nodes that a dequeued node enqueues. -/
def Work.sons (v : Work) (n : Nat) : List Nat := if v.leafsOf n = 1 then [] else [v.leftOf n, v.rightOf n]

/-- How many slots the subtrees of the nodes `ms` take, and how many dequeues. -/
def Work.span (v : Work) (ms : List Nat) : Nat := (ms.map fun m => 2 * v.leafsOf m - 1).sum

theorem span_cons (v : Work) (m : Nat) (ms : List Nat) : v.span (m :: ms) = 2 * v.leafsOf m - 1 + v.span ms := by simp [Work.span]

theorem span_append (v : Work) (ms ns : List Nat) : v.span (ms ++ ns) = v.span ms + v.span ns := by simp [Work.span]

theorem length_le_span (h : v.IsTree) : ∀ {ms : List Nat}, (∀ m ∈ ms, m < v.nnode) → ms.length ≤ v.span ms
  | [], _ => Nat.zero_le _
  | m :: ms, hms => by
    have h1 := h.leafsOf_pos (hms m List.mem_cons_self)
    have h2 := length_le_span h fun k hk => hms k (List.mem_cons_of_mem m hk)
    rw [span_cons, List.length_cons]
    omega

/-- A node takes one slot and those of its sons' subtrees. -/
theorem span_sons (h : v.IsTree) {n : Nat} (hn : n < v.nnode) : v.span (v.sons n) + 1 = 2 * v.leafsOf n - 1 := by
  unfold Work.sons
  split
  · next h1 => rw [h1]; rfl
  · next h1 =>
    obtain ⟨hl, hr, hsum⟩ := h.sons hn h1
    have := h.leafsOf_pos hl
    have := h.leafsOf_pos hr
    rw [span_cons, span_cons, show v.span [] = 0 from rfl]
    omega

theorem sons_lt (h : v.IsTree) {n : Nat} (hn : n < v.nnode) : ∀ m ∈ v.sons n, m < v.nnode := by
  unfold Work.sons
  split
  · exact fun m hm => absurd hm List.not_mem_nil
  · next h1 =>
    obtain ⟨hl, hr, -⟩ := h.sons hn h1
    exact List.forall_mem_cons.mpr ⟨hl, List.forall_mem_cons.mpr ⟨hr, fun m hm => absurd hm List.not_mem_nil⟩⟩

theorem length_sons (v : Work) (n : Nat) : (v.sons n).length % 2 = 0 := by
  unfold Work.sons
  split
  · rfl
  · exact Nat.mod_self 2

theorem bfsLoop_of_empty {room p q : Nat} {w : Work} (h : w.packQueue.drop w.packS = []) : bfsLoop room p q w = .ok w := by
  have hstop : ¬ w.packS < w.packRq := Nat.not_lt.mpr (List.drop_eq_nil_iff.mp h)
  cases room with
  | zero => rw [bfsLoop, if_neg hstop]
  | succ room => rw [bfsLoop, if_neg hstop]

/-- One dequeue: the node is written, its sons are enqueued. -/
theorem bfsLoop_of_waiting {room p q : Nat} {w : Work} (hv : w.ArenaOf v) {m : Nat} {ms : List Nat} (h : w.packQueue.drop w.packS = m :: ms) :
    bfsLoop (room + 1) p q w = writeNode { w with packS := w.packS + 1 } m (if w.packS = 0 then p else q) (ms.length / 2) >>= fun u =>
      bfsLoop room p (if w.packS = 0 then q else q + 1) { u with packQueue := u.packQueue ++ v.sons m } := by
  have hlen : w.packQueue.length - w.packS = ms.length + 1 := by rw [← List.length_drop, h, List.length_cons]
  have hm : w.packQueue.getD w.packS 0 = m := by
    rw [List.getD_eq_getElem?_getD, ← List.head?_drop, h]; rfl
  have hwait : w.packS < w.packRq := show w.packS < w.packQueue.length by omega
  rw [bfsLoop, if_pos hwait]
  simp only [hm, Work.packRq, show w.packQueue.length - (w.packS + 1) = ms.length by omega]
  obtain ⟨-, hleafs, hleft, hright, -⟩ := node_congr hv.node m
  rw [hleafs, hleft, hright, Work.sons]
  cases writeNode { w with packS := w.packS + 1 } m (if w.packS = 0 then p else q) (ms.length / 2) with
  | error e => rfl
  | ok u =>
    show (if v.leafsOf m = 1 then bfsLoop room p _ u else _) = bfsLoop room p _ _
    by_cases h1 : v.leafsOf m = 1
    · rw [if_pos h1, if_pos h1, List.append_nil]
    · rw [if_neg h1, if_neg h1]

/-- Node `n` is written at slot `x`, and its sons stand packed at `c` and `c + 1` by what the slots `S` hold. -/
structure Placed (v w : Work) (S : Nat → Prop) (n x c : Nat) : Prop where
  mask : w.maskSlot x = v.maskEntry n
  leaf : v.leafsOf n = 1 → (w.slot x).toNat = (v.nodeAt n).sym.toNat
  sons : v.leafsOf n ≠ 1 → c + 1 < v.ctLen ∧ w.PackedOn S (v.leftOf n) c ∧ w.PackedOn S (v.rightOf n) (c + 1)

theorem Work.PackedOn.mono {w : Work} {S T : Nat → Prop} {n x : Nat} (h : w.PackedOn S n x) (hS : ∀ y, S y → T y) : w.PackedOn T n x :=
  h.kept (PackWrites.refl (R := fun _ => False) w) fun y hy => ⟨id, hS y hy⟩

/-- A written node stands packed once its offset reaches its sons. -/
theorem Placed.packed {w : Work} (hv : w.ArenaOf v) {S T : Nat → Prop} {n x c : Nat} (h : Placed v w S n x c) (hS : ∀ y, S y → T y) (hx : T x)
    (hreach : v.leafsOf n ≠ 1 → pairBase x + pairDistance (w.slot x).toNat = c) : w.PackedOn T n x := by
  have hmask := h.mask
  unfold Work.maskEntry at hmask
  split at hmask
  · next h1 => exact packedOn_leaf hv hx h1 hmask (h.leaf h1)
  · next h1 =>
    obtain ⟨hc, hl, hr⟩ := h.sons h1
    exact packedOn_node hv hx h1 hmask (hreach h1) hc (hl.mono hS) (hr.mono hS)

/-- The slots that the subtrees of the waiting nodes `ms` take from slot `q` on. -/
def Work.room (v : Work) (q : Nat) (ms : List Nat) (y : Nat) : Prop := q ≤ y ∧ y < q + v.span ms

/-- The loop's result: each waiting node stands packed in its slot, by what the slots that it was to take hold. -/
structure BfsDone (v w w' : Work) (q : Nat) (ms : List Nat) : Prop where
  writes : PackWrites (v.room q ms) w w'
  stack : w'.packStack = w.packStack
  packed : ∀ j m, ms[j]? = some m → w'.PackedOn (v.room q ms) m (q + j)

/-- One dequeue and the rest of the loop: node `m` is placed at slot `x`, with its sons behind the nodes `ms` that wait from slot `q` on. -/
structure Dequeued (v w w' : Work) (x q m : Nat) (ms : List Nat) : Prop where
  writes : PackWrites (fun y => y = x ∨ v.room q (ms ++ v.sons m) y) w w'
  stack : w'.packStack = w.packStack
  entry : w'.slot x = v.treeEntry m (ms.length / 2)
  placed : Placed v w' (v.room q (ms ++ v.sons m)) m x (q + ms.length)
  waiting : ∀ j k, ms[j]? = some k → w'.PackedOn (v.room q (ms ++ v.sons m)) k (q + j)

theorem drop_append_of_drop_eq {l ms ns : List Nat} {n m : Nat} (h : l.drop n = m :: ms) : (l ++ ns).drop (n + 1) = ms ++ ns := by
  have hlen := congrArg List.length h
  rw [List.length_drop, List.length_cons] at hlen
  rw [List.drop_append_of_le_length (by omega), ← List.drop_drop, h]
  rfl

section Buffer

variable (h : v.IsTree) (hbuf : v.ctLen ≤ 512)
include h hbuf

/-- A dequeue, when the rest of the loop does its part. -/
theorem bfs_dequeue {room p q x q' m : Nat} {ms : List Nat} {w : Work} (hv : w.ArenaOf v) (hwait : w.packQueue.drop w.packS = m :: ms)
    (hslot : (if w.packS = 0 then p else q) = x) (hnext : (if w.packS = 0 then q else q + 1) = q') (hms : ∀ k ∈ m :: ms, k < v.nnode)
    (hx : x < q') (hin : q' + v.span (ms ++ v.sons m) ≤ v.ctLen)
    (rest : ∀ u : Work, u.ArenaOf v → u.packQueue.drop u.packS = ms ++ v.sons m → 0 < u.packS →
      ∃ w', bfsLoop room p q' u = .ok w' ∧ BfsDone v u w' q' (ms ++ v.sons m)) :
    ∃ w', bfsLoop (room + 1) p q w = .ok w' ∧ Dequeued v w w' x q' m ms := by
  obtain ⟨hm, hms⟩ := List.forall_mem_cons.mp hms
  have hlen : (ms ++ v.sons m).length ≤ v.span (ms ++ v.sons m) := length_le_span h fun k hk =>
    (List.mem_append.mp hk).elim (hms k) (sons_lt h hm k)
  rw [List.length_append] at hlen
  obtain ⟨u, hu, hwritten⟩ := writeNode_written h (w := { w with packS := w.packS + 1 }) ⟨hv.node, hv.ctLen⟩ (x := x) (o := ms.length / 2)
    hm (by omega) (by omega)
  have hkept : PackWrites (fun y => y = x ∨ v.room q' (ms ++ v.sons m) y) w u :=
    (PackWrites.of_storage w w.packStack w.packQueue (w.packS + 1)).trans (PackWrites.of_written hwritten (.inl rfl))
  have hqueue : u.packQueue = w.packQueue ∧ u.packS = w.packS + 1 ∧ u.packStack = w.packStack := by rw [hwritten.same]; exact ⟨rfl, rfl, rfl⟩
  have henqueued : PackWrites (fun y => y = x ∨ v.room q' (ms ++ v.sons m) y) u { u with packQueue := u.packQueue ++ v.sons m } :=
    PackWrites.of_storage u u.packStack (u.packQueue ++ v.sons m) u.packS
  obtain ⟨w', hw', hdone⟩ := rest { u with packQueue := u.packQueue ++ v.sons m } (henqueued.arenaOf (hkept.arenaOf hv))
    (by rw [hqueue.1, hqueue.2.1]; exact drop_append_of_drop_eq hwait) (by rw [hqueue.2.1]; exact Nat.succ_pos _)
  obtain ⟨hslot', hmask'⟩ := hdone.writes.outside x fun hy => by unfold Work.room at hy; omega
  have hentry : w'.slot x = v.treeEntry m (ms.length / 2) := hslot'.trans ((congrFun hwritten.slot x).trans (Function.update_self ..))
  refine ⟨w', by rw [bfsLoop_of_waiting hv hwait, hslot, hnext, hu, ok_bind, hw'], ?_, hdone.stack.trans hqueue.2.2, hentry,
    ⟨?_, fun h1 => ?_, fun h1 => ?_⟩, fun j k hk => hdone.packed j k ?_⟩
  · exact (hkept.trans henqueued).trans (hdone.writes.mono fun y hy => .inr hy)
  · exact hmask'.trans ((congrFun hwritten.mask x).trans (Function.update_self ..))
  · rw [hentry, treeEntry_of_leaf h hm h1]
  · have hsons : v.sons m = [v.leftOf m, v.rightOf m] := if_neg h1
    rw [hsons] at hlen hin
    refine ⟨by simp only [List.length_cons, List.length_nil] at hlen; omega, hdone.packed ms.length (v.leftOf m) ?_,
      hdone.packed (ms.length + 1) (v.rightOf m) ?_⟩
    · rw [hsons, List.getElem?_append_right le_rfl, Nat.sub_self]; rfl
    · rw [hsons, List.getElem?_append_right (by omega), Nat.add_sub_cancel_left]; rfl
  · obtain ⟨hlt, -⟩ := List.getElem?_eq_some_iff.mp hk
    rw [List.getElem?_append_left hlt, hk]

/-- The loop past the subtree's root: the waiting nodes stand in the next slots, and so do those they enqueue (R152). -/
theorem bfsLoop_done {p : Nat} : ∀ (room : Nat) {q : Nat} {ms : List Nat} {w : Work}, w.ArenaOf v →
    w.packQueue.drop w.packS = ms → 0 < w.packS → (∀ m ∈ ms, m < v.nnode) → (q + ms.length) % 2 = 0 → v.span ms ≤ room →
    q + v.span ms ≤ v.ctLen → ∃ w', bfsLoop room p q w = .ok w' ∧ BfsDone v w w' q ms
  | room, q, [], w, hv, hwait, _, _, _, _, _ => ⟨w, bfsLoop_of_empty hwait, PackWrites.refl w, rfl, fun j m hj => by simp at hj⟩
  | 0, q, m :: ms, w, hv, hwait, _, hms, _, hspan, _ => by
    have := length_le_span h hms
    rw [List.length_cons] at this
    omega
  | room + 1, q, m :: ms, w, hv, hwait, hpos, hms, heven, hspan, hin => by
    obtain ⟨hm, hms'⟩ := List.forall_mem_cons.mp hms
    have htotal : v.span (m :: ms) = v.span (ms ++ v.sons m) + 1 := by
      rw [span_cons, span_append, ← span_sons h hm]; omega
    have hsons := length_sons v m
    have hlen := length_le_span h hms
    rw [List.length_cons] at heven hlen
    obtain ⟨w', hw', d⟩ := bfs_dequeue h hbuf (room := room) (p := p) (q := q) (x := q) (q' := q + 1) hv hwait
      (if_neg (by omega)) (if_neg (by omega)) hms (by omega) (by omega) fun u hu hwait' hpos' =>
        bfsLoop_done room hu hwait' hpos' (fun k hk => (List.mem_append.mp hk).elim (hms' k) (sons_lt h hm k))
          (by rw [List.length_append]; omega) (by omega) (by omega)
    have hsub : ∀ y, v.room (q + 1) (ms ++ v.sons m) y → v.room q (m :: ms) y := fun y hy => by unfold Work.room at hy ⊢; omega
    have hq : v.room q (m :: ms) q := by unfold Work.room; omega
    refine ⟨w', hw', d.writes.mono fun y hy => hy.elim (fun e => e ▸ hq) (hsub y), d.stack, fun j k hk => ?_⟩
    cases j with
    | zero =>
      obtain rfl : m = k := Option.some.inj hk
      refine d.placed.packed (d.writes.arenaOf hv) hsub hq fun h1 => ?_
      rw [Nat.add_zero, d.entry, treeEntry_of_node h1 (by omega)]
      unfold pairBase pairDistance
      omega
    | succ j =>
      rw [← Nat.succ_add_eq_add_succ]
      exact (d.waiting j k hk).mono hsub

end Buffer

end Tree

end Sys2Proof.Machine

/-! PROOFS. ENC.PACK, from the subtrees of at most 64 leaves up to the whole tree (43_enc_ctree R151 to R155). -/

namespace Sys2Proof.Machine

/-! ## One call of PACK (R151, R154) -/

/-- What `PACK(n, p, q)` leaves: node `n` at slot `p`, with offset 0 when it is internal, its descendants in the slots from `q` on, and the stack as before. -/
structure PackDone (v w w' : Work) (n p q : Nat) : Prop where
  writes : PackWrites (fun y => y = p ∨ v.room q (v.sons n) y) w w'
  stack : w'.packStack = w.packStack
  placed : Placed v w' (v.room q (v.sons n)) n p q
  offset : v.leafsOf n ≠ 1 → (w'.slot p).toNat = 0

/-- The conditions under which node `n` is packed at `p` with its descendants from `q` on: the even slot `q` lies behind `p`, and the slots are in the buffer. -/
structure PackFits (v : Work) (n p q : Nat) : Prop where
  node : n < v.nnode
  behind : p < q
  even : q % 2 = 0
  inside : q + v.span (v.sons n) ≤ v.ctLen

/-- With `room` frames left on the stack, PACK packs every node of at most `room + 63` leaves (R155). -/
def PacksWithin (v : Work) (P : Params) (room : Nat) : Prop := ∀ ⦃n p q : Nat⦄ ⦃w : Work⦄, w.ArenaOf v → PackFits v n p q →
  v.leafsOf n ≤ room + 63 → ∃ w', pack P room n p q w = .ok w' ∧ PackDone v w w' n p q

/-- The conditions under which the children of a split node are packed, `a` at `pa` and then `b` at `pb`, both in the pair at `q`. The one packed second is the
heavier one and so is internal. -/
structure PairFits (v : Work) (a pa b pb q : Nat) : Prop where
  nodes : a < v.nnode ∧ b < v.nnode
  internal : v.leafsOf b ≠ 1
  pair : pa / 2 = q / 2 ∧ pb / 2 = q / 2 ∧ pa ≠ pb
  even : q % 2 = 0
  inside : q + v.span [a, b] ≤ v.ctLen

/-! ## The stack's registers -/

namespace PackWrites

variable {R : Nat → Prop} (w : Work)

theorem of_setStage (s k : Nat) : PackWrites R w (w.setStage s k) := of_storage w _ w.packQueue w.packS

theorem of_pushFrame (n p q : Nat) : PackWrites R w (w.pushFrame n p q) := of_storage w _ w.packQueue w.packS

theorem of_popFrame : PackWrites R w w.popFrame := of_storage w _ w.packQueue w.packS

end PackWrites

theorem setStage_stack {w : Work} {f : Frame} {st : List Frame} (h : w.packStack = f :: st) (s k : Nat) :
    (w.setStage s k).packStack = { f with stage := s, first := k } :: st := by
  simp only [Work.setStage, h]

theorem firstCount_eq {w : Work} {f : Frame} {st : List Frame} (h : w.packStack = f :: st) : w.firstCount = f.first := by
  simp only [Work.firstCount, h]

/-- A node packed stays packed when the newest frame is dropped. -/
theorem Work.PackedOn.popFrame {w : Work} {S : Nat → Prop} {n x : Nat} (h : w.PackedOn S n x) : w.popFrame.PackedOn S n x :=
  h.kept (PackWrites.of_popFrame (R := fun _ => False) w) fun _ hy => ⟨id, hy⟩

section Tree

variable {v : Work} (h : v.IsTree) (hbuf : v.ctLen ≤ 512)
include h hbuf

/-! ## A subtree of at most 64 leaves (R152) -/

theorem packBfs_done {n p q : Nat} {w : Work} (hv : w.ArenaOf v) (hfit : PackFits v n p q) (hsmall : v.leafsOf n ≤ 64) :
    ∃ w', packBfs n p q w = .ok w' ∧ PackDone v w w' n p q := by
  obtain ⟨hn, hpq, heven, hin⟩ := hfit
  have hspan := span_sons h hn
  have hsons := length_sons v n
  obtain ⟨w', hw', d⟩ := bfs_dequeue h hbuf (room := 126) (p := p) (q := q) (x := p) (q' := q) (m := n) (ms := [])
    (w := { w with packQueue := [n], packS := 0 }) ⟨hv.node, hv.ctLen⟩ rfl rfl rfl (fun k hk => List.mem_singleton.mp hk ▸ hn) hpq hin
    fun u hu hwait hpos => bfsLoop_done h hbuf 126 hu hwait hpos (sons_lt h hn) (by rw [List.nil_append]; omega) (by rw [List.nil_append]; omega) hin
  refine ⟨w', hw', (PackWrites.of_storage w w.packStack [n] 0).trans d.writes, d.stack, d.placed, fun h1 => ?_⟩
  rw [d.entry]
  exact treeEntry_of_node h1 (Nat.zero_le _)

theorem pack_of_small {P : Params} {room n p q : Nat} {w : Work} (hv : w.ArenaOf v) (hfit : PackFits v n p q) (hsmall : v.leafsOf n ≤ 64) :
    ∃ w', pack P (room + 1) n p q w = .ok w' ∧ PackDone v w w' n p q := by
  have hpush : PackWrites (fun y => y = p ∨ v.room q (v.sons n) y) w (w.pushFrame n p q) := PackWrites.of_pushFrame w n p q
  have hv' := hpush.arenaOf hv
  obtain ⟨u, hu, d⟩ := packBfs_done h hbuf hv' hfit hsmall
  have hleafs : (w.pushFrame n p q).leafsOf n ≤ hufNext + 1 := (node_congr hv'.node n).2.1 ▸ hsmall
  refine ⟨u.popFrame, ?_, (hpush.trans d.writes).trans (PackWrites.of_popFrame u), congrArg List.tail d.stack,
    ⟨d.placed.mask, d.placed.leaf, fun h1 => ?_⟩, d.offset⟩
  · simp only [pack_succ, if_pos hleafs, hu, ok_bind]
  · obtain ⟨hc, hl, hr⟩ := d.placed.sons h1
    exact ⟨hc, hl.popFrame, hr.popFrame⟩

/-! ## A larger subtree (R153) -/

/-- Each child stands packed in the pair at `q`, and nothing but the slots of their subtrees is written. -/
theorem packChildren_done {P : Params} {room a pa b pb q : Nat} {w : Work} {f : Frame} {st : List Frame} (ih : PacksWithin v P room)
    (hv : w.ArenaOf v) (hst : w.packStack = f :: st) (hfit : PairFits v a pa b pb q) (hroom : v.leafsOf a ≤ room + 63 ∧ v.leafsOf b ≤ room + 63) :
    ∃ w', packChildren P room a pa b pb q w = .ok w' ∧ PackWrites (v.room q [a, b]) w w' ∧ w'.packStack = st ∧
      w'.PackedOn (v.room q [a, b]) a pa ∧ w'.PackedOn (v.room q [a, b]) b pb := by
  obtain ⟨⟨ha, hb⟩, hb1, ⟨hpa, hpb, hne⟩, heven, hin⟩ := hfit
  have hka := h.leafsOf_pos ha
  have hkb := h.leafsOf_pos hb
  have hsa := span_sons h ha
  have hsb := span_sons h hb
  have hspan : v.span [a, b] = 2 * v.leafsOf a - 1 + (2 * v.leafsOf b - 1) := by rw [span_cons, span_cons]; rfl
  have hsubA : ∀ y, y = pa ∨ v.room (q + 2) (v.sons a) y → v.room q [a, b] y := fun y hy => by unfold Work.room at hy ⊢; omega
  have hsubB : ∀ y, y = pb ∨ v.room (q + 2 * v.leafsOf a) (v.sons b) y → v.room q [a, b] y := fun y hy => by unfold Work.room at hy ⊢; omega
  obtain ⟨u1, h1, d1⟩ := ih (n := a) (p := pa) (q := q + 2) (w := w.setStage 1 0) ⟨hv.node, hv.ctLen⟩ ⟨ha, by omega, by omega, by omega⟩ hroom.1
  have w1 : PackWrites (v.room q [a, b]) w u1 := (PackWrites.of_setStage w 1 0).trans (d1.writes.mono hsubA)
  have hleafs : u1.leafsOf a = v.leafsOf a := (node_congr (w1.arenaOf hv).node a).2.1
  have hs1 := setStage_stack (d1.stack.trans (setStage_stack hst 1 0)) 2 (v.leafsOf a)
  have hfirst1 : (u1.setStage 2 (v.leafsOf a)).firstCount = v.leafsOf a := firstCount_eq hs1
  have w2 : PackWrites (v.room q [a, b]) w (u1.setStage 2 (v.leafsOf a)) := w1.trans (PackWrites.of_setStage u1 2 _)
  obtain ⟨u2, h2, d2⟩ := ih (n := b) (p := pb) (q := q + 2 * v.leafsOf a) (w2.arenaOf hv) ⟨hb, by omega, by omega, by omega⟩ hroom.2
  have hfirst2 : u2.firstCount = v.leafsOf a := firstCount_eq (d2.stack.trans hs1)
  have w3 : PackWrites (v.room q [a, b]) w u2 := w2.trans (d2.writes.mono hsubB)
  obtain ⟨u3, h3, hw3⟩ := treeWrite_written (w := u2) (x := pb) (t := v.leafsOf a - 1) (by rw [(w3.arenaOf hv).ctLen]; omega) (by omega)
  have w4 : PackWrites (v.room q [a, b]) w u3 := w3.trans (PackWrites.of_treeWritten hw3 (hsubB pb (.inl rfl)))
  have hpackedA : u3.PackedOn (v.room q [a, b]) a pa := by
    have hu1 : u1.PackedOn (fun y => y = pa ∨ v.room (q + 2) (v.sons a) y) a pa :=
      d1.placed.packed (w1.arenaOf hv) (fun y hy => .inr hy) (.inl rfl) fun h1 => by
        rw [d1.offset h1]; unfold pairBase pairDistance; omega
    have hlater : PackWrites (fun y => y = pb ∨ v.room (q + 2 * v.leafsOf a) (v.sons b) y) u1 u3 :=
      ((PackWrites.of_setStage u1 2 _).trans d2.writes).trans (PackWrites.of_treeWritten hw3 (.inl rfl))
    exact hu1.kept hlater fun y hy => ⟨fun k => by unfold Work.room at hy k; omega, hsubA y hy⟩
  have hpackedB : u3.PackedOn (v.room q [a, b]) b pb := by
    obtain ⟨hc, hl, hr⟩ := d2.placed.sons hb1
    have hwrite : PackWrites (· = pb) u2 u3 := PackWrites.of_treeWritten hw3 rfl
    have hsub : ∀ y, v.room (q + 2 * v.leafsOf a) (v.sons b) y → ¬ y = pb ∧ v.room q [a, b] y := fun y hy =>
      ⟨by unfold Work.room at hy; omega, hsubB y (.inr hy)⟩
    have hslot : (u3.slot pb).toNat = v.leafsOf a - 1 := by
      rw [hw3.slot, Function.update_self, BitVec.toNat_ofNat, Nat.mod_eq_of_lt (by omega)]
    refine packedOn_node (w4.arenaOf hv) (hsubB pb (.inl rfl)) hb1 ?_ ?_ hc (hl.kept hwrite hsub) (hr.kept hwrite hsub)
    · rw [hw3.mask, d2.placed.mask, Work.maskEntry, if_neg hb1]
    · rw [hslot]; unfold pairBase pairDistance; omega
  refine ⟨u3.popFrame, ?_, w4.trans (PackWrites.of_popFrame u3), ?_, hpackedA.popFrame, hpackedB.popFrame⟩
  · have hvalue : (u2.firstCount : Int) - 1 = ((v.leafsOf a - 1 : Nat) : Int) := by omega
    rw [packChildren, h1, ok_bind, hleafs]
    show (pack P room b pb (q + 2 * (u1.setStage 2 (v.leafsOf a)).firstCount) (u1.setStage 2 (v.leafsOf a)) >>= fun u => _) = _
    rw [hfirst1, h2, ok_bind, hvalue, h3, ok_bind]
  · show u3.packStack.tail = st
    rw [hw3.same]
    exact congrArg List.tail (d2.stack.trans hs1)

omit h hbuf in
theorem span_pair_comm (v : Work) (a b : Nat) : v.span [a, b] = v.span [b, a] := by
  rw [span_cons, span_cons, span_cons, span_cons, Nat.add_left_comm]

omit h hbuf in
theorem room_pair_comm (v : Work) (q a b : Nat) : v.room q [a, b] = v.room q [b, a] := by
  funext y
  rw [Work.room, Work.room, span_pair_comm]

/-- The lighter child is packed first, the left one when they are equal. -/
theorem pack_of_large {P : Params} {room n p q : Nat} {w : Work} (ih : PacksWithin v P room) (hv : w.ArenaOf v) (hfit : PackFits v n p q)
    (hlarge : 64 < v.leafsOf n) (hroom : v.leafsOf n ≤ room + 64) : ∃ w', pack P (room + 1) n p q w = .ok w' ∧ PackDone v w w' n p q := by
  obtain ⟨hn, hpq, heven, hin⟩ := hfit
  have h1 : v.leafsOf n ≠ 1 := by omega
  have hsons : v.sons n = [v.leftOf n, v.rightOf n] := if_neg h1
  have hspan := span_sons h hn
  obtain ⟨hl, hr, hsum⟩ := h.sons hn h1
  have hkl := h.leafsOf_pos hl
  have hkr := h.leafsOf_pos hr
  have hv' : (w.pushFrame n p q).ArenaOf v := ⟨hv.node, hv.ctLen⟩
  obtain ⟨-, hleafs, hleft, hright, hflags⟩ := node_congr hv'.node n
  obtain ⟨u, hu, hwritten⟩ := writeEntry (w := w.pushFrame n p q) (x := p) (t := 0) (by rw [hv'.ctLen]; omega) (Nat.zero_le _) (v.leafFlags n)
  obtain ⟨u0, hu1, hu2⟩ := except_bind_ok.mp hu
  have hu1 : treeWrite (w.pushFrame n p q) p 0 = .ok u0 := hu1
  have wu : PackWrites (· = p) w u := (PackWrites.of_pushFrame w n p q).trans (PackWrites.of_written hwritten rfl)
  have hvu := wu.arenaOf hv
  have hstack : u.packStack = { node := n, p := p, q := q, stage := 0, first := 0 } :: w.packStack := by rw [hwritten.same]; rfl
  have hexec : pack P (room + 1) n p q w =
      if v.leafsOf (v.leftOf n) ≤ v.leafsOf (v.rightOf n) then packChildren P room (v.leftOf n) q (v.rightOf n) (q + 1) q u
      else packChildren P room (v.rightOf n) (q + 1) (v.leftOf n) q q u := by
    have hsplit : ¬ v.leafsOf n ≤ hufNext + 1 := Nat.not_le.mpr hlarge
    rw [pack_succ]
    simp only [hleafs, hleft, hright, hflags, if_neg hsplit, hu1, hu2, ok_bind, (node_congr hvu.node _).2.1]
  have finish {x : Except Raise Work} (hx : ∃ w', x = .ok w' ∧ PackWrites (v.room q (v.sons n)) u w' ∧ w'.packStack = w.packStack ∧
      w'.PackedOn (v.room q (v.sons n)) (v.leftOf n) q ∧ w'.PackedOn (v.room q (v.sons n)) (v.rightOf n) (q + 1)) :
      ∃ w', x = .ok w' ∧ PackDone v w w' n p q := by
    obtain ⟨w', hw', hwrites, hstack, hpl, hpr⟩ := hx
    obtain ⟨hslot, hmask⟩ := hwrites.outside p fun hy => by unfold Work.room at hy; omega
    refine ⟨w', hw', (wu.mono fun y hy => .inl hy).trans (hwrites.mono fun y hy => .inr hy), hstack,
      ⟨?_, fun k => absurd k h1, fun _ => ⟨by omega, hpl, hpr⟩⟩, fun _ => ?_⟩
    · rw [hmask, hwritten.mask, Function.update_self, Work.maskEntry, if_neg h1]
    · rw [hslot, hwritten.slot, Function.update_self]; rfl
  rw [hexec]
  rw [hsons] at hin finish
  split
  · exact finish (packChildren_done h hbuf ih hvu hstack ⟨⟨hl, hr⟩, by omega, by omega, heven, hin⟩ (by omega))
  · obtain ⟨w', hw', hwrites, hst, hpr, hpl⟩ := packChildren_done h hbuf (pa := q + 1) (pb := q) ih hvu hstack
      ⟨⟨hr, hl⟩, by omega, by omega, heven, span_pair_comm v _ _ ▸ hin⟩ (by omega)
    rw [room_pair_comm] at hwrites hpr hpl
    exact finish ⟨w', hw', hwrites, hst, hpl, hpr⟩

/-! ## The whole tree (R151, R155) -/

/-- Each split takes one frame, and each child has at least one leaf less. -/
theorem packsWithin {P : Params} : ∀ room, PacksWithin v P (room + 1)
  | 0 => fun _ _ _ _ hv hfit hroom => pack_of_small h hbuf hv hfit hroom
  | room + 1 => by
    intro n p q w hv hfit hroom
    by_cases hsmall : v.leafsOf n ≤ 64
    · exact pack_of_small h hbuf hv hfit hsmall
    · exact pack_of_large h hbuf (packsWithin room) hv hfit (Nat.not_le.mp hsmall) (by omega)

end Tree

theorem exec_encPack_of_ok {s : State} {w : Work} (h : packTree s.params s.work = .ok w) :
    exec .encPack s = .next { s with phase := Phase.encUpdate, work := w } :=
  congrArg (fun r => s.settle (fun _ => Phase.encUpdate) (s.onWork r)) h

/-- Settles O26: the call of PACK for the root, with the frames that the parameters promise. -/
theorem packSpellsTree : Obligations.PackSpellsTree := by
  intro s hlegal htree hlen
  obtain ⟨-, -, hframes⟩ := hlegal
  obtain ⟨h2, hmax, hcount⟩ := htree.count
  unfold nsym at hmax
  rw [or_one_eq] at hlen
  have hroot : 2 * s.work.nleaf - 2 = s.work.nnode - 1 := by omega
  have hleafs : s.work.leafsOf (2 * s.work.nleaf - 2) = s.work.nleaf := hroot ▸ htree.root.2.1
  have hspan := span_sons htree (n := 2 * s.work.nleaf - 2) (by omega)
  have hpack := packsWithin htree (by omega) (P := s.params) (s.params.packStack - 1)
  rw [Nat.sub_add_cancel (by omega)] at hpack
  obtain ⟨w', hw', hdone⟩ := hpack (n := 2 * s.work.nleaf - 2) (p := 1) (q := 2) (w := { s.work with packStack := [] }) ⟨rfl, rfl⟩
    ⟨by omega, by omega, rfl, by omega⟩ (by omega)
  have hwrites := (PackWrites.of_storage s.work [] s.work.packQueue s.work.packS).trans hdone.writes
  have harena : w'.ArenaOf s.work := hwrites.arenaOf ⟨rfl, rfl⟩
  have hpacked : w'.PackedOn (fun _ => True) (2 * s.work.nleaf - 2) 1 :=
    hdone.placed.packed harena (fun _ _ => trivial) trivial fun h1 => by rw [hdone.offset h1]; rfl
  refine ⟨w'.ctree, w'.cmask, w'.packStack, w'.packQueue, w'.packS, ?_, hpacked _ ⟨harena.node.symm, harena.ctLen.symm⟩ fun _ _ => ⟨rfl, rfl⟩,
    fun i hi => hwrites.outside i fun hy => ?_⟩
  · rw [← hwrites.same]
    exact exec_encPack_of_ok hw'
  · unfold Work.room at hy
    omega

end Sys2Proof.Machine

/-! PROOFS. ENC.DERIVE, ENC.HDR, ENC.TREEOUT and ENC.DONE (44_enc_codes_emit R179 to R183, R185): a codeword is packed bit by bit from the path, the header and the
tree are appended, and the end of ENCODE keeps the payload. -/

namespace Sys2Proof.Machine

/-! ## The mask that stands at a bit of a codeword (30_encoding R81) -/

/-- The mask of bit `k` of a codeword within its byte, `k div 8`. -/
def codeMask (k : Nat) : Byte := BitVec.twoPow 8 (7 - k % 8)

theorem codeMask_of_byte_start {k : Nat} (h : k % 8 = 0) : codeMask k = 0x80#8 := by rw [codeMask, h]; rfl

theorem twoPow_shift : ∀ j < 8, BitVec.twoPow 8 (7 - j) >>> 1 = (if j = 7 then 0 else BitVec.twoPow 8 (7 - (j + 1))) := by decide

theorem twoPow_ne_zero : ∀ j < 8, BitVec.twoPow 8 (7 - j) ≠ 0 := by decide

theorem codeMask_shift_of_last {k : Nat} (h : k % 8 = 7) : codeMask k >>> 1 = 0 := by
  rw [codeMask, h]
  decide

theorem codeMask_shift_of_inner {k : Nat} (h : k % 8 ≠ 7) : codeMask k >>> 1 = codeMask (k + 1) := by
  rw [codeMask, twoPow_shift _ (Nat.mod_lt _ (by decide)), if_neg h, codeMask, show (k + 1) % 8 = k % 8 + 1 by omega]

theorem codeMask_ne_zero (k : Nat) : codeMask k ≠ 0 := twoPow_ne_zero _ (Nat.mod_lt _ (by decide))

theorem codewordBit_codeMask (c : Code) (k : Nat) : codewordBit c (k / 8) (codeMask k) = c.bit k :=
  and_twoPow_ne_zero _ (by omega)

/-! ## Packing a path (R180) -/

/-- The bytes of a codeword with bit `k` set, when `b` says so. -/
def packBit (cw : Table Byte) (k : Nat) (b : Bool) : Table Byte :=
  if b then Table.set (0 : Byte) cw (k / 8) (Table.get (0 : Byte) cw (k / 8) ||| codeMask k) else cw

/-- Packing goes on with the next bit, in the same byte or at the start of the next one. -/
theorem packBits_cons (b : Bool) (l : List Bool) (k : Nat) (cw : Table Byte) :
    packBits (b :: l) (codeMask k) (k / 8) cw = packBits l (codeMask (k + 1)) ((k + 1) / 8) (packBit cw k b) := by
  rw [packBits]
  by_cases h : k % 8 = 7
  · rw [if_pos (codeMask_shift_of_last h), codeMask_of_byte_start (show (k + 1) % 8 = 0 by omega), show (k + 1) / 8 = k / 8 + 1 by omega]
    rfl
  · rw [codeMask_shift_of_inner h, if_neg (codeMask_ne_zero _), show (k + 1) / 8 = k / 8 by omega]
    rfl

/-- Bit `i` of the bytes of a codeword, as `Code.bit` reads it. -/
def cwBit (cw : Table Byte) (i : Nat) : Bool := (Table.get (0 : Byte) cw (i / 8)).getLsbD (7 - i % 8)

theorem cwBit_packBit (cw : Table Byte) (k : Nat) (b : Bool) (i : Nat) :
    cwBit (packBit cw k b) i = (cwBit cw i || (decide (i = k) && b)) := by
  cases b with
  | false => simp [packBit]
  | true =>
    rw [packBit, if_pos rfl, cwBit, Table.get_set]
    by_cases hbyte : i / 8 = k / 8
    · have hbit : (codeMask k).getLsbD (7 - i % 8) = decide (i = k) := by
        have hindex : 7 - k % 8 = 7 - i % 8 ↔ i = k := by omega
        rw [codeMask, BitVec.getLsbD_twoPow, decide_eq_true (show 7 - k % 8 < 8 by omega), Bool.true_and, decide_eq_decide.mpr hindex]
      rw [if_pos hbyte, BitVec.getLsbD_or, hbit, cwBit, hbyte, Bool.and_true]
    · have hne : i ≠ k := fun e => hbyte (by rw [e])
      simp [hbyte, hne, cwBit]

/-- The bits packed from bit `k` on, over what the bytes held. -/
theorem cwBit_packBits : ∀ (l : List Bool) (k : Nat) (cw : Table Byte) (i : Nat),
    cwBit (packBits l (codeMask k) (k / 8) cw) i = (cwBit cw i || (decide (k ≤ i) && l.getD (i - k) false))
  | [], k, cw, i => by simp [packBits]
  | b :: l, k, cw, i => by
    rw [packBits_cons, cwBit_packBits l, cwBit_packBit]
    obtain h | rfl | h : i < k ∨ i = k ∨ k < i := by omega
    · simp [show ¬ k ≤ i by omega, show ¬ k + 1 ≤ i by omega, show i ≠ k by omega]
    · simp
    · obtain ⟨j, rfl⟩ : ∃ j, i = k + 1 + j := ⟨i - (k + 1), by omega⟩
      simp [show k + 1 + j - k = j + 1 by omega, show k ≤ k + 1 + j by omega, show k + 1 + j ≠ k by omega]

theorem codeOfPath_bit (sc : List Bool) (k : Nat) : (codeOfPath sc).bit k = sc.reverse.getD k false := by
  have hpacked := cwBit_packBits sc.reverse 0 [] k
  rw [Nat.sub_zero, codeMask_of_byte_start rfl, show cwBit [] k = false by simp [cwBit], Bool.false_or, decide_eq_true (Nat.zero_le k),
    Bool.true_and] at hpacked
  exact hpacked

theorem codeOfPath_bits (sc : List Bool) : (codeOfPath sc).bits = sc.reverse := by
  refine List.ext_getElem (by simp [Code.bits, codeOfPath]) fun k _ hk => ?_
  simp only [Code.bits, List.getElem_map, List.getElem_range, codeOfPath_bit, List.getD_eq_getElem _ _ hk]

theorem codeOfPath_bit_of_le {sc : List Bool} {k : Nat} (hk : sc.length ≤ k) : (codeOfPath sc).bit k = false := by
  rw [codeOfPath_bit, List.getD_eq_default _ _ (by rwa [List.length_reverse])]

/-! ## ENC.DERIVE (R180) -/

/-- The path of leaf `i` is one that a codeword entry holds. -/
abbrev Work.PathFits (w : Work) (i : Nat) : Prop := 1 ≤ (w.path i).length ∧ (w.path i).length ≤ 255

/-- The entry of `CODE` that leaf `i` gets (log 33). -/
def Work.leafEntry (w : Work) (i : Nat) : Nat := ((w.nodeAt i).sym.setWidth 8).toNat

theorem leafEntry_of_lt {w : Work} {i : Nat} (h : (w.nodeAt i).sym.toNat < 256) : w.leafEntry i = (w.nodeAt i).sym.toNat := by
  rw [Work.leafEntry, BitVec.toNat_setWidth, Nat.mod_eq_of_lt h]

/-- A path depends on the arena alone. -/
theorem pathFrom_code {w : Work} (c : Table Code) : ∀ (n i : Nat), ({ w with code := c } : Work).pathFrom n i = w.pathFrom n i
  | 0, _ => rfl
  | n + 1, i => by
    cases hd : (w.nodeAt i).dad with
    | none => rw [pathFrom_of_root hd, pathFrom_of_root (w := { w with code := c }) hd]
    | some d =>
      rw [pathFrom_of_dad hd, pathFrom_of_dad (w := { w with code := c }) hd, pathFrom_code c n d]
      rfl

theorem deriveLeaf_of_fits {w : Work} {i : Nat} (c : Table Code) (h : w.PathFits i) : deriveLeaf { w with code := c } i =
    .ok { w with code := Table.set Code.null c (w.leafEntry i) (codeOfPath (w.path i)) } := by
  obtain ⟨hpos, hmax⟩ := h
  rw [deriveLeaf, Work.path, pathFrom_code, ← Work.path, if_neg (by omega)]
  rfl

theorem deriveLeaf_of_bad {w : Work} {i : Nat} (c : Table Code) (h : ¬ w.PathFits i) :
    deriveLeaf { w with code := c } i = .error ⟨.codeWorkNotFound, (w.nodeAt i).sym.toNat, (w.path i).length⟩ := by
  rw [deriveLeaf, Work.path, pathFrom_code, ← Work.path, if_pos (by unfold Work.PathFits at h; omega)]
  rfl

theorem deriveFrom_succ (n i : Nat) (w : Work) : deriveFrom (n + 1) i w = deriveLeaf w i >>= deriveFrom n (i + 1) := by
  rw [deriveFrom]
  cases deriveLeaf w i <;> rfl

/-- Deriving `a + b` codewords is deriving `a` and then `b` more. -/
theorem deriveFrom_append (b : Nat) : ∀ (a i : Nat) (w : Work), deriveFrom (a + b) i w = deriveFrom a i w >>= deriveFrom b (i + a)
  | 0, i, w => by rw [Nat.zero_add]; rfl
  | a + 1, i, w => by
    rw [Nat.succ_add, deriveFrom_succ, deriveFrom_succ]
    cases deriveLeaf w i with
    | error e => rfl
    | ok u => rw [ok_bind, ok_bind, deriveFrom_append b a, Nat.add_right_comm, Nat.add_assoc]

/-- The codewords of the first `n` leaves: each in its own entry, when no two share one, and no other entry written. -/
theorem deriveFrom_of_fits {w : Work} : ∀ {n : Nat}, (∀ i < n, w.PathFits i) →
    ∃ c, deriveFrom n 0 w = .ok { w with code := c } ∧
      ((∀ i < n, ∀ j < n, w.leafEntry i = w.leafEntry j → i = j) → ∀ i < n, Table.get Code.null c (w.leafEntry i) = codeOfPath (w.path i)) ∧
      ∀ b, (∀ i < n, w.leafEntry i ≠ b) → Table.get Code.null c b = Table.get Code.null w.code b
  | 0, _ => ⟨w.code, rfl, fun _ => nofun, fun _ _ => rfl⟩
  | n + 1, h => by
    obtain ⟨c, hderive, hleaf, hother⟩ := deriveFrom_of_fits (n := n) fun i hi => h i (by omega)
    refine ⟨Table.set Code.null c (w.leafEntry n) (codeOfPath (w.path n)), ?_, fun hinj i hi => ?_, fun b hb => ?_⟩
    · rw [deriveFrom_append, hderive, ok_bind, deriveFrom_succ, Nat.zero_add, deriveLeaf_of_fits c (h n (by omega))]
      rfl
    · by_cases hin : i = n
      · rw [hin, Table.get_set_same]
      · rw [Table.get_set_other _ _ _ fun e => hin (hinj i hi n (by omega) e)]
        exact hleaf (fun i hi j hj => hinj i (by omega) j (by omega)) i (by omega)
    · rw [Table.get_set_other _ _ _ (hb n (by omega)).symm]
      exact hother b fun i hi => hb i (by omega)

theorem deriveCodes_of_bad {w : Work} {k : Nat} (hk : k < w.nleaf) (hbad : ¬ w.PathFits k) (hfirst : ∀ j < k, w.PathFits j) :
    deriveCodes w = .error ⟨.codeWorkNotFound, (w.nodeAt k).sym.toNat, (w.path k).length⟩ := by
  obtain ⟨c, hderive, -⟩ := deriveFrom_of_fits hfirst
  obtain ⟨m, hm⟩ : ∃ m, w.nleaf = k + (m + 1) := ⟨w.nleaf - k - 1, by omega⟩
  rw [deriveCodes, hm, deriveFrom_append, hderive, ok_bind, deriveFrom_succ, Nat.zero_add, deriveLeaf_of_bad c hbad]
  rfl

theorem exec_encDerive_of_ok {s : State} {w : Work} (h : deriveCodes s.work = .ok w) :
    exec .encDerive s = .next { s with phase := Phase.encHdr, work := w } :=
  congrArg (fun r => s.settle (fun _ => Phase.encHdr) (s.onWork r)) h

/-- Settles O32: the leaves one after the other, each packing its path root side first, up to the first path that no entry holds. -/
theorem derivePacksPaths : Obligations.DerivePacksPaths := by
  refine fun s => ⟨fun hgood hinj => ?_, fun k hk hbad hfirst => ?_⟩
  · have hentry : ∀ i < s.work.nleaf, s.work.leafEntry i = (s.work.nodeAt i).sym.toNat := fun i hi => leafEntry_of_lt (hgood i hi).2
    obtain ⟨c, hderive, hleaf, hother⟩ := deriveFrom_of_fits fun i hi => (hgood i hi).1
    refine ⟨c, exec_encDerive_of_ok hderive, fun i hi => ?_, fun b hb => hother b fun i hi => hentry i hi ▸ hb i hi⟩
    have hcode := hleaf (fun i hi j hj e => hinj i hi j hj (by rwa [hentry i hi, hentry j hj] at e)) i hi
    rw [hentry i hi] at hcode
    rw [hcode]
    exact ⟨rfl, codeOfPath_bits _, fun _ => codeOfPath_bit_of_le⟩
  · exact settle_faulted (congrArg s.onWork (deriveCodes_of_bad hk hbad hfirst))

/-! ## ENC.HDR (R182) -/

theorem append_of_fits {P : Params} {n : Nat} {v : Word} {x : Work × Table Byte} (h : x.1.opos + n ≤ P.outCap) :
    append P n v x = .ok ({ x.1 with opos := x.1.opos + n }, memWrite x.2 x.1.opos n v) := append_ok.mpr ⟨h, rfl⟩

theorem append_of_full {P : Params} {n : Nat} {v : Word} {x : Work × Table Byte} (h : P.outCap < x.1.opos + (n + 1)) :
    append P (n + 1) v x = .error ⟨.outOverflow, (x.1.opos + n : Nat), P.outCap⟩ :=
  append_error.mpr ⟨h, by rw [← Nat.add_assoc, Nat.cast_succ, add_sub_cancel_right]⟩

/-- The bytes of the command word: its code, then the low 24 bits of the length (30_encoding R72). -/
theorem byteOf_commandWord (v : Word) : byteOf (commandWord v) 0 = 0x28#8 ∧ byteOf (commandWord v) 1 = v.extractLsb' 0 8 ∧
    byteOf (commandWord v) 2 = v.extractLsb' 8 8 ∧ byteOf (commandWord v) 3 = v.extractLsb' 16 8 := by
  have low {j : Nat} (hj : j < 8) : (commandWord v).getLsbD j = cmdHuf8.getLsbD j := by
    rw [commandWord, BitVec.getLsbD_or, BitVec.getLsbD_shiftLeft]; simp [hj]
  have high {j : Nat} (hj : j < 24) : (commandWord v).getLsbD (8 + j) = v.getLsbD j := by
    rw [commandWord, BitVec.getLsbD_or, BitVec.getLsbD_shiftLeft, show cmdHuf8 = (0x28#8).setWidth 32 from rfl, BitVec.getLsbD_setWidth,
      BitVec.getLsbD_of_ge (0x28#8) _ (by omega)]
    simp [show 8 + j < 32 by omega]
  refine ⟨?_, ?_, ?_, ?_⟩ <;> refine BitVec.eq_of_getLsbD_eq fun j hj => ?_ <;> rw [getLsbD_byteOf, decide_eq_true hj, Bool.true_and]
  · rw [Nat.zero_add, low hj, show cmdHuf8 = (0x28#8).setWidth 32 from rfl, BitVec.getLsbD_setWidth]
    simp [show j < 32 by omega]
  · rw [high (by omega), BitVec.getLsbD_extractLsb']; simp [hj]
  · rw [show 8 * 2 + j = 8 + (8 + j) by omega, high (by omega), BitVec.getLsbD_extractLsb']; simp [hj]
  · rw [show 8 * 3 + j = 8 + (16 + j) by omega, high (by omega), BitVec.getLsbD_extractLsb']; simp [hj]

/-- Settles O33: one word appended at address 0, read back byte by byte. -/
theorem headerAppended : Obligations.HeaderAppended := by
  refine fun s => ⟨fun hcap => ?_, fun hcap => ?_⟩
  · have happend := append_of_fits (v := commandWord s.inLen) (x := ({ s.work with opos := 0 }, s.outBuf)) ((Nat.zero_add 4).trans_le hcap)
    obtain ⟨h0, h1, h2, h3⟩ := byteOf_commandWord s.inLen
    refine ⟨memWrite s.outBuf 0 4 (commandWord s.inLen),
      congrArg (fun r => s.settle (fun _ => Phase.encTreeout) (s.onOut r)) happend, ?_, ?_, ?_, ?_, fun a ha => ?_⟩
    · exact (memRead1_memWrite _ 0 4 _ 0).trans h0
    · exact (memRead1_memWrite _ 0 4 _ 1).trans h1
    · exact (memRead1_memWrite _ 0 4 _ 2).trans h2
    · exact (memRead1_memWrite _ 0 4 _ 3).trans h3
    · rw [memRead1_memWrite, if_neg (by omega)]
  · exact settle_faulted (congrArg s.onOut (append_of_full (n := 3) (v := commandWord s.inLen) (x := ({ s.work with opos := 0 }, s.outBuf))
      ((Nat.zero_add 4).symm ▸ hcap)))

/-! ## ENC.TREEOUT (R183) -/

theorem emitSlots_succ {P : Params} {n i : Nat} {x : Work × Table Byte} (hi : i < x.1.ctLen) :
    emitSlots P (n + 1) i x = append P 1 ((x.1.slot i).setWidth 32) x >>= emitSlots P n (i + 1) := by
  simp only [emitSlots, treeRead_of_fits hi]
  cases append P 1 ((x.1.slot i).setWidth 32) x <;> rfl

/-- The slots from `i` on appended one by one, when `OUT` has room for them. -/
theorem emitSlots_of_fits {P : Params} : ∀ {n i : Nat} {w : Work} {o : Table Byte}, i + n ≤ w.ctLen → (w.opos + n ≤ P.outCap ∨ n = 0) →
    ∃ o', emitSlots P n i (w, o) = .ok ({ w with opos := w.opos + n }, o') ∧
      ∀ a, memRead1 o' a = if w.opos ≤ a ∧ a < w.opos + n then w.slot (i + (a - w.opos)) else memRead1 o a
  | 0, i, w, o, _, _ => ⟨o, rfl, fun a => by rw [if_neg (by omega)]⟩
  | n + 1, i, w, o, hi, hcap => by
    obtain ⟨o', hrest, ho⟩ := emitSlots_of_fits (P := P) (n := n) (i := i + 1) (w := { w with opos := w.opos + 1 })
      (o := memWrite o w.opos 1 ((w.slot i).setWidth 32)) (show i + 1 + n ≤ w.ctLen by omega) (.inl (show w.opos + 1 + n ≤ P.outCap by omega))
    refine ⟨o', ?_, fun a => (ho a).trans ?_⟩
    · rw [emitSlots_succ (show i < w.ctLen by omega), append_of_fits (show w.opos + 1 ≤ P.outCap by omega), ok_bind, hrest]
      simp only [Nat.add_assoc, Nat.add_comm 1 n]
    · rw [memRead1_memWrite]
      show (if w.opos + 1 ≤ a ∧ a < w.opos + 1 + n then w.slot (i + 1 + (a - (w.opos + 1))) else _) = _
      by_cases ha : a = w.opos
      · subst ha
        rw [if_neg (by omega), if_pos (by omega), if_pos (by omega), Nat.sub_self, byteOf_setWidth_zero]
        rfl
      · rw [if_neg (show ¬ (w.opos ≤ a ∧ a < w.opos + 1) by omega)]
        by_cases hin : w.opos + 1 ≤ a ∧ a < w.opos + 1 + n
        · rw [if_pos hin, if_pos (by omega), show i + 1 + (a - (w.opos + 1)) = i + (a - w.opos) by omega]
        · rw [if_neg hin, if_neg (by omega)]

/-- The first byte that does not fit raises. -/
theorem emitSlots_of_full {P : Params} : ∀ {n i : Nat} {w : Work} {o : Table Byte}, i + n ≤ w.ctLen → w.opos ≤ P.outCap →
    P.outCap < w.opos + n → emitSlots P n i (w, o) = .error ⟨.outOverflow, P.outCap, P.outCap⟩
  | 0, _, _, _, _, hle, hlt => by omega
  | n + 1, i, w, o, hi, hle, hlt => by
    rw [emitSlots_succ (show i < w.ctLen by omega)]
    by_cases hfull : w.opos = P.outCap
    · rw [append_of_full (show P.outCap < w.opos + (0 + 1) by omega), ← hfull]
      rfl
    · rw [append_of_fits (show w.opos + 1 ≤ P.outCap by omega), ok_bind]
      exact emitSlots_of_full (show i + 1 + n ≤ w.ctLen by omega) (show w.opos + 1 ≤ P.outCap by omega)
        (show P.outCap < w.opos + 1 + n by omega)

/-- Settles O34: the slots from 0 on, one byte each. -/
theorem treeOutAppendsSlots : Obligations.TreeOutAppendsSlots := by
  refine fun s => ⟨fun hcap => ?_, fun hle hlt => ?_⟩
  · obtain ⟨o, hemit, ho⟩ := emitSlots_of_fits (o := s.outBuf) (Nat.zero_add s.work.ctLen).le hcap
    refine ⟨o, congrArg (fun r => s.settle (fun _ => Phase.encEmit) (s.onOut r)) hemit, fun a => ?_⟩
    rw [ho a, Nat.zero_add]
  · exact settle_faulted (congrArg s.onOut (emitSlots_of_full (Nat.zero_add s.work.ctLen).le hle hlt))

/-! ## ENC.DONE (R185) -/

/-- Settles O37: `OUT` keeps its bytes below OUT_LEN. -/
theorem encodeDone : Obligations.EncodeDone := fun s =>
  ⟨{ s.finish (BitVec.ofNat 32 s.work.opos) with wpos := 0, eos := false }, rfl, rfl, rfl, rfl, rfl, rfl, ⟨rfl, rfl, rfl, rfl, rfl⟩, rfl, rfl, rfl,
    fun a ha => (Table.get_splice 0 _ _ _ a).trans (if_pos ha)⟩

end Sys2Proof.Machine

/-! PROOFS. ENC.EMIT spells the codewords of the input, or takes the fault of the first byte that has none or of the first word that does not fit (44_enc_codes_emit
R184). `Emitted w o i bits` says of the packer's registers and `OUT` that from `w` and `o` on `i` input bytes are consumed and `bits` are written; one bit keeps it with
the bit added, so the bits of a codeword and the codewords of the input do. -/

namespace Sys2Proof.Machine

/-! ## Stream words (30_encoding R79) -/

theorem wordsFor_succ (n : Nat) : wordsFor (n + 1) = n / 32 + 1 := by unfold wordsFor; omega

theorem wordsFor_of_full {n : Nat} (h : n % 32 = 0) : wordsFor n = n / 32 := by unfold wordsFor; omega

theorem wordsFor_succ_of_open {n : Nat} (h : n % 32 ≠ 0) : wordsFor (n + 1) = wordsFor n := by unfold wordsFor; omega

theorem wordsFor_mono {m n : Nat} (h : m ≤ n) : wordsFor m ≤ wordsFor n := by unfold wordsFor; omega

/-- The stream once its word `q` is written. -/
theorem streamBitAt_memWrite (o : Table Byte) (a q : Nat) (v : Word) (k : Nat) :
    streamBitAt (memWrite o (a + 4 * q) 4 v) a k = if k / 32 = q then v.getLsbD (31 - k % 32) else streamBitAt o a k := by
  unfold streamBitAt
  split
  · next h => rw [h, memRead4_memWrite]
  · rw [memRead4_memWrite_other _ _ (by omega)]

theorem getD_append_singleton (l : List Bool) (b : Bool) (k : Nat) :
    (l ++ [b]).getD k false = (l.getD k false || (decide (k = l.length) && b)) := by
  obtain h | rfl | h := lt_trichotomy k l.length
  · rw [List.getD_append _ _ _ _ h, decide_eq_false h.ne, Bool.false_and, Bool.or_false]
  · simp
  · rw [List.getD_eq_default _ _ (by simp; omega), List.getD_eq_default _ _ h.le, decide_eq_false h.ne', Bool.false_and, Bool.or_false]

/-- The words that `n` bits need fit `OUT` from `OPOS` on. -/
abbrev Work.WordsFit (w : Work) (P : Params) (n : Nat) : Prop := wordsFor n = 0 ∨ w.opos + 4 * wordsFor n ≤ P.outCap

theorem Work.WordsFit.mono {w : Work} {P : Params} {m n : Nat} (h : w.WordsFit P n) (hmn : m ≤ n) : w.WordsFit P m := by
  have := wordsFor_mono hmn
  unfold Work.WordsFit at *
  omega

/-- The fault of the first stream word that does not fit. -/
def Work.streamOverflow (w : Work) (P : Params) : Raise :=
  ⟨.outOverflow, (w.opos + 4 * ((P.outCap - w.opos) / 4) + 3 : Nat), P.outCap⟩

/-! ## What the packer keeps -/

/-- The packer's registers and `OUT` when from `w` and `o` on `i` input bytes are consumed and `bits` are written: one word for each 32 bits begun, and `EMASK4` at the
last bit written, in the word at `WORDPOS`. -/
structure Emitted (w : Work) (o : Table Byte) (i : Nat) (bits : List Bool) (x : Work × Table Byte) : Prop where
  same : x.1 = { w with
    opos := w.opos + 4 * wordsFor bits.length, epos := i, emask4 := x.1.emask4, wordpos := x.1.wordpos
    cwmask := x.1.cwmask, cwidx := x.1.cwidx }
  mask : x.1.emask4 >>> 1 = if bits.length % 32 = 0 then 0 else topBit >>> (bits.length % 32)
  word : bits.length % 32 ≠ 0 → x.1.wordpos = w.opos + 4 * (bits.length / 32)
  stream : ∀ k < 32 * wordsFor bits.length, streamBitAt x.2 w.opos k = bits.getD k false
  frame : ∀ a, a < w.opos ∨ w.opos + 4 * wordsFor bits.length ≤ a → memRead1 x.2 a = memRead1 o a

/-- `CWIDX` and `CWMASK` stand at bit `k` of the codeword. -/
structure Work.AtCodeBit (w : Work) (k : Nat) : Prop where
  cwidx : w.cwidx = k / 8
  cwmask : w.cwmask = codeMask k

theorem nextCodeBit_eq (w : Work) : w.nextCodeBit = { w with cwmask := w.nextCodeBit.cwmask, cwidx := w.nextCodeBit.cwidx } := by
  unfold Work.nextCodeBit
  split <;> rfl

theorem Work.AtCodeBit.nextCodeBit {w : Work} {k : Nat} (h : w.AtCodeBit k) : w.nextCodeBit.AtCodeBit (k + 1) := by
  obtain ⟨hidx, hmask⟩ := h
  unfold Work.nextCodeBit
  rw [hmask, hidx]
  by_cases hk : k % 8 = 7
  · rw [if_pos (codeMask_shift_of_last hk)]
    exact ⟨show k / 8 + 1 = (k + 1) / 8 by omega, (codeMask_of_byte_start (by omega)).symm⟩
  · rw [codeMask_shift_of_inner hk, if_neg (codeMask_ne_zero _)]
    exact ⟨show k / 8 = (k + 1) / 8 by omega, rfl⟩

theorem Work.AtCodeBit.start (w : Work) : Work.AtCodeBit { w with cwmask := 0x80, cwidx := 0 } 0 := ⟨rfl, (codeMask_of_byte_start rfl).symm⟩

section Packer

variable {w : Work} {o : Table Byte} {i : Nat} {bits : List Bool} {x : Work × Table Byte} {P : Params}

namespace Emitted

theorem start (w : Work) (o : Table Byte) : Emitted w o 0 [] ({ w with emask4 := 0, epos := 0 }, o) :=
  ⟨rfl, show (0 : Word) >>> 1 = 0 by decide, fun h => absurd rfl h, fun _ hk => absurd hk (Nat.not_lt_zero _), fun _ _ => rfl⟩

theorem opos (h : Emitted w o i bits x) : x.1.opos = w.opos + 4 * wordsFor bits.length := by rw [h.same]

theorem epos (h : Emitted w o i bits x) : x.1.epos = i := by rw [h.same]

theorem codeAt (h : Emitted w o i bits x) : x.1.codeAt = w.codeAt := by rw [h.same]; rfl

theorem setCodeBit (h : Emitted w o i bits x) (m : Byte) (j : Nat) : Emitted w o i bits ({ x.1 with cwmask := m, cwidx := j }, x.2) :=
  ⟨by rw [h.same], h.mask, h.word, h.stream, h.frame⟩

theorem setEpos (h : Emitted w o i bits x) (j : Nat) : Emitted w o j bits ({ x.1 with epos := j }, x.2) :=
  ⟨by rw [h.same], h.mask, h.word, h.stream, h.frame⟩

theorem mask_eq_zero (h : Emitted w o i bits x) : x.1.emask4 >>> 1 = 0 ↔ bits.length % 32 = 0 := by
  rw [h.mask]
  split
  · next hz => exact iff_of_true rfl hz
  · next hz => exact iff_of_false (topBit_shift _ (Nat.mod_lt _ (by decide))).2 hz

/-- The next position holds a zero bit until it is set; it is bit `31 - n mod 32` of word `n div 32`, in a new word when the last one is full. -/
theorem nextPosition_of_fits (h : Emitted w o i bits x) (hfit : w.WordsFit P (bits.length + 1)) :
    ∃ y, nextPosition P x = .ok y ∧ Emitted w o i (bits ++ [false]) y ∧ y.1.emask4 = topBit >>> (bits.length % 32) ∧
      y.1.wordpos = w.opos + 4 * (bits.length / 32) ∧ y.1.cwmask = x.1.cwmask ∧ y.1.cwidx = x.1.cwidx := by
  have hlen : (bits ++ [false]).length = bits.length + 1 := List.length_append
  have hbit (k : Nat) : (bits ++ [false]).getD k false = bits.getD k false := by
    rw [getD_append_singleton, Bool.and_false, Bool.or_false]
  have hmask : topBit >>> (bits.length % 32) >>> 1 = if (bits.length + 1) % 32 = 0 then 0 else topBit >>> ((bits.length + 1) % 32) := by
    rw [← BitVec.shiftRight_add]
    split
    · rw [show bits.length % 32 + 1 = 32 by omega]; rfl
    · rw [show bits.length % 32 + 1 = (bits.length + 1) % 32 by omega]
  rw [Work.WordsFit, wordsFor_succ] at hfit
  by_cases hz : bits.length % 32 = 0
  · have hwords : x.1.opos = w.opos + 4 * (bits.length / 32) := by rw [h.opos, wordsFor_of_full hz]
    have hstart : topBit = topBit >>> (bits.length % 32) := by rw [hz]; rfl
    have happend := append_of_fits (v := 0) (x := ({ x.1 with emask4 := topBit, wordpos := x.1.opos }, x.2))
      (show x.1.opos + 4 ≤ P.outCap by omega)
    refine ⟨_, (if_pos (h.mask_eq_zero.mpr hz)).trans happend, ⟨?_, ?_, fun _ => ?_, fun k hk => ?_, fun a ha => ?_⟩, hstart, hwords, rfl, rfl⟩
    · rw [hlen, wordsFor_succ, h.same]
      simp only [wordsFor_of_full hz, Nat.mul_add, Nat.add_assoc, Nat.mul_one]
    · rw [hlen, ← hmask, ← hstart]
    · rw [hlen, show (bits.length + 1) / 32 = bits.length / 32 by omega]
      exact hwords
    · rw [hlen, wordsFor_succ] at hk
      show streamBitAt (memWrite x.2 x.1.opos 4 0) w.opos k = _
      rw [hbit, hwords, streamBitAt_memWrite]
      split
      · rw [List.getD_eq_default _ _ (by omega)]
        exact BitVec.getLsbD_zero
      · exact h.stream k (by rw [wordsFor_of_full hz]; omega)
    · rw [hlen, wordsFor_succ] at ha
      show memRead1 (memWrite x.2 x.1.opos 4 0) a = _
      rw [memRead1_memWrite, if_neg (by omega)]
      exact h.frame a (by rw [wordsFor_of_full hz]; omega)
  · have hwords := wordsFor_succ_of_open hz
    have hshift : x.1.emask4 >>> 1 = topBit >>> (bits.length % 32) := by rw [h.mask, if_neg hz]
    refine ⟨_, if_neg (mt h.mask_eq_zero.mp hz), ⟨?_, ?_, fun _ => ?_, fun k hk => ?_, fun a ha => ?_⟩, hshift, h.word hz, rfl, rfl⟩
    · rw [hlen, hwords, h.same]
    · rw [hlen, ← hmask, ← hshift]
    · rw [hlen, show (bits.length + 1) / 32 = bits.length / 32 by omega]
      exact h.word hz
    · rw [hlen, hwords] at hk
      rw [hbit]
      exact h.stream k hk
    · rw [hlen, hwords] at ha
      exact h.frame a ha

theorem nextPosition_of_full (h : Emitted w o i bits x) (hfit : w.WordsFit P bits.length) (hfull : ¬ w.WordsFit P (bits.length + 1)) :
    nextPosition P x = .error (w.streamOverflow P) := by
  have hz : bits.length % 32 = 0 := by
    by_contra hz
    rw [Work.WordsFit, wordsFor_succ_of_open hz] at hfull
    exact hfull hfit
  rw [Work.WordsFit, wordsFor_of_full hz] at hfit
  rw [Work.WordsFit, wordsFor_succ] at hfull
  have hopos : x.1.opos = w.opos + 4 * ((P.outCap - w.opos) / 4) := by rw [h.opos, wordsFor_of_full hz]; omega
  have happend := append_of_full (n := 3) (v := 0) (x := ({ x.1 with emask4 := topBit, wordpos := x.1.opos }, x.2))
    (show P.outCap < x.1.opos + (3 + 1) by omega)
  rw [Work.streamOverflow, ← hopos]
  exact (if_pos (h.mask_eq_zero.mpr hz)).trans happend

/-- The bit at the position just taken is set. -/
theorem setBit {y : Work × Table Byte} (h : Emitted w o i (bits ++ [false]) y) (hmask : y.1.emask4 = topBit >>> (bits.length % 32))
    (hword : y.1.wordpos = w.opos + 4 * (bits.length / 32)) : Emitted w o i (bits ++ [true]) (y.1, setPosition y) := by
  have hlen (b : Bool) : (bits ++ [b]).length = bits.length + 1 := List.length_append
  obtain ⟨hsame, hmask', hword', hstream, hframe⟩ := h
  rw [hlen] at hsame hmask' hword' hstream hframe
  refine ⟨(hlen true).symm ▸ hsame, (hlen true).symm ▸ hmask', (hlen true).symm ▸ hword', fun k hk => ?_, fun a ha => ?_⟩
  · rw [hlen] at hk
    have hold := hstream k hk
    rw [getD_append_singleton, Bool.and_false, Bool.or_false] at hold
    show streamBitAt (memWrite y.2 y.1.wordpos 4 _) w.opos k = _
    rw [getD_append_singleton, Bool.and_true, hword, streamBitAt_memWrite, ← hold]
    split
    · next hq =>
      have hindex : 31 - bits.length % 32 = 31 - k % 32 ↔ k = bits.length := by omega
      rw [BitVec.getLsbD_or, hmask, (topBit_shift _ (Nat.mod_lt _ (by decide))).1, BitVec.getLsbD_twoPow, streamBitAt, hq,
        decide_eq_true (show 31 - bits.length % 32 < 32 by omega), Bool.true_and, decide_eq_decide.mpr hindex]
    · next hq => rw [decide_eq_false fun e => hq (by rw [e]), Bool.or_false]
  · rw [hlen] at ha
    have hwords := wordsFor_succ bits.length
    show memRead1 (memWrite y.2 y.1.wordpos 4 _) a = _
    rw [memRead1_memWrite, hword, if_neg (by omega)]
    exact hframe a ha

/-! ## One bit, one codeword -/

theorem emitBit_of_fits (h : Emitted w o i bits x) {k : Nat} (hk : x.1.AtCodeBit k) (c : Code) (hfit : w.WordsFit P (bits.length + 1)) :
    ∃ y, emitBit P c x = .ok y ∧ Emitted w o i (bits ++ [c.bit k]) y ∧ y.1.AtCodeBit (k + 1) := by
  obtain ⟨y, hnext, hy, hmask, hword, hcwmask, hcwidx⟩ := h.nextPosition_of_fits hfit
  have hat : y.1.AtCodeBit k := ⟨hcwidx.trans hk.cwidx, hcwmask.trans hk.cwmask⟩
  have hset : Emitted w o i (bits ++ [c.bit k]) (y.1, if c.bit k then setPosition y else y.2) := by
    cases c.bit k with
    | false => exact hy
    | true => exact hy.setBit hmask hword
  refine ⟨(y.1.nextCodeBit, if c.bit k then setPosition y else y.2), ?_, ?_, hat.nextCodeBit⟩
  · rw [emitBit, hnext]
    simp only [hat.cwidx, hat.cwmask, codewordBit_codeMask]
  · rw [nextCodeBit_eq]
    exact hset.setCodeBit _ _

end Emitted

theorem emitBits_succ (P : Params) (c : Code) (n : Nat) (x : Work × Table Byte) :
    emitBits P c (n + 1) x = emitBit P c x >>= emitBits P c n := by
  rw [emitBits]
  cases emitBit P c x <;> rfl

theorem emitBit_of_full {c : Code} (h : nextPosition P x = .error (w.streamOverflow P)) :
    emitBit P c x = .error (w.streamOverflow P) := by rw [emitBit, h]

namespace Emitted

/-- `n` bits of a codeword from its bit `k` on. -/
theorem emitBits_of_fits (c : Code) : ∀ {n k : Nat} {bits : List Bool} {x : Work × Table Byte}, Emitted w o i bits x → x.1.AtCodeBit k →
    w.WordsFit P (bits.length + n) → ∃ y, emitBits P c n x = .ok y ∧ Emitted w o i (bits ++ (List.range' k n).map c.bit) y
  | 0, _, _, x, h, _, _ => ⟨x, rfl, by rwa [List.range'_zero, List.map_nil, List.append_nil]⟩
  | n + 1, k, bits, x, h, hk, hfit => by
    obtain ⟨y, hbit, hy, hyk⟩ := h.emitBit_of_fits hk c (hfit.mono (by omega))
    obtain ⟨z, hrest, hz⟩ := hy.emitBits_of_fits c (n := n) hyk (by rwa [List.length_append, List.length_singleton, Nat.add_right_comm])
    refine ⟨z, by rw [emitBits_succ, hbit, ok_bind, hrest], ?_⟩
    rwa [List.range'_succ, List.map_cons, List.append_cons]

/-- The bits of a codeword up to the first one that needs a word with no room for it. -/
theorem emitBits_of_full (c : Code) : ∀ {n k : Nat} {bits : List Bool} {x : Work × Table Byte}, Emitted w o i bits x → x.1.AtCodeBit k →
    w.WordsFit P bits.length → ¬ w.WordsFit P (bits.length + n) → emitBits P c n x = .error (w.streamOverflow P)
  | 0, _, _, _, _, _, hfit, hfull => absurd hfit hfull
  | n + 1, k, bits, x, h, hk, hfit, hfull => by
    rw [emitBits_succ]
    by_cases hnext : w.WordsFit P (bits.length + 1)
    · obtain ⟨y, hbit, hy, hyk⟩ := h.emitBit_of_fits hk c hnext
      have hlen : (bits ++ [c.bit k]).length = bits.length + 1 := List.length_append
      rw [hbit, ok_bind]
      exact hy.emitBits_of_full c hyk (hlen ▸ hnext) (by rwa [hlen, Nat.add_right_comm])
    · rw [emitBit_of_full (h.nextPosition_of_full hfit hnext)]
      rfl

/-! ## One input byte -/

/-- The codeword of the byte at `EPOS`, when it has one. -/
theorem emitByte_of_valid {m : Table Byte} (h : Emitted w o i bits x) (hv : (w.codeAt (memRead1 m i)).valid = true) :
    emitByte P m x = emitBits P (w.codeAt (memRead1 m i)) (w.codeAt (memRead1 m i)).nbits
      ({ x.1 with cwmask := 0x80, cwidx := 0 }, x.2) >>= fun y => .ok ({ y.1 with epos := y.1.epos + 1 }, y.2) := by
  unfold emitByte
  rw [h.codeAt, h.epos, if_pos hv]
  cases emitBits P _ _ _ <;> rfl

theorem emitByte_of_fits {m : Table Byte} (h : Emitted w o i bits x) (hv : (w.codeAt (memRead1 m i)).valid = true)
    (hfit : w.WordsFit P (bits.length + (w.codeAt (memRead1 m i)).nbits)) :
    ∃ y, emitByte P m x = .ok y ∧ Emitted w o (i + 1) (bits ++ (w.codeAt (memRead1 m i)).bits) y := by
  obtain ⟨y, hbits, hy⟩ := (h.setCodeBit 0x80 0).emitBits_of_fits (w.codeAt (memRead1 m i)) (.start x.1) hfit
  rw [← List.range_eq_range'] at hy
  refine ⟨({ y.1 with epos := y.1.epos + 1 }, y.2), by rw [h.emitByte_of_valid hv, hbits, ok_bind], ?_⟩
  rw [hy.epos]
  exact hy.setEpos (i + 1)

theorem emitByte_of_invalid {m : Table Byte} (h : Emitted w o i bits x) (hv : ¬ (w.codeAt (memRead1 m i)).valid = true) :
    emitByte P m x = .error ⟨.codeNotFound, (memRead1 m i).toNat, i⟩ := by
  simp only [emitByte, h.epos, h.codeAt, if_neg hv, raise_eq_error]

theorem emitByte_of_full {m : Table Byte} (h : Emitted w o i bits x) (hv : (w.codeAt (memRead1 m i)).valid = true)
    (hfit : w.WordsFit P bits.length) (hfull : ¬ w.WordsFit P (bits.length + (w.codeAt (memRead1 m i)).nbits)) :
    emitByte P m x = .error (w.streamOverflow P) := by
  rw [h.emitByte_of_valid hv, (h.setCodeBit 0x80 0).emitBits_of_full _ (.start x.1) hfit hfull]
  rfl

end Emitted

end Packer

/-! ## The input -/

theorem inputBits_succ (w : Work) (m : Table Byte) (n : Nat) :
    w.inputBits m (n + 1) = w.inputBits m n ++ (w.codeAt (memRead1 m n)).bits := by
  simp only [Work.inputBits, List.range_succ, List.flatMap_append, List.flatMap_singleton]

theorem length_inputBits_succ (w : Work) (m : Table Byte) (n : Nat) :
    (w.inputBits m (n + 1)).length = (w.inputBits m n).length + (w.codeAt (memRead1 m n)).nbits := by
  rw [inputBits_succ, List.length_append, Code.bits, List.length_map, List.length_range]

theorem emitBytes_succ (P : Params) (m : Table Byte) (n : Nat) (x : Work × Table Byte) :
    emitBytes P m (n + 1) x = emitByte P m x >>= emitBytes P m n := by
  rw [emitBytes]
  cases emitByte P m x <;> rfl

/-- Emitting `a + b` bytes is emitting `a` and then `b` more. -/
theorem emitBytes_append (P : Params) (m : Table Byte) (b : Nat) : ∀ (a : Nat) (x : Work × Table Byte),
    emitBytes P m (a + b) x = emitBytes P m a x >>= emitBytes P m b
  | 0, x => by rw [Nat.zero_add]; rfl
  | a + 1, x => by
    rw [Nat.succ_add, emitBytes_succ, emitBytes_succ]
    cases emitByte P m x with
    | error e => rfl
    | ok y => rw [ok_bind, ok_bind, emitBytes_append P m b a]

section Stream

variable {P : Params} {w : Work} {m : Table Byte}

theorem emitStream_of_fits (o : Table Byte) : ∀ {n : Nat}, (∀ i < n, (w.codeAt (memRead1 m i)).valid = true) →
    w.WordsFit P (w.inputBits m n).length → ∃ y, emitStream P m n (w, o) = .ok y ∧ Emitted w o n (w.inputBits m n) y
  | 0, _, _ => ⟨_, rfl, Emitted.start w o⟩
  | n + 1, hv, hfit => by
    have hlen := length_inputBits_succ w m n
    obtain ⟨y, hbefore, hy⟩ := emitStream_of_fits o (n := n) (fun i hi => hv i (by omega)) (hfit.mono (by omega))
    obtain ⟨z, hbyte, hz⟩ := hy.emitByte_of_fits (hv n (by omega)) (hlen ▸ hfit)
    rw [emitStream] at hbefore
    refine ⟨z, ?_, by rwa [inputBits_succ]⟩
    rw [emitStream, emitBytes_append, hbefore, ok_bind, emitBytes_succ, hbyte]
    rfl

/-- A fault of byte `k` is the fault of the input when all before it is emitted. -/
theorem emitStream_of_error {o : Table Byte} {n k : Nat} {e : Raise} (hk : k < n) (hv : ∀ i < k, (w.codeAt (memRead1 m i)).valid = true)
    (hfit : w.WordsFit P (w.inputBits m k).length) (herror : ∀ y, Emitted w o k (w.inputBits m k) y → emitByte P m y = .error e) :
    emitStream P m n (w, o) = .error e := by
  obtain ⟨y, hbefore, hy⟩ := emitStream_of_fits o hv hfit
  obtain ⟨j, rfl⟩ : ∃ j, n = k + (j + 1) := ⟨n - k - 1, by omega⟩
  rw [emitStream] at hbefore
  rw [emitStream, emitBytes_append, hbefore, ok_bind, emitBytes_succ, herror y hy]
  rfl

end Stream

/-- Settles O35: the packer's invariant after the last byte. -/
theorem emitSpellsInput : Obligations.EmitSpellsInput := by
  intro s hv bits words hfit
  obtain ⟨y, hemit, hy⟩ := emitStream_of_fits s.outBuf hv (P := s.params) hfit.symm
  refine ⟨{ s with phase := Phase.encDone, work := y.1, outBuf := y.2 },
    congrArg (fun r => s.settle (fun _ => Phase.encDone) (s.onOut r)) hemit, ?_, hy.stream, hy.frame⟩
  simp only [State.mk.injEq, true_and, and_true]
  exact ⟨rfl, hy.same.trans (by rw [hy.epos])⟩

/-- Settles O36: the bytes before `k` are emitted; byte `k` has no codeword, or a bit of its codeword needs a word with no room for it. -/
theorem emitFaults : Obligations.EmitFaults := by
  refine fun s => ⟨fun k hk hinvalid hv hfit => ?_, fun k hk hv hfit hfull => ?_⟩
  · exact settle_faulted (congrArg s.onOut (emitStream_of_error hk hv hfit fun y hy => hy.emitByte_of_invalid hinvalid))
  · have hbyte (y) (hy : Emitted s.work s.outBuf k (s.work.inputBits s.inBuf k) y) :
        emitByte s.params s.inBuf y = .error (s.work.streamOverflow s.params) :=
      hy.emitByte_of_full (hv k le_rfl) hfit (by rwa [← length_inputBits_succ])
    exact settle_faulted (congrArg s.onOut (emitStream_of_error hk (fun j hj => hv j hj.le) hfit hbyte))

end Sys2Proof.Machine

/-! PROOFS. The phases of DECODE (45_dec R201 to R208). DEC.HDR, DEC.TREE and DEC.STEP run the payload's elements they read, so what they do is what the elements
do; DEC.STEP is the branch on the bit fetched, and the branch arrives at a node's byte or at a leaf's. -/

namespace Sys2Proof.Machine

section Elements

variable {s : State}

/-! ## The header and the tree (45_dec R201, R202) -/

theorem readHeader_of_length (h : 4 ≤ s.inLen.toNat) :
    readHeader s = takeHeader s (cwLen (memRead4 s.inBuf 0)) (cwNbits (memRead4 s.inBuf 0)) := if_neg (Nat.not_lt.mpr h)

theorem readHeader_of_short (h : s.inLen.toNat < 4) : readHeader s = .error ⟨.bytesToU32Error, 0, s.inLen.toNat⟩ := if_pos h

theorem readTree_of_length (h : 5 ≤ s.inLen.toNat) : readTree s = takeSize s (memRead1 s.inBuf 4) := if_neg (Nat.not_lt.mpr h)

theorem readTree_of_short (h : s.inLen.toNat < 5) : readTree s = .error ⟨.decompressDataIOOB, 4, s.inLen.toNat⟩ := if_pos h

/-! ## The branch on a stream bit (45_dec R205) -/

theorem pairDistance_offsetOf (b : Byte) : pairDistance (offsetOf b) = 2 * (b.toNat % 64 + 1) := by
  rw [offsetOf_eq_extract, BitVec.extractLsb'_toNat, Nat.shiftRight_zero]
  rfl

/-- The slot of the child that a bit selects. -/
theorem Work.branchSlot_eq (w : Work) (bit : Bool) : w.branchSlot bit =
    if bit then w.next + 2 * (w.pos.toNat % 64 + 1) + 1 else w.next + 2 * (w.pos.toNat % 64 + 1) := by
  rw [Work.branchSlot, pairDistance_offsetOf]
  cases bit <;> rfl

theorem childIsLeaf_eq (b : Byte) (bit : Bool) : childIsLeaf b bit = if bit then b.getLsbD 6 else b.getLsbD 7 := by
  rw [childIsLeaf, and_rchar_ne_zero, and_lchar_ne_zero]

/-- The walk moved to the pair of the children of the node it stands on. -/
def State.atPair (s : State) : State := { s with work := { s.work with next := s.work.next + 2 * (s.work.pos.toNat % 64 + 1) } }

theorem branchOn_of_outside {bit : Bool} (h : s.work.ctLen ≤ s.work.branchSlot bit) :
    branchOn s bit = .error ⟨.codeTreeIOOB, s.work.branchSlot bit, s.work.ctLen⟩ := if_pos h

/-- Standing on a node's byte is consuming it as an element. -/
theorem exec_decodeNode (b : Byte) (s : State) : exec (decodeNode b) s = s.settle State.decodeNext (.ok (arriveNode s b)) := by
  rw [decodeNode, and_lchar_ne_zero, and_rchar_ne_zero]
  show execTbNode _ _ _ s = _
  rw [execTbNode, nodeByte_of_fields]

theorem execSwBit_of_leaf {bit : Bool} (hin : s.work.branchSlot bit < s.work.ctLen) (hleaf : childIsLeaf s.work.pos bit = true) :
    execSwBit bit s = execTbLeaf (s.work.slot (s.work.branchSlot bit)) s.atPair := by
  rw [execSwBit, branchOn_of_inside hin, if_pos hleaf, pairDistance_offsetOf]
  rfl

theorem execSwBit_of_node {bit : Bool} (hin : s.work.branchSlot bit < s.work.ctLen) (hnode : childIsLeaf s.work.pos bit = false) :
    execSwBit bit s = exec (decodeNode (s.work.slot (s.work.branchSlot bit))) s.atPair := by
  rw [execSwBit, branchOn_of_inside hin, hnode, if_neg nofun, pairDistance_offsetOf, exec_decodeNode]
  rfl

/-! ## DEC.STEP (45_dec R203, R204) -/

theorem execDecStep_of_ended (h : s.StreamEnded) : execDecStep s = .next s.endOfStream := by
  rw [execDecStep, fetchBit_eq, if_pos h]

theorem execDecStep_of_not_ended (h : ¬ s.StreamEnded) : execDecStep s = execSwBit s.fetched.work.streamBit s.fetched := by
  rw [execDecStep, fetchBit_eq, if_neg h]
  rfl

theorem Work.streamBit_iff (w : Work) : w.streamBit = true ↔ w.codew &&& w.dmask4 ≠ 0 := bne_iff_ne

/-- A fetch writes the stream registers alone. -/
theorem State.fetched_same (s : State) : ∃ (codew dmask4 : Word) (rpos : Nat),
    s.fetched = { s with work := { s.work with codew := codew, dmask4 := dmask4, rpos := rpos } } := by
  unfold State.fetched
  split
  · exact ⟨_, _, _, rfl⟩
  · exact ⟨_, _, _, rfl⟩

theorem State.fetched_inLen (s : State) : s.fetched.inLen = s.inLen := by
  obtain ⟨_, _, _, hf⟩ := s.fetched_same
  rw [hf]

end Elements

/-! ## What the phases run -/

/-- Settles O6: each phase, once its read is within the input, is the operation that its element decodes to. -/
theorem payloadElementsAreRun : Obligations.PayloadElementsAreRun := by
  refine ⟨fun s i h hd => ?_, fun s i h hd => ?_, fun s i h hd => ?_, fun s bit i => ?_⟩
  · cases hd
    exact congrArg (s.settle _) (readHeader_of_length h)
  · cases hd
    exact congrArg (s.settle _) (readTree_of_length h)
  · have hi : i = .swBit s.fetched.work.streamBit := by
      cases hd
      unfold Work.streamBit
      split
      · next hz => rw [hz]; rfl
      · next hz => rw [bne_iff_ne.mpr hz]; rfl
    rw [hi]
    exact execDecStep_of_not_ended h
  · dsimp only
    rw [← Work.branchSlot_eq, ← childIsLeaf_eq]
    intro hin hd
    cases hleaf : childIsLeaf s.work.pos bit with
    | true =>
      rw [hleaf] at hd
      cases hd
      exact execSwBit_of_leaf hin hleaf
    | false =>
      rw [hleaf] at hd
      cases hd
      exact execSwBit_of_node hin hleaf

/-- Settles O40: the read of the word, then what taking its fields does. -/
theorem headerRead : Obligations.HeaderRead := by
  intro s
  obtain ⟨hnbits, hlen⟩ := header_fields s.inBuf
  dsimp only
  rw [← hnbits, ← hlen]
  refine ⟨fun h => ?_, fun h hn => ?_, fun h hn hl => ?_, fun h hn hl => ?_⟩
  · exact settle_faulted (readHeader_of_short h)
  · exact settle_faulted ((readHeader_of_length h).trans (takeHeader_of_width hn))
  · exact settle_faulted ((readHeader_of_length h).trans (takeHeader_of_length hn hl))
  · exact ⟨Table.clearBelow _ s.outBuf, congrArg (s.settle _) ((readHeader_of_length h).trans (takeHeader_of_fits hn hl)),
      Table.get_clearBelow 0 _ _⟩

/-- Settles O42: the read of the size byte, then what taking it does. -/
theorem treeRegionRead : Obligations.TreeRegionRead := by
  refine fun s => ⟨fun h => ?_, fun h hshort => ?_, fun hfit => ?_⟩
  · exact settle_faulted (readTree_of_short h)
  · exact settle_faulted ((readTree_of_length h).trans (takeSize_of_short hshort))
  · exact ⟨copyTree s.inBuf (treeLen (memRead1 s.inBuf 4).toNat) 0 s.work.ctree,
      congrArg (s.settle State.decodeNext) ((readTree_of_length (by omega)).trans (takeSize_of_fits hfit)), get_copyTree_zero _ _ _⟩

/-- Settles O45: beyond the tree the branch faults; inside it, it arrives at the byte of a node or of a leaf. -/
theorem streamBitBranches : Obligations.StreamBitBranches := by
  intro s bit
  dsimp only
  rw [← Work.branchSlot_eq, ← childIsLeaf_eq]
  refine ⟨fun hout => ?_, fun hin hnode => ?_, fun hin hleaf => ?_⟩
  · exact settle_faulted (branchOn_of_outside hout)
  · exact (execSwBit_of_node hin hnode).trans (exec_decodeNode _ _)
  · obtain ⟨o, hexec, hread⟩ := leafByteOutput s.atPair (s.work.slot (s.work.branchSlot bit))
    exact ⟨o, (execSwBit_of_leaf hin hleaf).trans hexec, hread⟩

/-- Settles O46: the early end, or the branch on the bit fetched, which finds the walk and the tree as they were. -/
theorem stepConsumesStreamBit : Obligations.StepConsumesStreamBit := by
  refine fun s => ⟨fun h => ?_, fun h => ?_⟩
  · show execDecStep s = _
    rw [execDecStep_of_ended h, State.endOfStream, h.1]
    rfl
  · have hstep : exec .decStep s = exec (.swBit s.fetched.work.streamBit) s.fetched := execDecStep_of_not_ended h
    have hbranch := streamBitBranches s.fetched s.fetched.work.streamBit
    rw [hstep]
    simp only [Work.streamBit_iff] at hbranch ⊢
    obtain ⟨codew, dmask4, rpos, hf⟩ := s.fetched_same
    rw [hf] at hbranch ⊢
    obtain ⟨hout, hnode, hleaf⟩ := hbranch
    exact ⟨fun h => (hout h).imp fun _ ⟨he, hfault⟩ => ⟨he, { hfault with }⟩, hnode, hleaf⟩

/-- Settles O47: `OUT` keeps its bytes below OUT_LEN. -/
theorem decodeDone : Obligations.DecodeDone := fun s =>
  ⟨s.finish (BitVec.ofNat 32 s.work.dlen), rfl, rfl, rfl, rfl, rfl, rfl, ⟨rfl, rfl, rfl, rfl, rfl⟩, rfl, rfl, rfl,
    fun a ha => (Table.get_splice 0 _ _ _ a).trans (if_pos ha)⟩

/-! ## What the phases write (45_dec R211) -/

section Writes

variable {s u : State}

theorem readHeader_ok (h : readHeader s = .ok u) : takeHeader s (cwLen (memRead4 s.inBuf 0)) (cwNbits (memRead4 s.inBuf 0)) = .ok u := by
  rcases Nat.lt_or_ge s.inLen.toNat 4 with hl | hl
  · rw [readHeader_of_short hl] at h; cases h
  · rwa [readHeader_of_length hl] at h

theorem readTree_ok (h : readTree s = .ok u) : takeSize s (memRead1 s.inBuf 4) = .ok u := by
  rcases Nat.lt_or_ge s.inLen.toNat 5 with hl | hl
  · rw [readTree_of_short hl] at h; cases h
  · rwa [readTree_of_length hl] at h

/-- `u` holds what `s` holds at every address of `OUT` at or beyond its DLEN. -/
abbrev OutKeptFromLength (s u : State) : Prop := ∀ a, u.work.dlen ≤ a → memRead1 u.outBuf a = memRead1 s.outBuf a

theorem readHeader_outKept (h : readHeader s = .ok u) : OutKeptFromLength s u := by
  obtain ⟨-, -, rfl⟩ := takeHeader_ok (readHeader_ok h)
  exact fun a ha => (Table.get_clearBelow 0 _ _ a).trans (if_neg (Nat.not_lt.mpr ha))

theorem readTree_outKept (h : readTree s = .ok u) : OutKeptFromLength s u := by
  obtain ⟨-, rfl⟩ := takeSize_ok (readTree_ok h)
  exact fun _ _ => rfl

/-- OUTPUT writes at `WPOS`, which is below DLEN. -/
theorem branchOn_outKept {bit : Bool} (hw : s.wpos.toNat < s.work.dlen) (h : branchOn s bit = .ok u) : OutKeptFromLength s u := by
  obtain ⟨-, b, rfl | rfl⟩ := branchOn_ok h
  · exact fun a ha => (memRead1_memWrite1 _ _ _ a).trans (if_neg (Nat.ne_of_gt (hw.trans_le ha)))
  · exact fun _ _ => rfl

/-- A phase that ends with the block BUSY has not faulted. -/
theorem settle_outKept {t : State} {next : State → Phase} {r : Except Raise State} (hr : ∀ u, r = .ok u → OutKeptFromLength s u)
    (e : s.settle next r = .next t) (hb : t.mode = .busy) : OutKeptFromLength s t := by
  obtain ⟨u, hu, rfl⟩ | ⟨f, -, rfl⟩ := State.settle_next e
  · exact hr u hu
  · cases hb

end Writes

/-- Settles O50: by the phase. -/
theorem decodeWritesBelowLength : Obligations.DecodeWritesBelowLength := by
  intro s t h hb hp ht e hbusy
  rcases hp with hp | hp | hp
  · rw [step_of_phase ht hb (i := .decHdr) (by rw [hp]; rfl)] at e
    exact settle_outKept (fun _ => readHeader_outKept) e hbusy
  · rw [step_of_phase ht hb (i := .decTree) (by rw [hp]; rfl)] at e
    exact settle_outKept (fun _ => readTree_outKept) e hbusy
  · rw [step_of_phase ht hb (i := .decStep) (by rw [hp]; rfl)] at e
    replace e : execDecStep s = .next t := e
    by_cases hs : s.StreamEnded
    · rw [execDecStep_of_ended hs] at e
      cases e
      exact fun _ _ => rfl
    · rw [execDecStep_of_not_ended hs] at e
      have hkept := settle_outKept (fun _ => branchOn_outKept (fetched_decoding h hb hp hs).2.1) e hbusy
      obtain ⟨codew, dmask4, rpos, hf⟩ := s.fetched_same
      rwa [hf] at hkept

/-! ## The end of a DECODE (45_dec R207, R211) -/

/-- Without the host the block comes to DONE or FAULT within `n` steps. -/
def State.EndsWithin (s : State) (n : Nat) : Prop := ∃ t, core.run n s = .next t ∧ (t.mode = .done ∨ t.mode = .fault)

/-- A running DECODE that has consumed `k` bits of the stream that begins at byte address `a`, all of them from whole words of the input. -/
structure State.Streaming (s : State) (a k : Nat) : Prop where
  busy : s.mode = .busy
  turns : s.turns = []
  stream : s.StreamAt a k
  inside : a + 4 * wordsFor k ≤ s.inLen.toNat

section Ends

variable {s t : State} {a k n : Nat}

theorem State.EndsWithin.of_step (hs : step s = .next t) (h : t.EndsWithin n) : s.EndsWithin (n + 1) := by
  obtain ⟨u, hu, hend⟩ := h
  exact ⟨u, (run_succ hs n).trans hu, hend⟩

theorem State.EndsWithin.of_ended (ht : s.turns = []) (h : s.mode = .done ∨ s.mode = .fault) (n : Nat) : s.EndsWithin n :=
  ⟨s, run_of_not_busy ht (by rcases h with h | h <;> rw [h] <;> nofun) n, h⟩

/-- A step that faults ends the command. -/
theorem endsWithin_of_settle {next : State → Phase} {r : Except Raise State} (hs : step s = t.settle next r) (ht : t.turns = [])
    (hr : ∀ u, r = .ok u → ({ u with phase := next u } : State).EndsWithin n) : s.EndsWithin (n + 1) := by
  cases r with
  | ok u => exact .of_step hs (hr u rfl)
  | error f => exact .of_step hs (.of_ended (s := t.takeFault f) ht (.inr rfl) n)

theorem endsWithin_of_decDone (hb : s.mode = .busy) (ht : s.turns = []) (hp : s.phase = Phase.decDone) (n : Nat) : s.EndsWithin (n + 1) :=
  .of_step (step_of_phase (i := .decDone) ht hb (by rw [hp]; rfl)) (.of_ended (s := s.finish _) ht (.inl rfl) n)

/-- A bit fetched lies in a whole word of the input. -/
theorem State.Streaming.fetched (h : s.Streaming a k) (hs : ¬ s.StreamEnded) : s.fetched.Streaming a (k + 1) := by
  have hstream := h.stream.fetched
  have hin : a + 4 * wordsFor (k + 1) ≤ s.inLen.toNat := by
    have hle := h.inside
    unfold wordsFor at hle ⊢
    by_cases hz : k % 32 = 0
    · have hmask : s.work.dmask4 >>> 1 = 0 := h.stream.mask.trans (if_pos hz)
      have hword : s.work.rpos + 4 ≤ s.inLen.toNat := Nat.le_of_not_lt fun hl => hs ⟨hmask, hl⟩
      rw [h.stream.rpos, wordsFor] at hword
      omega
    · omega
  rw [h.stream.fetched_eq] at hstream ⊢
  exact ⟨h.busy, h.turns, hstream, hin⟩

/-- The branch leaves the stream registers alone. -/
theorem State.Streaming.branched (h : s.Streaming a k) {bit : Bool} (e : branchOn s bit = .ok t) :
    ({ t with phase := t.decodeNext } : State).Streaming a k := by
  obtain ⟨-, b, rfl | rfl⟩ := branchOn_ok e
  · exact { h with stream := { h.stream with } }
  · exact { h with stream := { h.stream with } }

/-- The next phase is DEC.STEP or DEC.DONE (45_dec R207). -/
theorem decodeNext_cases (s : State) : s.decodeNext = Phase.decStep ∨ s.decodeNext = Phase.decDone := by
  unfold State.decodeNext
  split
  · exact .inl rfl
  · exact .inr rfl

/-- Each DEC.STEP but the last consumes one of the at most `8 * IN_LEN` bits of the stream. -/
theorem State.Streaming.ends : ∀ {n k : Nat} {s : State}, s.Streaming a k → s.phase = Phase.decStep ∨ s.phase = Phase.decDone →
    8 * s.inLen.toNat + 2 ≤ n + k → s.EndsWithin n
  | 0, k, s, h, _, hn | 1, k, s, h, _, hn => by
    have := h.inside
    unfold wordsFor at this
    omega
  | n + 2, k, s, h, hp, hn => by
    rcases hp with hp | hp
    · have hstep := step_of_phase (i := .decStep) h.turns h.busy (by rw [hp]; rfl)
      by_cases hs : s.StreamEnded
      · exact .of_step (hstep.trans (execDecStep_of_ended hs)) (endsWithin_of_decDone (s := s.endOfStream) h.busy h.turns rfl n)
      · have hf := h.fetched hs
        refine endsWithin_of_settle (hstep.trans (execDecStep_of_not_ended hs)) hf.turns fun u hu => ?_
        have hlen : u.inLen = s.inLen := (HostSideKept.of_branchOn hu).inLen.trans s.fetched_inLen
        refine (hf.branched hu).ends (decodeNext_cases u) ?_
        show 8 * u.inLen.toNat + 2 ≤ _
        rw [hlen]
        omega
    · exact endsWithin_of_decDone h.busy h.turns hp (n + 1)

/-- The header read leaves the command running, with the mask of the stream exhausted (45_dec R201). -/
theorem readHeader_starts (h : readHeader s = .ok t) : t.mode = s.mode ∧ t.work.dmask4 = 0 := by
  obtain ⟨-, -, rfl⟩ := takeHeader_ok (readHeader_ok h)
  exact ⟨rfl, rfl⟩

/-- The tree read leaves the stream at its first bit (45_dec R202). -/
theorem readTree_streaming (hb : s.mode = .busy) (ht : s.turns = []) (hm : s.work.dmask4 = 0) (h : readTree s = .ok t) :
    ({ t with phase := t.decodeNext } : State).Streaming (4 + treeLen (memRead1 s.inBuf 4).toNat) 0 := by
  obtain ⟨hlen, rfl⟩ := takeSize_ok (readTree_ok h)
  refine ⟨hb, ht, ⟨rfl, ?_, fun h => absurd rfl h⟩, hlen⟩
  show s.work.dmask4 >>> 1 = 0
  rw [hm]
  rfl

end Ends

/-- Settles O48: a step for the header, one for the tree, then the stream. -/
theorem decodeTerminates : Obligations.DecodeTerminates := by
  intro s hb hp ht
  refine endsWithin_of_settle (s := s) (step_of_phase (i := .decHdr) ht hb (by rw [hp]; rfl)) ht fun u hu => ?_
  have hkept := HostSideKept.of_readHeader hu
  obtain ⟨hmode, hmask⟩ := readHeader_starts hu
  replace hb := hmode.trans hb
  replace ht := hkept.turns.trans ht
  refine endsWithin_of_settle (t := { u with phase := Phase.decTree }) (step_of_phase (i := .decTree) ht hb rfl) ht fun v hv => ?_
  have hlen : v.inLen = s.inLen := (HostSideKept.of_readTree hv).inLen.trans hkept.inLen
  refine (readTree_streaming (s := { u with phase := Phase.decTree }) hb ht hmask hv).ends (decodeNext_cases v) ?_
  exact (congrArg (8 * ·.toNat + 2) hlen).le

end Sys2Proof.Machine

/-! PROOFS. No operation reads `IN` at or beyond IN_LEN (20_memory R57, R59, 45_dec R211). `State.setIn` exchanges the contents of `IN`; every operation commutes
with it as long as the bytes below IN_LEN stay. -/

namespace Sys2Proof.Machine

/-! ## The contents of `IN` exchanged -/

/-- The block with `m` in the buffer `IN`. -/
def State.setIn (s : State) (m : Table Byte) : State := { s with inBuf := m }

/-- `m` holds what `IN` holds at every address below IN_LEN. -/
abbrev State.InputKept (s : State) (m : Table Byte) : Prop := ∀ a < s.inLen.toNat, memRead1 m a = memRead1 s.inBuf a

section SetIn

variable {s t : State} {m : Table Byte}

@[simp] theorem State.setIn_inLen : (s.setIn m).inLen = s.inLen := rfl
@[simp] theorem State.setIn_inBuf : (s.setIn m).inBuf = m := rfl
@[simp] theorem State.setIn_params : (s.setIn m).params = s.params := rfl
@[simp] theorem State.setIn_work : (s.setIn m).work = s.work := rfl

/-- A word below IN_LEN is read alike. -/
theorem State.InputKept.word (h : s.InputKept m) {a : Nat} (ha : a + 4 ≤ s.inLen.toNat) :
    memRead4 m a = memRead4 s.inBuf a :=
  memRead4_congr fun k _ => h (a + k) (by omega)

/-! ## The end of a phase -/

/-- A phase commutes with the exchange when its own effect does; a fault taken does not look at `IN` (60_exceptions R262). -/
theorem settle_setIn {next : State → Phase} (hnext : ∀ u, next (u.setIn m) = next u) {r r' : Except Raise State}
    (hr : r' = r.map (·.setIn m)) (e : s.settle next r = .next t) : (s.setIn m).settle next r' = .next (t.setIn m) := by
  subst hr
  cases r with
  | ok u =>
    cases e
    exact congrArg (fun p => Host.Outcome.next { u.setIn m with phase := p }) (hnext u)
  | error f => cases e; rfl

theorem settle_onWork_setIn (p : Phase) (r : Except Raise Work) (e : s.settle (fun _ => p) (s.onWork r) = .next t) :
    (s.setIn m).settle (fun _ => p) ((s.setIn m).onWork r) = .next (t.setIn m) :=
  settle_setIn (fun _ => rfl) (by cases r <;> rfl) e

theorem settle_onOut_setIn (p : Phase) (r : Except Raise (Work × Table Byte)) (e : s.settle (fun _ => p) (s.onOut r) = .next t) :
    (s.setIn m).settle (fun _ => p) ((s.setIn m).onOut r) = .next (t.setIn m) :=
  settle_setIn (fun _ => rfl) (by cases r <;> rfl) e

/-! ## The host commands -/

theorem acceptEncode_setIn : acceptEncode (s.setIn m) = (acceptEncode s).setIn m := by
  unfold acceptEncode
  rw [State.setIn_params, State.setIn_inLen]
  split
  · rfl
  · split
    · rfl
    · rfl

theorem acceptDecode_setIn : acceptDecode (s.setIn m) = (acceptDecode s).setIn m := by
  unfold acceptDecode
  rw [State.setIn_params, State.setIn_inLen]
  split
  · rfl
  · rfl

/-- A command is ignored, or accepted with the effect `u`. -/
theorem accepted_setIn {c : Bool} {u u' : State} (h : u' = u.setIn m) :
    (if c then u' else s.setIn m) = (if c then u else s).setIn m := by
  cases c with
  | true => exact h
  | false => rfl

/-! ## ENCODE: the bytes counted and the bytes emitted -/

theorem countFrom_congr {P : Params} {m m' : Table Byte} : ∀ (n i : Nat) (f : Table Nat),
    (∀ a < i + n, memRead1 m' a = memRead1 m a) → countFrom P m' n i f = countFrom P m n i f
  | 0, _, _, _ => rfl
  | n + 1, i, f, h => by
    simp only [countFrom, h i (by omega)]
    split
    · rfl
    · exact countFrom_congr n (i + 1) _ fun a ha => h a (by omega)

theorem countInput_congr {P : Params} {m m' : Table Byte} {n : Nat} (w : Work) (h : ∀ a < n, memRead1 m' a = memRead1 m a) :
    countInput P m' n w = countInput P m n w := by
  rw [countInput, countFrom_congr n 0 w.freq (by rwa [Nat.zero_add])]
  rfl

theorem nextPosition_epos {P : Params} {x y : Work × Table Byte} (h : nextPosition P x = .ok y) : y.1.epos = x.1.epos := by
  unfold nextPosition at h
  split at h
  · obtain ⟨-, rfl⟩ := append_ok.mp h; rfl
  · cases h; rfl

theorem Work.nextCodeBit_epos (w : Work) : w.nextCodeBit.epos = w.epos := by
  unfold Work.nextCodeBit
  split <;> rfl

theorem emitBit_epos {P : Params} {c : Code} {x y : Work × Table Byte} (h : emitBit P c x = .ok y) : y.1.epos = x.1.epos := by
  unfold emitBit at h
  split at h
  · cases h
  · next z hz => cases h; exact (Work.nextCodeBit_epos _).trans (nextPosition_epos hz)

theorem emitBits_epos {P : Params} {c : Code} : ∀ {n : Nat} {x y : Work × Table Byte}, emitBits P c n x = .ok y → y.1.epos = x.1.epos
  | 0, _, _, h => by cases h; rfl
  | n + 1, x, y, h => by
    rw [emitBits_succ] at h
    obtain ⟨z, hz, hy⟩ := except_bind_ok.mp h
    exact (emitBits_epos hy).trans (emitBit_epos hz)

/-- An input byte emitted is the one at `EPOS`, which then moves to the next (44_enc_codes_emit R184). -/
theorem emitByte_epos {P : Params} {m : Table Byte} {x y : Work × Table Byte} (h : emitByte P m x = .ok y) :
    y.1.epos = x.1.epos + 1 := by
  unfold emitByte at h
  simp only at h
  split at h
  · split at h
    · cases h
    · next z hz =>
      have hpos := emitBits_epos hz
      cases h
      exact congrArg (· + 1) hpos
  · cases h

theorem emitBytes_congr {P : Params} {m m' : Table Byte} : ∀ (n : Nat) (x : Work × Table Byte),
    (∀ a < x.1.epos + n, memRead1 m' a = memRead1 m a) → emitBytes P m' n x = emitBytes P m n x
  | 0, _, _ => rfl
  | n + 1, x, h => by
    have hbyte : emitByte P m' x = emitByte P m x := by simp only [emitByte, h x.1.epos (by omega)]
    rw [emitBytes_succ, emitBytes_succ, hbyte]
    cases hy : emitByte P m x with
    | error e => rfl
    | ok y =>
      have hpos := emitByte_epos hy
      exact emitBytes_congr n y fun a ha => h a (by omega)

theorem emitStream_congr {P : Params} {m m' : Table Byte} {n : Nat} (x : Work × Table Byte) (h : ∀ a < n, memRead1 m' a = memRead1 m a) :
    emitStream P m' n x = emitStream P m n x := emitBytes_congr n _ fun a ha => h a (by rwa [Nat.zero_add] at ha)

/-! ## DECODE -/

theorem takeHeader_setIn (len : BitVec 24) (nbits : BitVec 4) :
    takeHeader (s.setIn m) len nbits = (takeHeader s len nbits).map (·.setIn m) := by
  unfold takeHeader
  rw [State.setIn_params]
  split
  · rfl
  · split
    · rfl
    · rfl

theorem readHeader_setIn (h : s.InputKept m) : readHeader (s.setIn m) = (readHeader s).map (·.setIn m) := by
  unfold readHeader
  rw [State.setIn_inLen, State.setIn_inBuf]
  split
  · rfl
  · next hlen =>
    rw [h.word (by omega)]
    exact takeHeader_setIn _ _

theorem copyTree_congr {m m' : Table Byte} : ∀ (n i : Nat) (t : Table Byte), (∀ a < 4 + i + n, memRead1 m' a = memRead1 m a) →
    copyTree m' n i t = copyTree m n i t
  | 0, _, _, _ => rfl
  | n + 1, i, t, h => by
    rw [copyTree, copyTree, h (4 + i) (by omega)]
    exact copyTree_congr n (i + 1) _ fun a ha => h a (by omega)

theorem takeSize_setIn (h : s.InputKept m) (b : Byte) : takeSize (s.setIn m) b = (takeSize s b).map (·.setIn m) := by
  unfold takeSize
  simp only
  rw [State.setIn_inLen, State.setIn_inBuf, State.setIn_work]
  split
  · rfl
  · next hlen =>
    rw [copyTree_congr (m := s.inBuf) _ 0 _ fun a ha => h a (by omega)]
    rfl

theorem readTree_setIn (h : s.InputKept m) : readTree (s.setIn m) = (readTree s).map (·.setIn m) := by
  unfold readTree
  rw [State.setIn_inLen, State.setIn_inBuf]
  split
  · rfl
  · next hlen =>
    rw [h 4 (by omega)]
    exact takeSize_setIn h _

theorem branchOn_setIn (bit : Bool) : branchOn (s.setIn m) bit = (branchOn s bit).map (·.setIn m) := by
  unfold branchOn
  simp only
  rw [State.setIn_work]
  split
  · rfl
  · cases childIsLeaf s.work.pos bit <;> rfl

/-- A stream word is fetched only when it lies below IN_LEN whole (45_dec R204). -/
theorem fetched_setIn (h : s.InputKept m) (hs : ¬ s.StreamEnded) : (s.setIn m).fetched = s.fetched.setIn m := by
  unfold State.fetched
  rw [State.setIn_inBuf, State.setIn_work]
  split
  · next hm =>
    rw [h.word (Nat.le_of_not_lt fun hl => hs ⟨hm, hl⟩)]
    rfl
  · rfl

theorem execDecStep_setIn (h : s.InputKept m) (e : execDecStep s = .next t) : execDecStep (s.setIn m) = .next (t.setIn m) := by
  by_cases hs : s.StreamEnded
  · rw [execDecStep_of_ended hs] at e
    cases e
    exact execDecStep_of_ended (s := s.setIn m) hs
  · rw [execDecStep_of_not_ended hs] at e
    rw [execDecStep_of_not_ended (s := s.setIn m) hs, fetched_setIn h hs]
    exact settle_setIn (fun _ => rfl) (branchOn_setIn _) e

end SetIn

/-- Settles O57: by the operation. ENC.COUNT and ENC.EMIT read the IN_LEN bytes from 0 on, the decoder checks each read of the header, the tree and the stream
against IN_LEN, and the other operations do not look at `IN`. -/
theorem inputBeyondLengthUnread : Obligations.InputBeyondLengthUnread := by
  intro i s t m h e
  replace h : s.InputKept m := h
  show exec i (s.setIn m) = .next (t.setIn m)
  cases i with
  | cmdEncode => cases e; exact congrArg Host.Outcome.next (accepted_setIn acceptEncode_setIn)
  | cmdDecode => cases e; exact congrArg Host.Outcome.next (accepted_setIn acceptDecode_setIn)
  | cmdClear => cases e; exact congrArg Host.Outcome.next (accepted_setIn rfl)
  | cmdNop | encDone | decDone | tbNode | tbLeaf => cases e; rfl
  | encInit => exact settle_onWork_setIn Phase.encCount (.ok (initTables s.work)) e
  | encPatch => exact settle_onWork_setIn Phase.encLeaves (.ok (patchFreq s.work)) e
  | encLeaves => exact settle_onWork_setIn Phase.encMerge (.ok (makeLeaves s.work)) e
  | encAlloc => exact settle_onWork_setIn Phase.encPack (.ok (allocTree s.work)) e
  | encMerge | encPack | encUpdate | encFinal | encDerive => exact settle_onWork_setIn _ _ e
  | encHdr | encTreeout => exact settle_onOut_setIn _ _ e
  | encCount =>
    have hread := congrArg (s.setIn m).onWork (countInput_congr (P := s.params) s.work h)
    exact (congrArg ((s.setIn m).settle fun _ => Phase.encPatch) hread).trans (settle_onWork_setIn _ _ e)
  | encEmit =>
    have hread := congrArg (s.setIn m).onOut (emitStream_congr (P := s.params) (s.work, s.outBuf) h)
    exact (congrArg ((s.setIn m).settle fun _ => Phase.encDone) hread).trans (settle_onOut_setIn _ _ e)
  | decHdr => exact settle_setIn (fun _ => rfl) (readHeader_setIn h) e
  | decTree => exact settle_setIn (fun _ => rfl) (readTree_setIn h) e
  | decStep => exact execDecStep_setIn h e
  | cw => exact settle_setIn (fun _ => rfl) (takeHeader_setIn _ _) e
  | tbSize => exact settle_setIn (fun _ => rfl) (takeSize_setIn h _) e
  | swBit => exact settle_setIn (fun _ => rfl) (branchOn_setIn _) e

end Sys2Proof.Machine

/-! PROOFS. The records of the container layer: what `detect` recognises, the layout that `compress` writes, and the transforms done twice
(47_host_container R230 to R239). -/

namespace Sys2Proof.Machine

/-! ## Reading a number -/

/-- `u32le` undoes `le32` (47_host_container R243). -/
theorem u32le_of_drop {bytes rest : List Byte} {a : Nat} {v : Word} (h : bytes.drop a = le32 v ++ rest) : u32le bytes a = .ok v :=
  u32le_ok.2 ⟨_, _, _, _, rest, h, (wordOf_byteOf v).symm⟩

theorem length_of_u32le {bytes : List Byte} {a : Nat} {v : Word} (h : u32le bytes a = .ok v) : a + 4 ≤ bytes.length := by
  obtain ⟨b0, b1, b2, b3, rest, hdrop, -⟩ := u32le_ok.1 h
  have hlen := congrArg List.length hdrop
  simp only [List.length_drop, List.length_cons] at hlen
  omega

/-- A number that lies whole in front of an appended part is read without it. -/
theorem u32le_append {front back : List Byte} {a : Nat} (h : a + 4 ≤ front.length) : u32le (front ++ back) a = u32le front a := by
  have hfour : 4 ≤ (front.drop a).length := by rw [List.length_drop]; omega
  unfold u32le
  rw [List.drop_append_of_le_length (by omega)]
  match front.drop a, hfour with
  | _ :: _ :: _ :: _ :: _, _ => rfl

/-! ## What `detect` recognises -/

@[simp] theorem magicKind_magicComp (H : HostParams) : magicKind H (.ok H.magicComp) = some true := if_pos rfl

theorem u32le_of_magicKind {H : HostParams} {m : Except HostError Word} {c : Bool} (h : magicKind H m = some c) : ∃ v, m = .ok v := by
  cases m with
  | error _ => cases h
  | ok v => exact ⟨v, rfl⟩

/-- A recognised record has a magic number behind its header, and a chapter record none at offset 0 (47_host_container R235). -/
theorem detect_eq_ok_iff {H : HostParams} {bytes : List Byte} {r : Record} : detect H bytes = .ok r ↔
    r.bytes = bytes ∧ magicKind H (u32le bytes r.headerSize) = some r.isCompressed ∧
      (r.isChapter = true → magicKind H (u32le bytes 0) = none) := by
  obtain ⟨rbytes, compressed, chapter⟩ := r
  unfold detect
  cases h0 : magicKind H (u32le bytes 0) with
  | some c => cases chapter <;> simp [Record.headerSize, h0, eq_comm]
  | none =>
    cases hc : magicKind H (u32le bytes chapterHeader) with
    | some c => cases chapter <;> simp [Record.headerSize, h0, hc, eq_comm]
    | none => cases chapter <;> simp [Record.headerSize, h0, hc]

/-- A recognised record holds its header whole, and its magic number behind it. -/
theorem headerSize_of_detect {H : HostParams} {bytes : List Byte} {r : Record} (h : detect H bytes = .ok r) :
    r.headerSize + 4 ≤ r.bytes.length := by
  obtain ⟨rfl, hmagic, -⟩ := detect_eq_ok_iff.1 h
  obtain ⟨v, hv⟩ := u32le_of_magicKind hmagic
  exact length_of_u32le hv

theorem length_header {r : Record} (h : r.headerSize ≤ r.bytes.length) : r.header.length = r.headerSize :=
  List.length_take_of_le h

/-! ## The layout that `compress` writes -/

section Layout

variable (H : HostParams) (header body payload : List Byte) (c : Word)

theorem compressedBytes_eq : compressedBytes H header body c payload =
    header ++ (le32 H.magicComp ++ (le32 formatVersion ++ (le32 (BitVec.ofNat 32 body.length) ++ (le32 c ++ payload)))) := by
  simp only [compressedBytes, List.append_assoc]

theorem take_compressedBytes : (compressedBytes H header body c payload).take header.length = header := by
  rw [compressedBytes_eq, List.take_left]

/-- What stands `k` bytes behind the header. -/
theorem drop_compressedBytes (k : Nat) : (compressedBytes H header body c payload).drop (header.length + k) =
    (le32 H.magicComp ++ (le32 formatVersion ++ (le32 (BitVec.ofNat 32 body.length) ++ (le32 c ++ payload)))).drop k := by
  rw [compressedBytes_eq, List.drop_length_add_append]

theorem u32le_compressedBytes_magic : u32le (compressedBytes H header body c payload) header.length = .ok H.magicComp :=
  u32le_of_drop (drop_compressedBytes H header body payload c 0)

theorem u32le_compressedBytes_version : u32le (compressedBytes H header body c payload) (header.length + 4) = .ok formatVersion :=
  u32le_of_drop (drop_compressedBytes H header body payload c 4)

theorem u32le_compressedBytes_length :
    u32le (compressedBytes H header body c payload) (header.length + 8) = .ok (BitVec.ofNat 32 body.length) :=
  u32le_of_drop (drop_compressedBytes H header body payload c 8)

theorem u32le_compressedBytes_checksum : u32le (compressedBytes H header body c payload) (header.length + 12) = .ok c :=
  u32le_of_drop (drop_compressedBytes H header body payload c 12)

theorem drop_compressedBytes_preamble : (compressedBytes H header body c payload).drop (header.length + preambleSize) = payload :=
  drop_compressedBytes H header body payload c preambleSize

end Layout

theorem recordChecksum_ok {H : HostParams} {header body : List Byte} {c : Word} (h : recordChecksum H header body = .ok c) :
    ∃ c0, H.checksum 0 header = some c0 ∧ H.checksum c0 body = some c := by
  unfold recordChecksum at h
  split at h
  · cases h
  · next c0 h0 =>
    split at h
    · cases h
    · next hc => cases h; exact ⟨c0, h0, hc⟩

/-- With a recognised record's header in front of it, what `compress` writes is recognised as compressed and of the same kind: a chapter record's first
four bytes lie in the header, which is kept (47_host_container R235, R236). -/
theorem detect_compressedBytes {H : HostParams} {bytes : List Byte} {r : Record} (h : detect H bytes = .ok r) (c : Word) (payload : List Byte) :
    detect H (compressedBytes H r.header r.body c payload) =
      .ok { bytes := compressedBytes H r.header r.body c payload, isCompressed := true, isChapter := r.isChapter } := by
  have hlen := length_header (Nat.le_of_add_right_le (headerSize_of_detect h))
  obtain ⟨rfl, -, hchapter⟩ := detect_eq_ok_iff.1 h
  refine detect_eq_ok_iff.2 ⟨rfl, ?_, fun hr => ?_⟩
  · show magicKind H (u32le _ r.headerSize) = _
    rw [← hlen, u32le_compressedBytes_magic, magicKind_magicComp]
  · have hfront : 0 + 4 ≤ r.header.length := by
      rw [hlen, Record.headerSize, hr]
      decide
    have hkept : u32le r.bytes 0 = u32le r.header 0 := by
      rw [← u32le_append (back := r.body) hfront, Record.header, Record.body, List.take_append_drop]
    rw [compressedBytes_eq, u32le_append hfront, ← hkept]
    exact hchapter hr

/-- Settles O59: the bytes are those of `compressedBytes` with the recognised record's header, which has its full length, in front. -/
theorem compressedRecordLayout : Obligations.CompressedRecordLayout := by
  intro H bytes r r' s t _ hdetect hraw hcompress
  obtain ⟨p, c, hdrive, hsum, rfl⟩ := compress_ok hraw hcompress
  have hlen := length_header (Nat.le_of_add_right_le (headerSize_of_detect hdetect))
  obtain ⟨c0, h0, hc⟩ := recordChecksum_ok hsum
  have hpayload : Record.payload ⟨compressedBytes H r.header r.body c p, true, r.isChapter⟩ = p := by
    show List.drop (r.headerSize + preambleSize) _ = p
    rw [← hlen, drop_compressedBytes_preamble]
  rw [hpayload, ← hlen]
  exact ⟨take_compressedBytes .., u32le_compressedBytes_magic .., u32le_compressedBytes_version .., u32le_compressedBytes_length ..,
    ⟨c0, c, h0, hc, u32le_compressedBytes_checksum ..⟩, hdrive, detect_compressedBytes hdetect c p, rfl, rfl⟩

/-! ## The transforms a second time -/

theorem compress_of_compressed {H : HostParams} {r : Record} {s : State} (h : r.isCompressed = true) : compress H r s = (.ok r, s) :=
  if_pos h

theorem decompress_of_raw {H : HostParams} {r : Record} {s : State} (h : r.isCompressed = false) : decompress H r s = (.ok r, s) :=
  if_pos h

theorem isCompressed_of_compress {H : HostParams} {r r' : Record} {s t : State} (h : compress H r s = (.ok r', t)) : r'.isCompressed = true := by
  cases hr : r.isCompressed with
  | true =>
    rw [compress_of_compressed hr] at h
    cases h
    exact hr
  | false =>
    obtain ⟨p, c, -, -, rfl⟩ := compress_ok hr h
    rfl

theorem isRaw_of_decompress {H : HostParams} {r r' : Record} {s t : State} (h : decompress H r s = (.ok r', t)) : r'.isCompressed = false := by
  cases hr : r.isCompressed with
  | true =>
    obtain ⟨-, x, -, rfl⟩ := decompress_ok hr h
    rfl
  | false =>
    rw [decompress_of_raw hr] at h
    cases h
    exact hr

/-- Settles O60: each transform leaves a record of its own result's form alone, and makes such a record. -/
theorem transformsIdempotent : Obligations.TransformsIdempotent := fun _ _ _ =>
  ⟨compress_of_compressed, decompress_of_raw, fun _ _ _ =>
    ⟨fun h => ⟨isCompressed_of_compress h, compress_of_compressed (isCompressed_of_compress h)⟩,
      fun h => ⟨isRaw_of_decompress h, decompress_of_raw (isRaw_of_decompress h)⟩⟩⟩

end Sys2Proof.Machine

/-! PROOFS. Which fault each operation can raise (60_exceptions R252), and that it ends there as R262 says. `EndsIn Q names x` says how a part of an operation ends:
in a result that meets `Q`, or in a fault of `names`. It passes from the parts to the whole, so each operation's row of R252 is the faults of its parts. -/

namespace Sys2Proof.Machine

/-! ## How a computation ends -/

/-- `x` ends in a result that meets `Q`, or raises a fault of `names`. -/
def EndsIn {α : Type} (Q : α → Prop) (names : List FaultName) : Except Raise α → Prop
  | .ok a => Q a
  | .error e => e.name ∈ names

/-- Every fault of `x` is one of `names`. -/
abbrev FaultsIn {α : Type} (names : List FaultName) (x : Except Raise α) : Prop := EndsIn (fun _ => True) names x

namespace EndsIn

variable {α β : Type} {Q : α → Prop} {R : β → Prop} {names : List FaultName} {x : Except Raise α}

theorem bind {f : α → Except Raise β} (h : EndsIn Q names x) (hf : ∀ a, Q a → EndsIn R names (f a)) : EndsIn R names (x >>= f) := by
  cases x with
  | ok a => exact hf a h
  | error e => exact h

theorem ok (h : EndsIn Q names x) {a : α} (hx : x = .ok a) : Q a := by subst hx; exact h

theorem error (h : EndsIn Q names x) {e : Raise} (hx : x = .error e) : e.name ∈ names := by subst hx; exact h

theorem mono {Q' : α → Prop} {names' : List FaultName} (h : EndsIn Q names x) (hQ : ∀ a, Q a → Q' a) (hn : names ⊆ names') :
    EndsIn Q' names' x := by
  cases x with
  | ok a => exact hQ a h
  | error e => exact hn h

end EndsIn

theorem UpdateFaults.faultsIn {α : Type} {n : Nat} {x : Except Raise α} (h : UpdateFaults n x) :
    FaultsIn [.codeTreeIOOB, .codeMaskIOOB, .treeUnresolved] x := by
  cases x with
  | ok a => trivial
  | error e => exact (h e rfl).1

/-! ## The faults of ENC.COUNT, ENC.MERGE and ENC.DERIVE (41_enc_freq R121, 42_enc_tree R131, 44_enc_codes_emit R180) -/

theorem countFrom_faults (P : Params) (m : Table Byte) : ∀ (n i : Nat) (f : Table Nat), FaultsIn [.freqOverflow] (countFrom P m n i f)
  | 0, _, _ => trivial
  | n + 1, i, f => by
    rw [countFrom]
    split
    · exact List.mem_singleton_self _
    · exact countFrom_faults P m n (i + 1) _

theorem countInput_faults (P : Params) (m : Table Byte) (n : Nat) (w : Work) : FaultsIn [.freqOverflow] (countInput P m n w) := by
  have h := countFrom_faults P m n 0 w.freq
  unfold countInput
  cases hc : countFrom P m n 0 w.freq with
  | ok f => trivial
  | error e => rw [hc] at h; exact h

theorem mergeOnce_faults (w : Work) : FaultsIn [.nodeNotFound] (mergeOnce w) := by
  unfold mergeOnce
  split
  · exact List.mem_singleton_self _
  · split
    · exact List.mem_singleton_self _
    · trivial

theorem mergeTimes_succ (n : Nat) (w : Work) : mergeTimes (n + 1) w = mergeOnce w >>= mergeTimes n := by
  rw [mergeTimes]
  cases mergeOnce w <;> rfl

theorem mergeTimes_faults : ∀ (n : Nat) (w : Work), FaultsIn [.nodeNotFound] (mergeTimes n w)
  | 0, _ => trivial
  | n + 1, w => by
    rw [mergeTimes_succ]
    exact (mergeOnce_faults w).bind fun u _ => mergeTimes_faults n u

theorem deriveLeaf_faults (w : Work) (i : Nat) : FaultsIn [.codeWorkNotFound] (deriveLeaf w i) := by
  unfold deriveLeaf
  dsimp only
  split
  · exact List.mem_singleton_self _
  · trivial

theorem deriveFrom_faults : ∀ (n i : Nat) (w : Work), FaultsIn [.codeWorkNotFound] (deriveFrom n i w)
  | 0, _, _ => trivial
  | n + 1, i, w => by
    rw [deriveFrom_succ]
    exact (deriveLeaf_faults w i).bind fun u _ => deriveFrom_faults n (i + 1) u

/-! ## The faults of ENC.FINAL (43_enc_ctree R160) -/

theorem UpdateFaults.of_finalSlot (w : Work) (i : Nat) : UpdateFaults w.ctLen (finalSlot w i) :=
  (of_maskRead w _).bind fun _ => of_ite (ok _ _) ((of_treeRead w _).bind fun _ => of_ite (error (by decide) _ _) (of_treeWrite w _ _))

theorem UpdateFaults.of_finalFrom : ∀ (n i : Nat) (w : Work), UpdateFaults w.ctLen (finalFrom n i w)
  | 0, _, _ => ok _ _
  | n + 1, i, w => (of_finalSlot w i).step finalSlot_step fun u => of_finalFrom n (i + 1) u

/-! ## The faults of the output phases (44_enc_codes_emit R182 to R184) -/

theorem append_endsIn (P : Params) (n : Nat) (v : Word) (x : Work × Table Byte) :
    EndsIn (fun y => y.1.ctLen = x.1.ctLen) [.outOverflow] (append P n v x) := by
  unfold append
  split
  · exact List.mem_singleton_self _
  · rfl

/-- ENC.TREEOUT reads below CT_LEN, so its reads do not fault. -/
theorem emitSlots_faults (P : Params) : ∀ {n i : Nat} {x : Work × Table Byte}, i + n ≤ x.1.ctLen → FaultsIn [.outOverflow] (emitSlots P n i x)
  | 0, _, _, _ => trivial
  | n + 1, i, x, h => by
    rw [emitSlots_succ (by omega)]
    exact (append_endsIn P 1 _ x).bind fun y hy => emitSlots_faults P (by omega)

theorem nextPosition_faults (P : Params) (x : Work × Table Byte) : FaultsIn [.outOverflow] (nextPosition P x) := by
  unfold nextPosition
  split
  · exact (append_endsIn P 4 _ _).mono (fun _ _ => trivial) (List.Subset.refl _)
  · trivial

theorem emitBit_faults (P : Params) (c : Code) (x : Work × Table Byte) : FaultsIn [.outOverflow] (emitBit P c x) := by
  have h := nextPosition_faults P x
  unfold emitBit
  cases hn : nextPosition P x with
  | ok y => trivial
  | error e => rw [hn] at h; exact h

theorem emitBits_faults (P : Params) (c : Code) : ∀ (n : Nat) (x : Work × Table Byte), FaultsIn [.outOverflow] (emitBits P c n x)
  | 0, _ => trivial
  | n + 1, x => by
    rw [emitBits_succ]
    exact (emitBit_faults P c x).bind fun y _ => emitBits_faults P c n y

theorem emitByte_faults (P : Params) (m : Table Byte) (x : Work × Table Byte) : FaultsIn [.codeNotFound, .outOverflow] (emitByte P m x) := by
  unfold emitByte
  dsimp only
  split
  · have h := emitBits_faults P (x.1.codeAt (memRead1 m x.1.epos)) (x.1.codeAt (memRead1 m x.1.epos)).nbits
      ({ x.1 with cwmask := 0x80, cwidx := 0 }, x.2)
    split
    · next e he =>
      rw [he] at h
      exact List.mem_cons_of_mem _ h
    · trivial
  · exact List.mem_cons_self

theorem emitBytes_faults (P : Params) (m : Table Byte) : ∀ (n : Nat) (x : Work × Table Byte),
    FaultsIn [.codeNotFound, .outOverflow] (emitBytes P m n x)
  | 0, _ => trivial
  | n + 1, x => by
    rw [emitBytes_succ]
    exact (emitByte_faults P m x).bind fun y _ => emitBytes_faults P m n y

/-! ## The faults of the decoder (45_dec R201, R202, R205) -/

theorem takeHeader_endsIn (s : State) (len : BitVec 24) (nbits : BitVec 4) :
    EndsIn (·.mode = s.mode) [.unsupportedWidth, .outOverflow] (takeHeader s len nbits) := by
  unfold takeHeader
  split
  · exact List.mem_cons_self
  · split
    · exact List.mem_cons_of_mem _ List.mem_cons_self
    · rfl

theorem readHeader_endsIn (s : State) : EndsIn (·.mode = s.mode) [.bytesToU32Error, .unsupportedWidth, .outOverflow] (readHeader s) := by
  rcases Nat.lt_or_ge s.inLen.toNat 4 with h | h
  · rw [readHeader_of_short h]
    exact List.mem_cons_self
  · rw [readHeader_of_length h]
    exact (takeHeader_endsIn s _ _).mono (fun _ => id) (List.subset_cons_self _ _)

theorem takeSize_endsIn (s : State) (b : Byte) : EndsIn (·.mode = s.mode) [.decompressDataIOOB] (takeSize s b) := by
  unfold takeSize
  dsimp only
  split
  · exact List.mem_singleton_self _
  · rfl

theorem readTree_endsIn (s : State) : EndsIn (·.mode = s.mode) [.decompressDataIOOB] (readTree s) := by
  rcases Nat.lt_or_ge s.inLen.toNat 5 with h | h
  · rw [readTree_of_short h]
    exact List.mem_singleton_self _
  · rw [readTree_of_length h]
    exact takeSize_endsIn s _

theorem branchOn_endsIn (s : State) (bit : Bool) : EndsIn (·.mode = s.mode) [.codeTreeIOOB] (branchOn s bit) := by
  cases hb : branchOn s bit with
  | ok u =>
    obtain ⟨-, b, rfl | rfl⟩ := branchOn_ok hb
    · rfl
    · rfl
  | error e =>
    rcases Nat.lt_or_ge (s.work.branchSlot bit) s.work.ctLen with hin | hout
    · rw [branchOn_of_inside hin] at hb
      cases hb
    · rw [branchOn_of_outside hout] at hb
      cases hb
      exact List.mem_singleton_self _

/-! ## The faults of ENC.PACK over a tree (43_enc_ctree R151 to R155) -/

/-- What ENC.PACK raises. Over a tree every value that it writes fits a byte, so `TreeUnresolved` is not among them. -/
def packFaults : List FaultName := [.codeTreeIOOB, .codeMaskIOOB, .workNotFound]

/-- `u` is `w` but for the bytes of the flat tree. -/
def Work.BytesOnly (w u : Work) : Prop := ∃ ct cm, u = { w with ctree := ct, cmask := cm }

/-- `u` has the arena of `v`, and the frames `st` on the stack of ENC.PACK. -/
def Work.AtFrames (v : Work) (st : List Frame) (u : Work) : Prop := u.ArenaOf v ∧ u.packStack = st

theorem treeWrite_endsIn (w : Work) (i : Int) {t : Int} (h0 : 0 ≤ t) (h255 : t ≤ 255) : EndsIn w.BytesOnly packFaults (treeWrite w i t) := by
  unfold treeWrite
  split
  · exact List.mem_cons_self
  · rw [if_neg (by omega)]
    exact ⟨_, w.cmask, rfl⟩

theorem maskWrite_endsIn (w : Work) (i : Int) (b : Byte) : EndsIn w.BytesOnly packFaults (maskWrite w i b) := by
  unfold maskWrite
  split
  · exact List.mem_cons_of_mem _ List.mem_cons_self
  · exact ⟨w.ctree, _, rfl⟩

theorem writeEntry_endsIn (w : Work) (i : Int) {t : Int} (h0 : 0 ≤ t) (h255 : t ≤ 255) (b : Byte) :
    EndsIn w.BytesOnly packFaults (treeWrite w i t >>= fun u => maskWrite u i b) := by
  refine (treeWrite_endsIn w i h0 h255).bind fun u hu => (maskWrite_endsIn u i b).mono (fun x hx => ?_) (List.Subset.refl _)
  obtain ⟨ct, cm, rfl⟩ := hu
  obtain ⟨ct', cm', rfl⟩ := hx
  exact ⟨ct', cm', rfl⟩

theorem length_sons_le (v : Work) (n : Nat) : (v.sons n).length ≤ 2 := by
  unfold Work.sons
  split
  · exact Nat.zero_le 2
  · exact le_rfl

section Tree

variable {v : Work} (h : v.IsTree)
include h

/-- The symbol of a leaf and an offset below 256 are bytes. -/
theorem writeNode_endsIn {w : Work} (hv : w.ArenaOf v) {n o : Nat} (x : Nat) (hn : n < v.nnode) (ho : o ≤ 255) :
    EndsIn w.BytesOnly packFaults (writeNode w n x o) := by
  obtain ⟨hnode, hleafs, -⟩ := node_congr hv.node n
  unfold writeNode
  split
  · next h1 =>
    have hsym := h.sym_lt hn (hleafs ▸ h1)
    rw [← hnode] at hsym
    exact writeEntry_endsIn w x (by omega) (by omega) leafSentinel
  · exact writeEntry_endsIn w x (by omega) (by omega) (w.leafFlags n)

/-- With `room` dequeues left, at most `128 - room` nodes wait, so an offset is below 128. -/
theorem bfsLoop_endsIn : ∀ (room p q : Nat) {ms : List Nat} {w : Work}, w.ArenaOf v → w.packQueue.drop w.packS = ms → (∀ m ∈ ms, m < v.nnode) →
    ms.length + room ≤ 128 → EndsIn (v.AtFrames w.packStack) packFaults (bfsLoop room p q w)
  | room, p, q, [], w, hv, hwait, _, _ => by
    rw [bfsLoop_of_empty hwait]
    exact ⟨hv, rfl⟩
  | 0, p, q, m :: ms, w, hv, hwait, hms, hlen => by
    rw [bfsLoop]
    split
    · exact List.mem_cons_of_mem _ (List.mem_cons_of_mem _ List.mem_cons_self)
    · exact ⟨hv, rfl⟩
  | room + 1, p, q, m :: ms, w, hv, hwait, hms, hlen => by
    obtain ⟨hm, hms⟩ := List.forall_mem_cons.mp hms
    have hsons := length_sons_le v m
    rw [List.length_cons] at hlen
    rw [bfsLoop_of_waiting hv hwait]
    refine (writeNode_endsIn h (w := { w with packS := w.packS + 1 }) ⟨hv.node, hv.ctLen⟩ _ hm (by omega)).bind fun u hu => ?_
    obtain ⟨ct, cm, rfl⟩ := hu
    exact bfsLoop_endsIn room p _ (ms := ms ++ v.sons m) ⟨hv.node, hv.ctLen⟩ (drop_append_of_drop_eq hwait)
      (fun k hk => (List.mem_append.mp hk).elim (hms k) (sons_lt h hm k)) (by rw [List.length_append]; omega)

theorem packBfs_endsIn {n : Nat} (p q : Nat) {w : Work} (hv : w.ArenaOf v) (hn : n < v.nnode) :
    EndsIn (v.AtFrames w.packStack) packFaults (packBfs n p q w) :=
  bfsLoop_endsIn h queueCap p q (ms := [n]) (w := { w with packQueue := [n], packS := 0 }) ⟨hv.node, hv.ctLen⟩ rfl
    (fun _ hk => List.mem_singleton.mp hk ▸ hn) (Nat.le_refl 128)

omit h in
/-- The two children of a split, when each call of PACK does its part; the offset written is one less than the leaves of the first. -/
theorem packChildren_endsIn {P : Params} {room a b : Nat} (pa pb q : Nat) {w : Work} {f : Frame} {st : List Frame}
    (ha : ∀ p q {w : Work}, w.ArenaOf v → EndsIn (v.AtFrames w.packStack) packFaults (pack P room a p q w))
    (hb : ∀ p q {w : Work}, w.ArenaOf v → EndsIn (v.AtFrames w.packStack) packFaults (pack P room b p q w))
    (hcount : 1 ≤ v.leafsOf a ∧ v.leafsOf a ≤ 256) (hw : v.AtFrames (f :: st) w) :
    EndsIn (v.AtFrames st) packFaults (packChildren P room a pa b pb q w) := by
  obtain ⟨hv, hst⟩ := hw
  refine (ha pa (q + 2) (w := w.setStage 1 0) ⟨hv.node, hv.ctLen⟩).bind fun u1 ⟨hv1, hst1⟩ => ?_
  have hst1 := setStage_stack (hst1.trans (setStage_stack hst 1 0)) 2 (u1.leafsOf a)
  refine (hb pb _ (w := u1.setStage 2 (u1.leafsOf a)) ⟨hv1.node, hv1.ctLen⟩).bind fun u2 ⟨hv2, hst2⟩ => ?_
  have hst2 := hst2.trans hst1
  have hfirst : u2.firstCount = v.leafsOf a := (firstCount_eq hst2).trans (node_congr hv1.node a).2.1
  refine (treeWrite_endsIn u2 pb (by omega) (by omega)).bind fun u3 hu3 => ?_
  obtain ⟨ct, cm, rfl⟩ := hu3
  exact ⟨⟨hv2.node, hv2.ctLen⟩, congrArg List.tail hst2⟩

theorem pack_endsIn (P : Params) : ∀ (room : Nat) {n : Nat} (p q : Nat) {w : Work}, w.ArenaOf v → n < v.nnode → v.leafsOf n ≤ 256 →
    EndsIn (v.AtFrames w.packStack) packFaults (pack P room n p q w)
  | 0, _, _, _, _, _, _, _ => List.mem_cons_of_mem _ (List.mem_cons_of_mem _ List.mem_cons_self)
  | room + 1, n, p, q, w, hv, hn, hmax => by
    have hv' : (w.pushFrame n p q).ArenaOf v := ⟨hv.node, hv.ctLen⟩
    obtain ⟨-, hleafs, hleft, hright, -⟩ := node_congr hv'.node n
    rw [pack_succ]
    dsimp only
    rw [hleafs, hleft, hright]
    split
    · exact (packBfs_endsIn h p q hv' hn).bind fun u ⟨hu, hst⟩ => ⟨⟨hu.node, hu.ctLen⟩, congrArg List.tail hst⟩
    · next hlarge =>
      obtain ⟨hl, hr, hsum⟩ := h.sons hn (by unfold hufNext at hlarge; omega)
      have hkl := h.leafsOf_pos hl
      have hkr := h.leafsOf_pos hr
      refine (treeWrite_endsIn _ p (by decide) (by decide)).bind fun u1 hu1 => (maskWrite_endsIn u1 p _).bind fun u2 hu2 => ?_
      obtain ⟨ct, cm, rfl⟩ := hu1
      obtain ⟨ct', cm', rfl⟩ := hu2
      have packLeft := fun p q {w : Work} hv => pack_endsIn P room (w := w) p q hv hl (by omega)
      have packRight := fun p q {w : Work} hv => pack_endsIn P room (w := w) p q hv hr (by omega)
      split
      · exact packChildren_endsIn q (q + 1) q packLeft packRight (by omega) ⟨⟨hv.node, hv.ctLen⟩, rfl⟩
      · exact packChildren_endsIn (q + 1) q q packRight packLeft (by omega) ⟨⟨hv.node, hv.ctLen⟩, rfl⟩

theorem packTree_faults (P : Params) : FaultsIn packFaults (packTree P v) := by
  obtain ⟨h2, hmax, hcount⟩ := h.count
  have hroot : 2 * v.nleaf - 2 = v.nnode - 1 := by omega
  have hleafs : v.leafsOf (2 * v.nleaf - 2) = v.nleaf := hroot ▸ h.root.2.1
  exact (pack_endsIn h P P.packStack 1 2 (w := { v with packStack := [] }) ⟨rfl, rfl⟩ (by omega) (hleafs.trans_le hmax)).mono
    (fun _ _ => trivial) (List.Subset.refl _)

end Tree

end Sys2Proof.Machine

/-! PROOFS. Every operation that ends in FAULT and did not begin there took a fault of its row of R252, as fault entry does it (60_exceptions R252, R262). -/

namespace Sys2Proof.Machine

/-- The faults that an operation raises (60_exceptions R252); those of ENC.PACK over a tree. -/
def faultNames : Instr → List FaultName
  | .cmdEncode | .cmdDecode => [.lengthOverflow]
  | .encCount => [.freqOverflow]
  | .encMerge => [.nodeNotFound]
  | .encPack => packFaults
  | .encUpdate | .encFinal => [.codeTreeIOOB, .codeMaskIOOB, .treeUnresolved]
  | .encDerive => [.codeWorkNotFound]
  | .encHdr | .encTreeout => [.outOverflow]
  | .encEmit => [.codeNotFound, .outOverflow]
  | .decHdr => [.bytesToU32Error, .unsupportedWidth, .outOverflow]
  | .cw _ _ _ => [.unsupportedWidth, .outOverflow]
  | .decTree | .tbSize _ => [.decompressDataIOOB]
  | .decStep | .swBit _ => [.codeTreeIOOB]
  | _ => []

/-- `t` is `s` after the entry of a fault, one of `names` when `C` holds. -/
def FaultTaken (C : Prop) (names : List FaultName) (s t : State) : Prop :=
  ∃ name index length, Faulted s t name index length ∧ (C → name ∈ names)

section Settle

variable {C : Prop} {names : List FaultName} {s t : State} {next : State → Phase} (hm : s.mode ≠ .fault) (ht : t.mode = .fault)
include hm ht

/-- A phase whose effect keeps STATE ends in FAULT by its fault entry alone. -/
theorem settle_faultTaken {r : Except Raise State} (e : s.settle next r = .next t) (hok : ∀ u, r = .ok u → u.mode = s.mode)
    (hr : ∀ f, r = .error f → C → f.name ∈ names) : FaultTaken C names s t := by
  obtain ⟨u, hu, rfl⟩ | ⟨f, hf, rfl⟩ := State.settle_next e
  · exact absurd ((hok u hu).symm.trans ht) hm
  · exact ⟨f.name, f.index, f.length, takeFault_faulted s _ _ _, hr f hf⟩

theorem settle_faultTaken_of_endsIn {r : Except Raise State} (hr : EndsIn (·.mode = s.mode) names r) (e : s.settle next r = .next t) :
    FaultTaken C names s t :=
  settle_faultTaken hm ht e (fun _ => hr.ok) fun _ hf _ => hr.error hf

theorem settle_onOut_faultTaken {r : Except Raise (Work × Table Byte)} (hr : C → FaultsIn names r) (e : s.settle next (s.onOut r) = .next t) :
    FaultTaken C names s t := by
  cases r with
  | ok x => exact settle_faultTaken hm ht e (fun u hu => by cases hu; rfl) nofun
  | error f => exact settle_faultTaken hm ht e nofun fun _ hf hc => by cases hf; exact hr hc

theorem settle_onWork_faultTaken {r : Except Raise Work} (hr : C → FaultsIn names r) (e : s.settle next (s.onWork r) = .next t) :
    FaultTaken C names s t := by
  rw [State.onWork_eq_onOut] at e
  refine settle_onOut_faultTaken hm ht (fun hc => ?_) e
  cases r with
  | ok w => trivial
  | error f => exact hr hc

/-- One stream bit: the early end leaves STATE; the branch faults with what the fetch keeps (45_dec R203 to R205). -/
theorem execDecStep_faultTaken (e : execDecStep s = .next t) : FaultTaken C [.codeTreeIOOB] s t := by
  by_cases hend : s.StreamEnded
  · rw [execDecStep_of_ended hend] at e
    cases e
    exact absurd ht hm
  · rw [execDecStep_of_not_ended hend] at e
    obtain ⟨_, _, _, hf⟩ := s.fetched_same
    have hm' : s.fetched.mode ≠ .fault := by rw [hf]; exact hm
    obtain ⟨name, index, length, hfault, hname⟩ := settle_faultTaken_of_endsIn (C := C) hm' ht (branchOn_endsIn _ _) e
    rw [hf] at hfault
    exact ⟨name, index, length, { hfault with }, hname⟩

end Settle

section Command

variable {C : Prop} {s t : State} (hm : s.mode ≠ .fault) (ht : t.mode = .fault)
include hm ht

/-- An ENCODE that ends in FAULT was accepted and found its input too long (40_host_commands R102). -/
theorem execCmdEncode_faultTaken (e : exec .cmdEncode s = .next t) : FaultTaken C [.lengthOverflow] { s with phase := Phase.encInit } t := by
  by_cases hrun : s.mode = .idle ∨ s.mode = .done
  · rw [exec_cmdEncode_of_accepted hrun] at e
    cases e
    rcases Nat.lt_or_ge s.params.inCap s.inLen.toNat with hc | hc
    · rw [acceptEncode_of_capacity hc]
      exact ⟨_, _, _, startCommand_takeFault_faulted s _ _ _ _, fun _ => List.mem_singleton_self _⟩
    · rcases Nat.lt_or_ge maxLen s.inLen.toNat with hl | hl
      · rw [acceptEncode_of_length hc hl]
        exact ⟨_, _, _, startCommand_takeFault_faulted s _ _ _ _, fun _ => List.mem_singleton_self _⟩
      · rw [acceptEncode_of_fits hc hl] at ht
        cases ht
  · rw [exec_cmdEncode_of_ignored hrun] at e
    cases e
    exact absurd ht hm

/-- A DECODE that ends in FAULT was accepted and found its input too long (40_host_commands R103). -/
theorem execCmdDecode_faultTaken (e : exec .cmdDecode s = .next t) : FaultTaken C [.lengthOverflow] { s with phase := Phase.decHdr } t := by
  by_cases hrun : s.mode = .idle ∨ s.mode = .done
  · rw [exec_cmdDecode_of_accepted hrun] at e
    cases e
    rcases Nat.lt_or_ge s.params.inCap s.inLen.toNat with hc | hc
    · rw [acceptDecode_of_capacity hc]
      exact ⟨_, _, _, startCommand_takeFault_faulted s _ _ _ _, fun _ => List.mem_singleton_self _⟩
    · rw [acceptDecode_of_fits hc] at ht
      cases ht
  · rw [exec_cmdDecode_of_ignored hrun] at e
    cases e
    exact absurd ht hm

end Command

/-- CLEAR never enters FAULT (40_host_commands R104). -/
theorem execCmdClear_not_fault {s t : State} (hm : s.mode ≠ .fault) (e : exec .cmdClear s = .next t) : t.mode ≠ .fault := by
  by_cases hb : s.mode = .busy
  · rw [exec_cmdClear_of_busy hb] at e
    cases e
    exact hm
  · rw [exec_cmdClear_of_accepted hb] at e
    cases e
    exact nofun

/-- PHASE during operation `i`: a command that is accepted writes its first phase before its checks (40_host_commands R102, R103). -/
abbrev withPhase (i : Instr) (s : State) : State :=
  { s with phase := if i = .cmdEncode then 1#5 else if i = .cmdDecode then 16#5 else s.phase }

/-- By the operation: one that cannot fault keeps STATE or ends in DONE; the others take a fault that their effect raises. -/
theorem exec_faultTaken {i : Instr} {s t : State} (hm : s.mode ≠ .fault) (e : exec i s = .next t) (ht : t.mode = .fault) :
    FaultTaken (i = .encPack → s.work.IsTree) (faultNames i) (withPhase i s) t := by
  cases i with
  | cmdNop | encInit | encPatch | encLeaves | encAlloc | tbNode | tbLeaf => cases e; exact absurd ht hm
  | encDone | decDone => cases e; cases ht
  | cmdClear => exact absurd ht (execCmdClear_not_fault hm e)
  | cmdEncode => exact execCmdEncode_faultTaken hm ht e
  | cmdDecode => exact execCmdDecode_faultTaken hm ht e
  | encCount => exact settle_onWork_faultTaken hm ht (fun _ => countInput_faults _ _ _ _) e
  | encMerge => exact settle_onWork_faultTaken hm ht (fun _ => mergeTimes_faults _ _) e
  | encPack => exact settle_onWork_faultTaken hm ht (fun htree => packTree_faults (htree rfl) _) e
  | encUpdate => exact settle_onWork_faultTaken hm ht (fun _ => (UpdateFaults.of_updateTree _ _).faultsIn) e
  | encFinal => exact settle_onWork_faultTaken hm ht (fun _ => (UpdateFaults.of_finalFrom _ _ _).faultsIn) e
  | encDerive => exact settle_onWork_faultTaken hm ht (fun _ => deriveFrom_faults _ _ _) e
  | encHdr =>
    exact settle_onOut_faultTaken hm ht (fun _ => (append_endsIn _ 4 _ _).mono (fun _ _ => trivial) (List.Subset.refl _)) e
  | encTreeout => exact settle_onOut_faultTaken hm ht (fun _ => emitSlots_faults _ (x := (s.work, s.outBuf)) (Nat.zero_add _).le) e
  | encEmit => exact settle_onOut_faultTaken hm ht (fun _ => emitBytes_faults _ _ _ _) e
  | decHdr => exact settle_faultTaken_of_endsIn hm ht (readHeader_endsIn s) e
  | decTree => exact settle_faultTaken_of_endsIn hm ht (readTree_endsIn s) e
  | decStep => exact execDecStep_faultTaken hm ht e
  | cw => exact settle_faultTaken_of_endsIn hm ht (takeHeader_endsIn s _ _) e
  | tbSize => exact settle_faultTaken_of_endsIn hm ht (takeSize_endsIn s _) e
  | swBit => exact settle_faultTaken_of_endsIn hm ht (branchOn_endsIn s _) e

/-- Settles O54: fault entry is the one update `State.takeFault`, after which the sequencer does not run; an operation ends in FAULT by it alone. -/
theorem faultEntryRecords : Obligations.FaultEntryRecords := by
  have stopped {t : State} (ht : t.mode = .fault) : Machine.sequence t = .next t := sequence_of_not_busy (by simp [ht])
  refine ⟨fun s r => ⟨takeFault_faulted s r.name r.index r.length, stopped rfl⟩, fun i s t hm e ht => ⟨?_, stopped ht⟩⟩
  obtain ⟨name, index, length, hfault, -⟩ := exec_faultTaken hm e ht
  exact ⟨name, index, length, hfault⟩

/-- The codes of an operation's faults. -/
def faultCodes (i : Instr) : List Byte := (faultNames i).map FaultName.code

/-- The phases that R252 lists with no fault. -/
theorem faultCodes_eq_nil : ∀ i ∈ [Instr.encInit, .encPatch, .encLeaves, .encAlloc, .encDone, .decDone], faultCodes i = [] := by decide

theorem exec_faultCode {i : Instr} {s t : State} (hm : s.mode ≠ .fault) (e : exec i s = .next t) (ht : t.mode = .fault)
    (htree : i = .encPack → s.work.IsTree) : t.errCode ∈ faultCodes i := by
  obtain ⟨name, index, length, hfault, hname⟩ := exec_faultTaken hm e ht
  exact hfault.errCode ▸ List.mem_map_of_mem (hname htree)

/-- Settles O58: the code recorded is one of the operation's row. -/
theorem faultsByPhase : Obligations.FaultsByPhase := by
  intro i s t hm e ht htree
  have hcode := exec_faultCode hm e ht htree
  have code_mem {codes : List Byte} (h : faultCodes i ⊆ codes) : t.errCode ∈ codes := h hcode
  have code_eq {code : Byte} (h : faultCodes i = [code]) : t.errCode = code := List.mem_singleton.mp (h ▸ hcode)
  have no_code (h : faultCodes i = []) : False := List.not_mem_nil (h ▸ hcode)
  refine ⟨by rintro (rfl | rfl) <;> exact code_eq rfl, by rintro rfl; exact code_eq rfl, by rintro rfl; exact code_eq rfl,
    by rintro rfl; exact code_mem (by decide), by rintro rfl; exact code_mem (by decide), by rintro rfl; exact code_mem (by decide),
    by rintro rfl; exact code_eq rfl, by rintro (rfl | rfl) <;> exact code_eq rfl, by rintro rfl; exact code_mem (by decide),
    by rintro rfl; exact code_mem (by decide), by rintro rfl; exact code_eq rfl, by rintro rfl; exact code_eq rfl,
    fun hf => ?_, fun hf => ?_, fun hf => ?_, fun hf => ?_, fun hf => ?_, fun hi => no_code (faultCodes_eq_nil i hi)⟩
  · cases i with
    | cw => exact hcode
    | _ => cases hf
  · cases i with
    | tbSize => exact code_eq rfl
    | _ => cases hf
  · cases i with
    | swBit => exact code_eq rfl
    | _ => cases hf
  · cases i with
    | tbNode => exact no_code rfl
    | _ => cases hf
  · cases i with
    | tbLeaf => exact no_code rfl
    | _ => cases hf

end Sys2Proof.Machine

/-! PROOFS. The reset input (70_reset_and_hazards R280): every register the host can read is 0 after it, whatever the block was doing. -/

namespace Sys2Proof.Machine

theorem statusWord_idle : statusWord .idle false Phase.none = 0 := rfl

/-- After the reset input every register reads 0: of the eight only STATUS is put together from several fields. -/
theorem Reg.value_resetInput (r : Reg) (s : State) : r.value s.resetInput = 0 := by
  cases r with
  | status => exact statusWord_idle
  | cmd | errCode | errIndex | errLen | inLen | outLen | wpos => rfl

theorem step_reset {s : State} {rest : List Turn} (ht : s.turns = .host .reset :: rest) :
    step s = .next { s with turns := rest }.resetInput := step_of_host ht

/-- Settles O13: the step is the reset input and nothing more. -/
theorem resetClearsRegisters : Obligations.ResetClearsRegisters := by
  intro s rest ht
  exact ⟨_, step_reset ht, State.resetInput_mode _, State.resetInput_eos _, State.resetInput_phase _, State.resetInput_errCode _,
    State.resetInput_errIndex _, State.resetInput_errLen _, State.resetInput_inLen _, State.resetInput_outLen _, State.resetInput_wpos _,
    fun r => r.value_resetInput _, State.resetInput_params _, State.resetInput_turns _, State.resetInput_rdData _⟩

end Sys2Proof.Machine
